-- ==== Sys2Proof/Word.lean ====
section
/-! DEFINITION. The word types of the machine (spec 00_scope R5, R6): the ARM7TDMI computes on 32-bit words, fetches
words and halfwords, and its bus moves bytes, halfwords and words. -/

namespace Sys2Proof

/-- XLEN = ALEN = 32 (R5): register contents, addresses, ARM instruction words. -/
abbrev Word := BitVec 32
/-- A Thumb instruction or a halfword of data. -/
abbrev Half := BitVec 16
abbrev Byte := BitVec 8

end Sys2Proof
end

