-- ==== Sys2Proof/Config.lean ====
section
/-! DEFINITION. The free values of the model: constants with no body, so that nothing can be proved about the value of
one, and a statement about a result that depends on one holds for every value (spec 00_scope R11, 92_eei_decisions D7,
D8, D17, D18, D19, D26, D27). -/

namespace Sys2Proof

/-- `draw()` (R11): the n-th fresh unconstrained value of a run. State.draws counts them. Log entry 5. -/
opaque Config.draw : Nat → Word

/-- What a byte that nothing has written reads as, by its physical address: a RAM byte after power-on (R66, R700), or a
byte of BIOS_IMAGE or ROM_IMAGE that the state does not list (R5). One value per address, because such reads are
idempotent (R94). Log entry 4. -/
opaque Config.unwrittenByte : Nat → Byte

/-- What a ROM byte at an offset of ROM_SIZE or more reads as, by its offset (R80, D26). Log entry 6. -/
opaque Config.romResidue : Nat → Byte

end Sys2Proof
end

