-- ==== Sys2Proof/Syntax.lean ====
section
/-! DEFINITION. The instructions: one constructor of `Instr` for each of the 122 rows of spec/opcode_table.json, with the
fields of 30_encoding R115 to R127 pulled out of the word. ARM constructors begin with `arm` and carry their condition
(R113); Thumb constructors begin with `thumb`. Should-be-zero and should-be-one fields (R132) are kept as fields, so
that every word decodes to exactly one instruction and the check is made where R200 to R484 make it: when the
instruction executes (log entry 22). -/

namespace Sys2Proof

/-- A register number R0 to R15. -/
abbrev RegNo := BitVec 4
/-- A three-bit register field of a Thumb instruction: R0 to R7. -/
abbrev LowReg := BitVec 3

/-- The sixteen conditions of R112, in the order of their encodings. -/
inductive Cond where
  | eq | ne | cs | cc | mi | pl | vs | vc | hi | ls | ge | lt | gt | le | al | nv
deriving DecidableEq, Repr

/-- The shift types of R117, in the order of their encodings. -/
inductive ShiftType where
  | lsl | lsr | asr | ror
deriving DecidableEq, Repr

/-- operand2 of a data-processing instruction: R116 (I = 1) and the two register forms of R117. -/
inductive Operand2 where
  | imm (rotate : BitVec 4) (imm8 : Byte)
  | immShift (amount : BitVec 5) (type : ShiftType) (rm : RegNo)
  | regShift (rs : RegNo) (type : ShiftType) (rm : RegNo)
deriving DecidableEq, Repr

/-- The offset of a word or unsigned-byte transfer (R121). -/
inductive Offset12 where
  | imm (value : BitVec 12)
  | reg (amount : BitVec 5) (type : ShiftType) (rm : RegNo)
deriving DecidableEq, Repr

/-- The offset of a halfword or signed transfer (R122); the register form keeps its should-be-zero bits 11:8. -/
inductive Offset8 where
  | imm (value : Byte)
  | reg (sbz : BitVec 4) (rm : RegNo)
deriving DecidableEq, Repr

/-- P and W of a word or byte transfer that is not a T form (R121): P = 1 W = 0, P = 1 W = 1, P = 0 W = 0. -/
inductive Index where
  | offset | preIndexed | postIndexed
deriving DecidableEq, Repr

/-- The instruction set. `s` is the S bit, `up` the U bit, `p`, `u`, `w` the P, U and W bits. -/
inductive Instr where
  -- ARM data processing, R204 to R219
  | armAnd (c : Cond) (s : Bool) (rn rd : RegNo) (op2 : Operand2)
  | armEor (c : Cond) (s : Bool) (rn rd : RegNo) (op2 : Operand2)
  | armSub (c : Cond) (s : Bool) (rn rd : RegNo) (op2 : Operand2)
  | armRsb (c : Cond) (s : Bool) (rn rd : RegNo) (op2 : Operand2)
  | armAdd (c : Cond) (s : Bool) (rn rd : RegNo) (op2 : Operand2)
  | armAdc (c : Cond) (s : Bool) (rn rd : RegNo) (op2 : Operand2)
  | armSbc (c : Cond) (s : Bool) (rn rd : RegNo) (op2 : Operand2)
  | armRsc (c : Cond) (s : Bool) (rn rd : RegNo) (op2 : Operand2)
  | armTst (c : Cond) (rn : RegNo) (sbz : BitVec 4) (op2 : Operand2)
  | armTeq (c : Cond) (rn : RegNo) (sbz : BitVec 4) (op2 : Operand2)
  | armCmp (c : Cond) (rn : RegNo) (sbz : BitVec 4) (op2 : Operand2)
  | armCmn (c : Cond) (rn : RegNo) (sbz : BitVec 4) (op2 : Operand2)
  | armOrr (c : Cond) (s : Bool) (rn rd : RegNo) (op2 : Operand2)
  | armMov (c : Cond) (s : Bool) (sbz : BitVec 4) (rd : RegNo) (op2 : Operand2)
  | armBic (c : Cond) (s : Bool) (rn rd : RegNo) (op2 : Operand2)
  | armMvn (c : Cond) (s : Bool) (sbz : BitVec 4) (rd : RegNo) (op2 : Operand2)
  -- ARM status-register transfer, R240 to R242 (`spsr` is the R bit, `mask` the field mask c x s f from bit 0)
  | armMrs (c : Cond) (spsr : Bool) (sbo : BitVec 4) (rd : RegNo) (sbzHi sbzLo : BitVec 4)
  | armMsrReg (c : Cond) (spsr : Bool) (mask sbo sbz : BitVec 4) (rm : RegNo)
  | armMsrImm (c : Cond) (spsr : Bool) (mask sbo rotate : BitVec 4) (imm8 : Byte)
  -- ARM multiply, R244 to R249
  | armMul (c : Cond) (s : Bool) (rd : RegNo) (sbz : BitVec 4) (rs rm : RegNo)
  | armMla (c : Cond) (s : Bool) (rd rn rs rm : RegNo)
  | armUmull (c : Cond) (s : Bool) (rdHi rdLo rs rm : RegNo)
  | armUmlal (c : Cond) (s : Bool) (rdHi rdLo rs rm : RegNo)
  | armSmull (c : Cond) (s : Bool) (rdHi rdLo rs rm : RegNo)
  | armSmlal (c : Cond) (s : Bool) (rdHi rdLo rs rm : RegNo)
  -- ARM swap, R250, R251
  | armSwp (c : Cond) (rn rd : RegNo) (sbz : BitVec 4) (rm : RegNo)
  | armSwpb (c : Cond) (rn rd : RegNo) (sbz : BitVec 4) (rm : RegNo)
  -- ARM word and unsigned-byte transfers, R271 to R278
  | armLdr (c : Cond) (ix : Index) (up : Bool) (rn rd : RegNo) (off : Offset12)
  | armLdrb (c : Cond) (ix : Index) (up : Bool) (rn rd : RegNo) (off : Offset12)
  | armStr (c : Cond) (ix : Index) (up : Bool) (rn rd : RegNo) (off : Offset12)
  | armStrb (c : Cond) (ix : Index) (up : Bool) (rn rd : RegNo) (off : Offset12)
  | armLdrt (c : Cond) (up : Bool) (rn rd : RegNo) (off : Offset12)
  | armLdrbt (c : Cond) (up : Bool) (rn rd : RegNo) (off : Offset12)
  | armStrt (c : Cond) (up : Bool) (rn rd : RegNo) (off : Offset12)
  | armStrbt (c : Cond) (up : Bool) (rn rd : RegNo) (off : Offset12)
  -- ARM halfword and signed transfers, R280 to R283
  | armStrh (c : Cond) (p up w : Bool) (rn rd : RegNo) (off : Offset8)
  | armLdrh (c : Cond) (p up w : Bool) (rn rd : RegNo) (off : Offset8)
  | armLdrsb (c : Cond) (p up w : Bool) (rn rd : RegNo) (off : Offset8)
  | armLdrsh (c : Cond) (p up w : Bool) (rn rd : RegNo) (off : Offset8)
  -- ARM block transfers, R285 to R289 (bit k of the list is Rk; two of them fix bit 15)
  | armLdm (c : Cond) (p up w : Bool) (rn : RegNo) (list : BitVec 16)
  | armStm (c : Cond) (p up w : Bool) (rn : RegNo) (list : BitVec 16)
  | armLdmUser (c : Cond) (p up w : Bool) (rn : RegNo) (list : BitVec 15)
  | armStmUser (c : Cond) (p up w : Bool) (rn : RegNo) (list : BitVec 16)
  | armLdmExc (c : Cond) (p up w : Bool) (rn : RegNo) (list : BitVec 15)
  -- ARM branches and software interrupt, R310 to R313
  | armB (c : Cond) (offset : BitVec 24)
  | armBl (c : Cond) (offset : BitVec 24)
  | armBx (c : Cond) (sbo : BitVec 12) (rm : RegNo)
  | armSwi (c : Cond) (comment : BitVec 24)
  -- ARM coprocessor instructions, R314 to R318
  | armCdp (c : Cond) (op1 crn crd cp : BitVec 4) (op2 : BitVec 3) (crm : BitVec 4)
  | armLdc (c : Cond) (p up n w : Bool) (rn : RegNo) (crd cp : BitVec 4) (offset : Byte)
  | armStc (c : Cond) (p up n w : Bool) (rn : RegNo) (crd cp : BitVec 4) (offset : Byte)
  | armMcr (c : Cond) (op1 : BitVec 3) (crn : BitVec 4) (rd : RegNo) (cp : BitVec 4) (op2 : BitVec 3) (crm : BitVec 4)
  | armMrc (c : Cond) (op1 : BitVec 3) (crn : BitVec 4) (rd : RegNo) (cp : BitVec 4) (op2 : BitVec 3) (crm : BitVec 4)
  -- ARM undefined and unallocated encodings, R319, R320: the bits the encoding leaves free
  | armUndArch (c : Cond) (hi : BitVec 20) (lo : BitVec 4)
  | armUndMul (c : Cond) (op : BitVec 5) (mid : BitVec 12) (lo : BitVec 4)
  | armUndSignedStore (c : Cond) (op : BitVec 4) (mid : BitVec 12) (h : Bool) (lo : BitVec 4)
  | armUndMisc (c : Cond) (op : BitVec 2) (mid : BitVec 12) (lo : Byte)
  | armUndMsrImm (c : Cond) (r : Bool) (rest : BitVec 20)
  -- Thumb formats 1 to 3, R401 to R411
  | thumbLslImm (amount : BitVec 5) (rs rd : LowReg)
  | thumbLsrImm (amount : BitVec 5) (rs rd : LowReg)
  | thumbAsrImm (amount : BitVec 5) (rs rd : LowReg)
  | thumbAddReg (rn rs rd : LowReg)
  | thumbSubReg (rn rs rd : LowReg)
  | thumbAddImm3 (imm3 : BitVec 3) (rs rd : LowReg)
  | thumbSubImm3 (imm3 : BitVec 3) (rs rd : LowReg)
  | thumbMovImm (rd : LowReg) (imm8 : Byte)
  | thumbCmpImm (rd : LowReg) (imm8 : Byte)
  | thumbAddImm8 (rd : LowReg) (imm8 : Byte)
  | thumbSubImm8 (rd : LowReg) (imm8 : Byte)
  -- Thumb format 4, R412 to R427
  | thumbAnd (rs rd : LowReg)
  | thumbEor (rs rd : LowReg)
  | thumbLslReg (rs rd : LowReg)
  | thumbLsrReg (rs rd : LowReg)
  | thumbAsrReg (rs rd : LowReg)
  | thumbAdc (rs rd : LowReg)
  | thumbSbc (rs rd : LowReg)
  | thumbRorReg (rs rd : LowReg)
  | thumbTst (rs rd : LowReg)
  | thumbNeg (rs rd : LowReg)
  | thumbCmpReg (rs rd : LowReg)
  | thumbCmn (rs rd : LowReg)
  | thumbOrr (rs rd : LowReg)
  | thumbMul (rs rd : LowReg)
  | thumbBic (rs rd : LowReg)
  | thumbMvn (rs rd : LowReg)
  -- Thumb format 5, R428 to R430, R484 (register numbers include H1 and H2)
  | thumbAddHi (hs hd : RegNo)
  | thumbCmpHi (hs hd : RegNo)
  | thumbMovHi (hs hd : RegNo)
  | thumbBx (h1 : Bool) (hs : RegNo) (sbz : BitVec 3)
  -- Thumb formats 6 to 11, R440 to R456
  | thumbLdrPc (rd : LowReg) (imm8 : Byte)
  | thumbStrReg (ro rb rd : LowReg)
  | thumbStrbReg (ro rb rd : LowReg)
  | thumbLdrReg (ro rb rd : LowReg)
  | thumbLdrbReg (ro rb rd : LowReg)
  | thumbStrhReg (ro rb rd : LowReg)
  | thumbLdsbReg (ro rb rd : LowReg)
  | thumbLdrhReg (ro rb rd : LowReg)
  | thumbLdshReg (ro rb rd : LowReg)
  | thumbStrImm (offset : BitVec 5) (rb rd : LowReg)
  | thumbLdrImm (offset : BitVec 5) (rb rd : LowReg)
  | thumbStrbImm (offset : BitVec 5) (rb rd : LowReg)
  | thumbLdrbImm (offset : BitVec 5) (rb rd : LowReg)
  | thumbStrhImm (offset : BitVec 5) (rb rd : LowReg)
  | thumbLdrhImm (offset : BitVec 5) (rb rd : LowReg)
  | thumbStrSp (rd : LowReg) (imm8 : Byte)
  | thumbLdrSp (rd : LowReg) (imm8 : Byte)
  -- Thumb formats 12 to 15, R431 to R434, R458 to R461
  | thumbAddPc (rd : LowReg) (imm8 : Byte)
  | thumbAddSp (rd : LowReg) (imm8 : Byte)
  | thumbIncSp (imm7 : BitVec 7)
  | thumbDecSp (imm7 : BitVec 7)
  | thumbPush (lr : Bool) (list : Byte)
  | thumbPop (pc : Bool) (list : Byte)
  | thumbStmia (rb : LowReg) (list : Byte)
  | thumbLdmia (rb : LowReg) (list : Byte)
  -- Thumb formats 16 to 19 and undefined encodings, R480 to R486
  | thumbSwi (comment : Byte)
  | thumbBcond (c : Cond) (offset : Byte)
  | thumbB (offset : BitVec 11)
  | thumbBlHigh (offset : BitVec 11)
  | thumbBlLow (offset : BitVec 11)
  | thumbUnd1011 (bits : BitVec 12)
  | thumbUndCond (bits : Byte)
  | thumbUnd11101 (bits : BitVec 11)
deriving DecidableEq, Repr

end Sys2Proof
end

