-- ==== Sys2Proof/WellFormed.lean ====
section
/-! DEFINITION. The well-formed instructions: those that some word encodes. Every field has exactly the width its
encoding gives it, so only four constructors need a check: the two unallocated ARM spaces that other instructions share,
the Thumb conditional branch, and the Thumb 1011 space. -/

namespace Sys2Proof

/-- `op` is bits 24:20 of a word with bits 27:25 = 000 and bits 7:4 = 1001. It is none of lines 1 to 3 of R114. -/
def undMulFree (op : BitVec 5) : Bool :=
  op.extractLsb' 2 3 != 0 && op.extractLsb' 3 2 != 1 && !(op.extractLsb' 3 2 == 2 && op.extractLsb' 0 2 == 0)

/-- `op` is bits 22:21 and `lo` bits 7:0 of a word with bits 27:23 = 00010 and bit 20 = 0. It is none of lines 1 to 10 of
R114: not bit 7 = bit 4 = 1, not BX, not MRS, not MSR. -/
def undMiscFree (op : BitVec 2) (lo : Byte) : Bool :=
  !(lo.getLsbD 7 && lo.getLsbD 4) && !(op == 1 && lo.extractLsb' 4 4 == 1) && lo.extractLsb' 4 4 != 0

/-- `bits` is bits 11:0 of a halfword with bits 15:12 = 1011. It is neither format 13 nor format 14 (R126). -/
def und1011Free (bits : BitVec 12) : Bool :=
  bits.extractLsb' 8 4 != 0 && bits.extractLsb' 9 2 != 2

/-- Some word encodes the instruction. -/
def Instr.wf : Instr → Bool
  | .armUndMul _ op _ _ => undMulFree op
  | .armUndMisc _ op _ lo => undMiscFree op lo
  | .thumbBcond c _ => c != .al && c != .nv
  | .thumbUnd1011 bits => und1011Free bits
  | _ => true

end Sys2Proof
end

