-- ==== Sys2Proof/Decode.lean ====
section
/-! DEFINITION. The decoder and the encoder (spec 30_encoding). Decoding follows the decode order of R114 (ARM) and R126
(Thumb), first matching line first, and is total: every word and every halfword is exactly one instruction (R111), so
only a byte string that is too short is rejected, by name. After it the encoder, written from the format tables R115 to
R127, and `decodeTableWord`. -/

namespace Sys2Proof

/-! ### Small fields -/

/-- The condition of a four-bit field (R112). -/
def Cond.ofBits (b : BitVec 4) : Cond :=
  match b.toNat with
  | 0 => .eq | 1 => .ne | 2 => .cs | 3 => .cc | 4 => .mi | 5 => .pl | 6 => .vs | 7 => .vc
  | 8 => .hi | 9 => .ls | 10 => .ge | 11 => .lt | 12 => .gt | 13 => .le | 14 => .al | _ => .nv

/-- The four-bit field of a condition (R112). -/
def Cond.bits : Cond → BitVec 4
  | .eq => 0 | .ne => 1 | .cs => 2 | .cc => 3 | .mi => 4 | .pl => 5 | .vs => 6 | .vc => 7
  | .hi => 8 | .ls => 9 | .ge => 10 | .lt => 11 | .gt => 12 | .le => 13 | .al => 14 | .nv => 15

/-- The shift type of bits 6:5 (R117). -/
def ShiftType.ofBits (b : BitVec 2) : ShiftType :=
  match b.toNat with
  | 0 => .lsl | 1 => .lsr | 2 => .asr | _ => .ror

/-- The two-bit field of a shift type (R117). -/
def ShiftType.bits : ShiftType → BitVec 2
  | .lsl => 0 | .lsr => 1 | .asr => 2 | .ror => 3

/-- One bit of an encoding. -/
abbrev bit (b : Bool) : BitVec 1 := BitVec.ofBool b

/-! ### Operand fields of a word -/

/-- operand2, bits 25 and 11:0 (R116, R117). -/
def operand2Of (w : Word) : Operand2 :=
  if w.getLsbD 25 then .imm (w.extractLsb' 8 4) (w.extractLsb' 0 8)
  else if w.getLsbD 4 then .regShift (w.extractLsb' 8 4) (ShiftType.ofBits (w.extractLsb' 5 2)) (w.extractLsb' 0 4)
  else .immShift (w.extractLsb' 7 5) (ShiftType.ofBits (w.extractLsb' 5 2)) (w.extractLsb' 0 4)

/-- The offset of a word or byte transfer, bits 25 and 11:0 (R121). -/
def offset12Of (w : Word) : Offset12 :=
  if w.getLsbD 25 then .reg (w.extractLsb' 7 5) (ShiftType.ofBits (w.extractLsb' 5 2)) (w.extractLsb' 0 4)
  else .imm (w.extractLsb' 0 12)

/-- The offset of a halfword or signed transfer, bits 22, 11:8 and 3:0 (R122). -/
def offset8Of (w : Word) : Offset8 :=
  if w.getLsbD 22 then .imm (w.extractLsb' 8 4 ++ w.extractLsb' 0 4)
  else .reg (w.extractLsb' 8 4) (w.extractLsb' 0 4)

/-! ### ARM, by the lines of R114 -/

/-- Line 1 (R119). -/
def decodeMul (c : Cond) (w : Word) : Instr :=
  if w.getLsbD 21 then
    .armMla c (w.getLsbD 20) (w.extractLsb' 16 4) (w.extractLsb' 12 4) (w.extractLsb' 8 4) (w.extractLsb' 0 4)
  else .armMul c (w.getLsbD 20) (w.extractLsb' 16 4) (w.extractLsb' 12 4) (w.extractLsb' 8 4) (w.extractLsb' 0 4)

/-- Line 2 (R119): bit 22 is U, bit 21 is A. -/
def decodeMulLong (c : Cond) (w : Word) : Instr :=
  let s := w.getLsbD 20
  let rdHi := w.extractLsb' 16 4
  let rdLo := w.extractLsb' 12 4
  let rs := w.extractLsb' 8 4
  let rm := w.extractLsb' 0 4
  if w.getLsbD 22 then
    if w.getLsbD 21 then .armSmlal c s rdHi rdLo rs rm else .armSmull c s rdHi rdLo rs rm
  else
    if w.getLsbD 21 then .armUmlal c s rdHi rdLo rs rm else .armUmull c s rdHi rdLo rs rm

/-- Line 3 (R120): bit 22 is B. -/
def decodeSwap (c : Cond) (w : Word) : Instr :=
  if w.getLsbD 22 then .armSwpb c (w.extractLsb' 16 4) (w.extractLsb' 12 4) (w.extractLsb' 8 4) (w.extractLsb' 0 4)
  else .armSwp c (w.extractLsb' 16 4) (w.extractLsb' 12 4) (w.extractLsb' 8 4) (w.extractLsb' 0 4)

/-- Line 5 (R122): bit 20 is L. -/
def decodeHalfword (c : Cond) (w : Word) : Instr :=
  let p := w.getLsbD 24
  let up := w.getLsbD 23
  let wb := w.getLsbD 21
  let rn := w.extractLsb' 16 4
  let rd := w.extractLsb' 12 4
  if w.getLsbD 20 then .armLdrh c p up wb rn rd (offset8Of w) else .armStrh c p up wb rn rd (offset8Of w)

/-- Line 6 (R122): bit 5 is H. -/
def decodeSigned (c : Cond) (w : Word) : Instr :=
  let p := w.getLsbD 24
  let up := w.getLsbD 23
  let wb := w.getLsbD 21
  let rn := w.extractLsb' 16 4
  let rd := w.extractLsb' 12 4
  if w.getLsbD 5 then .armLdrsh c p up wb rn rd (offset8Of w) else .armLdrsb c p up wb rn rd (offset8Of w)

/-- Lines 12 and 15 (R115): bits 24:21 are the opcode, bit 20 is S. -/
def decodeDataProc (c : Cond) (w : Word) : Instr :=
  let s := w.getLsbD 20
  let rn := w.extractLsb' 16 4
  let rd := w.extractLsb' 12 4
  let o := operand2Of w
  match (w.extractLsb' 21 4).toNat with
  | 0 => .armAnd c s rn rd o
  | 1 => .armEor c s rn rd o
  | 2 => .armSub c s rn rd o
  | 3 => .armRsb c s rn rd o
  | 4 => .armAdd c s rn rd o
  | 5 => .armAdc c s rn rd o
  | 6 => .armSbc c s rn rd o
  | 7 => .armRsc c s rn rd o
  | 8 => .armTst c rn rd o
  | 9 => .armTeq c rn rd o
  | 10 => .armCmp c rn rd o
  | 11 => .armCmn c rn rd o
  | 12 => .armOrr c s rn rd o
  | 13 => .armMov c s rn rd o
  | 14 => .armBic c s rn rd o
  | _ => .armMvn c s rn rd o

/-- Lines 16 and 17 (R121): bits 24, 22, 21, 20 are P, B, W, L; P = 0 with W = 1 selects a T form. -/
def decodeSingle (c : Cond) (w : Word) : Instr :=
  let up := w.getLsbD 23
  let rn := w.extractLsb' 16 4
  let rd := w.extractLsb' 12 4
  let o := offset12Of w
  if !w.getLsbD 24 && w.getLsbD 21 then
    if w.getLsbD 20 then
      if w.getLsbD 22 then .armLdrbt c up rn rd o else .armLdrt c up rn rd o
    else
      if w.getLsbD 22 then .armStrbt c up rn rd o else .armStrt c up rn rd o
  else
    let ix : Index := if w.getLsbD 24 then (if w.getLsbD 21 then .preIndexed else .offset) else .postIndexed
    if w.getLsbD 20 then
      if w.getLsbD 22 then .armLdrb c ix up rn rd o else .armLdr c ix up rn rd o
    else
      if w.getLsbD 22 then .armStrb c ix up rn rd o else .armStr c ix up rn rd o

/-- Line 19 (R123): bits 22 and 20 are S and L; bit 15 of the list tells the two S = 1 loads apart. -/
def decodeBlock (c : Cond) (w : Word) : Instr :=
  let p := w.getLsbD 24
  let up := w.getLsbD 23
  let wb := w.getLsbD 21
  let rn := w.extractLsb' 16 4
  if w.getLsbD 20 then
    if w.getLsbD 22 then
      if w.getLsbD 15 then .armLdmExc c p up wb rn (w.extractLsb' 0 15)
      else .armLdmUser c p up wb rn (w.extractLsb' 0 15)
    else .armLdm c p up wb rn (w.extractLsb' 0 16)
  else
    if w.getLsbD 22 then .armStmUser c p up wb rn (w.extractLsb' 0 16)
    else .armStm c p up wb rn (w.extractLsb' 0 16)

/-- Line 21 (R125): bit 20 is L. -/
def decodeCoprocTransfer (c : Cond) (w : Word) : Instr :=
  let p := w.getLsbD 24
  let up := w.getLsbD 23
  let n := w.getLsbD 22
  let wb := w.getLsbD 21
  let rn := w.extractLsb' 16 4
  let crd := w.extractLsb' 12 4
  let cp := w.extractLsb' 8 4
  if w.getLsbD 20 then .armLdc c p up n wb rn crd cp (w.extractLsb' 0 8)
  else .armStc c p up n wb rn crd cp (w.extractLsb' 0 8)

/-- Lines 22 and 23 (R125): bit 4 = 0 is CDP, else bit 20 is L. -/
def decodeCoproc (c : Cond) (w : Word) : Instr :=
  let crn := w.extractLsb' 16 4
  let rd := w.extractLsb' 12 4
  let cp := w.extractLsb' 8 4
  let op2 := w.extractLsb' 5 3
  let crm := w.extractLsb' 0 4
  if w.getLsbD 4 then
    if w.getLsbD 20 then .armMrc c (w.extractLsb' 21 3) crn rd cp op2 crm
    else .armMcr c (w.extractLsb' 21 3) crn rd cp op2 crm
  else .armCdp c (w.extractLsb' 20 4) crn rd cp op2 crm

/-- Bits 27:25 = 000: lines 1 to 12 of R114. -/
def decodeSpace0 (c : Cond) (w : Word) : Instr :=
  -- lines 1 to 4
  if w.extractLsb' 4 4 = 9 then
    if w.extractLsb' 22 3 = 0 then decodeMul c w
    else if w.extractLsb' 23 2 = 1 then decodeMulLong c w
    else if w.extractLsb' 23 2 = 2 ∧ w.extractLsb' 20 2 = 0 then decodeSwap c w
    else .armUndMul c (w.extractLsb' 20 5) (w.extractLsb' 8 12) (w.extractLsb' 0 4)
  -- lines 5 to 7
  else if w.getLsbD 7 && w.getLsbD 4 then
    if !w.getLsbD 6 then decodeHalfword c w
    else if w.getLsbD 20 then decodeSigned c w
    else .armUndSignedStore c (w.extractLsb' 21 4) (w.extractLsb' 8 12) (w.getLsbD 5) (w.extractLsb' 0 4)
  -- lines 8 to 11
  else if w.extractLsb' 23 2 = 2 ∧ w.getLsbD 20 = false then
    if w.extractLsb' 21 2 = 1 ∧ w.extractLsb' 4 4 = 1 then .armBx c (w.extractLsb' 8 12) (w.extractLsb' 0 4)
    else if w.extractLsb' 4 4 = 0 then
      if w.getLsbD 21 then
        .armMsrReg c (w.getLsbD 22) (w.extractLsb' 16 4) (w.extractLsb' 12 4) (w.extractLsb' 8 4) (w.extractLsb' 0 4)
      else
        .armMrs c (w.getLsbD 22) (w.extractLsb' 16 4) (w.extractLsb' 12 4) (w.extractLsb' 8 4) (w.extractLsb' 0 4)
    else .armUndMisc c (w.extractLsb' 21 2) (w.extractLsb' 8 12) (w.extractLsb' 0 8)
  -- line 12
  else decodeDataProc c w

/-- Bits 27:25 = 001: lines 13 to 15 of R114. -/
def decodeSpace1 (c : Cond) (w : Word) : Instr :=
  if w.extractLsb' 23 2 = 2 ∧ w.getLsbD 20 = false then
    if w.getLsbD 21 then
      .armMsrImm c (w.getLsbD 22) (w.extractLsb' 16 4) (w.extractLsb' 12 4) (w.extractLsb' 8 4) (w.extractLsb' 0 8)
    else .armUndMsrImm c (w.getLsbD 22) (w.extractLsb' 0 20)
  else decodeDataProc c w

/-- `Decode(word, 0)` (R111, R114). -/
def decodeArm (w : Word) : Instr :=
  let c := Cond.ofBits (w.extractLsb' 28 4)
  match (w.extractLsb' 25 3).toNat with
  | 0 => decodeSpace0 c w
  | 1 => decodeSpace1 c w
  | 2 => decodeSingle c w
  -- lines 17 and 18
  | 3 => if w.getLsbD 4 then .armUndArch c (w.extractLsb' 5 20) (w.extractLsb' 0 4) else decodeSingle c w
  | 4 => decodeBlock c w
  -- line 20 (R124)
  | 5 => if w.getLsbD 24 then .armBl c (w.extractLsb' 0 24) else .armB c (w.extractLsb' 0 24)
  | 6 => decodeCoprocTransfer c w
  -- lines 22 to 24
  | _ => if w.getLsbD 24 then .armSwi c (w.extractLsb' 0 24) else decodeCoproc c w

/-! ### Thumb, by the lines of R126 (fields R127) -/

/-- Format 4: bits 9:6 are the operation. -/
def decodeThumbAlu (h : Half) : Instr :=
  let rs := h.extractLsb' 3 3
  let rd := h.extractLsb' 0 3
  match (h.extractLsb' 6 4).toNat with
  | 0 => .thumbAnd rs rd
  | 1 => .thumbEor rs rd
  | 2 => .thumbLslReg rs rd
  | 3 => .thumbLsrReg rs rd
  | 4 => .thumbAsrReg rs rd
  | 5 => .thumbAdc rs rd
  | 6 => .thumbSbc rs rd
  | 7 => .thumbRorReg rs rd
  | 8 => .thumbTst rs rd
  | 9 => .thumbNeg rs rd
  | 10 => .thumbCmpReg rs rd
  | 11 => .thumbCmn rs rd
  | 12 => .thumbOrr rs rd
  | 13 => .thumbMul rs rd
  | 14 => .thumbBic rs rd
  | _ => .thumbMvn rs rd

/-- Format 5: bits 9:8 are the operation, bits 7 and 6 are H1 and H2. -/
def decodeThumbHi (h : Half) : Instr :=
  let hs : RegNo := h.extractLsb' 3 4
  let hd : RegNo := bit (h.getLsbD 7) ++ h.extractLsb' 0 3
  match (h.extractLsb' 8 2).toNat with
  | 0 => .thumbAddHi hs hd
  | 1 => .thumbCmpHi hs hd
  | 2 => .thumbMovHi hs hd
  | _ => .thumbBx (h.getLsbD 7) hs (h.extractLsb' 0 3)

/-- Lines 1 and 2: bits 15:13 = 000. -/
def decodeThumbShift (h : Half) : Instr :=
  let k := h.extractLsb' 6 5
  let n := h.extractLsb' 6 3
  let rs := h.extractLsb' 3 3
  let rd := h.extractLsb' 0 3
  match (h.extractLsb' 11 2).toNat with
  | 0 => .thumbLslImm k rs rd
  | 1 => .thumbLsrImm k rs rd
  | 2 => .thumbAsrImm k rs rd
  | _ =>
    match (h.extractLsb' 9 2).toNat with
    | 0 => .thumbAddReg n rs rd
    | 1 => .thumbSubReg n rs rd
    | 2 => .thumbAddImm3 n rs rd
    | _ => .thumbSubImm3 n rs rd

/-- Line 3, format 3: bits 12:11 are the operation. -/
def decodeThumbImm (h : Half) : Instr :=
  let rd := h.extractLsb' 8 3
  let imm := h.extractLsb' 0 8
  match (h.extractLsb' 11 2).toNat with
  | 0 => .thumbMovImm rd imm
  | 1 => .thumbCmpImm rd imm
  | 2 => .thumbAddImm8 rd imm
  | _ => .thumbSubImm8 rd imm

/-- Lines 7 and 8, formats 7 and 8: bits 11:9 are L B 0 or H S 1. -/
def decodeThumbRegOffset (h : Half) : Instr :=
  let ro := h.extractLsb' 6 3
  let rb := h.extractLsb' 3 3
  let rd := h.extractLsb' 0 3
  match (h.extractLsb' 9 3).toNat with
  | 0 => .thumbStrReg ro rb rd
  | 1 => .thumbStrhReg ro rb rd
  | 2 => .thumbStrbReg ro rb rd
  | 3 => .thumbLdsbReg ro rb rd
  | 4 => .thumbLdrReg ro rb rd
  | 5 => .thumbLdrhReg ro rb rd
  | 6 => .thumbLdrbReg ro rb rd
  | _ => .thumbLdshReg ro rb rd

/-- Line 9, format 9: bits 12:11 are B L. -/
def decodeThumbImmOffset (h : Half) : Instr :=
  let k := h.extractLsb' 6 5
  let rb := h.extractLsb' 3 3
  let rd := h.extractLsb' 0 3
  match (h.extractLsb' 11 2).toNat with
  | 0 => .thumbStrImm k rb rd
  | 1 => .thumbLdrImm k rb rd
  | 2 => .thumbStrbImm k rb rd
  | _ => .thumbLdrbImm k rb rd

/-- Lines 10 and 11, formats 10 and 11: bits 12:11. -/
def decodeThumbHalfSp (h : Half) : Instr :=
  match (h.extractLsb' 11 2).toNat with
  | 0 => .thumbStrhImm (h.extractLsb' 6 5) (h.extractLsb' 3 3) (h.extractLsb' 0 3)
  | 1 => .thumbLdrhImm (h.extractLsb' 6 5) (h.extractLsb' 3 3) (h.extractLsb' 0 3)
  | 2 => .thumbStrSp (h.extractLsb' 8 3) (h.extractLsb' 0 8)
  | _ => .thumbLdrSp (h.extractLsb' 8 3) (h.extractLsb' 0 8)

/-- Lines 12 to 15: bits 15:13 = 101; bit 12 = 0 is format 12. -/
def decodeThumbMisc (h : Half) : Instr :=
  if h.getLsbD 12 then
    if h.extractLsb' 8 4 = 0 then
      if h.getLsbD 7 then .thumbDecSp (h.extractLsb' 0 7) else .thumbIncSp (h.extractLsb' 0 7)
    else if h.extractLsb' 9 2 = 2 then
      if h.getLsbD 11 then .thumbPop (h.getLsbD 8) (h.extractLsb' 0 8)
      else .thumbPush (h.getLsbD 8) (h.extractLsb' 0 8)
    else .thumbUnd1011 (h.extractLsb' 0 12)
  else if h.getLsbD 11 then .thumbAddSp (h.extractLsb' 8 3) (h.extractLsb' 0 8)
  else .thumbAddPc (h.extractLsb' 8 3) (h.extractLsb' 0 8)

/-- Lines 16 to 19: bits 15:13 = 110. -/
def decodeThumbBlockCond (h : Half) : Instr :=
  if h.getLsbD 12 then
    if h.extractLsb' 8 4 = 15 then .thumbSwi (h.extractLsb' 0 8)
    else if h.extractLsb' 8 4 = 14 then .thumbUndCond (h.extractLsb' 0 8)
    else .thumbBcond (Cond.ofBits (h.extractLsb' 8 4)) (h.extractLsb' 0 8)
  else if h.getLsbD 11 then .thumbLdmia (h.extractLsb' 8 3) (h.extractLsb' 0 8)
  else .thumbStmia (h.extractLsb' 8 3) (h.extractLsb' 0 8)

/-- Lines 20 to 23: bits 15:13 = 111. -/
def decodeThumbBranch (h : Half) : Instr :=
  match (h.extractLsb' 11 2).toNat with
  | 0 => .thumbB (h.extractLsb' 0 11)
  | 1 => .thumbUnd11101 (h.extractLsb' 0 11)
  | 2 => .thumbBlHigh (h.extractLsb' 0 11)
  | _ => .thumbBlLow (h.extractLsb' 0 11)

/-- Bits 15:13 = 010: lines 4 to 8. -/
def decodeThumbSpace2 (h : Half) : Instr :=
  if h.getLsbD 12 then decodeThumbRegOffset h
  else if h.getLsbD 11 then .thumbLdrPc (h.extractLsb' 8 3) (h.extractLsb' 0 8)
  else if h.getLsbD 10 then decodeThumbHi h
  else decodeThumbAlu h

/-- `Decode(halfword, 1)` (R111, R126). -/
def decodeThumb (h : Half) : Instr :=
  match (h.extractLsb' 13 3).toNat with
  | 0 => decodeThumbShift h
  | 1 => decodeThumbImm h
  | 2 => decodeThumbSpace2 h
  | 3 => decodeThumbImmOffset h
  | 4 => decodeThumbHalfSp h
  | 5 => decodeThumbMisc h
  | 6 => decodeThumbBlockCond h
  | _ => decodeThumbBranch h

/-! ### Words and bytes -/

/-- What is fetched: an ARM word or a Thumb halfword (R110). -/
inductive Code where
  | arm (w : Word)
  | thumb (h : Half)
deriving DecidableEq, Repr

def decodeCode : Code → Instr
  | .arm w => decodeArm w
  | .thumb h => decodeThumb h

/-- The bytes of a code word, lowest address first (R64, R69). -/
def Code.bytes : Code → List Byte
  | .arm w => [w.extractLsb' 0 8, w.extractLsb' 8 8, w.extractLsb' 16 8, w.extractLsb' 24 8]
  | .thumb h => [h.extractLsb' 0 8, h.extractLsb' 8 8]

/-- Why a byte string is rejected. -/
inductive DecodeError where
  /-- fewer bytes than one instruction of the selected instruction set -/
  | tooShort
deriving DecidableEq, Repr

/-- Reads one instruction from the front of a byte string: four bytes in ARM state, two in Thumb state (R110). -/
def decode (thumb : Bool) (bytes : List Byte) : Except DecodeError (Instr × List Byte) :=
  if thumb then
    match bytes with
    | b0 :: b1 :: rest => .ok (decodeThumb (b1 ++ b0), rest)
    | _ => .error .tooShort
  else
    match bytes with
    | b0 :: b1 :: b2 :: b3 :: rest => .ok (decodeArm (b3 ++ b2 ++ b1 ++ b0), rest)
    | _ => .error .tooShort

/-! ### The encoder -/

/-- I and bits 11:0 of operand2 (R116, R117). -/
def Operand2.iBit : Operand2 → Bool
  | .imm _ _ => true
  | .immShift _ _ _ => false
  | .regShift _ _ _ => false

def Operand2.bits : Operand2 → BitVec 12
  | .imm rotate imm8 => rotate ++ imm8
  | .immShift amount ty rm => amount ++ ty.bits ++ 0#1 ++ rm
  | .regShift rs ty rm => rs ++ 0#1 ++ ty.bits ++ 1#1 ++ rm

/-- I and bits 11:0 of a word or byte transfer's offset (R121). -/
def Offset12.iBit : Offset12 → Bool
  | .imm _ => false
  | .reg _ _ _ => true

def Offset12.bits : Offset12 → BitVec 12
  | .imm value => value
  | .reg amount ty rm => amount ++ ty.bits ++ 0#1 ++ rm

/-- I, bits 11:8 and bits 3:0 of a halfword transfer's offset (R122). -/
def Offset8.iBit : Offset8 → Bool
  | .imm _ => true
  | .reg _ _ => false

def Offset8.hi : Offset8 → BitVec 4
  | .imm value => value.extractLsb' 4 4
  | .reg sbz _ => sbz

def Offset8.lo : Offset8 → BitVec 4
  | .imm value => value.extractLsb' 0 4
  | .reg _ rm => rm

/-- P and W of an index mode (R121). -/
def Index.pBit : Index → Bool
  | .offset => true
  | .preIndexed => true
  | .postIndexed => false

def Index.wBit : Index → Bool
  | .offset => false
  | .preIndexed => true
  | .postIndexed => false

/-- R115: cond 00 I opcode S Rn Rd operand2. -/
def encDataProc (c : Cond) (opcode : BitVec 4) (s : Bool) (rn rd : BitVec 4) (o : Operand2) : Word :=
  c.bits ++ 0#2 ++ bit o.iBit ++ opcode ++ bit s ++ rn ++ rd ++ o.bits

/-- R119: cond 00000 0 A S Rd Rn Rs 1001 Rm, and cond 00001 U A S RdHi RdLo Rs 1001 Rm. -/
def encMul (c : Cond) (op : BitVec 4) (s : Bool) (r16 r12 rs rm : BitVec 4) : Word :=
  c.bits ++ 0#3 ++ op ++ bit s ++ r16 ++ r12 ++ rs ++ 9#4 ++ rm

/-- R120: cond 00010 B 00 Rn Rd 0000 1001 Rm. -/
def encSwap (c : Cond) (b : Bool) (rn rd sbz rm : BitVec 4) : Word :=
  c.bits ++ 2#5 ++ bit b ++ 0#2 ++ rn ++ rd ++ sbz ++ 9#4 ++ rm

/-- R121: cond 01 I P U B W L Rn Rd offset. -/
def encSingle (c : Cond) (p up b w l : Bool) (rn rd : BitVec 4) (o : Offset12) : Word :=
  c.bits ++ 1#2 ++ bit o.iBit ++ bit p ++ bit up ++ bit b ++ bit w ++ bit l ++ rn ++ rd ++ o.bits

/-- R122: cond 000 P U I W L Rn Rd hi 1 S H 1 lo. -/
def encHalf (c : Cond) (p up w l sgn h : Bool) (rn rd : BitVec 4) (o : Offset8) : Word :=
  c.bits ++ 0#3 ++ bit p ++ bit up ++ bit o.iBit ++ bit w ++ bit l ++ rn ++ rd ++ o.hi ++ 1#1 ++ bit sgn ++ bit h ++ 1#1
    ++ o.lo

/-- R123: cond 100 P U S W L Rn list. -/
def encBlock (c : Cond) (p up s w l : Bool) (rn : BitVec 4) (list : BitVec 16) : Word :=
  c.bits ++ 4#3 ++ bit p ++ bit up ++ bit s ++ bit w ++ bit l ++ rn ++ list

/-- R125: cond 110 P U N W L Rn CRd cp_num offset8. -/
def encCoprocTransfer (c : Cond) (p up n w l : Bool) (rn crd cp : BitVec 4) (offset : Byte) : Word :=
  c.bits ++ 6#3 ++ bit p ++ bit up ++ bit n ++ bit w ++ bit l ++ rn ++ crd ++ cp ++ offset

/-- R125: cond 1110 op1 L CRn Rd cp_num op2 1 CRm. -/
def encCoprocReg (c : Cond) (op1 : BitVec 3) (l : Bool) (crn rd cp : BitVec 4) (op2 : BitVec 3) (crm : BitVec 4) : Word :=
  c.bits ++ 14#4 ++ op1 ++ bit l ++ crn ++ rd ++ cp ++ op2 ++ 1#1 ++ crm

/-- R127 format 4: 010000 op Rs Rd. -/
def encThumbAlu (op : BitVec 4) (rs rd : LowReg) : Half := 16#6 ++ op ++ rs ++ rd

/-- R127 formats 1, 9 and 10: five bits, offset5, Rs or Rb, Rd. -/
def encThumbOff5 (top : BitVec 5) (k : BitVec 5) (rb rd : LowReg) : Half := top ++ k ++ rb ++ rd

/-- R127 formats 2, 7 and 8: seven bits, then three register fields. -/
def encThumbReg3 (top : BitVec 7) (ro rb rd : LowReg) : Half := top ++ ro ++ rb ++ rd

/-- R127 formats 3, 6, 11, 12 and 15: five bits, Rd or Rb, eight bits. -/
def encThumbImm8 (top : BitVec 5) (rd : LowReg) (imm8 : Byte) : Half := top ++ rd ++ imm8

/-- R127 format 5: 010001 op H1 H2 Rs Rd. -/
def encThumbHi (op : BitVec 2) (hs hd : RegNo) : Half :=
  17#6 ++ op ++ hd.extractLsb' 3 1 ++ hs ++ hd.extractLsb' 0 3

/-- The word or halfword of a well-formed instruction, from the format tables R115 to R127. -/
def encodeCode : Instr → Code
  | .armAnd c s rn rd o => .arm (encDataProc c 0 s rn rd o)
  | .armEor c s rn rd o => .arm (encDataProc c 1 s rn rd o)
  | .armSub c s rn rd o => .arm (encDataProc c 2 s rn rd o)
  | .armRsb c s rn rd o => .arm (encDataProc c 3 s rn rd o)
  | .armAdd c s rn rd o => .arm (encDataProc c 4 s rn rd o)
  | .armAdc c s rn rd o => .arm (encDataProc c 5 s rn rd o)
  | .armSbc c s rn rd o => .arm (encDataProc c 6 s rn rd o)
  | .armRsc c s rn rd o => .arm (encDataProc c 7 s rn rd o)
  | .armTst c rn sbz o => .arm (encDataProc c 8 true rn sbz o)
  | .armTeq c rn sbz o => .arm (encDataProc c 9 true rn sbz o)
  | .armCmp c rn sbz o => .arm (encDataProc c 10 true rn sbz o)
  | .armCmn c rn sbz o => .arm (encDataProc c 11 true rn sbz o)
  | .armOrr c s rn rd o => .arm (encDataProc c 12 s rn rd o)
  | .armMov c s sbz rd o => .arm (encDataProc c 13 s sbz rd o)
  | .armBic c s rn rd o => .arm (encDataProc c 14 s rn rd o)
  | .armMvn c s sbz rd o => .arm (encDataProc c 15 s sbz rd o)
  | .armMrs c r sbo rd sbzHi sbzLo =>
    .arm (c.bits ++ 2#5 ++ bit r ++ 0#2 ++ sbo ++ rd ++ sbzHi ++ 0#4 ++ sbzLo)
  | .armMsrReg c r mask sbo sbz rm => .arm (c.bits ++ 2#5 ++ bit r ++ 2#2 ++ mask ++ sbo ++ sbz ++ 0#4 ++ rm)
  | .armMsrImm c r mask sbo rot imm8 => .arm (c.bits ++ 6#5 ++ bit r ++ 2#2 ++ mask ++ sbo ++ rot ++ imm8)
  | .armMul c s rd sbz rs rm => .arm (encMul c 0 s rd sbz rs rm)
  | .armMla c s rd rn rs rm => .arm (encMul c 1 s rd rn rs rm)
  | .armUmull c s rdHi rdLo rs rm => .arm (encMul c 4 s rdHi rdLo rs rm)
  | .armUmlal c s rdHi rdLo rs rm => .arm (encMul c 5 s rdHi rdLo rs rm)
  | .armSmull c s rdHi rdLo rs rm => .arm (encMul c 6 s rdHi rdLo rs rm)
  | .armSmlal c s rdHi rdLo rs rm => .arm (encMul c 7 s rdHi rdLo rs rm)
  | .armSwp c rn rd sbz rm => .arm (encSwap c false rn rd sbz rm)
  | .armSwpb c rn rd sbz rm => .arm (encSwap c true rn rd sbz rm)
  | .armLdr c ix up rn rd o => .arm (encSingle c ix.pBit up false ix.wBit true rn rd o)
  | .armLdrb c ix up rn rd o => .arm (encSingle c ix.pBit up true ix.wBit true rn rd o)
  | .armStr c ix up rn rd o => .arm (encSingle c ix.pBit up false ix.wBit false rn rd o)
  | .armStrb c ix up rn rd o => .arm (encSingle c ix.pBit up true ix.wBit false rn rd o)
  | .armLdrt c up rn rd o => .arm (encSingle c false up false true true rn rd o)
  | .armLdrbt c up rn rd o => .arm (encSingle c false up true true true rn rd o)
  | .armStrt c up rn rd o => .arm (encSingle c false up false true false rn rd o)
  | .armStrbt c up rn rd o => .arm (encSingle c false up true true false rn rd o)
  | .armStrh c p up w rn rd o => .arm (encHalf c p up w false false true rn rd o)
  | .armLdrh c p up w rn rd o => .arm (encHalf c p up w true false true rn rd o)
  | .armLdrsb c p up w rn rd o => .arm (encHalf c p up w true true false rn rd o)
  | .armLdrsh c p up w rn rd o => .arm (encHalf c p up w true true true rn rd o)
  | .armLdm c p up w rn list => .arm (encBlock c p up false w true rn list)
  | .armStm c p up w rn list => .arm (encBlock c p up false w false rn list)
  | .armLdmUser c p up w rn list => .arm (encBlock c p up true w true rn (0#1 ++ list))
  | .armStmUser c p up w rn list => .arm (encBlock c p up true w false rn list)
  | .armLdmExc c p up w rn list => .arm (encBlock c p up true w true rn (1#1 ++ list))
  | .armB c offset => .arm (c.bits ++ 10#4 ++ offset)
  | .armBl c offset => .arm (c.bits ++ 11#4 ++ offset)
  | .armBx c sbo rm => .arm (c.bits ++ 18#8 ++ sbo ++ 1#4 ++ rm)
  | .armSwi c comment => .arm (c.bits ++ 15#4 ++ comment)
  | .armCdp c op1 crn crd cp op2 crm => .arm (c.bits ++ 14#4 ++ op1 ++ crn ++ crd ++ cp ++ op2 ++ 0#1 ++ crm)
  | .armLdc c p up n w rn crd cp offset => .arm (encCoprocTransfer c p up n w true rn crd cp offset)
  | .armStc c p up n w rn crd cp offset => .arm (encCoprocTransfer c p up n w false rn crd cp offset)
  | .armMcr c op1 crn rd cp op2 crm => .arm (encCoprocReg c op1 false crn rd cp op2 crm)
  | .armMrc c op1 crn rd cp op2 crm => .arm (encCoprocReg c op1 true crn rd cp op2 crm)
  | .armUndArch c hi lo => .arm (c.bits ++ 3#3 ++ hi ++ 1#1 ++ lo)
  | .armUndMul c op mid lo => .arm (c.bits ++ 0#3 ++ op ++ mid ++ 9#4 ++ lo)
  | .armUndSignedStore c op mid h lo => .arm (c.bits ++ 0#3 ++ op ++ 0#1 ++ mid ++ 3#2 ++ bit h ++ 1#1 ++ lo)
  | .armUndMisc c op mid lo => .arm (c.bits ++ 2#5 ++ op ++ 0#1 ++ mid ++ lo)
  | .armUndMsrImm c r rest => .arm (c.bits ++ 6#5 ++ bit r ++ 0#2 ++ rest)
  | .thumbLslImm k rs rd => .thumb (encThumbOff5 0 k rs rd)
  | .thumbLsrImm k rs rd => .thumb (encThumbOff5 1 k rs rd)
  | .thumbAsrImm k rs rd => .thumb (encThumbOff5 2 k rs rd)
  | .thumbAddReg rn rs rd => .thumb (encThumbReg3 12 rn rs rd)
  | .thumbSubReg rn rs rd => .thumb (encThumbReg3 13 rn rs rd)
  | .thumbAddImm3 imm3 rs rd => .thumb (encThumbReg3 14 imm3 rs rd)
  | .thumbSubImm3 imm3 rs rd => .thumb (encThumbReg3 15 imm3 rs rd)
  | .thumbMovImm rd imm8 => .thumb (encThumbImm8 4 rd imm8)
  | .thumbCmpImm rd imm8 => .thumb (encThumbImm8 5 rd imm8)
  | .thumbAddImm8 rd imm8 => .thumb (encThumbImm8 6 rd imm8)
  | .thumbSubImm8 rd imm8 => .thumb (encThumbImm8 7 rd imm8)
  | .thumbAnd rs rd => .thumb (encThumbAlu 0 rs rd)
  | .thumbEor rs rd => .thumb (encThumbAlu 1 rs rd)
  | .thumbLslReg rs rd => .thumb (encThumbAlu 2 rs rd)
  | .thumbLsrReg rs rd => .thumb (encThumbAlu 3 rs rd)
  | .thumbAsrReg rs rd => .thumb (encThumbAlu 4 rs rd)
  | .thumbAdc rs rd => .thumb (encThumbAlu 5 rs rd)
  | .thumbSbc rs rd => .thumb (encThumbAlu 6 rs rd)
  | .thumbRorReg rs rd => .thumb (encThumbAlu 7 rs rd)
  | .thumbTst rs rd => .thumb (encThumbAlu 8 rs rd)
  | .thumbNeg rs rd => .thumb (encThumbAlu 9 rs rd)
  | .thumbCmpReg rs rd => .thumb (encThumbAlu 10 rs rd)
  | .thumbCmn rs rd => .thumb (encThumbAlu 11 rs rd)
  | .thumbOrr rs rd => .thumb (encThumbAlu 12 rs rd)
  | .thumbMul rs rd => .thumb (encThumbAlu 13 rs rd)
  | .thumbBic rs rd => .thumb (encThumbAlu 14 rs rd)
  | .thumbMvn rs rd => .thumb (encThumbAlu 15 rs rd)
  | .thumbAddHi hs hd => .thumb (encThumbHi 0 hs hd)
  | .thumbCmpHi hs hd => .thumb (encThumbHi 1 hs hd)
  | .thumbMovHi hs hd => .thumb (encThumbHi 2 hs hd)
  | .thumbBx h1 hs sbz => .thumb (71#8 ++ bit h1 ++ hs ++ sbz)
  | .thumbLdrPc rd imm8 => .thumb (encThumbImm8 9 rd imm8)
  | .thumbStrReg ro rb rd => .thumb (encThumbReg3 40 ro rb rd)
  | .thumbStrbReg ro rb rd => .thumb (encThumbReg3 42 ro rb rd)
  | .thumbLdrReg ro rb rd => .thumb (encThumbReg3 44 ro rb rd)
  | .thumbLdrbReg ro rb rd => .thumb (encThumbReg3 46 ro rb rd)
  | .thumbStrhReg ro rb rd => .thumb (encThumbReg3 41 ro rb rd)
  | .thumbLdsbReg ro rb rd => .thumb (encThumbReg3 43 ro rb rd)
  | .thumbLdrhReg ro rb rd => .thumb (encThumbReg3 45 ro rb rd)
  | .thumbLdshReg ro rb rd => .thumb (encThumbReg3 47 ro rb rd)
  | .thumbStrImm k rb rd => .thumb (encThumbOff5 12 k rb rd)
  | .thumbLdrImm k rb rd => .thumb (encThumbOff5 13 k rb rd)
  | .thumbStrbImm k rb rd => .thumb (encThumbOff5 14 k rb rd)
  | .thumbLdrbImm k rb rd => .thumb (encThumbOff5 15 k rb rd)
  | .thumbStrhImm k rb rd => .thumb (encThumbOff5 16 k rb rd)
  | .thumbLdrhImm k rb rd => .thumb (encThumbOff5 17 k rb rd)
  | .thumbStrSp rd imm8 => .thumb (encThumbImm8 18 rd imm8)
  | .thumbLdrSp rd imm8 => .thumb (encThumbImm8 19 rd imm8)
  | .thumbAddPc rd imm8 => .thumb (encThumbImm8 20 rd imm8)
  | .thumbAddSp rd imm8 => .thumb (encThumbImm8 21 rd imm8)
  | .thumbIncSp imm7 => .thumb (352#9 ++ imm7)
  | .thumbDecSp imm7 => .thumb (353#9 ++ imm7)
  | .thumbPush lr list => .thumb (90#7 ++ bit lr ++ list)
  | .thumbPop pc list => .thumb (94#7 ++ bit pc ++ list)
  | .thumbStmia rb list => .thumb (encThumbImm8 24 rb list)
  | .thumbLdmia rb list => .thumb (encThumbImm8 25 rb list)
  | .thumbSwi comment => .thumb (223#8 ++ comment)
  | .thumbBcond c offset => .thumb (13#4 ++ c.bits ++ offset)
  | .thumbB offset => .thumb (28#5 ++ offset)
  | .thumbBlHigh offset => .thumb (30#5 ++ offset)
  | .thumbBlLow offset => .thumb (31#5 ++ offset)
  | .thumbUnd1011 bits => .thumb (11#4 ++ bits)
  | .thumbUndCond bits => .thumb (222#8 ++ bits)
  | .thumbUnd11101 bits => .thumb (29#5 ++ bits)

/-- The instruction is of the Thumb set. -/
def Code.isThumb : Code → Bool
  | .arm _ => false
  | .thumb _ => true

def Instr.isThumb (i : Instr) : Bool := (encodeCode i).isThumb

/-- The bytes of a well-formed instruction as they lie in memory, lowest address first. -/
def encode (i : Instr) : List Byte := (encodeCode i).bytes

/-! ### The host's question about a row of the opcode table -/

/-- The code word of the instruction whose bits are w, numbered as spec/opcode_table.json numbers them: a Thumb halfword for
a row of 16 bits or fewer, else an ARM word; every bit above nbits is zero. -/
def tableCode (nbits w : Nat) : Code :=
  if nbits ≤ 16 then .thumb (BitVec.ofNat 16 (w % 2 ^ nbits)) else .arm (BitVec.ofNat 32 (w % 2 ^ nbits))

def decodeTableWord (nbits w : Nat) : Option Instr :=
  match decode (nbits ≤ 16) (tableCode nbits w).bytes with
  | .ok (i, _) => some i
  | .error _ => none

end Sys2Proof
end

