-- ==== Sys2Proof/Machine/State.lean ====
section
/-! DEFINITION. The state of the machine (spec 10_state, 20_memory section 1, 60_exceptions R612 to R617), plain data, and
`State.reset` (70_reset_and_hazards R700); the stops of a step (00_scope R13, 93_implementation_defined section 2). -/

namespace Sys2Proof.Machine

/-! ### Registers -/

/-- The seven modes of R21. -/
inductive Mode where
  | usr | fiq | irq | svc | abt | und | sys
deriving DecidableEq, Repr

/-- The banks of R13 and R14 (R20): User and System share one. -/
inductive Bank where
  | usr | fiq | irq | svc | abt | und
deriving DecidableEq, Repr

/-- The physical general registers of R20, R15 apart: R0 to R7; R8 to R12 of every mode but FIQ; R8_fiq to R12_fiq; R13 and
R14 of each bank. -/
inductive PhysReg where
  | low (n : Fin 8)
  | mid (n : Fin 5)
  | midFiq (n : Fin 5)
  | sp (b : Bank)
  | lr (b : Bank)
deriving DecidableEq, Repr

/-- One thing for each of the 30 physical registers; `sp` and `lr` are indexed by bank in the order of `Bank`. -/
structure Banked (α : Type) where
  low : Vector α 8
  mid : Vector α 5
  midFiq : Vector α 5
  sp : Vector α 6
  lr : Vector α 6
deriving DecidableEq, Repr

/-- The contents of the physical registers. -/
abbrev RegFile := Banked Word

/-- Which flags of a status register have been written (R14, R43; log entry 33). -/
structure FlagMarks where
  n : Bool
  z : Bool
  c : Bool
  v : Bool
deriving DecidableEq, Repr

/-- CPSR (R29): the flags, the masks, T and the mode. Bits 27:8 are not tracked (R37, log entry 17), and only one of the
seven modes can stand in M (R21, R42). The masks, T and M are written at reset (R700); `marks` says which flags are. -/
structure Cpsr where
  n : Bool
  z : Bool
  c : Bool
  v : Bool
  i : Bool
  f : Bool
  t : Bool
  mode : Mode
  marks : FlagMarks
deriving DecidableEq, Repr

/-- A saved program status register (R34): the layout of R29, with any value in M (R35); `marks` says which flags have been
written, `lowWritten` whether bits 7:0 have (R14, R43; log entry 33). -/
structure Psr where
  n : Bool
  z : Bool
  c : Bool
  v : Bool
  i : Bool
  f : Bool
  t : Bool
  m : BitVec 5
  marks : FlagMarks
  lowWritten : Bool
deriving DecidableEq, Repr

/-- The five SPSRs (R34). -/
structure Spsrs where
  fiq : Psr
  irq : Psr
  svc : Psr
  abt : Psr
  und : Psr
deriving DecidableEq, Repr

/-! ### Interpreter, bus and devices -/

/-- R38. -/
inductive RunState where
  | running | halted
deriving DecidableEq, Repr

/-- The size of a bus access: 1, 2 or 4 bytes (R9). -/
inductive Width where
  | byte | half | word
deriving DecidableEq, Repr

/-- The regions of R61. -/
inductive Region where
  | bios | ewram | iwram | io | pram | vram | oam | rom0 | rom1 | rom2 | sram | unmapped
deriving DecidableEq, Repr

/-- The bus's last-access record (R39, R84). -/
structure LastAccess where
  addr : Word
  width : Width
  region : Region
deriving DecidableEq, Repr

/-- IE, IF and bit 0 of IME (R612). -/
structure IrqControl where
  ie : BitVec 16
  iflag : BitVec 16
  ime : Bool
deriving DecidableEq, Repr

/-- An external collaborator an access is forwarded to (R73, R80, R81, R614). -/
inductive Target where
  | device (id : Nat)
  | power
  | saveMedia
  | cartridge
deriving DecidableEq, Repr

/-- An access forwarded to a collaborator: `value` is what was written, or 0 for a read. -/
structure Forward where
  target : Target
  isWrite : Bool
  offset : Nat
  width : Width
  value : Word
deriving DecidableEq, Repr

/-- A device registered for the I/O offsets `first` to `last` (R73, IO_DEVICES of R5). -/
structure DeviceRange where
  first : Nat
  last : Nat
  id : Nat
deriving DecidableEq, Repr

/-- Addresses of the ROM region the save media claims (R80). -/
structure ClaimRange where
  first : Nat
  last : Nat
deriving DecidableEq, Repr

/-- EMPTY_RLIST_POLICY (R5, D20). -/
inductive EmptyListPolicy where
  | stop | arm7tdmi
deriving DecidableEq, Repr

/-- VRAM_OBJ_BYTE_BOUNDARY (R5, R78, D24): 0x10000 in video modes 0 to 2, 0x14000 in modes 3 to 5. -/
inductive VramBoundary where
  | at10000 | at14000
deriving DecidableEq, Repr

/-- The parameters of R5 that are arguments of the model; no step changes them. -/
structure Params where
  romSize : Nat
  devices : List DeviceRange
  saveClaims : List ClaimRange
  emptyList : EmptyListPolicy
  vramBoundary : VramBoundary
deriving DecidableEq, Repr

/-- Everything the machine holds. -/
structure State where
  /-- R0 to R14 of every bank (R20) -/
  regs : RegFile
  /-- which of them have been written (R14, R43; log entry 33) -/
  written : Banked Bool
  /-- the address of the current instruction (R27) -/
  pc : Word
  cpsr : Cpsr
  spsr : Spsrs
  /-- R38 -/
  run : RunState
  /-- R46: the cycle count at which userBankHazard was set, if an instruction set it last (log entry 18) -/
  hazardMark : Option Nat
  /-- R40 -/
  cycles : Nat
  /-- R39, R84 -/
  last : Option LastAccess
  /-- R76 -/
  waitcnt : BitVec 16
  /-- the written bytes of BIOS_IMAGE, EWRAM, IWRAM, PRAM, VRAM, OAM and ROM_IMAGE, by physical address, rising (R61);
  an address that is not listed holds nothing written (log entries 3, 4) -/
  mem : List Host.Cell
  /-- R612 -/
  irqc : IrqControl
  /-- the interrupt request of the host call request_exception(IRQ) (R617, log entry 12) -/
  irqInput : Bool
  /-- R609 -/
  fiqLine : Bool
  /-- R614 -/
  haltRequest : Bool
  /-- R5 -/
  params : Params
  /-- the model's own counter of free values drawn (R11, log entry 5) -/
  draws : Nat
  /-- the answers the collaborators will give to the next forwarded reads (R41, log entry 13) -/
  answers : List Word
  /-- the model's own record of the accesses forwarded so far, newest first (log entry 14) -/
  forwarded : List Forward
deriving DecidableEq, Repr

/-! ### Stops -/

/-- The ways a step stops: `stop(Unpredictable(what))` and `stop(Fatal(what))` of R13. All are safe: the model stops where
the hardware goes on with a behaviour the spec does not give. -/
inductive Fault where
  /-- "should-be field" (R132): every instruction with an SBZ or SBO field, and Thumb format 5 with H1 = H2 = 0; safe -/
  | shouldBeField
  /-- "no SPSR in this mode" (R34 to R36): MRS, MSR, exception returns in User or System mode; safe -/
  | noSpsr
  /-- "invalid mode" (R21, R35, R36): MSR and exception returns; safe -/
  | invalidMode
  /-- "MSR writes T" (R35): MSR; safe -/
  | msrWritesT
  /-- "MRS to R15" (R240): MRS; safe -/
  | mrsToR15
  /-- "MSR from R15" (R241): MSR (register); safe -/
  | msrFromR15
  /-- "multiply operands" (R243, R425): the multiplies; safe -/
  | multiplyOperands
  /-- "SWP operands" (R250, R251): SWP, SWPB; safe -/
  | swpOperands
  /-- "Rs = R15" (R203): data processing with a register-specified shift; safe -/
  | rsIsR15
  /-- "Rm = R15" (R270, R279): loads and stores with a register offset; safe -/
  | rmIsR15
  /-- "Rn = R15" (R284): LDM and STM; safe -/
  | rnIsR15
  /-- "Rd = R15" (R279): halfword and signed transfers; safe -/
  | rdIsR15
  /-- "writeback" (R270, R279): single and halfword transfers with writeback and Rn = R15 or Rn = Rd; safe -/
  | writeback
  /-- "P = 0, W = 1" (R279): halfword and signed transfers; safe -/
  | postIndexedW
  /-- "LDRB to R15" (R272): LDRB; safe -/
  | ldrbToR15
  /-- "STRB from R15" (R274, R278): STRB, STRBT; safe -/
  | strbFromR15
  /-- "LDRT to R15" (R275, R276): LDRT, LDRBT; safe -/
  | ldrtToR15
  /-- "Rn in list with writeback" (R285, R289): LDM; safe -/
  | rnInListWithWriteback
  /-- "S bit with writeback" (R287, R288): user-bank LDM and STM; safe -/
  | sBitWithWriteback
  /-- "S bit in User/System mode" (R287, R288): user-bank LDM and STM; safe -/
  | sBitInUserOrSystem
  /-- "empty register list" (R284, R457): block transfers under the policy `stop`; safe -/
  | emptyRegisterList
  /-- "misaligned branch target" (R26): writes of R15; safe -/
  | misalignedBranchTarget
  /-- "store into prefetched instruction" (R705): every store; safe -/
  | storeIntoPrefetched
  /-- "banked register access after user-bank transfer" (R706): the step after a user-bank LDM or STM; safe -/
  | bankedAfterUserTransfer
  /-- `stop(Fatal(invariant))` (R42): a step that begins with a PC misaligned for T, which no run reaches (R28); safe -/
  | fatalInvariant
deriving DecidableEq, Repr

/-- Why an instruction has no meaning. -/
inductive Refusal where
  /-- exec's arm of an instruction whose meaning is not written; safe. No arm answers it. -/
  | notModelled (mnemonic : String)
deriving DecidableEq, Repr

/-! ### Reset -/

/-- BOOT_MODE (R5, D17). -/
inductive BootMode where
  | bios | direct
deriving DecidableEq, Repr

/-- The same thing for every physical register. -/
def Banked.fill {α : Type} (a : α) : Banked α where
  low := Vector.replicate 8 a
  mid := Vector.replicate 5 a
  midFiq := Vector.replicate 5 a
  sp := Vector.replicate 6 a
  lr := Vector.replicate 6 a

/-- The registers at an architectural reset. The spec leaves them unwritten (R700); DESIGN CHOICE 0, unsafe, log entry 1. -/
def RegFile.zero : RegFile := Banked.fill 0

/-- All four flags marked alike: none is written after an architectural reset (R700), all are after a direct boot (R702). -/
def FlagMarks.fill (b : Bool) : FlagMarks := ⟨b, b, b, b⟩

/-- A saved status register at reset: unwritten in the spec (R700), DESIGN CHOICE 0, unsafe, log entry 1; 0 and written in
R702. -/
def Psr.zero (written : Bool) : Psr := ⟨false, false, false, false, false, false, false, 0, FlagMarks.fill written, written⟩

def Spsrs.zero (written : Bool) : Spsrs :=
  ⟨Psr.zero written, Psr.zero written, Psr.zero written, Psr.zero written, Psr.zero written⟩

/-- The parameters a machine has when nothing is loaded or attached: DESIGN CHOICE, log entries 6, 7, 8, 9, 15. -/
def Params.initial : Params where
  romSize := 0x2000000
  devices := []
  saveClaims := []
  emptyList := .arm7tdmi
  vramBoundary := .at10000

/-- The machine right after an architectural reset (R700, BOOT_MODE = bios; log entry 2): Supervisor mode, ARM state, both
interrupt inputs masked, PC at the reset vector. The flags are unwritten; DESIGN CHOICE 0, log entry 1. -/
def State.reset : State where
  regs := RegFile.zero
  written := Banked.fill false
  pc := 0
  cpsr := ⟨false, false, false, false, true, true, false, .svc, FlagMarks.fill false⟩
  spsr := Spsrs.zero false
  run := .running
  hazardMark := none
  cycles := 0
  last := none
  waitcnt := 0
  mem := []
  irqc := ⟨0, 0, false⟩
  irqInput := false
  fiqLine := false
  haltRequest := false
  params := Params.initial
  draws := 0
  answers := []
  forwarded := []

/-- The state BOOT_MODE = direct installs (R702): System mode, PC at the cartridge, the stack pointers the BIOS leaves, every
register, flag and SPSR written. -/
def State.resetDirect : State :=
  { State.reset with
    regs := { RegFile.zero with sp := #v[0x03007F00, 0, 0x03007FA0, 0x03007FE0, 0, 0] }
    written := Banked.fill true
    pc := 0x08000000
    cpsr := ⟨false, false, false, false, false, false, false, .sys, FlagMarks.fill true⟩
    spsr := Spsrs.zero true }

end Sys2Proof.Machine
end

