-- ==== Sys2Proof/Machine/Ops.lean ====
section
/-! DEFINITION. The named operations over registers, status registers, memory, bus and clock, and taking an exception and
returning from one (spec 10_state, 20_memory, 60_exceptions, 70_reset_and_hazards). Every meaning is written over these. -/

namespace Sys2Proof.Machine

/-- What a meaning answers (R12). -/
abbrev Result := Host.Outcome State Fault Refusal

/-- Goes on with the next state, or stops where the first part stopped. -/
def andThen (r : Result) (f : State → Result) : Result :=
  match r with
  | .next s => f s
  | .fault e => .fault e
  | .refused e => .refused e

/-- Goes on with a value, or stops with its fault. -/
def orFault {α : Type} (x : Except Fault α) (f : α → Result) : Result :=
  match x with
  | .ok a => f a
  | .error e => .fault e

/-! ### Modes and status registers -/

/-- M[4:0] of a mode (R21). -/
def Mode.bits : Mode → BitVec 5
  | .usr => 0x10 | .fiq => 0x11 | .irq => 0x12 | .svc => 0x13 | .abt => 0x17 | .und => 0x1B | .sys => 0x1F

/-- The mode of a value of M[4:0]; 25 of the 32 values are invalid (R21). -/
def Mode.ofBits? (b : BitVec 5) : Option Mode :=
  match b.toNat with
  | 0x10 => some .usr | 0x11 => some .fiq | 0x12 => some .irq | 0x13 => some .svc
  | 0x17 => some .abt | 0x1B => some .und | 0x1F => some .sys | _ => none

/-- Every mode but User is privileged (R21). -/
def Mode.privileged : Mode → Bool
  | .usr => false
  | _ => true

/-- Every mode but User and System has an SPSR (R34). -/
def Mode.hasSpsr : Mode → Bool
  | .usr => false | .fiq => true | .irq => true | .svc => true | .abt => true | .und => true | .sys => false

/-- Which bank's R13 and R14 a mode uses (R22). -/
def Mode.bank : Mode → Bank
  | .usr => .usr | .fiq => .fiq | .irq => .irq | .svc => .svc | .abt => .abt | .und => .und | .sys => .usr

/-- The CPSR as exception entry saves it (R603): all of it, T and flags included; an unwritten flag stays unwritten. -/
def Cpsr.saved (p : Cpsr) : Psr := ⟨p.n, p.z, p.c, p.v, p.i, p.f, p.t, p.mode.bits, p.marks, true⟩

/-- The CPSR a saved status restores, if its M is valid; an unwritten flag stays unwritten (R36). -/
def Psr.restored? (p : Psr) : Option Cpsr :=
  match Mode.ofBits? p.m with
  | some m => some ⟨p.n, p.z, p.c, p.v, p.i, p.f, p.t, m, p.marks⟩
  | none => none

/-- A status register as MRS reads it: bits 27:8 from `reserved` (R29, R37, R240). -/
def Psr.word (p : Psr) (reserved : BitVec 20) : Word :=
  bit p.n ++ bit p.z ++ bit p.c ++ bit p.v ++ reserved ++ bit p.i ++ bit p.f ++ bit p.t ++ p.m

/-- The SPSR of a mode; User and System have none (R34). -/
def Spsrs.get (p : Spsrs) : Mode → Option Psr
  | .usr => none
  | .fiq => some p.fiq
  | .irq => some p.irq
  | .svc => some p.svc
  | .abt => some p.abt
  | .und => some p.und
  | .sys => none

/-- Writes the SPSR of a mode; a mode without one has nothing to write. -/
def Spsrs.set (p : Spsrs) (m : Mode) (v : Psr) : Spsrs :=
  match m with
  | .usr => p
  | .fiq => { p with fiq := v }
  | .irq => { p with irq := v }
  | .svc => { p with svc := v }
  | .abt => { p with abt := v }
  | .und => { p with und := v }
  | .sys => p

/-! ### General registers -/

/-- The place of a bank in the register file's `sp` and `lr`. -/
def Bank.index : Bank → Fin 6
  | .usr => 0 | .fiq => 1 | .irq => 2 | .svc => 3 | .abt => 4 | .und => 5

def Banked.get {α : Type} (r : Banked α) : PhysReg → α
  | .low n => r.low[n]
  | .mid n => r.mid[n]
  | .midFiq n => r.midFiq[n]
  | .sp b => r.sp[b.index]
  | .lr b => r.lr[b.index]

def Banked.set {α : Type} (r : Banked α) (p : PhysReg) (v : α) : Banked α :=
  match p with
  | .low n => { r with low := r.low.set n v }
  | .mid n => { r with mid := r.mid.set n v }
  | .midFiq n => { r with midFiq := r.midFiq.set n v }
  | .sp b => { r with sp := r.sp.set b.index v }
  | .lr b => { r with lr := r.lr.set b.index v }

/-- phys(m, n) of R22; R15 is not in the register file. -/
def phys (m : Mode) (n : RegNo) : Option PhysReg :=
  match n.toNat with
  | 0 => some (.low 0) | 1 => some (.low 1) | 2 => some (.low 2) | 3 => some (.low 3)
  | 4 => some (.low 4) | 5 => some (.low 5) | 6 => some (.low 6) | 7 => some (.low 7)
  | 8 => some (if m = .fiq then .midFiq 0 else .mid 0)
  | 9 => some (if m = .fiq then .midFiq 1 else .mid 1)
  | 10 => some (if m = .fiq then .midFiq 2 else .mid 2)
  | 11 => some (if m = .fiq then .midFiq 3 else .mid 3)
  | 12 => some (if m = .fiq then .midFiq 4 else .mid 4)
  | 13 => some (.sp m.bank)
  | 14 => some (.lr m.bank)
  | _ => none

/-- The width of an instruction in bytes: 4 in ARM state, 2 in Thumb state (R6, R110). -/
def instrBytes (t : Bool) : Nat := if t then 2 else 4

/-- w as an address increment. -/
def State.w (s : State) : Word := if s.cpsr.t then 2 else 4

/-- R15 read as an operand: PC + 2w (R25). -/
def State.pcRead (s : State) : Word := s.pc + (if s.cpsr.t then 4 else 8)

/-- PC + PC_STORE_OFFSET: what STR and STM store for R15, and what a register-shifted operand reads (R25, D4). -/
def State.pcStore (s : State) : Word := s.pc + 12

/-- Rmode[m, n] (R7); R15 reads as R25 says. -/
def State.regOf (s : State) (m : Mode) (n : RegNo) : Word :=
  match phys m n with
  | some p => s.regs.get p
  | none => s.pcRead

/-- R[n] (R7). -/
def State.reg (s : State) (n : RegNo) : Word := s.regOf s.cpsr.mode n

/-- Rmode[m, n] <- v for n other than 15; a write of R15 is a branch, never this operation (R26). The register is written
from now on (R14). -/
def State.setRegOf (s : State) (m : Mode) (n : RegNo) (v : Word) : State :=
  match phys m n with
  | some p => { s with regs := s.regs.set p v, written := s.written.set p true }
  | none => s

/-- The written mark of Rmode[m, n] (R14, R43), as inspection shows it (R623); R15 always holds a value. -/
def State.regWritten (s : State) (m : Mode) (n : RegNo) : Bool :=
  match phys m n with
  | some p => s.written.get p
  | none => true

/-- R[n] <- v for n other than 15. -/
def State.setReg (s : State) (n : RegNo) (v : Word) : State := s.setRegOf s.cpsr.mode n v

def State.setCpsr (s : State) (p : Cpsr) : State := { s with cpsr := p }

/-- R0 to R7 from a Thumb register field (R127). -/
def low (r : LowReg) : RegNo := r.setWidth 4

/-! ### Free values and inputs -/

/-- draw(): a fresh free value (R11). -/
def draw (s : State) : Word × State := (Config.draw s.draws, { s with draws := s.draws + 1 })

/-- The answer of a collaborator to a forwarded read: the next input value, or a free value (R41, log entry 13). -/
def takeAnswer (s : State) : Word × State :=
  match s.answers with
  | a :: rest => (a, { s with answers := rest })
  | [] => draw s

def forward (s : State) (e : Forward) : State := { s with forwarded := e :: s.forwarded }

/-! ### Regions (R61, R62) -/

def Width.bytes : Width → Nat
  | .byte => 1 | .half => 2 | .word => 4

/-- The low 8n bits of a word, zero-extended (R8). -/
def Width.trunc (n : Width) (v : Word) : Word :=
  match n with
  | .byte => v &&& 0xFF
  | .half => v &&& 0xFFFF
  | .word => v

/-- Align(a, n) (R8, R65). -/
def align (a : Word) (n : Width) : Word :=
  match n with
  | .byte => a
  | .half => a &&& 0xFFFFFFFE
  | .word => a &&& 0xFFFFFFFC

/-- The region an address decodes to: the ranges of R61. -/
def region (a : Word) : Region :=
  if a.toNat < 0x00004000 then .bios
  else if a.toNat < 0x02000000 then .unmapped
  else if a.toNat < 0x03000000 then .ewram
  else if a.toNat < 0x04000000 then .iwram
  else if a.toNat < 0x04000400 then .io
  else if a.toNat < 0x05000000 then .unmapped
  else if a.toNat < 0x06000000 then .pram
  else if a.toNat < 0x07000000 then .vram
  else if a.toNat < 0x08000000 then .oam
  else if a.toNat < 0x0A000000 then .rom0
  else if a.toNat < 0x0C000000 then .rom1
  else if a.toNat < 0x0E000000 then .rom2
  else if a.toNat < 0x10000000 then .sram
  else .unmapped

/-- offset(a): the mirror masks of R61. -/
def offset (a : Word) : Nat :=
  match region a with
  | .bios => a.toNat
  | .ewram => a.toNat % 0x40000
  | .iwram => a.toNat % 0x8000
  | .io => a.toNat % 0x400
  | .pram => a.toNat % 0x400
  | .vram => if a.toNat % 0x20000 < 0x18000 then a.toNat % 0x20000 else a.toNat % 0x20000 - 0x8000
  | .oam => a.toNat % 0x400
  | .rom0 => a.toNat % 0x2000000
  | .rom1 => a.toNat % 0x2000000
  | .rom2 => a.toNat % 0x2000000
  | .sram => a.toNat % 0x10000
  | .unmapped => a.toNat

/-- The physical address of offset 0 of a region's byte store or image; the three ROM views share one image (R61). -/
def Region.base : Region → Nat
  | .bios => 0
  | .ewram => 0x02000000
  | .iwram => 0x03000000
  | .pram => 0x05000000
  | .vram => 0x06000000
  | .oam => 0x07000000
  | .rom0 => 0x08000000
  | .rom1 => 0x08000000
  | .rom2 => 0x08000000
  | .io => 0
  | .sram => 0
  | .unmapped => 0

/-- The region has a byte store or an image the block holds (R61). -/
def Region.stored : Region → Bool
  | .io => false
  | .sram => false
  | .unmapped => false
  | .bios => true
  | .ewram => true
  | .iwram => true
  | .pram => true
  | .vram => true
  | .oam => true
  | .rom0 => true
  | .rom1 => true
  | .rom2 => true

def Region.isRom (r : Region) : Bool := r == .rom0 || r == .rom1 || r == .rom2

/-! ### Memory: a list of written bytes by rising physical address -/

/-- The byte written at a physical address, if any. -/
def Mem.get : List Host.Cell → Nat → Option Byte
  | [], _ => none
  | (k, v) :: rest, a => if k = a then some v else Mem.get rest a

/-- Writes one byte, keeping the addresses rising. -/
def Mem.set : List Host.Cell → Nat → Byte → List Host.Cell
  | [], a, b => [(a, b)]
  | (k, v) :: rest, a, b =>
    if a < k then (a, b) :: (k, v) :: rest
    else if a = k then (a, b) :: rest
    else (k, v) :: Mem.set rest a b

/-- A physical address at which something is stored: the backing sizes of R61. -/
def Mem.backed (k : Nat) : Bool :=
  k < 0x4000 || (0x02000000 ≤ k && k < 0x02040000) || (0x03000000 ≤ k && k < 0x03008000)
    || (0x05000000 ≤ k && k < 0x05000400) || (0x06000000 ≤ k && k < 0x06018000)
    || (0x07000000 ≤ k && k < 0x07000400) || (0x08000000 ≤ k && k < 0x0A000000)

def Mem.wfFrom : Nat → List Host.Cell → Bool
  | _, [] => true
  | lo, (k, _) :: rest => decide (lo ≤ k) && Mem.backed k && Mem.wfFrom (k + 1) rest

/-- The canonical form: addresses strictly rising, each one backed. An unlisted address holds nothing written, so no entry
can equal what an unlisted address holds. -/
def Mem.wf (m : List Host.Cell) : Bool := Mem.wfFrom 0 m

/-- Writes n bytes of a value at a physical address, least significant first (R64). -/
def Mem.store (m : List Host.Cell) (k : Nat) (n : Width) (v : Word) : List Host.Cell :=
  match n with
  | .byte => Mem.set m k (v.extractLsb' 0 8)
  | .half => Mem.set (Mem.set m k (v.extractLsb' 0 8)) (k + 1) (v.extractLsb' 8 8)
  | .word =>
    Mem.set (Mem.set (Mem.set (Mem.set m k (v.extractLsb' 0 8)) (k + 1) (v.extractLsb' 8 8)) (k + 2)
      (v.extractLsb' 16 8)) (k + 3) (v.extractLsb' 24 8)

/-- The byte at offset o of a stored region (R66, R70, R80): what was written or loaded there, else a free value of the
address; a ROM offset of ROM_SIZE or more is always a free value. -/
def storedByte (s : State) (r : Region) (o : Nat) : Byte :=
  if r.isRom && decide (s.params.romSize ≤ o) then Config.romResidue o
  else (Mem.get s.mem (r.base + o)).getD (Config.unwrittenByte (r.base + o))

/-- n bytes from offset o of a stored region, little-endian, zero-extended (R64, R66). -/
def storedValue (s : State) (r : Region) (o : Nat) (n : Width) : Word :=
  match n with
  | .byte => (storedByte s r o).setWidth 32
  | .half => (storedByte s r (o + 1) ++ storedByte s r o).setWidth 32
  | .word => storedByte s r (o + 3) ++ storedByte s r (o + 2) ++ storedByte s r (o + 1) ++ storedByte s r o

/-- The byte of memory at an address as inspection sees it (R623): no side effect, no price; none for I/O, save media and
unmapped addresses, which hold no byte of this block. -/
def State.peek (s : State) (a : Word) : Option Byte :=
  if (region a).stored then some (storedByte s (region a) (offset a)) else none

/-! ### I/O window (R73 to R76, R612, R614) -/

/-- Who owns an offset of the I/O window. -/
inductive IoOwner where
  | waitcnt | irqControl | power | device (id : Nat) | nobody
deriving DecidableEq, Repr

/-- The first registered device whose range holds the offset. -/
def deviceAt : List DeviceRange → Nat → IoOwner
  | [], _ => .nobody
  | d :: rest, o => if d.first ≤ o ∧ o ≤ d.last then .device d.id else deviceAt rest o

/-- The device registered for an offset (R73): WAITCNT for the bus itself, IE, IF and IME (R612, log entry 10), HALTCNT
(R614), and IO_DEVICES for every other offset. An access is routed by its own offset, whatever its width. -/
def ioOwner (s : State) (o : Nat) : IoOwner :=
  if o = 0x204 ∨ o = 0x205 then .waitcnt
  else if (0x200 ≤ o ∧ o ≤ 0x203) ∨ o = 0x208 ∨ o = 0x209 then .irqControl
  else if o = 0x301 then .power
  else deviceAt s.params.devices o

/-- The part of a 16-bit register that a byte or halfword access at offset o sees. -/
def halfPart (v : BitVec 16) (o : Nat) (n : Width) : Word :=
  match n with
  | .byte => (if o % 2 = 0 then v.extractLsb' 0 8 else v.extractLsb' 8 8).setWidth 32
  | .half => v.setWidth 32
  | .word => v.setWidth 32

/-- A 16-bit register after a byte or halfword write at offset o. -/
def halfUpdate (old : BitVec 16) (o : Nat) (n : Width) (v : Word) : BitVec 16 :=
  match n with
  | .byte =>
    if o % 2 = 0 then old.extractLsb' 8 8 ++ v.extractLsb' 0 8 else v.extractLsb' 0 8 ++ old.extractLsb' 0 8
  | .half => v.extractLsb' 0 16
  | .word => v.extractLsb' 0 16

/-- The bits a byte or halfword write at offset o writes as ones, in register position. -/
def halfOnes (o : Nat) (n : Width) (v : Word) : BitVec 16 := halfUpdate 0 o n v

/-- A read of an IE, IF or IME halfword (R612); the bits of IME that R612 does not give are a free value. -/
def irqControlRead (s : State) (o : Nat) (n : Width) : Word × State :=
  if o / 2 * 2 = 0x200 then (halfPart s.irqc.ie o n, s)
  else if o / 2 * 2 = 0x202 then (halfPart s.irqc.iflag o n, s)
  else
    let (d, s) := draw s
    (halfPart (d.extractLsb' 0 15 ++ bit s.irqc.ime) o n, s)

/-- A write of an IE, IF or IME halfword (R612): IF is written 1 to clear. -/
def irqControlWrite (s : State) (o : Nat) (n : Width) (v : Word) : State :=
  if o / 2 * 2 = 0x200 then { s with irqc := { s.irqc with ie := halfUpdate s.irqc.ie o n v } }
  else if o / 2 * 2 = 0x202 then
    { s with irqc := { s.irqc with iflag := s.irqc.iflag &&& ~~~(halfOnes o n v) } }
  else if n = .byte ∧ o % 2 = 1 then s
  else { s with irqc := { s.irqc with ime := v.getLsbD 0 } }

/-- The writable bits of WAITCNT: all but bits 13 and 15 (R76). -/
def waitcntMask : BitVec 16 := 0x5FFF

/-- A read forwarded to a collaborator; its answer is an input of the step (R41, R75, R81). -/
def forwardRead (s : State) (t : Target) (o : Nat) (n : Width) : Word × State :=
  let (v, s) := takeAnswer (forward s ⟨t, false, o, n, 0⟩)
  (n.trunc v, s)

/-- A write forwarded to a collaborator (R75, R80, R81, R614). -/
def forwardWrite (s : State) (t : Target) (o : Nat) (n : Width) (v : Word) : State :=
  forward s ⟨t, true, o, n, n.trunc v⟩

/-- A byte or halfword read of the I/O window at offset o (R73, R75, R82). -/
def ioReadPart (s : State) (o : Nat) (n : Width) : Word × State :=
  match ioOwner s o with
  | .waitcnt => (halfPart s.waitcnt o n, s)
  | .irqControl => irqControlRead s o n
  | .power => forwardRead s .power o n
  | .device id => forwardRead s (.device id) o n
  | .nobody =>
    let (d, s) := draw s
    (n.trunc d, s)

/-- A byte or halfword write of the I/O window at offset o (R73, R76, R614). -/
def ioWritePart (s : State) (o : Nat) (n : Width) (v : Word) : State :=
  match ioOwner s o with
  | .waitcnt => { s with waitcnt := halfUpdate s.waitcnt o n v &&& waitcntMask }
  | .irqControl => irqControlWrite s o n v
  | .power => { forwardWrite s .power o n v with haltRequest := true }
  | .device id => forwardWrite s (.device id) o n v
  | .nobody => s

/-- One device owns both halves of the word at offset o. -/
def wordDevice (s : State) (o : Nat) : Option Nat :=
  match ioOwner s o, ioOwner s (o + 2) with
  | .device a, .device b => if a = b then some a else none
  | _, _ => none

/-- A read of the I/O window (R73, D12): a word whose halves have different owners is two halfwords, the lower first. -/
def ioRead (s : State) (o : Nat) (n : Width) : Word × State :=
  if n = .word then
    match wordDevice s o with
    | some id => forwardRead s (.device id) o .word
    | none =>
      let (lo, s) := ioReadPart s o .half
      let (hi, s) := ioReadPart s (o + 2) .half
      ((hi <<< 16) ||| lo, s)
  else ioReadPart s o n

/-- A write of the I/O window (R73, D12). -/
def ioWrite (s : State) (o : Nat) (n : Width) (v : Word) : State :=
  if n = .word then
    match wordDevice s o with
    | some id => forwardWrite s (.device id) o .word v
    | none => ioWritePart (ioWritePart s o .half (v &&& 0xFFFF)) (o + 2) .half (v >>> 16)
  else ioWritePart s o n v

/-! ### Save media and cartridge (R80, R81) -/

/-- The save media claims this address of the ROM region (R80). DESIGN CHOICE (log entry 15): R80 does not say whether the
address of an access is tested before or after Align; the model tests the unaligned one, which R81 forwards. -/
def claimed (s : State) (a : Word) : Bool :=
  s.params.saveClaims.any fun c => decide (c.first ≤ a.toNat ∧ a.toNat ≤ c.last)

/-- A read forwarded to SAVE_MEDIA, with the unaligned address (R81). -/
def saveRead (s : State) (addr : Word) (n : Width) : Word × State := forwardRead s .saveMedia (addr.toNat % 0x10000) n

/-- A write forwarded to SAVE_MEDIA, with the unaligned address (R81). -/
def saveWrite (s : State) (addr : Word) (n : Width) (v : Word) : State :=
  forwardWrite s .saveMedia (addr.toNat % 0x10000) n v

/-! ### Bus accesses -/

/-- The value of a bus read, unpriced (R66, R69, R70): `fetch` tells an instruction fetch from a data read. -/
def readValue (s : State) (fetch : Bool) (addr : Word) (n : Width) : Word × State :=
  let a := align addr n
  let o := offset a
  match region a with
  | .bios =>
    if !fetch && decide (0x4000 ≤ s.pc.toNat) then
      let (d, s) := draw s
      (n.trunc d, s)
    else (storedValue s .bios o n, s)
  | .ewram => (storedValue s .ewram o n, s)
  | .iwram => (storedValue s .iwram o n, s)
  | .pram => (storedValue s .pram o n, s)
  | .vram => (storedValue s .vram o n, s)
  | .oam => (storedValue s .oam o n, s)
  | .rom0 => if claimed s addr then saveRead s addr n else (storedValue s .rom0 o n, s)
  | .rom1 => if claimed s addr then saveRead s addr n else (storedValue s .rom1 o n, s)
  | .rom2 => if claimed s addr then saveRead s addr n else (storedValue s .rom2 o n, s)
  | .io => ioRead s o n
  | .sram => saveRead s addr n
  | .unmapped =>
    let (d, s) := draw s
    (n.trunc d, s)

/-- Stores n bytes at offset o of a region's byte store. -/
def storeAt (s : State) (r : Region) (o : Nat) (n : Width) (v : Word) : State :=
  { s with mem := Mem.store s.mem (r.base + o) n v }

/-- The low byte of a value in both bytes of a halfword (R77, R78). -/
def doubled (v : Word) : Word := (v &&& 0xFF) ||| ((v &&& 0xFF) <<< 8)

def VramBoundary.value : VramBoundary → Nat
  | .at10000 => 0x10000
  | .at14000 => 0x14000

/-- A ROM-region write: to the save media where it claims the address, else to the cartridge at the aligned address (R65);
the image never changes (R80). DESIGN CHOICE (log entry 34): R80 does not say what the cartridge is told of the address; the
record carries all 32 bits of it. -/
def romWrite (s : State) (addr : Word) (n : Width) (v : Word) : State :=
  if claimed s addr then saveWrite s addr n v else forwardWrite s .cartridge (align addr n).toNat n v

/-- The effect of a bus write, unpriced (R67, R77 to R81). -/
def writeValue (s : State) (addr : Word) (n : Width) (v : Word) : State :=
  let a := align addr n
  let o := offset a
  match region a with
  | .ewram => storeAt s .ewram o n v
  | .iwram => storeAt s .iwram o n v
  | .pram => if n = .byte then storeAt s .pram (o / 2 * 2) .half (doubled v) else storeAt s .pram o n v
  | .vram =>
    if n = .byte then
      if o < s.params.vramBoundary.value then storeAt s .vram (o / 2 * 2) .half (doubled v) else s
    else storeAt s .vram o n v
  | .oam => if n = .byte then s else storeAt s .oam o n v
  | .io => ioWrite s o n v
  | .sram => saveWrite s addr n v
  | .rom0 => romWrite s addr n v
  | .rom1 => romWrite s addr n v
  | .rom2 => romWrite s addr n v
  | .bios => s
  | .unmapped => s

/-! ### Price of an access (R83 to R87) -/

/-- [4,3,2,8][x] (R76, R85). -/
def firstWait (x : BitVec 2) : Nat :=
  match x.toNat with
  | 0 => 4 | 1 => 3 | 2 => 2 | _ => 8

/-- The cycles of an 8- or 16-bit access (R85). -/
def halfCost (ws : BitVec 16) (r : Region) (seq : Bool) : Nat :=
  match r with
  | .bios => 1
  | .iwram => 1
  | .io => 1
  | .oam => 1
  | .pram => 1
  | .vram => 1
  | .ewram => 3
  | .rom0 => 1 + (if seq then (if ws.getLsbD 4 then 1 else 2) else firstWait (ws.extractLsb' 2 2))
  | .rom1 => 1 + (if seq then (if ws.getLsbD 7 then 1 else 4) else firstWait (ws.extractLsb' 5 2))
  | .rom2 => 1 + (if seq then (if ws.getLsbD 10 then 1 else 8) else firstWait (ws.extractLsb' 8 2))
  | .sram => 1 + firstWait (ws.extractLsb' 0 2)
  | .unmapped => 1

/-- The region's data bus is 16 bits wide (R61). -/
def Region.narrow : Region → Bool
  | .ewram => true
  | .pram => true
  | .vram => true
  | .rom0 => true
  | .rom1 => true
  | .rom2 => true
  | .bios => false
  | .iwram => false
  | .io => false
  | .oam => false
  | .sram => false
  | .unmapped => false

/-- The cycles of an access (R83, R85, R86): a word on a 16-bit bus adds one sequential halfword. -/
def accessCost (ws : BitVec 16) (r : Region) (n : Width) (seq : Bool) : Nat :=
  if n = .word && r.narrow then halfCost ws r seq + halfCost ws r true else halfCost ws r seq

/-- R84 and R87: the access at aligned address a follows the last one in the same region, and no 128 KiB ROM page begins. -/
def sequential (l : Option LastAccess) (a : Word) : Bool :=
  match l with
  | none => false
  | some l =>
    l.region == region a && a == l.addr + BitVec.ofNat 32 l.width.bytes
      && !((region a).isRom && offset a % 0x20000 == 0)

/-- Advances the cycle counter (R40, R625). -/
def State.spend (s : State) (k : Nat) : State := { s with cycles := s.cycles + k }

/-- Prices one access and makes it the last one (R83, R84). -/
def charge (s : State) (addr : Word) (n : Width) : State :=
  let a := align addr n
  { s with
    cycles := s.cycles + accessCost s.waitcnt (region a) n (sequential s.last a)
    last := some ⟨a, n, region a⟩ }

/-- MemRead(addr, n) (R9, R66). -/
def memRead (s : State) (addr : Word) (n : Width) : Word × State :=
  let (v, s) := readValue s false addr n
  (v, charge s addr n)

/-- Where a byte lies after mirroring (R705). -/
def location (a : Word) : Region × Nat := (region a, offset a)

/-- Some byte of the aligned access lies in the two instruction slots after the current one, [PC + w, PC + 3w) (R705). -/
def prefetchHit (s : State) (addr : Word) (n : Width) : Bool :=
  let a := align addr n
  (List.range n.bytes).any fun i => (List.range (2 * instrBytes s.cpsr.t)).any fun j =>
    location (a + BitVec.ofNat 32 i) == location (s.pc + s.w + BitVec.ofNat 32 j)

/-- MemWrite(addr, n, v) (R9, R67), checked against the prefetch hazard (R705) and priced with the old WAITCNT (R708). -/
def memWrite (s : State) (addr : Word) (n : Width) (v : Word) : Result :=
  if prefetchHit s addr n then .fault .storeIntoPrefetched
  else .next (writeValue (charge s addr n) addr n v)

/-! ### The program counter -/

/-- The fetch width of the instruction set in force. -/
def State.fetchWidth (s : State) : Width := if s.cpsr.t then .half else .word

/-- The two fetches that refill the pipeline at t (R712). -/
def refill (s : State) (t : Word) : State := charge (charge s t s.fetchWidth) (t + s.w) s.fetchWidth

/-- PC <- PC + w after an instruction that did not branch (R27). -/
def advance (s : State) : State := { s with pc := s.pc + s.w }

/-- A branch to a target whose alignment the instruction has made right (R26, R712). -/
def jump (s : State) (t : Word) : State := { refill s t with pc := t }

/-- The target fits T: a multiple of 4 in ARM state, of 2 in Thumb state (R26, R28). -/
def pcFits (thumb : Bool) (t : Word) : Bool :=
  if thumb then t &&& 1 == 0 else t &&& 3 == 0

/-- BranchTo(t) (R26): the alignment is checked against the T now in force. -/
def branchTo (s : State) (t : Word) : Result :=
  if pcFits s.cpsr.t t then .next (jump s t) else .fault .misalignedBranchTarget

/-! ### Exceptions (R601 to R609) -/

/-- The exception kinds of R601. -/
inductive ExcKind where
  | reset | undefined | swi | prefetchAbort | dataAbort | irq | fiq
deriving DecidableEq, Repr

def ExcKind.vector : ExcKind → Word
  | .reset => 0x00 | .undefined => 0x04 | .swi => 0x08 | .prefetchAbort => 0x0C | .dataAbort => 0x10 | .irq => 0x18
  | .fiq => 0x1C

def ExcKind.mode : ExcKind → Mode
  | .reset => .svc | .undefined => .und | .swi => .svc | .prefetchAbort => .abt | .dataAbort => .abt | .irq => .irq
  | .fiq => .fiq

/-- Reset and FIQ entry also set F (R601, R605). -/
def ExcKind.masksF : ExcKind → Bool
  | .reset => true
  | .fiq => true
  | .undefined => false
  | .swi => false
  | .prefetchAbort => false
  | .dataAbort => false
  | .irq => false

/-- R14 of the mode entered, from the address A of R602 (the instruction that raised the exception, or the next one for an
interrupt) and the T in force. -/
def ExcKind.returnAddress (k : ExcKind) (a : Word) (thumb : Bool) : Word :=
  match k with
  | .undefined => a + (if thumb then 2 else 4)
  | .swi => a + (if thumb then 2 else 4)
  | .prefetchAbort => a + 4
  | .dataAbort => a + 8
  | .irq => a + 4
  | .fiq => a + 4
  | .reset => a

/-- Taking an exception: Enter(kind, ret) of R603 with ret from R602. The CPSR goes to the SPSR of the mode entered, R14 of
that mode gets the return address (neither for Reset), the mode, T and the masks change, the pipeline refills at the
vector. -/
def takeException (s : State) (k : ExcKind) : State :=
  let saved := s.cpsr.saved
  let ret := k.returnAddress s.pc s.cpsr.t
  let s := s.setCpsr { s.cpsr with mode := k.mode, t := false, i := true, f := s.cpsr.f || k.masksF }
  let s := if k = .reset then s else { s.setRegOf k.mode 14 ret with spsr := s.spsr.set k.mode saved }
  jump s k.vector

/-- An interrupt at phase (1) (R608, R609): the discarded prefetch is priced, the exception is taken, and the user-bank mark
is cleared (R706). -/
def takeInterrupt (s : State) (k : ExcKind) : State :=
  { takeException (charge s (s.pc + s.w + s.w) s.fetchWidth) k with hazardMark := none }

/-- CPSR <- SPSR (R36): the SPSR of the current mode, if it has one and its M is valid. -/
def restoreCpsr (s : State) : Except Fault State :=
  match s.spsr.get s.cpsr.mode with
  | none => .error .noSpsr
  | some p =>
    match p.restored? with
    | none => .error .invalidMode
    | some c => .ok (s.setCpsr c)

/-- Return from an exception (R36, R200, R618): restores the CPSR, then branches, the target checked against the restored T. -/
def exceptionReturn (s : State) (t : Word) : Result := orFault (restoreCpsr s) fun s => branchTo s t

/-! ### Status-register writes (R35) -/

/-- WritePSR(CPSR, value, mask) (R35); the flags written are marked so (R14). -/
def writeCpsr (s : State) (v : Word) (mask : BitVec 4) : Except Fault State :=
  let p := s.cpsr
  let p := if mask.getLsbD 3 then
      { p with n := v.getLsbD 31, z := v.getLsbD 30, c := v.getLsbD 29, v := v.getLsbD 28, marks := FlagMarks.fill true }
    else p
  if mask.getLsbD 0 && s.cpsr.mode.privileged then
    match Mode.ofBits? (v.extractLsb' 0 5) with
    | none => .error .invalidMode
    | some m =>
      if v.getLsbD 5 = s.cpsr.t then
        .ok (s.setCpsr { p with i := v.getLsbD 7, f := v.getLsbD 6, mode := m })
      else .error .msrWritesT
  else .ok (s.setCpsr p)

/-- WritePSR(SPSR, value, mask) (R35), with the written marks of what it writes (R14); bits 27:8 are not tracked (R37). -/
def writeSpsr (s : State) (v : Word) (mask : BitVec 4) : Except Fault State :=
  match s.spsr.get s.cpsr.mode with
  | none => .error .noSpsr
  | some p =>
    let p := if mask.getLsbD 3 then
        { p with n := v.getLsbD 31, z := v.getLsbD 30, c := v.getLsbD 29, v := v.getLsbD 28, marks := FlagMarks.fill true }
      else p
    let p := if mask.getLsbD 0 then
        { p with i := v.getLsbD 7, f := v.getLsbD 6, t := v.getLsbD 5, m := v.extractLsb' 0 5, lowWritten := true } else p
    .ok { s with spsr := s.spsr.set s.cpsr.mode p }

/-! ### The phases of a step (R600) -/

/-- irqLine (R612, R617): the interrupt controller's request, or the host's. -/
def State.irqLine (s : State) : Bool := s.irqInput || (s.irqc.ime && (s.irqc.ie &&& s.irqc.iflag) != 0)

/-- wakeLine (R612). -/
def State.wakeLine (s : State) : Bool := (s.irqc.ie &&& s.irqc.iflag) != 0

/-- Phase (0) of a halted machine that nothing wakes: HALT_STEP_CYCLES pass (R615, R717). -/
def haltedStep (s : State) : State := s.spend 1

/-- Phase (0) of a machine that goes on: a halted machine whose wakeLine is up runs again (R615). -/
def wake (s : State) : State := { s with run := .running }

/-- Phase (1): FIQ before IRQ, each if asserted and not masked (R600, R604). -/
def serviceInterrupts (s : State) : State :=
  if s.fiqLine && !s.cpsr.f then takeInterrupt s .fiq
  else if s.irqLine && !s.cpsr.i then takeInterrupt s .irq
  else s

/-- Phase (2): the bytes at PC, unpriced, and the price of the fetch at PC + 2w (R69, R711). -/
def fetch (s : State) : Word × State :=
  let (v, s) := readValue s true s.pc s.fetchWidth
  (v, charge s (s.pc + s.w + s.w) s.fetchWidth)

/-- Phase (3): the decoder of the instruction set in force (R110). -/
def decodeFetched (thumb : Bool) (v : Word) : Instr :=
  if thumb then decodeThumb (v.extractLsb' 0 16) else decodeArm v

/-- PC is aligned for T (R28). -/
def State.pcAligned (s : State) : Bool := pcFits s.cpsr.t s.pc

/-- userBankHazard (R46, R706): set at the end of the step before this one. Every step takes cycles, so the bit is down at the
end of every other step, a predicated no-op's and a halted one's included, which change nothing but what R600 and R615 name
(log entry 18). -/
def State.userBankHazard (s : State) : Bool := s.hazardMark == some s.cycles

/-- Phase (7) of R600 after an instruction that executed: the user-bank mark (R46, R706) and the halt request (R614). A
predicated no-op ends its step at phase (4). -/
def finishStep (userBank passed : Bool) (s : State) : State :=
  if passed then
    let s := { s with hazardMark := if userBank then some s.cycles else none }
    if s.haltRequest then { s with run := .halted, haltRequest := false } else s
  else s

/-! ### Placing an instruction where the next step fetches it -/

/-- The code at an address can be placed there: a stored region, and inside the image for ROM. -/
def placeable (s : State) (a : Word) : Bool :=
  (region a).stored && !((region a).isRom && (decide (s.params.romSize ≤ offset a + 3) || claimed s a))

/-- s with a code word at the address the next step fetches from, and with everything that fetch needs: the instruction
set, the Running state, no interrupt taken first, no user-bank mark, an aligned PC at which code can lie. -/
def placeCode (s : State) (code : Code) : State :=
  let t := code.isThumb
  let pc := align s.pc (if t then .half else .word)
  let pc := if placeable s pc then pc else 0x03000000
  let mem := match code with
    | .arm w => Mem.store s.mem ((region pc).base + offset pc) .word w
    | .thumb h => Mem.store s.mem ((region pc).base + offset pc) .half (h.setWidth 32)
  { s with
    mem := mem
    pc := pc
    cpsr := { s.cpsr with t := t }
    run := .running
    hazardMark := none
    irqInput := false
    fiqLine := false
    irqc := { s.irqc with ime := false } }

end Sys2Proof.Machine
end

