-- ==== Sys2Proof/Machine/Flags.lean ====
section
/-! DEFINITION. Flag computations and conditions (spec 30_encoding R112, 40_arm_dataproc R220, R221). -/

namespace Sys2Proof.Machine

/-- AddWithCarry(x, y, c) of R220: result, carry, overflow. -/
def addWithCarry (x y : Word) (c : Bool) : Word × Bool × Bool :=
  let usum := x.toNat + y.toNat + c.toNat
  let ssum := x.toInt + y.toInt + (c.toNat : Int)
  let result := BitVec.ofNat 32 usum
  (result, decide (2 ^ 32 ≤ usum), decide (result.toInt ≠ ssum))

/-- N and Z of a result; a flag that is set is written (R14). -/
def Cpsr.setNZ (p : Cpsr) (r : Word) : Cpsr :=
  { p with n := r.getLsbD 31, z := r == 0, marks := { p.marks with n := true, z := true } }

/-- N, Z and C: the logical operations (R221); V is not written. `sets` is false where the shifter gives C back as it was, and
then an unwritten C stays unwritten (R200, C8). -/
def Cpsr.setNZC (p : Cpsr) (r : Word) (c sets : Bool) : Cpsr :=
  { p with n := r.getLsbD 31, z := r == 0, c := c, marks := ⟨true, true, p.marks.c || sets, p.marks.v⟩ }

/-- N, Z, C and V: the arithmetic operations (R221). -/
def Cpsr.setNZCV (p : Cpsr) (r : Word) (c v : Bool) : Cpsr :=
  { p with n := r.getLsbD 31, z := r == 0, c := c, v := v, marks := FlagMarks.fill true }

/-- ConditionPassed(cond) (R112). -/
def condPassed (c : Cond) (p : Cpsr) : Bool :=
  match c with
  | .eq => p.z
  | .ne => !p.z
  | .cs => p.c
  | .cc => !p.c
  | .mi => p.n
  | .pl => !p.n
  | .vs => p.v
  | .vc => !p.v
  | .hi => p.c && !p.z
  | .ls => !p.c || p.z
  | .ge => p.n == p.v
  | .lt => p.n != p.v
  | .gt => !p.z && p.n == p.v
  | .le => p.z || p.n != p.v
  | .al => true
  | .nv => false

/-- Phase (4) (R113, R600): an ARM instruction whose condition fails only advances the PC. -/
def predicated (c : Cond) (s : State) (f : State → Result) : Result :=
  if condPassed c s.cpsr then f s else .next (advance s)

end Sys2Proof.Machine
end

