-- ==== Sys2Proof/Machine/Operands.lean ====
section
/-! DEFINITION. Operand forms: the shifter (spec 40_arm_dataproc R201 to R203), the addressing modes of single, halfword
and block transfers (42_arm_loadstore R270, R279, R284), sign extension and loaded values (R271, R280, R283), the register
numbers an instruction names (70_reset_and_hazards R706), and the internal cycles of the multiplies (R714). -/

namespace Sys2Proof.Machine

/-! ### The shifter -/

/-- Immediate operand2: value and carry-out, with the carry flag c (R201). -/
def shiftedImm (rotate : BitVec 4) (imm8 : Byte) (c : Bool) : Word × Bool :=
  let v := (imm8.setWidth 32 : Word).rotateRight (2 * rotate.toNat)
  (v, if rotate = 0 then c else v.getLsbD 31)

/-- The immediate-shift table of R202: value and carry-out; k is 0 to 31 and 0 means 32 for LSR and ASR, RRX for ROR. -/
def shiftByImm (ty : ShiftType) (k : Nat) (v : Word) (c : Bool) : Word × Bool :=
  match ty with
  | .lsl => if k = 0 then (v, c) else (v <<< k, v.getLsbD (32 - k))
  | .lsr => if k = 0 then (0, v.getLsbD 31) else (v >>> k, v.getLsbD (k - 1))
  | .asr =>
    if k = 0 then (if v.getLsbD 31 then 0xFFFFFFFF else 0, v.getLsbD 31) else (v.sshiftRight k, v.getLsbD (k - 1))
  | .ror => if k = 0 then (bit c ++ v.extractLsb' 1 31, v.getLsbD 0) else (v.rotateRight k, v.getLsbD (k - 1))

/-- The register-shift table of R203: value and carry-out; amt is 0 to 255. -/
def shiftByReg (ty : ShiftType) (amt : Nat) (v : Word) (c : Bool) : Word × Bool :=
  if amt = 0 then (v, c)
  else
    match ty with
    | .lsl =>
      if amt < 32 then (v <<< amt, v.getLsbD (32 - amt)) else if amt = 32 then (0, v.getLsbD 0) else (0, false)
    | .lsr =>
      if amt < 32 then (v >>> amt, v.getLsbD (amt - 1)) else if amt = 32 then (0, v.getLsbD 31) else (0, false)
    | .asr =>
      if amt < 32 then (v.sshiftRight amt, v.getLsbD (amt - 1))
      else (if v.getLsbD 31 then 0xFFFFFFFF else 0, v.getLsbD 31)
    | .ror =>
      if amt % 32 = 0 then (v, v.getLsbD 31) else (v.rotateRight (amt % 32), v.getLsbD (amt % 32 - 1))

/-- The operand is shifted by a register (R117). -/
def Operand2.isRegShift : Operand2 → Bool
  | .imm _ _ => false
  | .immShift _ _ _ => false
  | .regShift _ _ _ => true

/-- R15 as an operand beside a register-specified shift reads PC + 12 (R25, R200, R203). -/
def regOrStore (s : State) (n : RegNo) (o : Operand2) : Word :=
  if n = 15 ∧ Operand2.isRegShift o = true then s.pcStore else s.reg n

/-- Operand2(i): shifter_operand and shifter_carry (R201 to R203). -/
def operand2 (s : State) (o : Operand2) : Except Fault (Word × Bool) :=
  match o with
  | .imm rotate imm8 => .ok (shiftedImm rotate imm8 s.cpsr.c)
  | .immShift amount ty rm => .ok (shiftByImm ty amount.toNat (s.reg rm) s.cpsr.c)
  | .regShift rs ty rm =>
    if rs = 15 then .error .rsIsR15
    else .ok (shiftByReg ty ((s.reg rs).toNat % 256) (regOrStore s rm o) s.cpsr.c)

/-- The carry-out of R202 is the shifter's own: only LSL #0 gives CPSR.C back and leaves the flag as it was (R200, C8). -/
def immShiftSets (ty : ShiftType) (k : Nat) : Bool := !(ty == .lsl && k == 0)

/-- The carry-out of R203 is the shifter's own: an amount of 0 leaves the flag as it was. -/
def regShiftSets (amt : Nat) : Bool := amt != 0

/-- The shifter gives a carry-out of its own, so that a logical operation with S = 1 writes C (R201 to R203, C8). -/
def operand2Sets (s : State) : Operand2 → Bool
  | .imm rotate _ => rotate != 0
  | .immShift amount ty _ => immShiftSets ty amount.toNat
  | .regShift rs _ _ => regShiftSets ((s.reg rs).toNat % 256)

/-- The internal cycles of the operand (R713). -/
def operand2Cycles (o : Operand2) : Nat := if Operand2.isRegShift o then 1 else 0

/-! ### Loaded values -/

/-- The low byte, sign-extended (R8). -/
def sext8 (v : Word) : Word := (v.extractLsb' 0 8).signExtend 32

/-- The low halfword, sign-extended (R8). -/
def sext16 (v : Word) : Word := (v.extractLsb' 0 16).signExtend 32

/-- A word read, rotated right by 8 times the low two address bits (R271). -/
def loadWord (s : State) (a : Word) : Word × State :=
  let (v, s) := memRead s a .word
  (v.rotateRight (8 * (a.extractLsb' 0 2).toNat), s)

/-- A halfword read, rotated right by 8 at an odd address (R280). -/
def loadHalf (s : State) (a : Word) : Word × State :=
  let (v, s) := memRead s a .half
  (if a.getLsbD 0 then v.rotateRight 8 else v, s)

/-- A sign-extended halfword; at an odd address the sign-extended byte (R283). -/
def loadSignedHalf (s : State) (a : Word) : Word × State :=
  if a.getLsbD 0 then
    let (v, s) := memRead s a .byte
    (sext8 v, s)
  else
    let (v, s) := memRead s a .half
    (sext16 v, s)

/-- A zero-extended byte (R272). -/
def loadByte (s : State) (a : Word) : Word × State := memRead s a .byte

/-- A sign-extended byte (R282). -/
def loadSignedByte (s : State) (a : Word) : Word × State :=
  let (v, s) := memRead s a .byte
  (sext8 v, s)

/-! ### Addressing modes -/

/-- base + offset or base − offset by the U bit. -/
def indexed (up : Bool) (base off : Word) : Word := if up then base + off else base - off

/-- The offset of a word or byte transfer (R270). -/
def offset12Value (s : State) (o : Offset12) : Except Fault Word :=
  match o with
  | .imm v => .ok (v.setWidth 32)
  | .reg amount ty rm =>
    if rm = 15 then .error .rmIsR15 else .ok (shiftByImm ty amount.toNat (s.reg rm) s.cpsr.c).1

/-- The offset of a halfword or signed transfer (R279). -/
def offset8Value (s : State) (o : Offset8) : Except Fault Word :=
  match o with
  | .imm v => .ok (v.setWidth 32)
  | .reg sbz rm =>
    if sbz ≠ 0 then .error .shouldBeField else if rm = 15 then .error .rmIsR15 else .ok (s.reg rm)

/-- The address of the access and the value written back to the base register. -/
structure Addressing where
  address : Word
  newBase : Word
  writeback : Bool
deriving DecidableEq, Repr

/-- From base and offset to the addresses, with the writeback restriction (R270, R279). -/
def addressing (s : State) (pre wb up : Bool) (rn rd : RegNo) (off : Word) : Except Fault Addressing :=
  let base := s.reg rn
  let offAddr := indexed up base off
  let writes := !pre || wb
  if writes = true ∧ (rn = 15 ∨ rn = rd) then .error .writeback
  else .ok ⟨if pre then offAddr else base, offAddr, writes⟩

/-- The addressing of a word or byte transfer (R270). -/
def singleAddressing (s : State) (pre wb up : Bool) (rn rd : RegNo) (o : Offset12) : Except Fault Addressing :=
  match offset12Value s o with
  | .error e => .error e
  | .ok off => addressing s pre wb up rn rd off

/-- The addressing of a halfword or signed transfer (R279). -/
def halfAddressing (s : State) (p wb up : Bool) (rn rd : RegNo) (o : Offset8) : Except Fault Addressing :=
  if p = false ∧ wb = true then .error .postIndexedW
  else if rd = 15 then .error .rdIsR15
  else
    match offset8Value s o with
    | .error e => .error e
    | .ok off => addressing s p wb up rn rd off

/-- R[n] <- offset_addr if the mode writes back. -/
def writeBack (s : State) (rn : RegNo) (a : Addressing) : State := if a.writeback then s.setReg rn a.newBase else s

/-! ### Register lists -/

/-- The register numbers of a list in ascending order (R123, R284). -/
def regList (list : BitVec 16) : List RegNo :=
  ((List.range 16).filter fun k => list.getLsbD k).map fun k => BitVec.ofNat 4 k

/-- What a block transfer moves: the registers, the number of words the base moves by, the first address and the new base
(R284). -/
structure BlockFrame where
  regs : List RegNo
  start : Word
  newBase : Word
deriving DecidableEq, Repr

/-- The registers transferred and the count (R284, R457): an empty list stops, or transfers R15 as if 16 were listed. -/
def listOrEmpty (s : State) (regs : List RegNo) : Except Fault (List RegNo × Nat) :=
  if regs = [] then
    match s.params.emptyList with
    | .stop => .error .emptyRegisterList
    | .arm7tdmi => .ok ([15], 16)
  else .ok (regs, regs.length)

/-- The start address by P and U (R284): IA, IB, DA, DB. -/
def blockStart (p up : Bool) (base : Word) (count : Nat) : Word :=
  if up then (if p then base + 4 else base)
  else (if p then base - 4 * BitVec.ofNat 32 count else base - 4 * BitVec.ofNat 32 count + 4)

/-- The new base by U (R284). -/
def blockBase (up : Bool) (base : Word) (count : Nat) : Word :=
  if up then base + 4 * BitVec.ofNat 32 count else base - 4 * BitVec.ofNat 32 count

/-- The frame of an ARM block transfer (R284). -/
def blockFrame (s : State) (p up : Bool) (rn : RegNo) (list : BitVec 16) : Except Fault BlockFrame :=
  if rn = 15 then .error .rnIsR15
  else
    match listOrEmpty s (regList list) with
    | .error e => .error e
    | .ok (regs, count) => .ok ⟨regs, blockStart p up (s.reg rn) count, blockBase up (s.reg rn) count⟩

/-- Reads one word for each register at ascending addresses, not rotated (R285). -/
def readBlock (s : State) (a : Word) : List RegNo → List (RegNo × Word) × State
  | [] => ([], s)
  | k :: rest =>
    let (v, s) := memRead s a .word
    let (vs, s) := readBlock s (a + 4) rest
    ((k, v) :: vs, s)

/-- Writes the values at ascending addresses (R286). -/
def writeBlock (s : State) (a : Word) : List (RegNo × Word) → Result
  | [] => .next s
  | (_, v) :: rest => andThen (memWrite s a .word v) fun s => writeBlock s (a + 4) rest

/-- Writes the loaded values into the registers of mode m, R15 apart (R285, R287). -/
def loadRegs (s : State) (m : Mode) : List (RegNo × Word) → State
  | [] => s
  | (k, v) :: rest => loadRegs (s.setRegOf m k v) m rest

/-- The value loaded for R15, if R15 is in the list. -/
def loadedPc : List (RegNo × Word) → Option Word
  | [] => none
  | (k, v) :: rest => if k = 15 then some v else loadedPc rest

/-- The values STM stores (R286, D27): R15 as pcStored; the base, when it is written back and not the lowest register, as a
free value. -/
def storeValues (s : State) (base : Option RegNo) (pcStored : Word) (first : Bool) :
    List RegNo → List (RegNo × Word) × State
  | [] => ([], s)
  | k :: rest =>
    let (v, s) := if k = 15 then (pcStored, s) else if base = some k ∧ first = false then draw s else (s.reg k, s)
    let (vs, s) := storeValues s base pcStored false rest
    ((k, v) :: vs, s)

/-- The values a user-bank STM stores (R288). -/
def userValues (s : State) : List RegNo → List (RegNo × Word)
  | [] => []
  | k :: rest => (k, if k = 15 then s.pcStore else s.regOf .usr k) :: userValues s rest

/-! ### Multiplies -/

/-- m of R714; `signed` admits the all-ones test. -/
def multiplyCycles (x : Word) (signed : Bool) : Nat :=
  if x >>> 8 == 0 || (signed && x >>> 8 == 0x00FFFFFF) then 1
  else if x >>> 16 == 0 || (signed && x >>> 16 == 0x0000FFFF) then 2
  else if x >>> 24 == 0 || (signed && x >>> 24 == 0x000000FF) then 3
  else 4

/-! ### Registers an instruction names (R706) -/

/-- A register number that is banked in the mode (R706). -/
def bankedIn (m : Mode) (n : RegNo) : Bool :=
  match m with
  | .fiq => decide (8 ≤ n.toNat ∧ n.toNat ≤ 14)
  | .irq => n == 13 || n == 14
  | .svc => n == 13 || n == 14
  | .abt => n == 13 || n == 14
  | .und => n == 13 || n == 14
  | .usr => false
  | .sys => false

def operand2Regs : Operand2 → List RegNo
  | .imm _ _ => []
  | .immShift _ _ rm => [rm]
  | .regShift rs _ rm => [rs, rm]

def offset12Regs : Offset12 → List RegNo
  | .imm _ => []
  | .reg _ _ rm => [rm]

def offset8Regs : Offset8 → List RegNo
  | .imm _ => []
  | .reg _ rm => [rm]

/-- The registers an instruction reads or writes as an operand, base or list member, SP and LR of the implicit forms
included (R706, log entry 19). -/
def Instr.regs : Instr → List RegNo
  | .armAnd _ _ rn rd o => rn :: rd :: operand2Regs o
  | .armEor _ _ rn rd o => rn :: rd :: operand2Regs o
  | .armSub _ _ rn rd o => rn :: rd :: operand2Regs o
  | .armRsb _ _ rn rd o => rn :: rd :: operand2Regs o
  | .armAdd _ _ rn rd o => rn :: rd :: operand2Regs o
  | .armAdc _ _ rn rd o => rn :: rd :: operand2Regs o
  | .armSbc _ _ rn rd o => rn :: rd :: operand2Regs o
  | .armRsc _ _ rn rd o => rn :: rd :: operand2Regs o
  | .armTst _ rn _ o => rn :: operand2Regs o
  | .armTeq _ rn _ o => rn :: operand2Regs o
  | .armCmp _ rn _ o => rn :: operand2Regs o
  | .armCmn _ rn _ o => rn :: operand2Regs o
  | .armOrr _ _ rn rd o => rn :: rd :: operand2Regs o
  | .armMov _ _ _ rd o => rd :: operand2Regs o
  | .armBic _ _ rn rd o => rn :: rd :: operand2Regs o
  | .armMvn _ _ _ rd o => rd :: operand2Regs o
  | .armMrs _ _ _ rd _ _ => [rd]
  | .armMsrReg _ _ _ _ _ rm => [rm]
  | .armMsrImm _ _ _ _ _ _ => []
  | .armMul _ _ rd _ rs rm => [rd, rs, rm]
  | .armMla _ _ rd rn rs rm => [rd, rn, rs, rm]
  | .armUmull _ _ rdHi rdLo rs rm => [rdHi, rdLo, rs, rm]
  | .armUmlal _ _ rdHi rdLo rs rm => [rdHi, rdLo, rs, rm]
  | .armSmull _ _ rdHi rdLo rs rm => [rdHi, rdLo, rs, rm]
  | .armSmlal _ _ rdHi rdLo rs rm => [rdHi, rdLo, rs, rm]
  | .armSwp _ rn rd _ rm => [rn, rd, rm]
  | .armSwpb _ rn rd _ rm => [rn, rd, rm]
  | .armLdr _ _ _ rn rd o => rn :: rd :: offset12Regs o
  | .armLdrb _ _ _ rn rd o => rn :: rd :: offset12Regs o
  | .armStr _ _ _ rn rd o => rn :: rd :: offset12Regs o
  | .armStrb _ _ _ rn rd o => rn :: rd :: offset12Regs o
  | .armLdrt _ _ rn rd o => rn :: rd :: offset12Regs o
  | .armLdrbt _ _ rn rd o => rn :: rd :: offset12Regs o
  | .armStrt _ _ rn rd o => rn :: rd :: offset12Regs o
  | .armStrbt _ _ rn rd o => rn :: rd :: offset12Regs o
  | .armStrh _ _ _ _ rn rd o => rn :: rd :: offset8Regs o
  | .armLdrh _ _ _ _ rn rd o => rn :: rd :: offset8Regs o
  | .armLdrsb _ _ _ _ rn rd o => rn :: rd :: offset8Regs o
  | .armLdrsh _ _ _ _ rn rd o => rn :: rd :: offset8Regs o
  | .armLdm _ _ _ _ rn list => rn :: regList list
  | .armStm _ _ _ _ rn list => rn :: regList list
  | .armLdmUser _ _ _ _ rn list => rn :: regList (0#1 ++ list)
  | .armStmUser _ _ _ _ rn list => rn :: regList list
  | .armLdmExc _ _ _ _ rn list => rn :: regList (1#1 ++ list)
  | .armB _ _ => []
  | .armBl _ _ => [14]
  | .armBx _ _ rm => [rm]
  | .armSwi _ _ => []
  | .armCdp _ _ _ _ _ _ _ => []
  | .armLdc _ _ _ _ _ _ _ _ _ => []
  | .armStc _ _ _ _ _ _ _ _ _ => []
  | .armMcr _ _ _ _ _ _ _ => []
  | .armMrc _ _ _ _ _ _ _ => []
  | .armUndArch _ _ _ => []
  | .armUndMul _ _ _ _ => []
  | .armUndSignedStore _ _ _ _ _ => []
  | .armUndMisc _ _ _ _ => []
  | .armUndMsrImm _ _ _ => []
  | .thumbLslImm _ rs rd => [low rs, low rd]
  | .thumbLsrImm _ rs rd => [low rs, low rd]
  | .thumbAsrImm _ rs rd => [low rs, low rd]
  | .thumbAddReg rn rs rd => [low rn, low rs, low rd]
  | .thumbSubReg rn rs rd => [low rn, low rs, low rd]
  | .thumbAddImm3 _ rs rd => [low rs, low rd]
  | .thumbSubImm3 _ rs rd => [low rs, low rd]
  | .thumbMovImm rd _ => [low rd]
  | .thumbCmpImm rd _ => [low rd]
  | .thumbAddImm8 rd _ => [low rd]
  | .thumbSubImm8 rd _ => [low rd]
  | .thumbAnd rs rd => [low rs, low rd]
  | .thumbEor rs rd => [low rs, low rd]
  | .thumbLslReg rs rd => [low rs, low rd]
  | .thumbLsrReg rs rd => [low rs, low rd]
  | .thumbAsrReg rs rd => [low rs, low rd]
  | .thumbAdc rs rd => [low rs, low rd]
  | .thumbSbc rs rd => [low rs, low rd]
  | .thumbRorReg rs rd => [low rs, low rd]
  | .thumbTst rs rd => [low rs, low rd]
  | .thumbNeg rs rd => [low rs, low rd]
  | .thumbCmpReg rs rd => [low rs, low rd]
  | .thumbCmn rs rd => [low rs, low rd]
  | .thumbOrr rs rd => [low rs, low rd]
  | .thumbMul rs rd => [low rs, low rd]
  | .thumbBic rs rd => [low rs, low rd]
  | .thumbMvn rs rd => [low rs, low rd]
  | .thumbAddHi hs hd => [hs, hd]
  | .thumbCmpHi hs hd => [hs, hd]
  | .thumbMovHi hs hd => [hs, hd]
  | .thumbBx _ hs _ => [hs]
  | .thumbLdrPc rd _ => [low rd]
  | .thumbStrReg ro rb rd => [low ro, low rb, low rd]
  | .thumbStrbReg ro rb rd => [low ro, low rb, low rd]
  | .thumbLdrReg ro rb rd => [low ro, low rb, low rd]
  | .thumbLdrbReg ro rb rd => [low ro, low rb, low rd]
  | .thumbStrhReg ro rb rd => [low ro, low rb, low rd]
  | .thumbLdsbReg ro rb rd => [low ro, low rb, low rd]
  | .thumbLdrhReg ro rb rd => [low ro, low rb, low rd]
  | .thumbLdshReg ro rb rd => [low ro, low rb, low rd]
  | .thumbStrImm _ rb rd => [low rb, low rd]
  | .thumbLdrImm _ rb rd => [low rb, low rd]
  | .thumbStrbImm _ rb rd => [low rb, low rd]
  | .thumbLdrbImm _ rb rd => [low rb, low rd]
  | .thumbStrhImm _ rb rd => [low rb, low rd]
  | .thumbLdrhImm _ rb rd => [low rb, low rd]
  | .thumbStrSp rd _ => [13, low rd]
  | .thumbLdrSp rd _ => [13, low rd]
  | .thumbAddPc rd _ => [low rd]
  | .thumbAddSp rd _ => [13, low rd]
  | .thumbIncSp _ => [13]
  | .thumbDecSp _ => [13]
  | .thumbPush lr list => 13 :: ((if lr then [14] else []) ++ regList (0#8 ++ list))
  | .thumbPop _ list => 13 :: regList (0#8 ++ list)
  | .thumbStmia rb list => low rb :: regList (0#8 ++ list)
  | .thumbLdmia rb list => low rb :: regList (0#8 ++ list)
  | .thumbSwi _ => []
  | .thumbBcond _ _ => []
  | .thumbB _ => []
  | .thumbBlHigh _ => [14]
  | .thumbBlLow _ => [14]
  | .thumbUnd1011 _ => []
  | .thumbUndCond _ => []
  | .thumbUnd11101 _ => []

/-- The condition of an ARM instruction; every Thumb instruction executes (R113). -/
def Instr.cond : Instr → Cond
  | .armAnd c _ _ _ _ => c
  | .armEor c _ _ _ _ => c
  | .armSub c _ _ _ _ => c
  | .armRsb c _ _ _ _ => c
  | .armAdd c _ _ _ _ => c
  | .armAdc c _ _ _ _ => c
  | .armSbc c _ _ _ _ => c
  | .armRsc c _ _ _ _ => c
  | .armTst c _ _ _ => c
  | .armTeq c _ _ _ => c
  | .armCmp c _ _ _ => c
  | .armCmn c _ _ _ => c
  | .armOrr c _ _ _ _ => c
  | .armMov c _ _ _ _ => c
  | .armBic c _ _ _ _ => c
  | .armMvn c _ _ _ _ => c
  | .armMrs c _ _ _ _ _ => c
  | .armMsrReg c _ _ _ _ _ => c
  | .armMsrImm c _ _ _ _ _ => c
  | .armMul c _ _ _ _ _ => c
  | .armMla c _ _ _ _ _ => c
  | .armUmull c _ _ _ _ _ => c
  | .armUmlal c _ _ _ _ _ => c
  | .armSmull c _ _ _ _ _ => c
  | .armSmlal c _ _ _ _ _ => c
  | .armSwp c _ _ _ _ => c
  | .armSwpb c _ _ _ _ => c
  | .armLdr c _ _ _ _ _ => c
  | .armLdrb c _ _ _ _ _ => c
  | .armStr c _ _ _ _ _ => c
  | .armStrb c _ _ _ _ _ => c
  | .armLdrt c _ _ _ _ => c
  | .armLdrbt c _ _ _ _ => c
  | .armStrt c _ _ _ _ => c
  | .armStrbt c _ _ _ _ => c
  | .armStrh c _ _ _ _ _ _ => c
  | .armLdrh c _ _ _ _ _ _ => c
  | .armLdrsb c _ _ _ _ _ _ => c
  | .armLdrsh c _ _ _ _ _ _ => c
  | .armLdm c _ _ _ _ _ => c
  | .armStm c _ _ _ _ _ => c
  | .armLdmUser c _ _ _ _ _ => c
  | .armStmUser c _ _ _ _ _ => c
  | .armLdmExc c _ _ _ _ _ => c
  | .armB c _ => c
  | .armBl c _ => c
  | .armBx c _ _ => c
  | .armSwi c _ => c
  | .armCdp c _ _ _ _ _ _ => c
  | .armLdc c _ _ _ _ _ _ _ _ => c
  | .armStc c _ _ _ _ _ _ _ _ => c
  | .armMcr c _ _ _ _ _ _ => c
  | .armMrc c _ _ _ _ _ _ => c
  | .armUndArch c _ _ => c
  | .armUndMul c _ _ _ => c
  | .armUndSignedStore c _ _ _ _ => c
  | .armUndMisc c _ _ _ => c
  | .armUndMsrImm c _ _ => c
  | _ => .al

/-- An LDM or STM that transfers User registers (R46). -/
def Instr.isUserBank : Instr → Bool
  | .armLdmUser _ _ _ _ _ _ => true
  | .armStmUser _ _ _ _ _ _ => true
  | _ => false

/-- The condition of the instruction passes; a Thumb instruction's always does at phase (4). -/
def passes (i : Instr) (s : State) : Bool := condPassed (Instr.cond i) s.cpsr

/-- The user-bank mark is set and the instruction, whose condition passes, names a register banked in the mode (R706). -/
def bankHazard (i : Instr) (s : State) : Bool :=
  s.userBankHazard && passes i s && (Instr.regs i).any (bankedIn s.cpsr.mode)

end Sys2Proof.Machine
end

