-- ==== Sys2Proof/Machine/BranchSystem.lean ====
section
/-! DEFINITION. ARM branches, software interrupt, coprocessor instructions and undefined encodings (spec
43_arm_branch_system R310 to R320). -/

namespace Sys2Proof.Machine

/-- The target of B and BL: PC + 8 plus the signed word offset (R310, R311). -/
def armBranchTarget (s : State) (offset : BitVec 24) : Word := s.pcRead + (offset ++ 0#2).signExtend 32

/-- Branch and exchange (R312, R484): T from bit 0, the target checked against the new T. -/
def exchange (s : State) (v : Word) : Result := branchTo (s.setCpsr { s.cpsr with t := v.getLsbD 0 }) (v &&& 0xFFFFFFFE)

/-- Raising the undefined-instruction exception: one internal cycle and the entry (R606, R716). -/
def raiseUndefined (s : State) : Result := .next (takeException (s.spend 1) .undefined)

/-- Raising the software interrupt (R607). -/
def raiseSwi (s : State) : Result := .next (takeException s .swi)

/-- B (R310). -/
def execArmB (c : Cond) (offset : BitVec 24) (s : State) : Result :=
  predicated c s fun s => branchTo s (armBranchTarget s offset)

/-- BL (R311). -/
def execArmBl (c : Cond) (offset : BitVec 24) (s : State) : Result :=
  predicated c s fun s => branchTo (s.setReg 14 (s.pc + 4)) (armBranchTarget s offset)

/-- BX (R312). -/
def execArmBx (c : Cond) (sbo : BitVec 12) (rm : RegNo) (s : State) : Result :=
  predicated c s fun s => if sbo ≠ 0xFFF then .fault .shouldBeField else exchange s (s.reg rm)

/-- SWI (R313): the comment field is not interpreted. -/
def execArmSwi (c : Cond) (_comment : BitVec 24) (s : State) : Result := predicated c s raiseSwi

/-- CDP (R314): no coprocessor is attached. -/
def execArmCdp (c : Cond) (_op1 _crn _crd _cp : BitVec 4) (_op2 : BitVec 3) (_crm : BitVec 4) (s : State) : Result :=
  predicated c s raiseUndefined

/-- LDC (R315): no memory access, no base writeback. -/
def execArmLdc (c : Cond) (_p _up _n _w : Bool) (_rn : RegNo) (_crd _cp : BitVec 4) (_offset : Byte) (s : State) :
    Result :=
  predicated c s raiseUndefined

/-- STC (R316): no memory access, no base writeback. -/
def execArmStc (c : Cond) (_p _up _n _w : Bool) (_rn : RegNo) (_crd _cp : BitVec 4) (_offset : Byte) (s : State) :
    Result :=
  predicated c s raiseUndefined

/-- MCR (R317): Rd is not read. -/
def execArmMcr (c : Cond) (_op1 : BitVec 3) (_crn : BitVec 4) (_rd : RegNo) (_cp : BitVec 4) (_op2 : BitVec 3)
    (_crm : BitVec 4) (s : State) : Result :=
  predicated c s raiseUndefined

/-- MRC (R318): Rd is not written. -/
def execArmMrc (c : Cond) (_op1 : BitVec 3) (_crn : BitVec 4) (_rd : RegNo) (_cp : BitVec 4) (_op2 : BitVec 3)
    (_crm : BitVec 4) (s : State) : Result :=
  predicated c s raiseUndefined

/-- The architecturally undefined instruction (R319). -/
def execArmUndArch (c : Cond) (_hi : BitVec 20) (_lo : BitVec 4) (s : State) : Result := predicated c s raiseUndefined

/-- Unallocated multiply space (R320). -/
def execArmUndMul (c : Cond) (_op : BitVec 5) (_mid : BitVec 12) (_lo : BitVec 4) (s : State) : Result :=
  predicated c s raiseUndefined

/-- Unallocated signed stores (R320). -/
def execArmUndSignedStore (c : Cond) (_op : BitVec 4) (_mid : BitVec 12) (_h : Bool) (_lo : BitVec 4) (s : State) :
    Result :=
  predicated c s raiseUndefined

/-- Unallocated miscellaneous space (R320). -/
def execArmUndMisc (c : Cond) (_op : BitVec 2) (_mid : BitVec 12) (_lo : Byte) (s : State) : Result :=
  predicated c s raiseUndefined

/-- Unallocated MSR-immediate hole (R320). -/
def execArmUndMsrImm (c : Cond) (_r : Bool) (_rest : BitVec 20) (s : State) : Result := predicated c s raiseUndefined

end Sys2Proof.Machine
end

