-- ==== Sys2Proof/Machine/DataProc.lean ====
section
/-! DEFINITION. The sixteen ARM data-processing instructions (spec 40_arm_dataproc R200, R204 to R219). -/

namespace Sys2Proof.Machine

/-! ### The frame of R200 -/

/-- The destination of R200: a register with the flags of `p` when S = 1; R15 is a branch, and with S = 1 an exception
return. `s` is the state after the operand's internal cycles. -/
def writeResult (s : State) (sf : Bool) (rd : RegNo) (r : Word) (p : Cpsr) : Result :=
  if rd = 15 then (if sf then exceptionReturn s r else branchTo s r)
  else .next (advance ((if sf then s.setCpsr p else s).setReg rd r))

/-- AND, EOR, ORR, BIC: an operation on both operands, with the flags of R221. -/
def logical (c : Cond) (sf : Bool) (rn rd : RegNo) (o : Operand2) (op : Word → Word → Word) (s : State) : Result :=
  predicated c s fun s => orFault (operand2 s o) fun (b, sc) =>
    let r := op (regOrStore s rn o) b
    writeResult (s.spend (operand2Cycles o)) sf rd r (s.cpsr.setNZC r sc (operand2Sets s o))

/-- SUB, RSB, ADD, ADC, SBC, RSC: an operation on both operands and the carry flag, with all four flags. -/
def arithmetic (c : Cond) (sf : Bool) (rn rd : RegNo) (o : Operand2) (op : Word → Word → Bool → Word × Bool × Bool)
    (s : State) : Result :=
  predicated c s fun s => orFault (operand2 s o) fun (b, _) =>
    let (r, co, vo) := op (regOrStore s rn o) b s.cpsr.c
    writeResult (s.spend (operand2Cycles o)) sf rd r (s.cpsr.setNZCV r co vo)

/-- MOV, MVN: the operand alone; the Rn field should be zero. -/
def moveOp (c : Cond) (sf : Bool) (sbz : BitVec 4) (rd : RegNo) (o : Operand2) (op : Word → Word) (s : State) : Result :=
  predicated c s fun s =>
    if sbz ≠ 0 then .fault .shouldBeField
    else orFault (operand2 s o) fun (b, sc) =>
      writeResult (s.spend (operand2Cycles o)) sf rd (op b) (s.cpsr.setNZC (op b) sc (operand2Sets s o))

/-- TST, TEQ: only the flags of R221; the Rd field should be zero. -/
def testOp (c : Cond) (rn : RegNo) (sbz : BitVec 4) (o : Operand2) (op : Word → Word → Word) (s : State) : Result :=
  predicated c s fun s =>
    if sbz ≠ 0 then .fault .shouldBeField
    else orFault (operand2 s o) fun (b, sc) =>
      let p := s.cpsr.setNZC (op (regOrStore s rn o) b) sc (operand2Sets s o)
      .next (advance ((s.spend (operand2Cycles o)).setCpsr p))

/-- CMP, CMN: only the four flags; the Rd field should be zero. -/
def compareOp (c : Cond) (rn : RegNo) (sbz : BitVec 4) (o : Operand2) (op : Word → Word → Word × Bool × Bool)
    (s : State) : Result :=
  predicated c s fun s =>
    if sbz ≠ 0 then .fault .shouldBeField
    else orFault (operand2 s o) fun (b, _) =>
      let (r, co, vo) := op (regOrStore s rn o) b
      .next (advance ((s.spend (operand2Cycles o)).setCpsr (s.cpsr.setNZCV r co vo)))

/-! ### The sixteen operations -/

/-- AND (R204). -/
def execArmAnd (c : Cond) (sf : Bool) (rn rd : RegNo) (o : Operand2) (s : State) : Result :=
  logical c sf rn rd o (fun a b => a &&& b) s

/-- EOR (R205). -/
def execArmEor (c : Cond) (sf : Bool) (rn rd : RegNo) (o : Operand2) (s : State) : Result :=
  logical c sf rn rd o (fun a b => a ^^^ b) s

/-- SUB (R206). -/
def execArmSub (c : Cond) (sf : Bool) (rn rd : RegNo) (o : Operand2) (s : State) : Result :=
  arithmetic c sf rn rd o (fun a b _ => addWithCarry a (~~~b) true) s

/-- RSB (R207). -/
def execArmRsb (c : Cond) (sf : Bool) (rn rd : RegNo) (o : Operand2) (s : State) : Result :=
  arithmetic c sf rn rd o (fun a b _ => addWithCarry b (~~~a) true) s

/-- ADD (R208). -/
def execArmAdd (c : Cond) (sf : Bool) (rn rd : RegNo) (o : Operand2) (s : State) : Result :=
  arithmetic c sf rn rd o (fun a b _ => addWithCarry a b false) s

/-- ADC (R209). -/
def execArmAdc (c : Cond) (sf : Bool) (rn rd : RegNo) (o : Operand2) (s : State) : Result :=
  arithmetic c sf rn rd o (fun a b carry => addWithCarry a b carry) s

/-- SBC (R210). -/
def execArmSbc (c : Cond) (sf : Bool) (rn rd : RegNo) (o : Operand2) (s : State) : Result :=
  arithmetic c sf rn rd o (fun a b carry => addWithCarry a (~~~b) carry) s

/-- RSC (R211). -/
def execArmRsc (c : Cond) (sf : Bool) (rn rd : RegNo) (o : Operand2) (s : State) : Result :=
  arithmetic c sf rn rd o (fun a b carry => addWithCarry b (~~~a) carry) s

/-- TST (R212). -/
def execArmTst (c : Cond) (rn : RegNo) (sbz : BitVec 4) (o : Operand2) (s : State) : Result :=
  testOp c rn sbz o (fun a b => a &&& b) s

/-- TEQ (R213). -/
def execArmTeq (c : Cond) (rn : RegNo) (sbz : BitVec 4) (o : Operand2) (s : State) : Result :=
  testOp c rn sbz o (fun a b => a ^^^ b) s

/-- CMP (R214). -/
def execArmCmp (c : Cond) (rn : RegNo) (sbz : BitVec 4) (o : Operand2) (s : State) : Result :=
  compareOp c rn sbz o (fun a b => addWithCarry a (~~~b) true) s

/-- CMN (R215). -/
def execArmCmn (c : Cond) (rn : RegNo) (sbz : BitVec 4) (o : Operand2) (s : State) : Result :=
  compareOp c rn sbz o (fun a b => addWithCarry a b false) s

/-- ORR (R216). -/
def execArmOrr (c : Cond) (sf : Bool) (rn rd : RegNo) (o : Operand2) (s : State) : Result :=
  logical c sf rn rd o (fun a b => a ||| b) s

/-- MOV (R217). -/
def execArmMov (c : Cond) (sf : Bool) (sbz : BitVec 4) (rd : RegNo) (o : Operand2) (s : State) : Result :=
  moveOp c sf sbz rd o (fun b => b) s

/-- BIC (R218). -/
def execArmBic (c : Cond) (sf : Bool) (rn rd : RegNo) (o : Operand2) (s : State) : Result :=
  logical c sf rn rd o (fun a b => a &&& ~~~b) s

/-- MVN (R219). -/
def execArmMvn (c : Cond) (sf : Bool) (sbz : BitVec 4) (rd : RegNo) (o : Operand2) (s : State) : Result :=
  moveOp c sf sbz rd o (fun b => ~~~b) s

end Sys2Proof.Machine
end

