-- ==== Sys2Proof/Machine/LoadStore.lean ====
section
/-! DEFINITION. ARM single, halfword and block transfers (spec 42_arm_loadstore R270 to R289). -/

namespace Sys2Proof.Machine

/-! ### Word and unsigned-byte transfers -/

/-- P of an index form. -/
def Index.pre : Index → Bool
  | .offset => true
  | .preIndexed => true
  | .postIndexed => false

/-- W of an index form. -/
def Index.wb : Index → Bool
  | .offset => false
  | .preIndexed => true
  | .postIndexed => false

/-- A load through an addressing mode: the read, one internal cycle, the base, then the destination; `toPc` is what the
instruction does when Rd is R15. -/
def loadThrough (s : State) (a : Except Fault Addressing) (rn rd : RegNo) (load : State → Word → Word × State)
    (toPc : State → Word → Result) : Result :=
  orFault a fun a =>
    let (v, s) := load s a.address
    let s := writeBack (s.spend 1) rn a
    if rd = 15 then toPc s v else .next (advance (s.setReg rd v))

/-- A store through an addressing mode: the write, then the base. -/
def storeThrough (s : State) (a : Except Fault Addressing) (rn : RegNo) (n : Width) (v : Word) : Result :=
  orFault a fun a => andThen (memWrite s a.address n v) fun s => .next (advance (writeBack s rn a))

/-- The value STR stores: R15 is PC + 12 (R273). -/
def storedReg (s : State) (rd : RegNo) : Word := if rd = 15 then s.pcStore else s.reg rd

/-- STRB and STRBT: the address, then the restriction on R15 (R274, R278). -/
def storeByteThrough (s : State) (a : Except Fault Addressing) (rn rd : RegNo) : Result :=
  orFault a fun a =>
    if rd = 15 then .fault .strbFromR15 else storeThrough s (.ok a) rn .byte (Width.byte.trunc (s.reg rd))

/-- The address mask of an ARM branch target taken from memory (R271, R285). -/
def armTarget (v : Word) : Word := v &&& 0xFFFFFFFC

/-- The address mask of a Thumb branch target (R428, R430, R457, R459). -/
def thumbTarget (v : Word) : Word := v &&& 0xFFFFFFFE

/-- LDR (R271). -/
def execArmLdr (c : Cond) (ix : Index) (up : Bool) (rn rd : RegNo) (off : Offset12) (s : State) : Result :=
  predicated c s fun s =>
    loadThrough s (singleAddressing s (Index.pre ix) (Index.wb ix) up rn rd off) rn rd loadWord fun s v =>
      .next (jump s (armTarget v))

/-- LDRB (R272). -/
def execArmLdrb (c : Cond) (ix : Index) (up : Bool) (rn rd : RegNo) (off : Offset12) (s : State) : Result :=
  predicated c s fun s =>
    loadThrough s (singleAddressing s (Index.pre ix) (Index.wb ix) up rn rd off) rn rd loadByte fun _ _ =>
      .fault .ldrbToR15

/-- STR (R273). -/
def execArmStr (c : Cond) (ix : Index) (up : Bool) (rn rd : RegNo) (off : Offset12) (s : State) : Result :=
  predicated c s fun s =>
    storeThrough s (singleAddressing s (Index.pre ix) (Index.wb ix) up rn rd off) rn .word (storedReg s rd)

/-- STRB (R274). -/
def execArmStrb (c : Cond) (ix : Index) (up : Bool) (rn rd : RegNo) (off : Offset12) (s : State) : Result :=
  predicated c s fun s =>
    storeByteThrough s (singleAddressing s (Index.pre ix) (Index.wb ix) up rn rd off) rn rd

/-- LDRT (R275): post-indexed. -/
def execArmLdrt (c : Cond) (up : Bool) (rn rd : RegNo) (off : Offset12) (s : State) : Result :=
  predicated c s fun s =>
    loadThrough s (singleAddressing s false true up rn rd off) rn rd loadWord fun _ _ => .fault .ldrtToR15

/-- LDRBT (R276): post-indexed. -/
def execArmLdrbt (c : Cond) (up : Bool) (rn rd : RegNo) (off : Offset12) (s : State) : Result :=
  predicated c s fun s =>
    loadThrough s (singleAddressing s false true up rn rd off) rn rd loadByte fun _ _ => .fault .ldrtToR15

/-- STRT (R277): post-indexed. -/
def execArmStrt (c : Cond) (up : Bool) (rn rd : RegNo) (off : Offset12) (s : State) : Result :=
  predicated c s fun s => storeThrough s (singleAddressing s false true up rn rd off) rn .word (storedReg s rd)

/-- STRBT (R278): post-indexed. -/
def execArmStrbt (c : Cond) (up : Bool) (rn rd : RegNo) (off : Offset12) (s : State) : Result :=
  predicated c s fun s => storeByteThrough s (singleAddressing s false true up rn rd off) rn rd

/-! ### Halfword and signed transfers -/

/-- A halfword or signed load (R279, R280, R282, R283); Rd = R15 has stopped in the addressing. -/
def loadHalfForm (c : Cond) (p up w : Bool) (rn rd : RegNo) (off : Offset8) (load : State → Word → Word × State)
    (s : State) : Result :=
  predicated c s fun s =>
    loadThrough s (halfAddressing s p w up rn rd off) rn rd load fun _ _ => .fault .rdIsR15

/-- STRH (R281). -/
def execArmStrh (c : Cond) (p up w : Bool) (rn rd : RegNo) (off : Offset8) (s : State) : Result :=
  predicated c s fun s =>
    storeThrough s (halfAddressing s p w up rn rd off) rn .half (Width.half.trunc (s.reg rd))

/-- LDRH (R280). -/
def execArmLdrh (c : Cond) (p up w : Bool) (rn rd : RegNo) (off : Offset8) (s : State) : Result :=
  loadHalfForm c p up w rn rd off loadHalf s

/-- LDRSB (R282). -/
def execArmLdrsb (c : Cond) (p up w : Bool) (rn rd : RegNo) (off : Offset8) (s : State) : Result :=
  loadHalfForm c p up w rn rd off loadSignedByte s

/-- LDRSH (R283). -/
def execArmLdrsh (c : Cond) (p up w : Bool) (rn rd : RegNo) (off : Offset8) (s : State) : Result :=
  loadHalfForm c p up w rn rd off loadSignedHalf s

/-! ### Block transfers -/

/-- R[n] <- new_base if W = 1. -/
def baseUpdate (s : State) (w : Bool) (rn : RegNo) (newBase : Word) : State := if w then s.setReg rn newBase else s

/-- The end of a block load that may load R15: the branch with the given target mask, or the next instruction. -/
def branchLoaded (s : State) (vals : List (RegNo × Word)) (target : Word → Word) : State :=
  match loadedPc vals with
  | some v => jump s (target v)
  | none => advance s

/-- LDM (R285). -/
def execArmLdm (c : Cond) (p up w : Bool) (rn : RegNo) (list : BitVec 16) (s : State) : Result :=
  predicated c s fun s => orFault (blockFrame s p up rn list) fun fr =>
    if w && list.getLsbD rn.toNat then .fault .rnInListWithWriteback
    else
      let (vals, s) := readBlock s fr.start fr.regs
      let s := baseUpdate (s.spend 1) w rn fr.newBase
      .next (branchLoaded (loadRegs s s.cpsr.mode vals) vals armTarget)

/-- STM (R286). -/
def execArmStm (c : Cond) (p up w : Bool) (rn : RegNo) (list : BitVec 16) (s : State) : Result :=
  predicated c s fun s => orFault (blockFrame s p up rn list) fun fr =>
    let (vals, s) := storeValues s (if w then some rn else none) s.pcStore true fr.regs
    andThen (writeBlock s fr.start vals) fun s => .next (advance (baseUpdate s w rn fr.newBase))

/-- LDM (user bank) (R287): the mark of R46 is set by the step. An empty list under the policy arm7tdmi loads R15
(log entry 21). -/
def execArmLdmUser (c : Cond) (p up w : Bool) (rn : RegNo) (list : BitVec 15) (s : State) : Result :=
  predicated c s fun s => orFault (blockFrame s p up rn (0#1 ++ list)) fun fr =>
    if s.cpsr.mode.hasSpsr = false then .fault .sBitInUserOrSystem
    else if w then .fault .sBitWithWriteback
    else
      let (vals, s) := readBlock s fr.start fr.regs
      .next (branchLoaded (loadRegs (s.spend 1) .usr vals) vals armTarget)

/-- STM (user bank) (R288): the mark of R46 is set by the step. -/
def execArmStmUser (c : Cond) (p up w : Bool) (rn : RegNo) (list : BitVec 16) (s : State) : Result :=
  predicated c s fun s => orFault (blockFrame s p up rn list) fun fr =>
    if s.cpsr.mode.hasSpsr = false then .fault .sBitInUserOrSystem
    else if w then .fault .sBitWithWriteback
    else andThen (writeBlock s fr.start (userValues s fr.regs)) fun s => .next (advance s)

/-- LDM (exception return) (R289): base and registers in the bank of the mode that executes it, then the CPSR, then the
branch, aligned for the restored T. -/
def execArmLdmExc (c : Cond) (p up w : Bool) (rn : RegNo) (list : BitVec 15) (s : State) : Result :=
  predicated c s fun s => orFault (blockFrame s p up rn (1#1 ++ list)) fun fr =>
    if s.cpsr.mode.hasSpsr = false then .fault .noSpsr
    else if w && (1#1 ++ list).getLsbD rn.toNat then .fault .rnInListWithWriteback
    else
      let (vals, s) := readBlock s fr.start fr.regs
      let s := baseUpdate (s.spend 1) w rn fr.newBase
      orFault (restoreCpsr (loadRegs s s.cpsr.mode vals)) fun s =>
        .next (branchLoaded s vals (if s.cpsr.t then thumbTarget else armTarget))

end Sys2Proof.Machine
end

