-- ==== Sys2Proof/Machine/PsrMulSwap.lean ====
section
/-! DEFINITION. ARM status-register transfer, multiply and swap (spec 41_arm_psr_mul_swap R240 to R251). -/

namespace Sys2Proof.Machine

/-! ### Status-register transfer -/

/-- The status register MRS reads (R34, R240): the SPSR of the current mode, if it has one, or the CPSR. -/
def readPsr (s : State) (spsr : Bool) : Except Fault Psr :=
  if spsr then
    match s.spsr.get s.cpsr.mode with
    | none => .error .noSpsr
    | some p => .ok p
  else .ok s.cpsr.saved

/-- MRS (R240): bits 27:8 are a fresh free value (R37). -/
def execArmMrs (c : Cond) (spsr : Bool) (sbo : BitVec 4) (rd : RegNo) (sbzHi sbzLo : BitVec 4) (s : State) : Result :=
  predicated c s fun s =>
    if sbo ≠ 0xF ∨ sbzHi ≠ 0 ∨ sbzLo ≠ 0 then .fault .shouldBeField
    else if rd = 15 then .fault .mrsToR15
    else orFault (readPsr s spsr) fun p =>
      let (d, s) := draw s
      .next (advance (s.setReg rd (p.word (d.extractLsb' 8 20))))

/-- WritePSR (R35), then the next instruction. -/
def writePsr (s : State) (spsr : Bool) (mask : BitVec 4) (v : Word) : Result :=
  orFault (if spsr then writeSpsr s v mask else writeCpsr s v mask) fun s => .next (advance s)

/-- MSR (register) (R241). -/
def execArmMsrReg (c : Cond) (spsr : Bool) (mask sbo sbz : BitVec 4) (rm : RegNo) (s : State) : Result :=
  predicated c s fun s =>
    if sbo ≠ 0xF ∨ sbz ≠ 0 then .fault .shouldBeField
    else if rm = 15 then .fault .msrFromR15
    else writePsr s spsr mask (s.reg rm)

/-- MSR (immediate) (R242). -/
def execArmMsrImm (c : Cond) (spsr : Bool) (mask sbo rotate : BitVec 4) (imm8 : Byte) (s : State) : Result :=
  predicated c s fun s =>
    if sbo ≠ 0xF then .fault .shouldBeField
    else writePsr s spsr mask (shiftedImm rotate imm8 false).1

/-! ### Multiply -/

/-- N and Z of the result; C a free value; V unchanged (R243). -/
def mulFlags (s : State) (sf : Bool) (r : Word) : State :=
  if sf then
    let (d, s) := draw s
    s.setCpsr (s.cpsr.setNZC r (d.getLsbD 0) true)
  else s

/-- N and Z of the 64-bit result; C and V two free values (R243, log entry 27). -/
def longMulFlags (s : State) (sf : Bool) (p : BitVec 64) : State :=
  if sf then
    let (dc, s) := draw s
    let (dv, s) := draw s
    s.setCpsr { s.cpsr with
      n := p.getLsbD 63, z := p == 0, c := dc.getLsbD 0, v := dv.getLsbD 0, marks := FlagMarks.fill true }
  else s

/-- A 32-bit multiply: `r` is the result and `cycles` the internal cycles. -/
def finishMul (s : State) (sf : Bool) (rd : RegNo) (r : Word) (cycles : Nat) : Result :=
  .next (advance ((mulFlags (s.spend cycles) sf r).setReg rd r))

/-- A long multiply: the restrictions of R243, then the product `p` of the registers as they stand. -/
def longMul (c : Cond) (sf : Bool) (rdHi rdLo rs rm : RegNo) (p : State → BitVec 64) (cycles : State → Nat) (s : State) :
    Result :=
  predicated c s fun s =>
    if rdHi = 15 ∨ rdLo = 15 ∨ rm = 15 ∨ rs = 15 ∨ rdHi = rdLo ∨ rdHi = rm ∨ rdLo = rm then .fault .multiplyOperands
    else
      .next (advance (((longMulFlags (s.spend (cycles s)) sf (p s)).setReg rdLo ((p s).extractLsb' 0 32)).setReg rdHi
        ((p s).extractLsb' 32 32)))

/-- The product of two registers as unsigned numbers. -/
def unsignedProduct (rs rm : RegNo) (s : State) : BitVec 64 :=
  BitVec.ofNat 64 ((s.reg rm).toNat * (s.reg rs).toNat)

/-- The product of two registers as two's-complement numbers. -/
def signedProduct (rs rm : RegNo) (s : State) : BitVec 64 :=
  BitVec.ofInt 64 ((s.reg rm).toInt * (s.reg rs).toInt)

/-- The 64-bit accumulator R[dHi]:R[dLo]. -/
def accumulator (rdHi rdLo : RegNo) (s : State) : BitVec 64 := s.reg rdHi ++ s.reg rdLo

/-- MUL (R244). -/
def execArmMul (c : Cond) (sf : Bool) (rd : RegNo) (sbz : BitVec 4) (rs rm : RegNo) (s : State) : Result :=
  predicated c s fun s =>
    if sbz ≠ 0 then .fault .shouldBeField
    else if rd = 15 ∨ rm = 15 ∨ rs = 15 ∨ rd = rm then .fault .multiplyOperands
    else finishMul s sf rd (s.reg rm * s.reg rs) (multiplyCycles (s.reg rs) true)

/-- MLA (R245). -/
def execArmMla (c : Cond) (sf : Bool) (rd rn rs rm : RegNo) (s : State) : Result :=
  predicated c s fun s =>
    if rd = 15 ∨ rm = 15 ∨ rs = 15 ∨ rn = 15 ∨ rd = rm then .fault .multiplyOperands
    else finishMul s sf rd (s.reg rm * s.reg rs + s.reg rn) (multiplyCycles (s.reg rs) true + 1)

/-- UMULL (R246). -/
def execArmUmull (c : Cond) (sf : Bool) (rdHi rdLo rs rm : RegNo) (s : State) : Result :=
  longMul c sf rdHi rdLo rs rm (unsignedProduct rs rm) (fun s => multiplyCycles (s.reg rs) false + 1) s

/-- UMLAL (R247). -/
def execArmUmlal (c : Cond) (sf : Bool) (rdHi rdLo rs rm : RegNo) (s : State) : Result :=
  longMul c sf rdHi rdLo rs rm (fun s => unsignedProduct rs rm s + accumulator rdHi rdLo s)
    (fun s => multiplyCycles (s.reg rs) false + 2) s

/-- SMULL (R248). -/
def execArmSmull (c : Cond) (sf : Bool) (rdHi rdLo rs rm : RegNo) (s : State) : Result :=
  longMul c sf rdHi rdLo rs rm (signedProduct rs rm) (fun s => multiplyCycles (s.reg rs) true + 1) s

/-- SMLAL (R249). -/
def execArmSmlal (c : Cond) (sf : Bool) (rdHi rdLo rs rm : RegNo) (s : State) : Result :=
  longMul c sf rdHi rdLo rs rm (fun s => signedProduct rs rm s + accumulator rdHi rdLo s)
    (fun s => multiplyCycles (s.reg rs) true + 2) s

/-! ### Swap -/

/-- The frame of R250 and R251: `load` reads memory at R[n], the n-byte store of R[m] follows, then R[d] is written. -/
def swap (c : Cond) (rn rd : RegNo) (sbz : BitVec 4) (rm : RegNo) (load : State → Word → Word × State) (n : Width)
    (s : State) : Result :=
  predicated c s fun s =>
    if sbz ≠ 0 then .fault .shouldBeField
    else if rn = 15 ∨ rd = 15 ∨ rm = 15 ∨ rn = rd ∨ rn = rm then .fault .swpOperands
    else
      let (temp, s1) := load s (s.reg rn)
      andThen (memWrite s1 (s.reg rn) n (n.trunc (s.reg rm))) fun s => .next (advance ((s.spend 1).setReg rd temp))

/-- SWP (R250). -/
def execArmSwp (c : Cond) (rn rd : RegNo) (sbz : BitVec 4) (rm : RegNo) (s : State) : Result :=
  swap c rn rd sbz rm loadWord .word s

/-- SWPB (R251). -/
def execArmSwpb (c : Cond) (rn rd : RegNo) (sbz : BitVec 4) (rm : RegNo) (s : State) : Result :=
  swap c rn rd sbz rm loadByte .byte s

end Sys2Proof.Machine
end

