-- ==== Sys2Proof/Machine/ThumbAlu.lean ====
section
/-! DEFINITION. Thumb data processing (spec 44_thumb_alu R400 to R434). A Thumb instruction has no condition field. -/

namespace Sys2Proof.Machine

/-- The register result and the flags of a Thumb operation, then the next instruction (R400). -/
def thumbWrite (s : State) (rd : LowReg) (r : Word) (p : Cpsr) : Result :=
  .next (advance ((s.setCpsr p).setReg (low rd) r))

/-- The flags of a Thumb comparison, then the next instruction. -/
def thumbFlags (s : State) (p : Cpsr) : Result := .next (advance (s.setCpsr p))

/-- Format 1 and the register shifts: N, Z and the shifter's carry, if it `sets` one (R401 to R403, R414 to R416, R419). -/
def thumbShift (s : State) (rd : LowReg) (r : Word × Bool) (sets : Bool) : Result :=
  thumbWrite s rd r.1 (s.cpsr.setNZC r.1 r.2 sets)

/-- Format 1: Rs shifted by an immediate (R400 to R403). -/
def thumbImmShift (ty : ShiftType) (amount : BitVec 5) (rs rd : LowReg) (s : State) : Result :=
  thumbShift s rd (shiftByImm ty amount.toNat (s.reg (low rs)) s.cpsr.c) (immShiftSets ty amount.toNat)

/-- A logical operation: N and Z (R412, R413, R424, R426, R427). -/
def thumbLogical (s : State) (rd : LowReg) (r : Word) : Result := thumbWrite s rd r (s.cpsr.setNZ r)

/-- An arithmetic operation: N, Z, C and V (R404 to R407, R410, R411, R417, R418, R421). -/
def thumbArith (s : State) (rd : LowReg) (r : Word × Bool × Bool) : Result :=
  thumbWrite s rd r.1 (s.cpsr.setNZCV r.1 r.2.1 r.2.2)

/-- A comparison: N, Z, C and V, no register (R409, R422, R423, R429). -/
def thumbCompare (s : State) (r : Word × Bool × Bool) : Result := thumbFlags s (s.cpsr.setNZCV r.1 r.2.1 r.2.2)

/-! ### Format 1 -/

/-- LSL (immediate) (R401). -/
def execThumbLslImm (amount : BitVec 5) (rs rd : LowReg) (s : State) : Result :=
  thumbImmShift .lsl amount rs rd s

/-- LSR (immediate) (R402). -/
def execThumbLsrImm (amount : BitVec 5) (rs rd : LowReg) (s : State) : Result :=
  thumbImmShift .lsr amount rs rd s

/-- ASR (immediate) (R403). -/
def execThumbAsrImm (amount : BitVec 5) (rs rd : LowReg) (s : State) : Result :=
  thumbImmShift .asr amount rs rd s

/-! ### Format 2 -/

/-- ADD (register) (R404). -/
def execThumbAddReg (rn rs rd : LowReg) (s : State) : Result :=
  thumbArith s rd (addWithCarry (s.reg (low rs)) (s.reg (low rn)) false)

/-- SUB (register) (R405). -/
def execThumbSubReg (rn rs rd : LowReg) (s : State) : Result :=
  thumbArith s rd (addWithCarry (s.reg (low rs)) (~~~s.reg (low rn)) true)

/-- ADD (3-bit immediate) (R406). -/
def execThumbAddImm3 (imm3 : BitVec 3) (rs rd : LowReg) (s : State) : Result :=
  thumbArith s rd (addWithCarry (s.reg (low rs)) (imm3.setWidth 32) false)

/-- SUB (3-bit immediate) (R407). -/
def execThumbSubImm3 (imm3 : BitVec 3) (rs rd : LowReg) (s : State) : Result :=
  thumbArith s rd (addWithCarry (s.reg (low rs)) (~~~imm3.setWidth 32) true)

/-! ### Format 3 -/

/-- MOV (8-bit immediate) (R408). -/
def execThumbMovImm (rd : LowReg) (imm8 : Byte) (s : State) : Result := thumbLogical s rd (imm8.setWidth 32)

/-- CMP (8-bit immediate) (R409). -/
def execThumbCmpImm (rd : LowReg) (imm8 : Byte) (s : State) : Result :=
  thumbCompare s (addWithCarry (s.reg (low rd)) (~~~imm8.setWidth 32) true)

/-- ADD (8-bit immediate) (R410). -/
def execThumbAddImm8 (rd : LowReg) (imm8 : Byte) (s : State) : Result :=
  thumbArith s rd (addWithCarry (s.reg (low rd)) (imm8.setWidth 32) false)

/-- SUB (8-bit immediate) (R411). -/
def execThumbSubImm8 (rd : LowReg) (imm8 : Byte) (s : State) : Result :=
  thumbArith s rd (addWithCarry (s.reg (low rd)) (~~~imm8.setWidth 32) true)

/-! ### Format 4 -/

/-- A register shift: Rd by the low byte of Rs, one internal cycle (R414 to R416, R419, R713). -/
def thumbRegShift (ty : ShiftType) (rs rd : LowReg) (s : State) : Result :=
  let amt := (s.reg (low rs)).toNat % 256
  thumbShift (s.spend 1) rd (shiftByReg ty amt (s.reg (low rd)) s.cpsr.c) (regShiftSets amt)

/-- AND (R412). -/
def execThumbAnd (rs rd : LowReg) (s : State) : Result := thumbLogical s rd (s.reg (low rd) &&& s.reg (low rs))

/-- EOR (R413). -/
def execThumbEor (rs rd : LowReg) (s : State) : Result := thumbLogical s rd (s.reg (low rd) ^^^ s.reg (low rs))

/-- LSL (register) (R414). -/
def execThumbLslReg (rs rd : LowReg) (s : State) : Result := thumbRegShift .lsl rs rd s

/-- LSR (register) (R415). -/
def execThumbLsrReg (rs rd : LowReg) (s : State) : Result := thumbRegShift .lsr rs rd s

/-- ASR (register) (R416). -/
def execThumbAsrReg (rs rd : LowReg) (s : State) : Result := thumbRegShift .asr rs rd s

/-- ADC (R417). -/
def execThumbAdc (rs rd : LowReg) (s : State) : Result :=
  thumbArith s rd (addWithCarry (s.reg (low rd)) (s.reg (low rs)) s.cpsr.c)

/-- SBC (R418). -/
def execThumbSbc (rs rd : LowReg) (s : State) : Result :=
  thumbArith s rd (addWithCarry (s.reg (low rd)) (~~~s.reg (low rs)) s.cpsr.c)

/-- ROR (register) (R419). -/
def execThumbRorReg (rs rd : LowReg) (s : State) : Result := thumbRegShift .ror rs rd s

/-- TST (R420). -/
def execThumbTst (rs rd : LowReg) (s : State) : Result :=
  thumbFlags s (s.cpsr.setNZ (s.reg (low rd) &&& s.reg (low rs)))

/-- NEG (R421). -/
def execThumbNeg (rs rd : LowReg) (s : State) : Result := thumbArith s rd (addWithCarry 0 (~~~s.reg (low rs)) true)

/-- CMP (register, low) (R422). -/
def execThumbCmpReg (rs rd : LowReg) (s : State) : Result :=
  thumbCompare s (addWithCarry (s.reg (low rd)) (~~~s.reg (low rs)) true)

/-- CMN (R423). -/
def execThumbCmn (rs rd : LowReg) (s : State) : Result :=
  thumbCompare s (addWithCarry (s.reg (low rd)) (s.reg (low rs)) false)

/-- ORR (R424). -/
def execThumbOrr (rs rd : LowReg) (s : State) : Result := thumbLogical s rd (s.reg (low rd) ||| s.reg (low rs))

/-- MUL (R425): C is a free value; the multiplier of R714 is the old Rd. -/
def execThumbMul (rs rd : LowReg) (s : State) : Result :=
  if rd = rs then .fault .multiplyOperands
  else
    let r := s.reg (low rs) * s.reg (low rd)
    let k := multiplyCycles (s.reg (low rd)) true
    let (d, s) := draw (s.spend k)
    thumbWrite s rd r (s.cpsr.setNZC r (d.getLsbD 0) true)

/-- BIC (R426). -/
def execThumbBic (rs rd : LowReg) (s : State) : Result := thumbLogical s rd (s.reg (low rd) &&& ~~~s.reg (low rs))

/-- MVN (R427). -/
def execThumbMvn (rs rd : LowReg) (s : State) : Result := thumbLogical s rd (~~~s.reg (low rs))

/-! ### Format 5 -/

/-- H1 = H2 = 0, which format 5 leaves unpredictable for ADD, CMP and MOV. -/
def bothLow (hs hd : RegNo) : Bool := decide (hs.toNat < 8 ∧ hd.toNat < 8)

/-- A format 5 result: R15 is a branch with bit 0 cleared; no flags (R428, R430). -/
def thumbHiWrite (s : State) (hd : RegNo) (r : Word) : Result :=
  .next (if hd = 15 then jump s (thumbTarget r) else advance (s.setReg hd r))

/-- ADD (high registers) (R428). -/
def execThumbAddHi (hs hd : RegNo) (s : State) : Result :=
  if bothLow hs hd then .fault .shouldBeField else thumbHiWrite s hd (s.reg hd + s.reg hs)

/-- CMP (high registers) (R429). -/
def execThumbCmpHi (hs hd : RegNo) (s : State) : Result :=
  if bothLow hs hd then .fault .shouldBeField else thumbCompare s (addWithCarry (s.reg hd) (~~~s.reg hs) true)

/-- MOV (high registers) (R430). -/
def execThumbMovHi (hs hd : RegNo) (s : State) : Result :=
  if bothLow hs hd then .fault .shouldBeField else thumbHiWrite s hd (s.reg hs)

/-! ### Formats 12 and 13 -/

/-- Four times an unsigned immediate. -/
def words {k : Nat} (v : BitVec k) : Word := 4 * v.setWidth 32

/-- R15 with bits 1:0 cleared, as the PC-relative forms read it (R25, R431, R440). -/
def alignedPcRead (s : State) : Word := s.pcRead &&& 0xFFFFFFFC

/-- ADD Rd, PC, #imm (R431). -/
def execThumbAddPc (rd : LowReg) (imm8 : Byte) (s : State) : Result :=
  .next (advance (s.setReg (low rd) (alignedPcRead s + words imm8)))

/-- ADD Rd, SP, #imm (R432). -/
def execThumbAddSp (rd : LowReg) (imm8 : Byte) (s : State) : Result :=
  .next (advance (s.setReg (low rd) (s.reg 13 + words imm8)))

/-- ADD SP, #imm (R433). -/
def execThumbIncSp (imm7 : BitVec 7) (s : State) : Result := .next (advance (s.setReg 13 (s.reg 13 + words imm7)))

/-- SUB SP, #imm (R434). -/
def execThumbDecSp (imm7 : BitVec 7) (s : State) : Result := .next (advance (s.setReg 13 (s.reg 13 - words imm7)))

end Sys2Proof.Machine
end

