-- ==== Sys2Proof/Machine/ThumbBranch.lean ====
section
/-! DEFINITION. Thumb branches, software interrupt and undefined encodings (spec 46_thumb_branch R480 to R486). -/

namespace Sys2Proof.Machine

/-- BX (R484): H1 and bits 2:0 should be zero. -/
def execThumbBx (h1 : Bool) (hs : RegNo) (sbz : BitVec 3) (s : State) : Result :=
  if h1 = true ∨ sbz ≠ 0 then .fault .shouldBeField else exchange s (s.reg hs)

/-- SWI (R485): the comment field is not interpreted. -/
def execThumbSwi (_comment : Byte) (s : State) : Result := raiseSwi s

/-- B<cond> (R480). -/
def execThumbBcond (c : Cond) (offset : Byte) (s : State) : Result :=
  if condPassed c s.cpsr then branchTo s (s.pcRead + (offset ++ 0#1).signExtend 32) else .next (advance s)

/-- B (R481). -/
def execThumbB (offset : BitVec 11) (s : State) : Result := branchTo s (s.pcRead + (offset ++ 0#1).signExtend 32)

/-- BL, first half (R482). -/
def execThumbBlHigh (offset : BitVec 11) (s : State) : Result :=
  .next (advance (s.setReg 14 (s.pcRead + (offset ++ 0#12).signExtend 32)))

/-- BL, second half (R483). -/
def execThumbBlLow (offset : BitVec 11) (s : State) : Result :=
  branchTo (s.setReg 14 ((s.pc + 2) ||| 1)) (s.reg 14 + (offset ++ 0#1).setWidth 32)

/-- Undefined encodings of the 1011 space (R486). -/
def execThumbUnd1011 (_bits : BitVec 12) (s : State) : Result := raiseUndefined s

/-- The branch with condition AL, undefined (R486). -/
def execThumbUndCond (_bits : Byte) (s : State) : Result := raiseUndefined s

/-- The 11101 space, undefined (R486). -/
def execThumbUnd11101 (_bits : BitVec 11) (s : State) : Result := raiseUndefined s

end Sys2Proof.Machine
end

