-- ==== Sys2Proof/Machine/ThumbLoadStore.lean ====
section
/-! DEFINITION. Thumb loads and stores (spec 45_thumb_loadstore R440 to R461). -/

namespace Sys2Proof.Machine

/-- A Thumb load: the read, one internal cycle, the destination. -/
def thumbLoad (s : State) (rd : LowReg) (a : Word) (load : State → Word → Word × State) : Result :=
  let (v, s) := load s a
  .next (advance ((s.spend 1).setReg (low rd) v))

/-- A Thumb store of the low n bytes of a register. -/
def thumbStore (s : State) (rd : LowReg) (a : Word) (n : Width) : Result :=
  andThen (memWrite s a n (n.trunc (s.reg (low rd)))) fun s => .next (advance s)

/-- R[b] + R[o] (formats 7 and 8). -/
def regOffset (s : State) (ro rb : LowReg) : Word := s.reg (low rb) + s.reg (low ro)

/-- R[b] + k · scale (formats 9 and 10). -/
def immOffset (s : State) (k : BitVec 5) (rb : LowReg) (scale : Word) : Word := s.reg (low rb) + k.setWidth 32 * scale

/-- LDR Rd, [PC, #imm] (R440). -/
def execThumbLdrPc (rd : LowReg) (imm8 : Byte) (s : State) : Result :=
  thumbLoad s rd (alignedPcRead s + words imm8) loadWord

/-- STR Rd, [Rb, Ro] (R441). -/
def execThumbStrReg (ro rb rd : LowReg) (s : State) : Result := thumbStore s rd (regOffset s ro rb) .word

/-- STRB Rd, [Rb, Ro] (R442). -/
def execThumbStrbReg (ro rb rd : LowReg) (s : State) : Result := thumbStore s rd (regOffset s ro rb) .byte

/-- LDR Rd, [Rb, Ro] (R443). -/
def execThumbLdrReg (ro rb rd : LowReg) (s : State) : Result := thumbLoad s rd (regOffset s ro rb) loadWord

/-- LDRB Rd, [Rb, Ro] (R444). -/
def execThumbLdrbReg (ro rb rd : LowReg) (s : State) : Result := thumbLoad s rd (regOffset s ro rb) loadByte

/-- STRH Rd, [Rb, Ro] (R445). -/
def execThumbStrhReg (ro rb rd : LowReg) (s : State) : Result := thumbStore s rd (regOffset s ro rb) .half

/-- LDSB Rd, [Rb, Ro] (R446). -/
def execThumbLdsbReg (ro rb rd : LowReg) (s : State) : Result := thumbLoad s rd (regOffset s ro rb) loadSignedByte

/-- LDRH Rd, [Rb, Ro] (R447). -/
def execThumbLdrhReg (ro rb rd : LowReg) (s : State) : Result := thumbLoad s rd (regOffset s ro rb) loadHalf

/-- LDSH Rd, [Rb, Ro] (R448). -/
def execThumbLdshReg (ro rb rd : LowReg) (s : State) : Result := thumbLoad s rd (regOffset s ro rb) loadSignedHalf

/-- STR Rd, [Rb, #imm] (R449). -/
def execThumbStrImm (offset : BitVec 5) (rb rd : LowReg) (s : State) : Result :=
  thumbStore s rd (immOffset s offset rb 4) .word

/-- LDR Rd, [Rb, #imm] (R450). -/
def execThumbLdrImm (offset : BitVec 5) (rb rd : LowReg) (s : State) : Result :=
  thumbLoad s rd (immOffset s offset rb 4) loadWord

/-- STRB Rd, [Rb, #imm] (R451). -/
def execThumbStrbImm (offset : BitVec 5) (rb rd : LowReg) (s : State) : Result :=
  thumbStore s rd (immOffset s offset rb 1) .byte

/-- LDRB Rd, [Rb, #imm] (R452). -/
def execThumbLdrbImm (offset : BitVec 5) (rb rd : LowReg) (s : State) : Result :=
  thumbLoad s rd (immOffset s offset rb 1) loadByte

/-- STRH Rd, [Rb, #imm] (R453). -/
def execThumbStrhImm (offset : BitVec 5) (rb rd : LowReg) (s : State) : Result :=
  thumbStore s rd (immOffset s offset rb 2) .half

/-- LDRH Rd, [Rb, #imm] (R454). -/
def execThumbLdrhImm (offset : BitVec 5) (rb rd : LowReg) (s : State) : Result :=
  thumbLoad s rd (immOffset s offset rb 2) loadHalf

/-- STR Rd, [SP, #imm] (R455). -/
def execThumbStrSp (rd : LowReg) (imm8 : Byte) (s : State) : Result := thumbStore s rd (s.reg 13 + words imm8) .word

/-- LDR Rd, [SP, #imm] (R456). -/
def execThumbLdrSp (rd : LowReg) (imm8 : Byte) (s : State) : Result :=
  thumbLoad s rd (s.reg 13 + words imm8) loadWord

/-! ### Block transfers (R457) -/

/-- What an empty-list store of R15 writes (R457). -/
def State.thumbPcStore (s : State) : Word := s.pc + 6

/-- R0 to R7 of a Thumb register list, in ascending order. -/
def lowList (list : Byte) : List RegNo := regList (0#8 ++ list)

/-- The end of a Thumb block store: writes the values at ascending addresses, then the base. -/
def thumbBlockStore (s : State) (start : Word) (base : RegNo) (newBase : Word) (kept : Option RegNo) (regs : List RegNo) :
    Result :=
  let (vals, s) := storeValues s kept s.thumbPcStore true regs
  andThen (writeBlock s start vals) fun s => .next (advance (s.setReg base newBase))

/-- A Thumb block load: reads the values at ascending addresses, then the base, then the registers, then R15. -/
def thumbBlockLoad (s : State) (start : Word) (base : RegNo) (newBase : Word) (regs : List RegNo) : Result :=
  let (vals, s) := readBlock s start regs
  let s := (s.spend 1).setReg base newBase
  .next (branchLoaded (loadRegs s s.cpsr.mode vals) vals thumbTarget)

/-- PUSH (R458). -/
def execThumbPush (lr : Bool) (list : Byte) (s : State) : Result :=
  orFault (listOrEmpty s (lowList list ++ (if lr then [14] else []))) fun (regs, count) =>
    thumbBlockStore s (blockBase false (s.reg 13) count) 13 (blockBase false (s.reg 13) count) none regs

/-- POP (R459). -/
def execThumbPop (pc : Bool) (list : Byte) (s : State) : Result :=
  orFault (listOrEmpty s (lowList list ++ (if pc then [15] else []))) fun (regs, count) =>
    thumbBlockLoad s (s.reg 13) 13 (blockBase true (s.reg 13) count) regs

/-- STMIA (R460): the base, when it is in the list and not its lowest register, is stored as a free value (D27). -/
def execThumbStmia (rb : LowReg) (list : Byte) (s : State) : Result :=
  orFault (listOrEmpty s (lowList list)) fun (regs, count) =>
    thumbBlockStore s (s.reg (low rb)) (low rb) (blockBase true (s.reg (low rb)) count) (some (low rb)) regs

/-- LDMIA (R461): a loaded base overrides the writeback. -/
def execThumbLdmia (rb : LowReg) (list : Byte) (s : State) : Result :=
  orFault (listOrEmpty s (lowList list)) fun (regs, count) =>
    thumbBlockLoad s (s.reg (low rb)) (low rb) (blockBase true (s.reg (low rb)) count) regs

end Sys2Proof.Machine
end

