-- ==== Sys2Proof/Machine/Dispatch.lean ====
section
/-! DEFINITION. Phases (4) to (6) of a step (spec 60_exceptions R600): one arm for each instruction. -/

namespace Sys2Proof.Machine

def exec (i : Instr) (s : State) : Host.Outcome State Fault Refusal :=
  match i with
  -- ARM data processing, R204 to R219
  | .armAnd c sf rn rd op2 => Sys2Proof.Machine.execArmAnd c sf rn rd op2 s
  | .armEor c sf rn rd op2 => Sys2Proof.Machine.execArmEor c sf rn rd op2 s
  | .armSub c sf rn rd op2 => Sys2Proof.Machine.execArmSub c sf rn rd op2 s
  | .armRsb c sf rn rd op2 => Sys2Proof.Machine.execArmRsb c sf rn rd op2 s
  | .armAdd c sf rn rd op2 => Sys2Proof.Machine.execArmAdd c sf rn rd op2 s
  | .armAdc c sf rn rd op2 => Sys2Proof.Machine.execArmAdc c sf rn rd op2 s
  | .armSbc c sf rn rd op2 => Sys2Proof.Machine.execArmSbc c sf rn rd op2 s
  | .armRsc c sf rn rd op2 => Sys2Proof.Machine.execArmRsc c sf rn rd op2 s
  | .armTst c rn sbz op2 => Sys2Proof.Machine.execArmTst c rn sbz op2 s
  | .armTeq c rn sbz op2 => Sys2Proof.Machine.execArmTeq c rn sbz op2 s
  | .armCmp c rn sbz op2 => Sys2Proof.Machine.execArmCmp c rn sbz op2 s
  | .armCmn c rn sbz op2 => Sys2Proof.Machine.execArmCmn c rn sbz op2 s
  | .armOrr c sf rn rd op2 => Sys2Proof.Machine.execArmOrr c sf rn rd op2 s
  | .armMov c sf sbz rd op2 => Sys2Proof.Machine.execArmMov c sf sbz rd op2 s
  | .armBic c sf rn rd op2 => Sys2Proof.Machine.execArmBic c sf rn rd op2 s
  | .armMvn c sf sbz rd op2 => Sys2Proof.Machine.execArmMvn c sf sbz rd op2 s
  -- ARM status-register transfer, R240 to R242 (`spsr` is the R bit, `mask` the field mask c x s f from bit 0)
  | .armMrs c spsr sbo rd sbzHi sbzLo => Sys2Proof.Machine.execArmMrs c spsr sbo rd sbzHi sbzLo s
  | .armMsrReg c spsr mask sbo sbz rm => Sys2Proof.Machine.execArmMsrReg c spsr mask sbo sbz rm s
  | .armMsrImm c spsr mask sbo rotate imm8 => Sys2Proof.Machine.execArmMsrImm c spsr mask sbo rotate imm8 s
  -- ARM multiply, R244 to R249
  | .armMul c sf rd sbz rs rm => Sys2Proof.Machine.execArmMul c sf rd sbz rs rm s
  | .armMla c sf rd rn rs rm => Sys2Proof.Machine.execArmMla c sf rd rn rs rm s
  | .armUmull c sf rdHi rdLo rs rm => Sys2Proof.Machine.execArmUmull c sf rdHi rdLo rs rm s
  | .armUmlal c sf rdHi rdLo rs rm => Sys2Proof.Machine.execArmUmlal c sf rdHi rdLo rs rm s
  | .armSmull c sf rdHi rdLo rs rm => Sys2Proof.Machine.execArmSmull c sf rdHi rdLo rs rm s
  | .armSmlal c sf rdHi rdLo rs rm => Sys2Proof.Machine.execArmSmlal c sf rdHi rdLo rs rm s
  -- ARM swap, R250, R251
  | .armSwp c rn rd sbz rm => Sys2Proof.Machine.execArmSwp c rn rd sbz rm s
  | .armSwpb c rn rd sbz rm => Sys2Proof.Machine.execArmSwpb c rn rd sbz rm s
  -- ARM word and unsigned-byte transfers, R271 to R278
  | .armLdr c ix up rn rd off => Sys2Proof.Machine.execArmLdr c ix up rn rd off s
  | .armLdrb c ix up rn rd off => Sys2Proof.Machine.execArmLdrb c ix up rn rd off s
  | .armStr c ix up rn rd off => Sys2Proof.Machine.execArmStr c ix up rn rd off s
  | .armStrb c ix up rn rd off => Sys2Proof.Machine.execArmStrb c ix up rn rd off s
  | .armLdrt c up rn rd off => Sys2Proof.Machine.execArmLdrt c up rn rd off s
  | .armLdrbt c up rn rd off => Sys2Proof.Machine.execArmLdrbt c up rn rd off s
  | .armStrt c up rn rd off => Sys2Proof.Machine.execArmStrt c up rn rd off s
  | .armStrbt c up rn rd off => Sys2Proof.Machine.execArmStrbt c up rn rd off s
  -- ARM halfword and signed transfers, R280 to R283
  | .armStrh c p up w rn rd off => Sys2Proof.Machine.execArmStrh c p up w rn rd off s
  | .armLdrh c p up w rn rd off => Sys2Proof.Machine.execArmLdrh c p up w rn rd off s
  | .armLdrsb c p up w rn rd off => Sys2Proof.Machine.execArmLdrsb c p up w rn rd off s
  | .armLdrsh c p up w rn rd off => Sys2Proof.Machine.execArmLdrsh c p up w rn rd off s
  -- ARM block transfers, R285 to R289 (bit k of the list is Rk; two of them fix bit 15)
  | .armLdm c p up w rn list => Sys2Proof.Machine.execArmLdm c p up w rn list s
  | .armStm c p up w rn list => Sys2Proof.Machine.execArmStm c p up w rn list s
  | .armLdmUser c p up w rn list => Sys2Proof.Machine.execArmLdmUser c p up w rn list s
  | .armStmUser c p up w rn list => Sys2Proof.Machine.execArmStmUser c p up w rn list s
  | .armLdmExc c p up w rn list => Sys2Proof.Machine.execArmLdmExc c p up w rn list s
  -- ARM branches and software interrupt, R310 to R313
  | .armB c offset => Sys2Proof.Machine.execArmB c offset s
  | .armBl c offset => Sys2Proof.Machine.execArmBl c offset s
  | .armBx c sbo rm => Sys2Proof.Machine.execArmBx c sbo rm s
  | .armSwi c comment => Sys2Proof.Machine.execArmSwi c comment s
  -- ARM coprocessor instructions, R314 to R318
  | .armCdp c op1 crn crd cp op2 crm => Sys2Proof.Machine.execArmCdp c op1 crn crd cp op2 crm s
  | .armLdc c p up n w rn crd cp offset => Sys2Proof.Machine.execArmLdc c p up n w rn crd cp offset s
  | .armStc c p up n w rn crd cp offset => Sys2Proof.Machine.execArmStc c p up n w rn crd cp offset s
  | .armMcr c op1 crn rd cp op2 crm => Sys2Proof.Machine.execArmMcr c op1 crn rd cp op2 crm s
  | .armMrc c op1 crn rd cp op2 crm => Sys2Proof.Machine.execArmMrc c op1 crn rd cp op2 crm s
  -- ARM undefined and unallocated encodings, R319, R320: the bits the encoding leaves free
  | .armUndArch c hi lo => Sys2Proof.Machine.execArmUndArch c hi lo s
  | .armUndMul c op mid lo => Sys2Proof.Machine.execArmUndMul c op mid lo s
  | .armUndSignedStore c op mid h lo => Sys2Proof.Machine.execArmUndSignedStore c op mid h lo s
  | .armUndMisc c op mid lo => Sys2Proof.Machine.execArmUndMisc c op mid lo s
  | .armUndMsrImm c r rest => Sys2Proof.Machine.execArmUndMsrImm c r rest s
  -- Thumb formats 1 to 3, R401 to R411
  | .thumbLslImm amount rs rd => Sys2Proof.Machine.execThumbLslImm amount rs rd s
  | .thumbLsrImm amount rs rd => Sys2Proof.Machine.execThumbLsrImm amount rs rd s
  | .thumbAsrImm amount rs rd => Sys2Proof.Machine.execThumbAsrImm amount rs rd s
  | .thumbAddReg rn rs rd => Sys2Proof.Machine.execThumbAddReg rn rs rd s
  | .thumbSubReg rn rs rd => Sys2Proof.Machine.execThumbSubReg rn rs rd s
  | .thumbAddImm3 imm3 rs rd => Sys2Proof.Machine.execThumbAddImm3 imm3 rs rd s
  | .thumbSubImm3 imm3 rs rd => Sys2Proof.Machine.execThumbSubImm3 imm3 rs rd s
  | .thumbMovImm rd imm8 => Sys2Proof.Machine.execThumbMovImm rd imm8 s
  | .thumbCmpImm rd imm8 => Sys2Proof.Machine.execThumbCmpImm rd imm8 s
  | .thumbAddImm8 rd imm8 => Sys2Proof.Machine.execThumbAddImm8 rd imm8 s
  | .thumbSubImm8 rd imm8 => Sys2Proof.Machine.execThumbSubImm8 rd imm8 s
  -- Thumb format 4, R412 to R427
  | .thumbAnd rs rd => Sys2Proof.Machine.execThumbAnd rs rd s
  | .thumbEor rs rd => Sys2Proof.Machine.execThumbEor rs rd s
  | .thumbLslReg rs rd => Sys2Proof.Machine.execThumbLslReg rs rd s
  | .thumbLsrReg rs rd => Sys2Proof.Machine.execThumbLsrReg rs rd s
  | .thumbAsrReg rs rd => Sys2Proof.Machine.execThumbAsrReg rs rd s
  | .thumbAdc rs rd => Sys2Proof.Machine.execThumbAdc rs rd s
  | .thumbSbc rs rd => Sys2Proof.Machine.execThumbSbc rs rd s
  | .thumbRorReg rs rd => Sys2Proof.Machine.execThumbRorReg rs rd s
  | .thumbTst rs rd => Sys2Proof.Machine.execThumbTst rs rd s
  | .thumbNeg rs rd => Sys2Proof.Machine.execThumbNeg rs rd s
  | .thumbCmpReg rs rd => Sys2Proof.Machine.execThumbCmpReg rs rd s
  | .thumbCmn rs rd => Sys2Proof.Machine.execThumbCmn rs rd s
  | .thumbOrr rs rd => Sys2Proof.Machine.execThumbOrr rs rd s
  | .thumbMul rs rd => Sys2Proof.Machine.execThumbMul rs rd s
  | .thumbBic rs rd => Sys2Proof.Machine.execThumbBic rs rd s
  | .thumbMvn rs rd => Sys2Proof.Machine.execThumbMvn rs rd s
  -- Thumb format 5, R428 to R430, R484 (register numbers include H1 and H2)
  | .thumbAddHi hs hd => Sys2Proof.Machine.execThumbAddHi hs hd s
  | .thumbCmpHi hs hd => Sys2Proof.Machine.execThumbCmpHi hs hd s
  | .thumbMovHi hs hd => Sys2Proof.Machine.execThumbMovHi hs hd s
  | .thumbBx h1 hs sbz => Sys2Proof.Machine.execThumbBx h1 hs sbz s
  -- Thumb formats 6 to 11, R440 to R456
  | .thumbLdrPc rd imm8 => Sys2Proof.Machine.execThumbLdrPc rd imm8 s
  | .thumbStrReg ro rb rd => Sys2Proof.Machine.execThumbStrReg ro rb rd s
  | .thumbStrbReg ro rb rd => Sys2Proof.Machine.execThumbStrbReg ro rb rd s
  | .thumbLdrReg ro rb rd => Sys2Proof.Machine.execThumbLdrReg ro rb rd s
  | .thumbLdrbReg ro rb rd => Sys2Proof.Machine.execThumbLdrbReg ro rb rd s
  | .thumbStrhReg ro rb rd => Sys2Proof.Machine.execThumbStrhReg ro rb rd s
  | .thumbLdsbReg ro rb rd => Sys2Proof.Machine.execThumbLdsbReg ro rb rd s
  | .thumbLdrhReg ro rb rd => Sys2Proof.Machine.execThumbLdrhReg ro rb rd s
  | .thumbLdshReg ro rb rd => Sys2Proof.Machine.execThumbLdshReg ro rb rd s
  | .thumbStrImm offset rb rd => Sys2Proof.Machine.execThumbStrImm offset rb rd s
  | .thumbLdrImm offset rb rd => Sys2Proof.Machine.execThumbLdrImm offset rb rd s
  | .thumbStrbImm offset rb rd => Sys2Proof.Machine.execThumbStrbImm offset rb rd s
  | .thumbLdrbImm offset rb rd => Sys2Proof.Machine.execThumbLdrbImm offset rb rd s
  | .thumbStrhImm offset rb rd => Sys2Proof.Machine.execThumbStrhImm offset rb rd s
  | .thumbLdrhImm offset rb rd => Sys2Proof.Machine.execThumbLdrhImm offset rb rd s
  | .thumbStrSp rd imm8 => Sys2Proof.Machine.execThumbStrSp rd imm8 s
  | .thumbLdrSp rd imm8 => Sys2Proof.Machine.execThumbLdrSp rd imm8 s
  -- Thumb formats 12 to 15, R431 to R434, R458 to R461
  | .thumbAddPc rd imm8 => Sys2Proof.Machine.execThumbAddPc rd imm8 s
  | .thumbAddSp rd imm8 => Sys2Proof.Machine.execThumbAddSp rd imm8 s
  | .thumbIncSp imm7 => Sys2Proof.Machine.execThumbIncSp imm7 s
  | .thumbDecSp imm7 => Sys2Proof.Machine.execThumbDecSp imm7 s
  | .thumbPush lr list => Sys2Proof.Machine.execThumbPush lr list s
  | .thumbPop pc list => Sys2Proof.Machine.execThumbPop pc list s
  | .thumbStmia rb list => Sys2Proof.Machine.execThumbStmia rb list s
  | .thumbLdmia rb list => Sys2Proof.Machine.execThumbLdmia rb list s
  -- Thumb formats 16 to 19 and undefined encodings, R480 to R486
  | .thumbSwi comment => Sys2Proof.Machine.execThumbSwi comment s
  | .thumbBcond c offset => Sys2Proof.Machine.execThumbBcond c offset s
  | .thumbB offset => Sys2Proof.Machine.execThumbB offset s
  | .thumbBlHigh offset => Sys2Proof.Machine.execThumbBlHigh offset s
  | .thumbBlLow offset => Sys2Proof.Machine.execThumbBlLow offset s
  | .thumbUnd1011 bits => Sys2Proof.Machine.execThumbUnd1011 bits s
  | .thumbUndCond bits => Sys2Proof.Machine.execThumbUndCond bits s
  | .thumbUnd11101 bits => Sys2Proof.Machine.execThumbUnd11101 bits s

end Sys2Proof.Machine
end

