-- ==== Sys2Proof/Machine/Run.lean ====
section
/-! DEFINITION. The phases of a step put together (spec 60_exceptions R600). -/

namespace Sys2Proof.Machine

/-- Phases (2) to (7) of R600 for a machine that is running, its interrupts serviced: fetch, decode, the user-bank hazard
(R706), the instruction, the end of the step. -/
def runInstruction (s : State) : Result :=
  let (v, s1) := fetch s
  let i := decodeFetched s.cpsr.t v
  if bankHazard i s then .fault .bankedAfterUserTransfer
  else andThen (exec i s1) fun s2 => .next (finishStep (Instr.isUserBank i) (passes i s1) s2)

/-- One step (R600): the invariant of R42, the halted state (R615), the pending interrupts (R608, R609), the
instruction. -/
def runStep (s : State) : Result :=
  if s.pcAligned = false then .fault .fatalInvariant
  else if s.run = .halted ∧ s.wakeLine = false then .next (haltedStep s)
  else runInstruction (serviceInterrupts (wake s))

end Sys2Proof.Machine
end

