-- ==== Sys2Proof/Machine/Step.lean ====
section
/-! DEFINITION. The step (spec 60_exceptions R600) and the placing of an instruction for the next step. -/

namespace Sys2Proof.Machine

/-- step() of R600 and R623. -/
def step (s : State) : Host.Outcome State Fault Refusal := runStep s

/-- s with the instruction of the opcode table's bits w stored where the next step fetches it: 16 bits are a Thumb halfword,
32 bits an ARM word (log entry 2). -/
def State.withFetchWord (s : State) (nbits w : Nat) : State := placeCode s (tableCode nbits w)

end Sys2Proof.Machine
end

