-- ==== Sys2Proof/Machine/HostCalls.lean ====
section
/-! DEFINITION. The calls the host makes between steps (spec 60_exceptions R617, R623; 70_reset_and_hazards R701). They
are not part of a step. -/

namespace Sys2Proof.Machine

/-- The address of a cell lies below, inside or above the RAM regions: in BIOS_IMAGE, in RAM, in ROM_IMAGE (R61). -/
def isBiosCell (c : Host.Cell) : Bool := decide (c.1 < 0x4000)

def isRomCell (c : Host.Cell) : Bool := decide (0x08000000 ≤ c.1)

def isRamCell (c : Host.Cell) : Bool := !isBiosCell c && !isRomCell c

/-- The bytes of BIOS_IMAGE and ROM_IMAGE, which a reset does not change. -/
def imageBytes (m : List Host.Cell) : List Host.Cell := m.filter fun c => isBiosCell c || isRomCell c

/-- reset() (R701): the state of R700 or R702 in every field of this block; parameters, images and inputs stay, and RAM is
unwritten again (log entry 29). -/
def hostReset (mode : BootMode) (s : State) : State :=
  let r := match mode with
    | .bios => State.reset
    | .direct => State.resetDirect
  { r with
    mem := imageBytes s.mem
    irqc := s.irqc
    irqInput := s.irqInput
    fiqLine := s.fiqLine
    params := s.params
    draws := s.draws
    answers := s.answers
    forwarded := s.forwarded }

/-- request_exception(kind) (R617): only IRQ is accepted; any other kind is refused and changes nothing. -/
def requestException (k : ExcKind) (s : State) : Option State :=
  if k = .irq then some { s with irqInput := true } else none

/-- The host withdraws its interrupt request (R617). -/
def withdrawRequest (s : State) : State := { s with irqInput := false }

/-- An interrupt source of R612 (0 to 13) becomes pending: its bit of IF is set. -/
def raiseSource (source : Fin 14) (s : State) : State :=
  { s with irqc := { s.irqc with iflag := s.irqc.iflag ||| (1 <<< source.val) } }

/-! ### Save state and restore state (R43, R623) -/

/-- The version a snapshot of this model carries: R43 asks for one and names none; DESIGN CHOICE, log entry 35. -/
def snapshotVersion : Nat := 1

/-- The snapshot of R43: the 37 registers of R20 with their written marks (PC, CPSR and SPSRs among them), the run state, the
user-bank mark, the bus state of R39 and the cycle counter. `ram` holds the written bytes of EWRAM, IWRAM, PRAM, VRAM and
OAM; images, parameters and inputs are not in it. -/
structure Snapshot where
  version : Nat
  regs : RegFile
  written : Banked Bool
  pc : Word
  cpsr : Cpsr
  spsr : Spsrs
  run : RunState
  hazardMark : Option Nat
  last : Option LastAccess
  waitcnt : BitVec 16
  ram : List Host.Cell
  cycles : Nat
deriving DecidableEq, Repr

/-- Save state (R623). -/
def saveState (s : State) : Snapshot where
  version := snapshotVersion
  regs := s.regs
  written := s.written
  pc := s.pc
  cpsr := s.cpsr
  spsr := s.spsr
  run := s.run
  hazardMark := s.hazardMark
  last := s.last
  waitcnt := s.waitcnt
  ram := s.mem.filter isRamCell
  cycles := s.cycles

/-- Restore state (R623): every field of the snapshot goes back; images, parameters, devices and inputs are those of the
machine it is restored into. A snapshot of another version is refused. -/
def restoreState (p : Snapshot) (s : State) : Option State :=
  if p.version = snapshotVersion then
    some { s with
      regs := p.regs
      written := p.written
      pc := p.pc
      cpsr := p.cpsr
      spsr := p.spsr
      run := p.run
      hazardMark := p.hazardMark
      last := p.last
      waitcnt := p.waitcnt
      mem := s.mem.filter isBiosCell ++ p.ram ++ s.mem.filter isRomCell
      cycles := p.cycles }
  else none

end Sys2Proof.Machine
end

