-- ==== Sys2Proof/Safety.lean ====
section
/-! DEFINITION. What a well-formed state is, and the terms in which the statements say what an instruction changes and what
it leaves unchanged. -/

namespace Sys2Proof.Machine

/-! ### Invariant -/

/-- The user-bank mark was set at a cycle count the machine has reached (R46, log entry 18). -/
def State.MarkReached (s : State) : Prop := ∀ k, s.hazardMark = some k → k ≤ s.cycles

/-- What every state of a run meets: PC aligned for T (R28), bits 13 and 15 of WAITCNT zero (R76), memory in canonical
form, the user-bank mark not ahead of the cycle counter (R46). -/
def State.Inv (s : State) : Prop :=
  s.pcAligned = true ∧ s.waitcnt &&& 0xA000 = 0 ∧ Mem.wf s.mem = true ∧ s.MarkReached

/-! ### Answers -/

/-- exec answers a next state, and the next state has the property. -/
def Gives (i : Instr) (s : State) (P : State → Prop) : Prop := ∃ t, exec i s = .next t ∧ P t

/-- exec stops with the fault. -/
def Stops (i : Instr) (s : State) (f : Fault) : Prop := exec i s = .fault f

/-! ### Frames -/

/-- Every physical register but those listed holds what it held, with the written mark it had. -/
def OtherRegs (changed : List PhysReg) (s t : State) : Prop :=
  ∀ p, p ∉ changed → t.regs.get p = s.regs.get p ∧ t.written.get p = s.written.get p

/-- The registers that register numbers name in a mode hold a written value (R14). -/
def NowWritten (t : State) (m : Mode) (ns : List RegNo) : Prop := ∀ n, n ∈ ns → t.regWritten m n = true

/-- These physical registers hold a written value (R14). -/
def AllWritten (ps : List PhysReg) (t : State) : Prop := ∀ p, p ∈ ps → t.written.get p = true

/-- The physical registers that register numbers name in a mode (R22); R15 is none. -/
def physRegs (m : Mode) (ns : List RegNo) : List PhysReg := ns.filterMap (phys m)

/-- Every byte of memory reads as before. -/
def SameMemory (s t : State) : Prop := ∀ a, t.peek a = s.peek a

/-- The saved status registers, the run state, the user-bank mark, the interrupt inputs and the parameters are as
before. -/
def SameControl (s t : State) : Prop :=
  t.spsr = s.spsr ∧ t.run = s.run ∧ t.hazardMark = s.hazardMark ∧ t.irqInput = s.irqInput ∧
    t.fiqLine = s.fiqLine ∧ t.params = s.params

/-- The registers of the I/O window that the state holds are as before. -/
def SameIo (s t : State) : Prop := t.waitcnt = s.waitcnt ∧ t.irqc = s.irqc ∧ t.haltRequest = s.haltRequest

/-- No free value was drawn, no answer taken, nothing forwarded. -/
def NoExchange (s t : State) : Prop := t.draws = s.draws ∧ t.answers = s.answers ∧ t.forwarded = s.forwarded

/-- An instruction that works on registers only: r goes to register rd, which is written from now on, the CPSR becomes p,
k internal cycles pass, the PC moves to the next instruction, and nothing else changes. -/
def RegisterEffect (s : State) (rd : RegNo) (r : Word) (p : Cpsr) (k : Nat) (t : State) : Prop :=
  t.reg rd = r ∧ NowWritten t s.cpsr.mode [rd] ∧ t.cpsr = p ∧ t.pc = s.pc + s.w ∧ t.cycles = s.cycles + k ∧
    t.last = s.last ∧ OtherRegs (physRegs s.cpsr.mode [rd]) s t ∧ SameControl s t ∧ SameIo s t ∧ NoExchange s t ∧
    SameMemory s t

/-- An instruction that writes no register: the CPSR becomes p, k internal cycles pass, the PC moves to the next
instruction, and nothing else changes. -/
def StatusEffect (s : State) (p : Cpsr) (k : Nat) (t : State) : Prop :=
  t.cpsr = p ∧ t.pc = s.pc + s.w ∧ t.cycles = s.cycles + k ∧ t.last = s.last ∧ OtherRegs [] s t ∧ SameControl s t ∧
    SameIo s t ∧ NoExchange s t ∧ SameMemory s t

/-- A branch to a target under the CPSR p: the instruction has written the registers listed, the refill makes two accesses,
and nothing else changes. -/
def BranchEffect (s : State) (target : Word) (p : Cpsr) (changed : List PhysReg) (t : State) : Prop :=
  t.pc = target ∧ t.cpsr = p ∧ s.cycles + 2 ≤ t.cycles ∧ AllWritten changed t ∧ OtherRegs changed s t ∧ SameControl s t ∧
    SameIo s t ∧ NoExchange s t ∧ SameMemory s t

/-- What a load leaves unchanged beside the registers listed, which it has written: status, control, I/O registers and
memory. -/
def LoadFrame (s : State) (changed : List PhysReg) (t : State) : Prop :=
  AllWritten changed t ∧ OtherRegs changed s t ∧ SameControl s t ∧ SameIo s t ∧ SameMemory s t

/-- The first address and the number of bytes a store of n bytes at address a can change: the aligned access, and the whole
halfword for a byte in PRAM or VRAM (R65, R77, R78). -/
def storeSpan (a : Word) (n : Width) : Word × Nat :=
  if n = .byte ∧ (region a = .pram ∨ region a = .vram) then (align a .half, 2) else (align a n, n.bytes)

/-- The address lies outside the bytes a store of n bytes at address a can change, mirrors included. -/
def OutsideStore (a : Word) (n : Width) (b : Word) : Prop :=
  ∀ k, k < (storeSpan a n).2 → location b ≠ location ((storeSpan a n).1 + BitVec.ofNat 32 k)

/-- What a store leaves unchanged: registers but those listed, which it has written, status, control, and every byte of memory outside the stores
given by their addresses. A store into the I/O window may write the registers there; any other leaves them. -/
def StoreFrame (s : State) (changed : List PhysReg) (stores : List Word) (n : Width) (t : State) : Prop :=
  AllWritten changed t ∧ OtherRegs changed s t ∧ SameControl s t ∧ t.cpsr = s.cpsr ∧ t.pc = s.pc + s.w ∧
    ((∀ a, a ∈ stores → region a ≠ .io) → SameIo s t) ∧
    ∀ b, (∀ a, a ∈ stores → OutsideStore a n b) → t.peek b = s.peek b

/-- The addresses of a block transfer's words. -/
def blockAddresses (a : Word) (count : Nat) : List Word := (List.range count).map fun j => a + 4 * BitVec.ofNat 32 j

/-- None of the words of a block store at these addresses is caught by the prefetch hazard (R705). -/
def BlockClear (s : State) (a : Word) (count : Nat) : Prop :=
  ∀ b, b ∈ blockAddresses a count → prefetchHit s b .word = false

/-! ### Memory contents -/

/-- A data read at the address returns bytes of this block: a stored region, not claimed by the save media, and not a
protected read of the BIOS (R70, R80). -/
def Plain (s : State) (a : Word) : Prop :=
  (region a).stored = true ∧ ((region a).isRom = true → claimed s a = false) ∧
    (region a = .bios → s.pc.toNat < 0x4000)

/-- The n bytes at the aligned address are those of v, least significant first (R64). -/
def BytesAt (s : State) (a : Word) (n : Width) (v : Word) : Prop :=
  ∀ k, k < n.bytes → s.peek (align a n + BitVec.ofNat 32 k) = some (v.extractLsb' (8 * k) 8)

/-- A store of n bytes at the address stores them all: EWRAM and IWRAM at every width, PRAM, VRAM and OAM at 16 and 32
bits (R67, R77 to R79). -/
def StoresWhole (a : Word) (n : Width) : Prop :=
  region a = .ewram ∨ region a = .iwram ∨
    (n ≠ .byte ∧ (region a = .pram ∨ region a = .vram ∨ region a = .oam))

/-! ### Collaborators -/

/-- An offset of the I/O window that no device of IO_DEVICES can own: IE, IF, WAITCNT, IME and HALTCNT (R74). -/
def OwnOffset (o : Nat) : Prop := (0x200 ≤ o ∧ o ≤ 0x205) ∨ o = 0x208 ∨ o = 0x209 ∨ o = 0x301

/-- IO_DEVICES registers a device for the offset: the first range of the list that holds it (R73, log entry 9). -/
def Registered (s : State) (o id : Nat) : Prop :=
  ¬OwnOffset o ∧ ∃ before d after, s.params.devices = before ++ d :: after ∧ d.id = id ∧ d.first ≤ o ∧ o ≤ d.last ∧
    ∀ e, e ∈ before → ¬(e.first ≤ o ∧ o ≤ e.last)

/-- No device is registered for the offset (R73, R82). -/
def Unregistered (s : State) (o : Nat) : Prop :=
  ¬OwnOffset o ∧ ∀ d, d ∈ s.params.devices → ¬(d.first ≤ o ∧ o ≤ d.last)

/-- The save media answers accesses of the address: the SRAM window, and ROM addresses it claims (R80, R81). -/
def SaveWindow (s : State) (a : Word) : Prop := region a = .sram ∨ ((region a).isRom = true ∧ claimed s a = true)

/-- A collaborator's next answer: the next input, or the next free value (R41, log entry 13). -/
def nextAnswer (s : State) : Word := s.answers.head?.getD (Config.draw s.draws)

/-- A read of n bytes at the address gives the next free value (R11), and nothing is forwarded. -/
def FreeRead (s : State) (a : Word) (n : Width) : Prop :=
  (memRead s a n).1 = n.trunc (Config.draw s.draws) ∧ (memRead s a n).2.draws = s.draws + 1 ∧
    (memRead s a n).2.forwarded = s.forwarded

/-- A read of n bytes at the address is forwarded once, as the read of offset o of the collaborator, and gives its answer. -/
def ForwardedRead (s : State) (a : Word) (n : Width) (c : Target) (o : Nat) : Prop :=
  (memRead s a n).1 = n.trunc (nextAnswer s) ∧ (memRead s a n).2.answers = s.answers.tail ∧
    (memRead s a n).2.forwarded = ⟨c, false, o, n, 0⟩ :: s.forwarded

/-- A write went to collaborators alone, as these forwarded accesses, the last one first: memory and the registers of the
I/O window that the state holds are as before. -/
def ForwardedWrite (s t : State) (fs : List Forward) : Prop :=
  t.forwarded = fs ++ s.forwarded ∧ t.draws = s.draws ∧ t.answers = s.answers ∧ SameMemory s t ∧ SameIo s t

/-! ### Exceptions -/

/-- The state after exception entry (R603): the address A of R602 is where the interrupted or raising instruction stands. -/
def Entered (s : State) (k : ExcKind) (t : State) : Prop :=
  t.spsr.get k.mode = some s.cpsr.saved ∧ (∀ m, m ≠ k.mode → t.spsr.get m = s.spsr.get m) ∧
    t.regOf k.mode 14 = k.returnAddress s.pc s.cpsr.t ∧ NowWritten t k.mode [14] ∧ OtherRegs [.lr k.mode.bank] s t ∧
    t.cpsr = { s.cpsr with mode := k.mode, t := false, i := true, f := s.cpsr.f || k.masksF } ∧
    t.pc = k.vector ∧ s.cycles + 2 ≤ t.cycles ∧ t.run = s.run ∧ t.irqInput = s.irqInput ∧ t.fiqLine = s.fiqLine ∧
    t.params = s.params ∧ SameIo s t ∧ NoExchange s t ∧ SameMemory s t

/-! ### Fetch -/

/-- The bytes of the instruction at the PC, lowest address first. -/
def codeBytes (s : State) : List (Option Byte) :=
  (List.range (instrBytes s.cpsr.t)).map fun k => s.peek (s.pc + BitVec.ofNat 32 k)

/-- The bytes of the code word lie at the PC, in memory that is fetched from this block. -/
def CodeAt (s : State) (bytes : List Byte) : Prop :=
  codeBytes s = bytes.map some ∧ ((region s.pc).isRom = true → claimed s s.pc = false)

/-- A step of the state goes straight to its instruction: PC aligned, running, no interrupt to take. -/
def Ready (s : State) : Prop := s.pcAligned = true ∧ s.run = .running ∧ serviceInterrupts s = s

end Sys2Proof.Machine
end

