-- ==== Sys2Proof/Certificates/Slice0/Obligations.lean ====
section
/-! DEFINITION. The statements about the model, each from the rules of spec/ that its docstring cites. -/

section

open Sys2Proof Sys2Proof.Machine

/-! ### The step, decoding, encoding -/

/-- R600, R611: when the bytes at PC decode to i, a step that takes no interrupt is exec of i after the price of its fetch
(R711), then the end of the step (R46, R614). -/
def Obligations.StepRunsDecodedInstruction : Prop :=
  ∀ (s : State) (bytes : List Byte) (i : Instr),
    Ready s → CodeAt s bytes → decode s.cpsr.t bytes = .ok (i, []) → bankHazard i s = false →
      step s = andThen (exec i (charge s (s.pc + s.w + s.w) s.fetchWidth)) fun t =>
        .next (finishStep (Instr.isUserBank i) (passes i s) t)

/-- R114, R126: words written out from the encodings of 30_encoding decode to the instructions they stand for. -/
def Obligations.WrittenOutWordsDecode : Prop :=
  decodeArm 0b1110_00_0_0100_1_0001_0000_00000_00_0_0010 = .armAdd .al true 1 0 (.immShift 0 .lsl 2) ∧
    decodeArm 0b1110_01_0_1_1_0_0_1_0001_0000_000000000100 = .armLdr .al .offset true 1 0 (.imm 4) ∧
    decodeArm 0b1110_100_0_1_1_1_1_1101_1000000000000001 = .armLdmExc .al false true true 13 1 ∧
    decodeArm 0b1110_00001_1_0_1_0001_0000_0011_1001_0010 = .armSmull .al true 1 0 3 2 ∧
    decodeArm 0b1110_00010_0_10_1001_1111_0000_0000_0011 = .armMsrReg .al false 9 0xF 0 3 ∧
    decodeArm 0b1110_101_1_000000000000000000000010 = .armBl .al 2 ∧
    decodeArm 0b1110_011_11111000000000000111_1_0000 = .armUndArch .al 0xF8007 0 ∧
    decodeThumb 0b010000_1101_001_000 = .thumbMul 1 0 ∧
    decodeThumb 0b0101_1_0_1_011_001_010 = .thumbLdrhReg 3 1 2 ∧
    decodeThumb 0b1011_0_10_1_00000011 = .thumbPush true 3 ∧
    decodeThumb 0b1101_0000_00001110 = .thumbBcond .eq 0x0E

/-- R111, R126, R127: every well-formed Thumb instruction, at every value of its operands, is read back from its bytes. -/
def Obligations.ThumbDecodeOfEncode : Prop :=
  ∀ i : Instr, i.wf = true → i.isThumb = true → decode true (encode i) = .ok (i, [])

/-- R111, R114 to R125: every well-formed ARM instruction, at every value of its operands, is read back from its bytes. -/
def Obligations.ArmDecodeOfEncode : Prop :=
  ∀ i : Instr, i.wf = true → i.isThumb = false → decode false (encode i) = .ok (i, [])

/-- R111: decoding is total and drops no bit: every ARM word and every Thumb halfword is the encoding of the one
well-formed instruction it decodes to. -/
def Obligations.EveryWordEncodesItsInstruction : Prop :=
  (∀ w : Word, (decodeArm w).wf = true ∧ encodeCode (decodeArm w) = .arm w) ∧
    ∀ h : BitVec 16, (decodeThumb h).wf = true ∧ encodeCode (decodeThumb h) = .thumb h

/-! ### Invariants and whole-machine rules -/

/-- R28, R46, R76: every step keeps PC aligned for T, the fixed bits of WAITCNT zero, memory in canonical form, and the
user-bank mark not ahead of the cycle counter. -/
def Obligations.EveryStepKeepsInvariant : Prop :=
  ∀ s t : State, s.Inv → step s = .next t → t.Inv

/-- The reset state meets the invariant. -/
def Obligations.ResetMeetsInvariant : Prop := State.reset.Inv ∧ State.resetDirect.Inv

/-- R700 to R702, R14, R43, R623: what the spec states of the state after reset, and of the state BOOT_MODE = direct
installs, whatever came before; the images stay. After an architectural reset no register, flag or SPSR is written, after a
direct boot all are, and no step takes a register's written mark away. A snapshot restored into a machine puts back
everything R43 lists and keeps that machine's images. That one mark stands for the low byte of an SPSR, and that the images
stay, are the model's choices (log entries 33, 35). -/
def Obligations.ResetState : Prop :=
  (State.reset.cpsr.mode = .svc ∧ State.reset.cpsr.t = false ∧ State.reset.cpsr.i = true ∧ State.reset.cpsr.f = true ∧
    State.reset.pc = 0 ∧ State.reset.run = .running ∧ State.reset.userBankHazard = false ∧ State.reset.cycles = 0 ∧
    State.reset.last = none ∧ State.reset.waitcnt = 0) ∧
  (∀ (m : BootMode) (s : State) (a : Nat), a < 0x4000 ∨ 0x08000000 ≤ a →
    Mem.get (hostReset m s).mem a = Mem.get s.mem a) ∧
  (∀ s : State, (hostReset .direct s).cpsr = ⟨false, false, false, false, false, false, false, .sys, FlagMarks.fill true⟩ ∧
    (hostReset .direct s).pc = 0x08000000 ∧ (hostReset .direct s).waitcnt = 0 ∧
    (hostReset .direct s).regOf .usr 13 = 0x03007F00 ∧ (hostReset .direct s).regOf .irq 13 = 0x03007FA0 ∧
    (hostReset .direct s).regOf .svc 13 = 0x03007FE0 ∧
    (∀ p, p ≠ .sp .usr → p ≠ .sp .irq → p ≠ .sp .svc → (hostReset .direct s).regs.get p = 0) ∧
    (∀ p, (hostReset .direct s).written.get p = true) ∧
    ∀ m p, (hostReset .direct s).spsr.get m = some p → p = Psr.zero true) ∧
  (∀ s : State, (∀ p, (hostReset .bios s).written.get p = false) ∧
    (hostReset .bios s).cpsr.marks = FlagMarks.fill false ∧
    ∀ m p, (hostReset .bios s).spsr.get m = some p → p.marks = FlagMarks.fill false ∧ p.lowWritten = false) ∧
  (∀ s t : State, step s = .next t → ∀ p, s.written.get p = true → t.written.get p = true) ∧
  ∀ s u : State, Mem.wf s.mem = true → Mem.wf u.mem = true → ∃ v, restoreState (saveState s) u = some v ∧
    v.regs = s.regs ∧ v.written = s.written ∧ v.pc = s.pc ∧ v.cpsr = s.cpsr ∧ v.spsr = s.spsr ∧ v.run = s.run ∧
    v.hazardMark = s.hazardMark ∧ v.userBankHazard = s.userBankHazard ∧ v.last = s.last ∧ v.waitcnt = s.waitcnt ∧
    v.cycles = s.cycles ∧
    v.params = u.params ∧ Mem.wf v.mem = true ∧
    ∀ a, Mem.get v.mem a = Mem.get (if 0x4000 ≤ a ∧ a < 0x08000000 then s else u).mem a

/-- R625: the cycle counter strictly increases at every step. -/
def Obligations.CyclesStrictlyIncrease : Prop :=
  ∀ s t : State, step s = .next t → s.cycles < t.cycles

/-- R67, R70, R80: no step changes a byte of the BIOS or of the cartridge ROM, nor the parameters. -/
def Obligations.StepsLeaveImages : Prop :=
  ∀ s t : State, step s = .next t →
    t.params = s.params ∧ ∀ a, region a = .bios ∨ (region a).isRom = true → t.peek a = s.peek a

/-- R621, R622: an instruction executed in User mode stays in User mode with its masks, unless it raises SWI or Undefined.
A step leaves User mode only by exception entry. -/
def Obligations.UserModeLeftOnlyByException : Prop :=
  (∀ (i : Instr) (s t : State), s.cpsr.mode = .usr → exec i s = .next t →
    (t.cpsr.mode = .usr ∧ t.cpsr.i = s.cpsr.i ∧ t.cpsr.f = s.cpsr.f ∧ t.spsr = s.spsr) ∨
      Entered s .swi t ∨ Entered s .undefined t) ∧
    ∀ s t : State, s.cpsr.mode = .usr → serviceInterrupts s = s → step s = .next t → t.cpsr.mode ≠ .usr →
      (t.cpsr.mode = .svc ∧ t.pc = 0x08 ∨ t.cpsr.mode = .und ∧ t.pc = 0x04) ∧ t.cpsr.i = true ∧ t.cpsr.t = false

/-- R22, R23: the registers of the other modes' banks stay as they are under every instruction that leaves the mode as it
is, the user-bank LDM apart. -/
def Obligations.OtherBanksUntouched : Prop :=
  ∀ (i : Instr) (s t : State), Instr.isUserBank i = false → exec i s = .next t → t.cpsr.mode = s.cpsr.mode →
    ∀ p, (∀ n, phys s.cpsr.mode n ≠ some p) → t.regs.get p = s.regs.get p ∧ t.written.get p = s.written.get p

/-! ### The halted state and interrupts -/

/-- R615, R717: a halted machine that nothing wakes lets one cycle pass and changes nothing else; one that wakeLine wakes
goes on as a running machine in the same step. -/
def Obligations.HaltedState : Prop :=
  ∀ s : State, s.pcAligned = true → s.run = .halted →
    (s.wakeLine = false → step s = .next { s with cycles := s.cycles + 1 }) ∧
    (s.wakeLine = true → step s = step { s with run := .running })

/-- R601 to R604, R608, R609, R706, R716: the vector, the mode entered and the F mask of every kind of exception; an
unmasked FIQ is taken before the instruction at PC, an unmasked IRQ where no FIQ is; the entry costs the discarded prefetch
and the refill and clears the user-bank mark; the step then runs the instruction at the vector. Masked ones are ignored. -/
def Obligations.InterruptEntry : Prop :=
  ([ExcKind.reset, .undefined, .swi, .prefetchAbort, .dataAbort, .irq, .fiq].map fun k => (k.vector, k.mode, k.masksF)) =
    [(0x00, .svc, true), (0x04, .und, false), (0x08, .svc, false), (0x0C, .abt, false), (0x10, .abt, false),
      (0x18, .irq, false), (0x1C, .fiq, true)] ∧
  ∀ s : State, s.pcAligned = true → s.run = .running →
    let taken (k : ExcKind) (u : State) : Prop := Entered s k u ∧ u.hazardMark = none ∧
      u.cycles = (charge s (s.pc + s.w + s.w) s.fetchWidth).cycles + 2
    (s.fiqLine = true → s.cpsr.f = false → ∃ u, taken .fiq u ∧ step s = runInstruction u) ∧
    (s.fiqLine = false ∨ s.cpsr.f = true → s.irqLine = true → s.cpsr.i = false →
      ∃ u, taken .irq u ∧ step s = runInstruction u) ∧
    (s.fiqLine = false ∨ s.cpsr.f = true → s.irqLine = false ∨ s.cpsr.i = true → step s = runInstruction s)

/-- R612, R617: the request and wake lines of the interrupt controller, the writes of IE, of IF, whose bits are cleared by
writing ones, and of IME, by halfword and by byte, and the host's request, accepted for IRQ alone. R612 calls the controller
external and bits 15:14 unused: that State holds it, and that all 16 bits of IE and IF store and count, is the model's
choice (log entry 10). -/
def Obligations.InterruptLines : Prop :=
  (∀ s : State, s.irqInput = false →
    (s.irqLine = true ↔ s.irqc.ime = true ∧ ∃ k, k < 16 ∧ s.irqc.ie.getLsbD k = true ∧ s.irqc.iflag.getLsbD k = true)) ∧
  (∀ s : State, s.wakeLine = true ↔ ∃ k, k < 16 ∧ s.irqc.ie.getLsbD k = true ∧ s.irqc.iflag.getLsbD k = true) ∧
  (∀ (s t : State) (n : Width) (v : Word),
    (memWrite s 0x04000200 .half v = .next t → t.irqc = { s.irqc with ie := v.extractLsb' 0 16 }) ∧
    (memWrite s 0x04000200 .byte v = .next t →
      t.irqc = { s.irqc with ie := s.irqc.ie.extractLsb' 8 8 ++ v.extractLsb' 0 8 }) ∧
    (memWrite s 0x04000201 .byte v = .next t →
      t.irqc = { s.irqc with ie := v.extractLsb' 0 8 ++ s.irqc.ie.extractLsb' 0 8 }) ∧
    (n ≠ .word → memWrite s 0x04000208 n v = .next t → t.irqc = { s.irqc with ime := v.getLsbD 0 }) ∧
    (memWrite s 0x04000209 .byte v = .next t → t.irqc = s.irqc)) ∧
  (∀ (s t : State) (a : Word) (n : Width) (v : Word) (written : Nat → Bool), memWrite s a n v = .next t →
    (a = 0x04000202 ∧ n = .half ∧ written = fun k => v.getLsbD k) ∨
      (a = 0x04000202 ∧ n = .byte ∧ written = fun k => decide (k < 8) && v.getLsbD k) ∨
      (a = 0x04000203 ∧ n = .byte ∧ written = fun k => decide (8 ≤ k) && v.getLsbD (k - 8)) →
    (∀ k, k < 16 → t.irqc.iflag.getLsbD k = (s.irqc.iflag.getLsbD k && !written k)) ∧ t.irqc.ie = s.irqc.ie ∧
      t.irqc.ime = s.irqc.ime) ∧
  ∀ (k : ExcKind) (s : State),
    (k = .irq → requestException k s = some { s with irqInput := true } ∧
      State.irqLine { s with irqInput := true } = true) ∧
    (k ≠ .irq → requestException k s = none)

/-! ### Exceptions raised by instructions -/

/-- R603, R607, R313, R485, R716: SWI enters Supervisor mode in its own step; beside the fetch it costs the refill. -/
def Obligations.SoftwareInterrupt : Prop :=
  ∀ (s : State) (c : Cond) (comment : BitVec 24) (comment8 : Byte),
    let entered (t : State) : Prop := Entered s .swi t ∧ t.hazardMark = s.hazardMark ∧ t.cycles = s.cycles + 2
    (condPassed c s.cpsr = true → Gives (.armSwi c comment) s entered) ∧ Gives (.thumbSwi comment8) s entered

/-- R606, R314 to R320, R486, R716: coprocessor instructions and undefined encodings raise the undefined-instruction
exception, and do nothing else; beside the fetch they cost one internal cycle and the refill. -/
def Obligations.UndefinedInstruction : Prop :=
  ∀ (s : State) (c : Cond), condPassed c s.cpsr = true →
    let entered (t : State) : Prop := Entered s .undefined t ∧ t.hazardMark = s.hazardMark ∧ t.cycles = s.cycles + 3
    (∀ op1 crn crd cp op2 crm, Gives (.armCdp c op1 crn crd cp op2 crm) s entered) ∧
    (∀ p up n w rn crd cp off, Gives (.armLdc c p up n w rn crd cp off) s entered) ∧
    (∀ p up n w rn crd cp off, Gives (.armStc c p up n w rn crd cp off) s entered) ∧
    (∀ op1 crn rd cp op2 crm, Gives (.armMcr c op1 crn rd cp op2 crm) s entered) ∧
    (∀ op1 crn rd cp op2 crm, Gives (.armMrc c op1 crn rd cp op2 crm) s entered) ∧
    (∀ hi lo, Gives (.armUndArch c hi lo) s entered) ∧
    (∀ op mid lo, Gives (.armUndMul c op mid lo) s entered) ∧
    (∀ op mid h lo, Gives (.armUndSignedStore c op mid h lo) s entered) ∧
    (∀ op mid lo, Gives (.armUndMisc c op mid lo) s entered) ∧
    (∀ r rest, Gives (.armUndMsrImm c r rest) s entered) ∧
    (∀ bits, Gives (.thumbUnd1011 bits) s entered) ∧
    (∀ bits, Gives (.thumbUndCond bits) s entered) ∧
    (∀ bits, Gives (.thumbUnd11101 bits) s entered)

/-- R618, R620: the return instruction of R618, run at the state an exception entered, restores the status word, the
registers but R14 of the mode entered, memory, and resumes where R602 says. -/
def Obligations.ExceptionRoundTrip : Prop :=
  ∀ (s : State), s.pcAligned = true →
    (∀ k, k = .swi ∨ k = .undefined →
      Gives (.armMov .al true 0 15 (.immShift 0 .lsl 14)) (takeException s k) fun u =>
        u.cpsr = s.cpsr ∧ u.pc = s.pc + s.w ∧ OtherRegs [.lr k.mode.bank] s u ∧ SameMemory s u) ∧
    (∀ k, k = .irq ∨ k = .fiq →
      Gives (.armSub .al true 14 15 (.imm 0 4)) (takeException s k) fun u =>
        u.cpsr = s.cpsr ∧ u.pc = s.pc ∧ OtherRegs [.lr k.mode.bank] s u ∧ SameMemory s u)

/-! ### Conditions and flags -/

/-- R113, R222, R715: an ARM instruction whose condition fails moves the PC and does nothing else. -/
def Obligations.FailedConditionIsNoOp : Prop :=
  ∀ (i : Instr) (s : State), i.isThumb = false → condPassed (Instr.cond i) s.cpsr = false →
    exec i s = .next { s with pc := s.pc + s.w }

/-- R112: the sixteen conditions, in the order of their encodings. -/
def Obligations.ConditionTable : Prop :=
  (List.range 16).map (fun k => Cond.ofBits (BitVec.ofNat 4 k)) =
    [.eq, .ne, .cs, .cc, .mi, .pl, .vs, .vc, .hi, .ls, .ge, .lt, .gt, .le, .al, .nv] ∧
  ∀ p : Cpsr,
    (condPassed .eq p ↔ p.z = true) ∧ (condPassed .ne p ↔ p.z = false) ∧
    (condPassed .cs p ↔ p.c = true) ∧ (condPassed .cc p ↔ p.c = false) ∧
    (condPassed .mi p ↔ p.n = true) ∧ (condPassed .pl p ↔ p.n = false) ∧
    (condPassed .vs p ↔ p.v = true) ∧ (condPassed .vc p ↔ p.v = false) ∧
    (condPassed .hi p ↔ p.c = true ∧ p.z = false) ∧ (condPassed .ls p ↔ p.c = false ∨ p.z = true) ∧
    (condPassed .ge p ↔ p.n = p.v) ∧ (condPassed .lt p ↔ p.n ≠ p.v) ∧
    (condPassed .gt p ↔ p.z = false ∧ p.n = p.v) ∧ (condPassed .le p ↔ p.z = true ∨ p.n ≠ p.v) ∧
    condPassed .al p ∧ ¬condPassed .nv p

/-- R220: AddWithCarry is the sum with the carry, its carry the unsigned and its overflow the signed one; x − y is
AddWithCarry(x, NOT y, 1), with C = no borrow, and x − y − 1 is AddWithCarry(x, NOT y, 0). -/
def Obligations.SumAndDifferenceFlags : Prop :=
  ∀ x y : Word,
    (∀ c : Bool, addWithCarry x y c = (x + y + BitVec.ofNat 32 c.toNat, decide (2 ^ 32 ≤ x.toNat + y.toNat + c.toNat),
      decide (x.toInt + y.toInt + c.toNat < -2 ^ 31 ∨ 2 ^ 31 ≤ x.toInt + y.toInt + c.toNat))) ∧
    addWithCarry x (~~~y) true = (x - y, decide (y.toNat ≤ x.toNat),
      decide (x.toInt - y.toInt < -2 ^ 31 ∨ 2 ^ 31 ≤ x.toInt - y.toInt)) ∧
    addWithCarry x (~~~y) false = (x - y - 1, decide (y.toNat < x.toNat),
      decide (x.toInt - y.toInt - 1 < -2 ^ 31 ∨ 2 ^ 31 ≤ x.toInt - y.toInt - 1))

/-- R214, R112: after CMP the conditions compare the operands, unsigned and signed. -/
def Obligations.CompareOrdersOperands : Prop :=
  ∀ (s : State) (rn : RegNo) (rotate : BitVec 4) (imm8 : Byte),
    Gives (.armCmp .al rn 0 (.imm rotate imm8)) s fun t =>
      let x := s.reg rn
      let y := (imm8.setWidth 32 : Word).rotateRight (2 * rotate.toNat)
      (condPassed .eq t.cpsr ↔ x = y) ∧ (condPassed .cs t.cpsr ↔ y.toNat ≤ x.toNat) ∧
        (condPassed .cc t.cpsr ↔ x.toNat < y.toNat) ∧ (condPassed .hi t.cpsr ↔ y.toNat < x.toNat) ∧
        (condPassed .ls t.cpsr ↔ x.toNat ≤ y.toNat) ∧ (condPassed .ge t.cpsr ↔ y.toInt ≤ x.toInt) ∧
        (condPassed .lt t.cpsr ↔ x.toInt < y.toInt) ∧ (condPassed .gt t.cpsr ↔ y.toInt < x.toInt) ∧
        (condPassed .le t.cpsr ↔ x.toInt ≤ y.toInt)

/-! ### The shifter -/

/-- R201, R202: the operand and the carry-out of the immediate form and of the immediate shifts, as arithmetic on the
register; the value is also the scaled offset of a word or byte transfer. A rotation of 0 and LSL #0 give no carry-out of
their own (R200). -/
def Obligations.ImmediateShifts : Prop :=
  ∀ (s : State) (rotate : BitVec 4) (imm8 : Byte) (amount : BitVec 5) (rm : RegNo),
    operand2 s (.imm rotate imm8) = .ok ((imm8.setWidth 32 : Word).rotateRight (2 * rotate.toNat),
      if rotate = 0 then s.cpsr.c else ((imm8.setWidth 32 : Word).rotateRight (2 * rotate.toNat)).getLsbD 31) ∧
    operand2Sets s (.imm rotate imm8) = decide (rotate ≠ 0) ∧
    (∀ ty, operand2Sets s (.immShift amount ty rm) = decide (¬(ty = .lsl ∧ amount = 0))) ∧
    let v := if rm = 15 then s.pcRead else s.reg rm
    let k := amount.toNat
    ∃ lsl lsr asr ror : Word × Bool,
      operand2 s (.immShift amount .lsl rm) = .ok lsl ∧ operand2 s (.immShift amount .lsr rm) = .ok lsr ∧
      operand2 s (.immShift amount .asr rm) = .ok asr ∧ operand2 s (.immShift amount .ror rm) = .ok ror ∧
      (rm ≠ 15 → offset12Value s (.reg amount .lsl rm) = .ok lsl.1 ∧ offset12Value s (.reg amount .lsr rm) = .ok lsr.1 ∧
        offset12Value s (.reg amount .asr rm) = .ok asr.1 ∧ offset12Value s (.reg amount .ror rm) = .ok ror.1) ∧
      (k = 0 → lsl = (v, s.cpsr.c) ∧ lsr = (0, v.getLsbD 31) ∧
        asr = (BitVec.ofInt 32 (v.toInt / 2 ^ 32), v.getLsbD 31) ∧
        ror.1.toNat = s.cpsr.c.toNat * 2 ^ 31 + v.toNat / 2 ∧ ror.2 = v.getLsbD 0) ∧
      (k ≠ 0 → lsl.1.toNat = v.toNat * 2 ^ k % 2 ^ 32 ∧ lsl.2 = v.getLsbD (32 - k) ∧
        lsr.1.toNat = v.toNat / 2 ^ k ∧ lsr.2 = v.getLsbD (k - 1) ∧ asr.1.toInt = v.toInt / 2 ^ k ∧
        asr.2 = v.getLsbD (k - 1) ∧ (∀ j, j < 32 → ror.1.getLsbD j = v.getLsbD ((j + k) % 32)) ∧
        ror.2 = v.getLsbD (k - 1))

/-- R25, R203: the operand and the carry-out of the shifts by the bottom byte of a register, for amounts 0 to 255; R15 reads
PC + 12 as Rm and as Rn, only Rs = R15 stops, and the shift costs one internal cycle. A data-processing instruction whose
operand stops, stops so. -/
def Obligations.RegisterShifts : Prop :=
  (∀ (s : State) (c : Cond) (sf : Bool) (rn rd : RegNo) (o : Operand2) (e : Fault),
    condPassed c s.cpsr = true → operand2 s o = .error e →
    ∀ i, i ∈ [.armAnd c sf rn rd o, .armEor c sf rn rd o, .armSub c sf rn rd o, .armRsb c sf rn rd o, .armAdd c sf rn rd o,
        .armAdc c sf rn rd o, .armSbc c sf rn rd o, .armRsc c sf rn rd o, .armTst c rn 0 o, .armTeq c rn 0 o,
        .armCmp c rn 0 o, .armCmn c rn 0 o, .armOrr c sf rn rd o, .armMov c sf 0 rd o, .armBic c sf rn rd o,
        .armMvn c sf 0 rd o] → Stops i s e) ∧
  ∀ (s : State) (rs rm : RegNo) (ty : ShiftType),
    operand2Sets s (.regShift rs ty rm) = decide ((s.reg rs).toNat % 256 ≠ 0) ∧
    operand2 s (.regShift 15 ty rm) = .error .rsIsR15 ∧ operand2Cycles (.regShift rs ty rm) = 1 ∧
    regOrStore s 15 (.regShift rs ty rm) = s.pc + 12 ∧
    (rs ≠ 15 → ∃ r : Word × Bool, operand2 s (.regShift rs ty rm) = .ok r ∧
      let v := if rm = 15 then s.pc + 12 else s.reg rm
      let amt := ((s.reg rs).setWidth 8).toNat
      if amt = 0 then r = (v, s.cpsr.c)
      else match ty with
        | .lsl => r.1.toNat = v.toNat * 2 ^ amt % 2 ^ 32 ∧ r.2 = (decide (amt ≤ 32) && v.getLsbD (32 - amt))
        | .lsr => r.1.toNat = v.toNat / 2 ^ amt ∧ r.2 = (decide (amt ≤ 32) && v.getLsbD (amt - 1))
        | .asr => r.1.toInt = v.toInt / 2 ^ amt ∧ r.2 = if amt ≤ 32 then v.getLsbD (amt - 1) else v.getLsbD 31
        | .ror => (∀ j, j < 32 → r.1.getLsbD j = v.getLsbD ((j + amt) % 32)) ∧ r.2 = v.getLsbD ((amt + 31) % 32))

/-- R20, R22, R25: what R15 reads as: PC + 8 in ARM state, PC + 4 in Thumb state, PC + 12 beside a register-specified shift
and where STR and STM store it; every other register reads the value of the physical register the bank map gives it: R0 to
R7 shared, R8 to R12 banked in FIQ mode alone, R13 and R14 banked for each exception mode, User and System sharing theirs.
No two physical registers overlap. -/
def Obligations.ReadingR15 : Prop :=
  (∀ (m : Mode) (n : RegNo),
    (∀ k : Fin 8, n.toNat = k.val → phys m n = some (.low k)) ∧
    (∀ k : Fin 5, n.toNat = k.val + 8 → phys m n = some (if m = .fiq then .midFiq k else .mid k)) ∧
    (n = 13 → phys m n = some (.sp m.bank)) ∧ (n = 14 → phys m n = some (.lr m.bank)) ∧ (n = 15 → phys m n = none)) ∧
  ([Mode.usr, .fiq, .irq, .svc, .abt, .und, .sys].map Mode.bank = [.usr, .fiq, .irq, .svc, .abt, .und, .usr]) ∧
  (∀ (r : RegFile) (p q : PhysReg) (v : Word), (r.set p v).get q = if q = p then v else r.get q) ∧
  ∀ (s : State) (o : Operand2),
    s.reg 15 = s.pc + (if s.cpsr.t then 4 else 8) ∧ (∀ m : Mode, s.regOf m 15 = s.reg 15) ∧
    regOrStore s 15 o = (if Operand2.isRegShift o then s.pc + 12 else s.reg 15) ∧ s.pcStore = s.pc + 12 ∧
    ∀ n : RegNo, n ≠ 15 → ∃ p, phys s.cpsr.mode n = some p ∧ s.reg n = s.regs.get p ∧ regOrStore s n o = s.reg n

/-! ### ARM data processing -/

/-- R200, R204, R205, R216 to R219, R221: the logical operations with a register destination. -/
def Obligations.LogicalResults : Prop :=
  ∀ (s : State) (c : Cond) (sf : Bool) (rn rd : RegNo) (o : Operand2) (b : Word) (sc : Bool),
    condPassed c s.cpsr = true → operand2 s o = .ok (b, sc) → rd ≠ 15 →
      let a := regOrStore s rn o
      let flags (r : Word) : Cpsr :=
        if sf then { s.cpsr with
            n := r.getLsbD 31, z := r == 0, c := sc,
            marks := ⟨true, true, s.cpsr.marks.c || operand2Sets s o, s.cpsr.marks.v⟩ }
        else s.cpsr
      let effect (r : Word) := RegisterEffect s rd r (flags r) (operand2Cycles o)
      Gives (.armAnd c sf rn rd o) s (effect (a &&& b)) ∧ Gives (.armEor c sf rn rd o) s (effect (a ^^^ b)) ∧
        Gives (.armOrr c sf rn rd o) s (effect (a ||| b)) ∧ Gives (.armBic c sf rn rd o) s (effect (a &&& ~~~b)) ∧
        Gives (.armMov c sf 0 rd o) s (effect b) ∧ Gives (.armMvn c sf 0 rd o) s (effect (~~~b))

/-- R200, R206 to R211, R220: the arithmetic operations with a register destination. -/
def Obligations.ArithmeticResults : Prop :=
  ∀ (s : State) (c : Cond) (sf : Bool) (rn rd : RegNo) (o : Operand2) (b : Word) (sc : Bool),
    condPassed c s.cpsr = true → operand2 s o = .ok (b, sc) → rd ≠ 15 →
      let a := regOrStore s rn o
      let flags (r : Word × Bool × Bool) : Cpsr :=
        if sf then { s.cpsr with
            n := r.1.getLsbD 31, z := r.1 == 0, c := r.2.1, v := r.2.2, marks := FlagMarks.fill true }
        else s.cpsr
      let effect (r : Word × Bool × Bool) := RegisterEffect s rd r.1 (flags r) (operand2Cycles o)
      Gives (.armSub c sf rn rd o) s (effect (addWithCarry a (~~~b) true)) ∧
        Gives (.armRsb c sf rn rd o) s (effect (addWithCarry b (~~~a) true)) ∧
        Gives (.armAdd c sf rn rd o) s (effect (addWithCarry a b false)) ∧
        Gives (.armAdc c sf rn rd o) s (effect (addWithCarry a b s.cpsr.c)) ∧
        Gives (.armSbc c sf rn rd o) s (effect (addWithCarry a (~~~b) s.cpsr.c)) ∧
        Gives (.armRsc c sf rn rd o) s (effect (addWithCarry b (~~~a) s.cpsr.c))

/-- R200, R212 to R215: the tests and comparisons write flags alone. -/
def Obligations.TestAndCompareResults : Prop :=
  ∀ (s : State) (c : Cond) (rn : RegNo) (o : Operand2) (b : Word) (sc : Bool),
    condPassed c s.cpsr = true → operand2 s o = .ok (b, sc) →
      let a := regOrStore s rn o
      let logical (r : Word) : Cpsr := { s.cpsr with
        n := r.getLsbD 31, z := r == 0, c := sc,
        marks := ⟨true, true, s.cpsr.marks.c || operand2Sets s o, s.cpsr.marks.v⟩ }
      let arith (r : Word × Bool × Bool) : Cpsr := { s.cpsr with
        n := r.1.getLsbD 31, z := r.1 == 0, c := r.2.1, v := r.2.2, marks := FlagMarks.fill true }
      let effect (p : Cpsr) := StatusEffect s p (operand2Cycles o)
      Gives (.armTst c rn 0 o) s (effect (logical (a &&& b))) ∧
        Gives (.armTeq c rn 0 o) s (effect (logical (a ^^^ b))) ∧
        Gives (.armCmp c rn 0 o) s (effect (arith (addWithCarry a (~~~b) true))) ∧
        Gives (.armCmn c rn 0 o) s (effect (arith (addWithCarry a b false)))

/-- R26, R36, R200: data processing with Rd = R15: a branch that stops on a misaligned target, or with S = 1 an exception
return, which stops in User and System mode and on an invalid saved mode. -/
def Obligations.DataProcessingToPc : Prop :=
  ∀ (s : State) (c : Cond) (rn : RegNo) (o : Operand2) (b : Word) (sc : Bool),
    condPassed c s.cpsr = true → operand2 s o = .ok (b, sc) →
      let a := regOrStore s rn o
      let carry : Word := BitVec.ofNat 32 s.cpsr.c.toNat
      let forms (sf : Bool) : List (Instr × Word) :=
        [(.armAnd c sf rn 15 o, a &&& b), (.armEor c sf rn 15 o, a ^^^ b), (.armSub c sf rn 15 o, a - b),
          (.armRsb c sf rn 15 o, b - a), (.armAdd c sf rn 15 o, a + b), (.armAdc c sf rn 15 o, a + b + carry),
          (.armSbc c sf rn 15 o, a - b - 1 + carry), (.armRsc c sf rn 15 o, b - a - 1 + carry),
          (.armOrr c sf rn 15 o, a ||| b), (.armMov c sf 0 15 o, b), (.armBic c sf rn 15 o, a &&& ~~~b),
          (.armMvn c sf 0 15 o, ~~~b)]
      (∀ i r, (i, r) ∈ forms false →
        (pcFits s.cpsr.t r = true → Gives i s (BranchEffect s r s.cpsr [])) ∧
        (pcFits s.cpsr.t r = false → Stops i s .misalignedBranchTarget)) ∧
      ∀ i r, (i, r) ∈ forms true →
        (s.spsr.get s.cpsr.mode = none → Stops i s .noSpsr) ∧
        ∀ p, s.spsr.get s.cpsr.mode = some p →
          (p.restored? = none → Stops i s .invalidMode) ∧
          ∀ q, p.restored? = some q →
            (pcFits q.t r = true → Gives i s (BranchEffect s r q [])) ∧
            (pcFits q.t r = false → Stops i s .misalignedBranchTarget)

/-- R132, R200, R212 to R217, R219, R240 to R242, R244, R250, R279, R312, R428 to R430, R484: an instruction that executes
with a should-be field not as it should be stops. A halfword transfer that another restriction of R279 stops as well stops
for that one (log entry 26). -/
def Obligations.ShouldBeFieldStops : Prop :=
  ∀ (s : State) (c : Cond), condPassed c s.cpsr = true →
    (∀ rn sbz o, sbz ≠ 0 → Stops (.armTst c rn sbz o) s .shouldBeField ∧ Stops (.armTeq c rn sbz o) s .shouldBeField ∧
      Stops (.armCmp c rn sbz o) s .shouldBeField ∧ Stops (.armCmn c rn sbz o) s .shouldBeField) ∧
    (∀ sf sbz rd o, sbz ≠ 0 → Stops (.armMov c sf sbz rd o) s .shouldBeField ∧
      Stops (.armMvn c sf sbz rd o) s .shouldBeField) ∧
    (∀ r sbo rd hi lo, ¬(sbo = 0xF ∧ hi = 0 ∧ lo = 0) → Stops (.armMrs c r sbo rd hi lo) s .shouldBeField) ∧
    (∀ r mask sbo sbz rm, ¬(sbo = 0xF ∧ sbz = 0) → Stops (.armMsrReg c r mask sbo sbz rm) s .shouldBeField) ∧
    (∀ r mask sbo rot imm8, sbo ≠ 0xF → Stops (.armMsrImm c r mask sbo rot imm8) s .shouldBeField) ∧
    (∀ sf rd sbz rs rm, sbz ≠ 0 → Stops (.armMul c sf rd sbz rs rm) s .shouldBeField) ∧
    (∀ rn rd sbz rm, sbz ≠ 0 → Stops (.armSwp c rn rd sbz rm) s .shouldBeField ∧
      Stops (.armSwpb c rn rd sbz rm) s .shouldBeField) ∧
    (∀ p up w rn rd sbz rm, p = true ∨ w = false → rd ≠ 15 → sbz ≠ 0 →
      Stops (.armStrh c p up w rn rd (.reg sbz rm)) s .shouldBeField ∧
      Stops (.armLdrh c p up w rn rd (.reg sbz rm)) s .shouldBeField ∧
      Stops (.armLdrsb c p up w rn rd (.reg sbz rm)) s .shouldBeField ∧
      Stops (.armLdrsh c p up w rn rd (.reg sbz rm)) s .shouldBeField) ∧
    (∀ sbo rm, sbo ≠ 0xFFF → Stops (.armBx c sbo rm) s .shouldBeField) ∧
    (∀ h1 hs sbz, ¬(h1 = false ∧ sbz = 0) → Stops (.thumbBx h1 hs sbz) s .shouldBeField) ∧
    (∀ hs hd : RegNo, hs.toNat < 8 → hd.toNat < 8 → Stops (.thumbAddHi hs hd) s .shouldBeField ∧
      Stops (.thumbCmpHi hs hd) s .shouldBeField ∧ Stops (.thumbMovHi hs hd) s .shouldBeField)

/-! ### Status-register transfer, multiply, swap -/

/-- R14, R34, R240: MRS gives the flags and the low byte of the status register; bits 27:8 are the next free value. The SPSR
of User and System mode stops. -/
def Obligations.MrsResults : Prop :=
  ∀ (s : State) (c : Cond) (rd : RegNo), condPassed c s.cpsr = true → rd ≠ 15 →
    (∀ (spsr : Bool) (p : Psr), (if spsr then s.spsr.get s.cpsr.mode else some s.cpsr.saved) = some p →
      Gives (.armMrs c spsr 0xF rd 0 0) s fun t =>
        (t.reg rd).extractLsb' 28 4 = bit p.n ++ bit p.z ++ bit p.c ++ bit p.v ∧
        (t.reg rd).extractLsb' 0 8 = bit p.i ++ bit p.f ++ bit p.t ++ p.m ∧
        (t.reg rd).extractLsb' 8 20 = (Config.draw s.draws).extractLsb' 8 20 ∧
        t.cpsr = s.cpsr ∧ t.pc = s.pc + s.w ∧ t.draws = s.draws + 1 ∧ t.cycles = s.cycles ∧
        LoadFrame s (physRegs s.cpsr.mode [rd]) t) ∧
    (s.cpsr.mode = .usr ∨ s.cpsr.mode = .sys → Stops (.armMrs c true 0xF rd 0 0) s .noSpsr)

/-- R21, R34, R35, R36, R241, R242: the five-bit numbers of the seven modes, every other number invalid, and the status
words that are saved and restored by them. MSR, register and immediate. To the CPSR: the flags by mask bit 3; masks and mode
by mask bit 0 outside User mode, where an invalid mode or a change of T stops. To the SPSR: the flags by mask bit 3, the low
byte by mask bit 0, with no check; in User and System mode it stops. That the low byte of an SPSR has one written mark is
the model's choice (log entry 33). -/
def Obligations.MsrResults : Prop :=
  let modes : List Mode := [.usr, .fiq, .irq, .svc, .abt, .und, .sys]
  let numbers : List (BitVec 5) := [0x10, 0x11, 0x12, 0x13, 0x17, 0x1B, 0x1F]
  modes.map Mode.bits = numbers ∧
  (∀ p : Psr, (p.restored? = none ↔ p.m ∉ numbers) ∧ ∀ q, p.restored? = some q →
    q.mode.bits = p.m ∧ (q.n, q.z, q.c, q.v, q.i, q.f, q.t, q.marks) = (p.n, p.z, p.c, p.v, p.i, p.f, p.t, p.marks)) ∧
  (∀ q : Cpsr, q.saved.m = q.mode.bits ∧ q.saved.lowWritten = true ∧
    (q.saved.n, q.saved.z, q.saved.c, q.saved.v, q.saved.i, q.saved.f, q.saved.t, q.saved.marks) =
      (q.n, q.z, q.c, q.v, q.i, q.f, q.t, q.marks)) ∧
  ∀ (s : State) (c : Cond) (mask : BitVec 4) (i : Bool → Instr) (v : Word), condPassed c s.cpsr = true →
    ((∃ rm, rm ≠ 15 ∧ (i = fun spsr => .armMsrReg c spsr mask 0xF 0 rm) ∧ v = s.reg rm) ∨
      ∃ rot imm8, (i = fun spsr => .armMsrImm c spsr mask 0xF rot imm8) ∧
        v = (imm8.setWidth 32 : Word).rotateRight (2 * rot.toNat)) →
    let p : Cpsr := if mask.getLsbD 3 then
        { s.cpsr with
          n := v.getLsbD 31, z := v.getLsbD 30, c := v.getLsbD 29, v := v.getLsbD 28, marks := FlagMarks.fill true }
      else s.cpsr
    (mask.getLsbD 0 = false ∨ s.cpsr.mode = .usr → Gives (i false) s (StatusEffect s p 0)) ∧
    (mask.getLsbD 0 = true → s.cpsr.mode ≠ .usr →
      (v.extractLsb' 0 5 ∉ numbers → Stops (i false) s .invalidMode) ∧
      ∀ m : Mode, m.bits = v.extractLsb' 0 5 →
        (v.getLsbD 5 ≠ s.cpsr.t → Stops (i false) s .msrWritesT) ∧
        (v.getLsbD 5 = s.cpsr.t →
          Gives (i false) s (StatusEffect s { p with i := v.getLsbD 7, f := v.getLsbD 6, mode := m } 0))) ∧
    (s.cpsr.mode = .usr ∨ s.cpsr.mode = .sys → Stops (i true) s .noSpsr) ∧
    ∀ p, s.spsr.get s.cpsr.mode = some p →
      Gives (i true) s fun t =>
        (∃ q, t.spsr.get s.cpsr.mode = some q ∧
          (q.n, q.z, q.c, q.v, q.marks) = (if mask.getLsbD 3 then
            (v.getLsbD 31, v.getLsbD 30, v.getLsbD 29, v.getLsbD 28, FlagMarks.fill true)
            else (p.n, p.z, p.c, p.v, p.marks)) ∧
          (q.i, q.f, q.t, q.m, q.lowWritten) = (if mask.getLsbD 0 then
            (v.getLsbD 7, v.getLsbD 6, v.getLsbD 5, v.extractLsb' 0 5, true)
            else (p.i, p.f, p.t, p.m, p.lowWritten))) ∧
        (∀ m, m ≠ s.cpsr.mode → t.spsr.get m = s.spsr.get m) ∧ t.cpsr = s.cpsr ∧ t.pc = s.pc + s.w ∧
        t.cycles = s.cycles ∧ t.run = s.run ∧ t.hazardMark = s.hazardMark ∧ t.irqInput = s.irqInput ∧
        t.fiqLine = s.fiqLine ∧ t.params = s.params ∧ OtherRegs [] s t ∧ SameIo s t ∧ NoExchange s t ∧ SameMemory s t

/-- R14, R243 to R245, R425, R714: MUL, MLA and Thumb MUL. With S = 1 the carry flag is the next free value. -/
def Obligations.MultiplyResults : Prop :=
  ∀ (s : State) (c : Cond) (sf : Bool) (rd rn rs rm : RegNo), condPassed c s.cpsr = true →
    let effect (rd : RegNo) (sf : Bool) (r : Nat) (k : Nat) (t : State) : Prop :=
      t.reg rd = BitVec.ofNat 32 r ∧
      t.cpsr = (if sf then { s.cpsr with
          n := (BitVec.ofNat 32 r).getLsbD 31, z := decide (r % 2 ^ 32 = 0), c := (Config.draw s.draws).getLsbD 0,
          marks := ⟨true, true, true, s.cpsr.marks.v⟩ }
        else s.cpsr) ∧
      t.draws = s.draws + sf.toNat ∧ t.pc = s.pc + s.w ∧ t.cycles = s.cycles + k ∧
      LoadFrame s (physRegs s.cpsr.mode [rd]) t
    (rd ≠ 15 → rm ≠ 15 → rs ≠ 15 → rd ≠ rm →
      Gives (.armMul c sf rd 0 rs rm) s
        (effect rd sf ((s.reg rm).toNat * (s.reg rs).toNat) (multiplyCycles (s.reg rs) true)) ∧
      (rn ≠ 15 → Gives (.armMla c sf rd rn rs rm) s
        (effect rd sf ((s.reg rm).toNat * (s.reg rs).toNat + (s.reg rn).toNat) (multiplyCycles (s.reg rs) true + 1)))) ∧
    ∀ ls ld : LowReg, ld ≠ ls → Gives (.thumbMul ls ld) s
      (effect (low ld) true ((s.reg (low ls)).toNat * (s.reg (low ld)).toNat) (multiplyCycles (s.reg (low ld)) true))

/-- R14, R243, R246 to R249, R714: the long multiplies. With S = 1 the carry and overflow flags are the next two free
values. -/
def Obligations.LongMultiplyResults : Prop :=
  ∀ (s : State) (c : Cond) (sf : Bool) (rdHi rdLo rs rm : RegNo), condPassed c s.cpsr = true →
    rdHi ≠ 15 → rdLo ≠ 15 → rm ≠ 15 → rs ≠ 15 → rdHi ≠ rdLo → rdHi ≠ rm → rdLo ≠ rm →
    let effect (p : Int) (k : Nat) (t : State) : Prop :=
      t.reg rdLo = BitVec.ofInt 32 p ∧ t.reg rdHi = BitVec.ofInt 32 (p / 2 ^ 32) ∧
      t.cpsr = (if sf then { s.cpsr with
          n := (BitVec.ofInt 64 p).getLsbD 63, z := decide (p % 2 ^ 64 = 0), c := (Config.draw s.draws).getLsbD 0,
          v := (Config.draw (s.draws + 1)).getLsbD 0, marks := FlagMarks.fill true }
        else s.cpsr) ∧
      t.draws = s.draws + 2 * sf.toNat ∧ t.pc = s.pc + s.w ∧ t.cycles = s.cycles + k ∧
      LoadFrame s (physRegs s.cpsr.mode [rdHi, rdLo]) t
    let acc : Int := (s.reg rdHi).toNat * 2 ^ 32 + (s.reg rdLo).toNat
    let unsigned : Int := (s.reg rm).toNat * (s.reg rs).toNat
    let signed : Int := (s.reg rm).toInt * (s.reg rs).toInt
    Gives (.armUmull c sf rdHi rdLo rs rm) s (effect unsigned (multiplyCycles (s.reg rs) false + 1)) ∧
      Gives (.armUmlal c sf rdHi rdLo rs rm) s (effect (unsigned + acc) (multiplyCycles (s.reg rs) false + 2)) ∧
      Gives (.armSmull c sf rdHi rdLo rs rm) s (effect signed (multiplyCycles (s.reg rs) true + 1)) ∧
      Gives (.armSmlal c sf rdHi rdLo rs rm) s (effect (signed + acc) (multiplyCycles (s.reg rs) true + 2))

/-- R243, R240, R241, R250, R251, R425: the operand restrictions of multiply, PSR transfer and swap stop. -/
def Obligations.OperandRestrictionStops : Prop :=
  ∀ (s : State) (c : Cond), condPassed c s.cpsr = true →
    (∀ sf rd rs rm, rd = 15 ∨ rm = 15 ∨ rs = 15 ∨ rd = rm → Stops (.armMul c sf rd 0 rs rm) s .multiplyOperands) ∧
    (∀ sf rd rn rs rm, rd = 15 ∨ rm = 15 ∨ rs = 15 ∨ rn = 15 ∨ rd = rm →
      Stops (.armMla c sf rd rn rs rm) s .multiplyOperands) ∧
    (∀ sf hi lo rs rm, hi = 15 ∨ lo = 15 ∨ rm = 15 ∨ rs = 15 ∨ hi = lo ∨ hi = rm ∨ lo = rm →
      Stops (.armUmull c sf hi lo rs rm) s .multiplyOperands ∧ Stops (.armUmlal c sf hi lo rs rm) s .multiplyOperands ∧
      Stops (.armSmull c sf hi lo rs rm) s .multiplyOperands ∧
      Stops (.armSmlal c sf hi lo rs rm) s .multiplyOperands) ∧
    (∀ ld, Stops (.thumbMul ld ld) s .multiplyOperands) ∧
    (∀ r, Stops (.armMrs c r 0xF 15 0 0) s .mrsToR15) ∧
    (∀ r mask, Stops (.armMsrReg c r mask 0xF 0 15) s .msrFromR15) ∧
    (∀ rn rd rm, rn = 15 ∨ rd = 15 ∨ rm = 15 ∨ rn = rd ∨ rn = rm →
      Stops (.armSwp c rn rd 0 rm) s .swpOperands ∧ Stops (.armSwpb c rn rd 0 rm) s .swpOperands)

/-- R14, R250, R251, R705: SWP and SWPB read, then write, the same address; the loaded value goes to Rd. -/
def Obligations.SwapResults : Prop :=
  ∀ (s : State) (c : Cond) (rn rd rm : RegNo), condPassed c s.cpsr = true → rn ≠ 15 → rd ≠ 15 → rm ≠ 15 → rn ≠ rd →
    rn ≠ rm →
    let effect (v : Word) (n : Width) (t : State) : Prop :=
      t.reg rd = v ∧ StoreFrame s (physRegs s.cpsr.mode [rd]) [s.reg rn] n t ∧
        (StoresWhole (s.reg rn) n → BytesAt t (s.reg rn) n (s.reg rm))
    (prefetchHit s (s.reg rn) .word = false →
      Gives (.armSwp c rn rd 0 rm) s (effect (loadWord s (s.reg rn)).1 .word)) ∧
    (prefetchHit s (s.reg rn) .word = true → Stops (.armSwp c rn rd 0 rm) s .storeIntoPrefetched) ∧
    (prefetchHit s (s.reg rn) .byte = false →
      Gives (.armSwpb c rn rd 0 rm) s (effect (loadByte s (s.reg rn)).1 .byte)) ∧
    (prefetchHit s (s.reg rn) .byte = true → Stops (.armSwpb c rn rd 0 rm) s .storeIntoPrefetched)

/-! ### Memory -/

/-- R64 to R66, R70, R73, R75, R80 to R82, R271, R272, R280, R282, R283: a read of plain memory returns the bytes at the
aligned address, least significant first, and zero above them; an instruction outside the BIOS that reads it, and a read of
open bus, get a free value; a read of a registered device, of HALTCNT and of the save media is forwarded and gives the
answer (a queue of inputs, log entry 13); an I/O word that one device does not own whole is two halfwords, the lower first
(log entry 16); WAITCNT, IE, IF and IME read as they stand (that the model holds the last three is log entry 10); and what
the loads make of the value read, at every alignment. The model's choices beside these: an I/O access is routed by its own
offset (log entry 11), the first of overlapping device ranges owns it (log entry 9), a claim of the save media is tested at
the unaligned address (log entry 15), and an open-bus read is one free value cut to the width (log entry 28). -/
def Obligations.MemoryReads : Prop :=
  (∀ (s : State) (a : Word) (n : Width),
    (region a = .unmapped → FreeRead s a n) ∧
    (region a = .io → n ≠ .word → Unregistered s (offset (align a n)) → FreeRead s a n) ∧
    (region a = .io → n ≠ .word → ∀ id, Registered s (offset (align a n)) id →
      ForwardedRead s a n (.device id) (offset (align a n))) ∧
    (region a = .io → let o := offset (align a .word)
      (∀ id, Registered s o id ∧ Registered s (o + 2) id → ForwardedRead s a .word (.device id) o) ∧
      ((∀ id, ¬(Registered s o id ∧ Registered s (o + 2) id)) →
        let lo := memRead s (align a .word) .half
        let hi := memRead lo.2 (align a .word + 2) .half
        (memRead s a .word).1 = hi.1.setWidth 16 ++ lo.1.setWidth 16 ∧ NoExchange hi.2 (memRead s a .word).2)) ∧
    (SaveWindow s a → ForwardedRead s a n .saveMedia (a.toNat % 0x10000))) ∧
  (∀ s : State, ForwardedRead s 0x04000301 .byte .power 0x301 ∧
    (memRead s 0x04000204 .half).1 = s.waitcnt.setWidth 32 ∧
    (memRead s 0x04000204 .byte).1.toNat = s.waitcnt.toNat % 256 ∧
    (memRead s 0x04000205 .byte).1.toNat = s.waitcnt.toNat / 256 ∧
    (memRead s 0x04000200 .half).1 = s.irqc.ie.setWidth 32 ∧ (memRead s 0x04000202 .half).1 = s.irqc.iflag.setWidth 32 ∧
    (memRead s 0x04000208 .half).1.getLsbD 0 = s.irqc.ime) ∧
  (∀ (s : State) (a : Word) (n : Width), Plain s a →
    BytesAt s a n (memRead s a n).1 ∧ (memRead s a n).1.toNat < 2 ^ (8 * n.bytes) ∧ (memRead s a n).2.draws = s.draws ∧
      (memRead s a n).2.forwarded = s.forwarded) ∧
  (∀ (s : State) (a : Word) (n : Width), region a = .bios → 0x4000 ≤ s.pc.toNat →
    (memRead s a n).1 = n.trunc (Config.draw s.draws) ∧ (memRead s a n).2.draws = s.draws + 1) ∧
  ∀ (s : State) (a : Word),
    (∀ j, j < 32 →
      (loadWord s a).1.getLsbD j = (memRead s a .word).1.getLsbD ((j + 8 * (a.toNat % 4)) % 32)) ∧
    (loadByte s a).1 = (memRead s a .byte).1 ∧
    (loadSignedByte s a).1.toInt = ((memRead s a .byte).1.setWidth 8).toInt ∧
    (a.toNat % 2 = 0 → (loadHalf s a).1 = (memRead s a .half).1 ∧
      (loadSignedHalf s a).1.toInt = ((memRead s a .half).1.setWidth 16).toInt) ∧
    (a.toNat % 2 = 1 →
      (∀ j, j < 32 → (loadHalf s a).1.getLsbD j = (memRead s a .half).1.getLsbD ((j + 8) % 32)) ∧
      (loadSignedHalf s a).1.toInt = ((memRead s a .byte).1.setWidth 8).toInt)

/-- R65, R67, R73, R75, R77 to R82: a store that stores all its bytes leaves them at the aligned address; a byte store fills
the halfword in PRAM and in VRAM below the boundary, and changes nothing above it, in OAM, in the BIOS, at unmapped
addresses and at unregistered I/O offsets. A store to a device, to the save media and to the cartridge is forwarded and
changes no byte of memory; to the cartridge with the aligned address (that the record carries all of it is log entry 34), to
the save media with the unaligned one; an I/O word that one device does not own whole is two halfwords, the lower first (log
entry 16). An I/O access is routed by its own offset, so a halfword at 0x300 is none of HALTCNT's (log entry 11). The
model's choices beside these: the first of overlapping device ranges owns an offset (log entry 9), and a claim of the save
media is tested at the unaligned address (log entry 15). -/
def Obligations.MemoryWrites : Prop :=
  ∀ (s t : State) (a : Word) (n : Width) (v : Word), memWrite s a n v = .next t →
    (StoresWhole a n → BytesAt t a n v) ∧
    (n = .byte → region a = .pram ∨ (region a = .vram ∧ offset a < s.params.vramBoundary.value) →
      t.peek (align a .half) = some (v.extractLsb' 0 8) ∧ t.peek (align a .half + 1) = some (v.extractLsb' 0 8)) ∧
    ((n = .byte ∧ region a = .vram ∧ s.params.vramBoundary.value ≤ offset a) ∨ (n = .byte ∧ region a = .oam) ∨
      region a = .bios ∨ region a = .unmapped ∨
      (n ≠ .word ∧ region a = .io ∧ Unregistered s (offset (align a n))) → ForwardedWrite s t []) ∧
    (SaveWindow s a → ForwardedWrite s t [⟨.saveMedia, true, a.toNat % 0x10000, n, n.trunc v⟩]) ∧
    ((region a).isRom = true → claimed s a = false →
      ForwardedWrite s t [⟨.cartridge, true, (align a n).toNat, n, n.trunc v⟩]) ∧
    (region a = .io → let o := offset (align a n)
      (∀ id, Registered s o id → (n = .word → Registered s (o + 2) id) →
        ForwardedWrite s t [⟨.device id, true, o, n, n.trunc v⟩]) ∧
      (n = .word → (∀ id, ¬(Registered s o id ∧ Registered s (o + 2) id)) → ∃ u u',
        memWrite s (align a .word) .half (v &&& 0xFFFF) = .next u ∧
        memWrite u (align a .word + 2) .half (v >>> 16) = .next u' ∧ SameIo u' t ∧ NoExchange u' t)) ∧
    (∀ b, OutsideStore a n b → t.peek b = s.peek b) ∧ t.regs = s.regs ∧ t.written = s.written ∧ t.cpsr = s.cpsr ∧
    t.pc = s.pc

/-- R705: a store stops exactly when a byte of its aligned access lies, after mirroring, in the two instruction slots that
follow the instruction. -/
def Obligations.PrefetchHazard : Prop :=
  ∀ (s : State) (a : Word) (n : Width) (v : Word),
    (memWrite s a n v = .fault .storeIntoPrefetched ↔
      ∃ i j, i < n.bytes ∧ j < 2 * instrBytes s.cpsr.t ∧
        location (align a n + BitVec.ofNat 32 i) = location (s.pc + s.w + BitVec.ofNat 32 j)) ∧
    (memWrite s a n v = .fault .storeIntoPrefetched ∨ ∃ t, memWrite s a n v = .next t)

/-- R76, R614, R708: a write of WAITCNT keeps bits 13 and 15 zero; every write is priced with the WAITCNT before it; a write
of HALTCNT halts at the end of its step. -/
def Obligations.ControlRegisterWrites : Prop :=
  (∀ (s t : State) (a : Word) (n : Width) (v : Word), memWrite s a n v = .next t →
    t.cycles = s.cycles + accessCost s.waitcnt (region a) n (sequential s.last (align a n))) ∧
  (∀ (s t : State) (v : Word), memWrite s 0x04000204 .half v = .next t →
    t.waitcnt = v.extractLsb' 0 16 &&& 0x5FFF ∧ SameMemory s t) ∧
  (∀ (s t : State) (v : Word), memWrite s 0x04000204 .byte v = .next t →
    t.waitcnt.extractLsb' 0 8 = v.extractLsb' 0 8 ∧ t.waitcnt.extractLsb' 8 8 = s.waitcnt.extractLsb' 8 8 &&& 0x5F) ∧
  (∀ (s t : State) (v : Word), memWrite s 0x04000205 .byte v = .next t →
    t.waitcnt.extractLsb' 8 8 = v.extractLsb' 0 8 &&& 0x5F ∧ t.waitcnt.extractLsb' 0 8 = s.waitcnt.extractLsb' 0 8) ∧
  ∀ (s t : State) (v : Word), memWrite s 0x04000301 .byte v = .next t →
    t.haltRequest = true ∧ (finishStep false true t).run = .halted ∧ (finishStep false true t).haltRequest = false

/-- R84 to R87, R714: the price of every access, by WAITCNT, region, width and sequentiality; when an access is sequential,
which one with no record before it is not; and the internal cycles of a multiply by the size of the multiplier. -/
def Obligations.PricesOfAccessesAndMultiplies : Prop :=
  (∀ (ws : BitVec 16) (r : Region) (n : Width) (seq : Bool),
    let first (x : Nat) : Nat := if x = 0 then 4 else if x = 1 then 3 else if x = 2 then 2 else 8
    let narrow (seq : Bool) : Nat := match r with
      | .rom0 => 1 + if seq then (if ws.toNat / 2 ^ 4 % 2 = 1 then 1 else 2) else first (ws.toNat / 2 ^ 2 % 4)
      | .rom1 => 1 + if seq then (if ws.toNat / 2 ^ 7 % 2 = 1 then 1 else 4) else first (ws.toNat / 2 ^ 5 % 4)
      | .rom2 => 1 + if seq then (if ws.toNat / 2 ^ 10 % 2 = 1 then 1 else 8) else first (ws.toNat / 2 ^ 8 % 4)
      | .sram => 1 + first (ws.toNat % 4)
      | .ewram => 3
      | _ => 1
    let wordOnNarrowBus : Prop :=
      n = .word ∧ (r = .ewram ∨ r = .pram ∨ r = .vram ∨ r = .rom0 ∨ r = .rom1 ∨ r = .rom2)
    (wordOnNarrowBus → accessCost ws r n seq = narrow seq + narrow true) ∧
      (¬wordOnNarrowBus → accessCost ws r n seq = narrow seq)) ∧
  (∀ a : Word, sequential none a = false) ∧
  (∀ (l : LastAccess) (a : Word), sequential (some l) a = true ↔
    l.region = region a ∧ a = l.addr + BitVec.ofNat 32 l.width.bytes ∧
      ¬((region a).isRom = true ∧ offset a % 0x20000 = 0)) ∧
  ∀ x : Word,
    (multiplyCycles x true = if -2 ^ 8 ≤ x.toInt ∧ x.toInt < 2 ^ 8 then 1
      else if -2 ^ 16 ≤ x.toInt ∧ x.toInt < 2 ^ 16 then 2
      else if -2 ^ 24 ≤ x.toInt ∧ x.toInt < 2 ^ 24 then 3 else 4) ∧
    (multiplyCycles x false = if x.toNat < 2 ^ 8 then 1 else if x.toNat < 2 ^ 16 then 2
      else if x.toNat < 2 ^ 24 then 3 else 4)

/-! ### ARM loads and stores -/

/-- R270, R279: the address, the base written back and the restrictions of the addressing modes. -/
def Obligations.AddressingModes : Prop :=
  ∀ (s : State) (pre wb up : Bool) (rn rd : RegNo),
    (∀ off : Word, (pre = true ∧ wb = false) ∨ (rn ≠ 15 ∧ rn ≠ rd) → ∃ a, addressing s pre wb up rn rd off = .ok a ∧
      a.newBase = (if up then s.reg rn + off else s.reg rn - off) ∧
      a.address = (if pre then a.newBase else s.reg rn) ∧ (a.writeback = true ↔ pre = false ∨ wb = true)) ∧
    (∀ off : Word, (pre = false ∨ wb = true) → (rn = 15 ∨ rn = rd) →
      addressing s pre wb up rn rd off = .error .writeback) ∧
    (∀ v, singleAddressing s pre wb up rn rd (.imm v) = addressing s pre wb up rn rd (v.setWidth 32)) ∧
    (∀ k ty rm, rm ≠ 15 → singleAddressing s pre wb up rn rd (.reg k ty rm) =
      addressing s pre wb up rn rd (shiftByImm ty k.toNat (s.reg rm) s.cpsr.c).1) ∧
    (∀ k ty, singleAddressing s pre wb up rn rd (.reg k ty 15) = .error .rmIsR15) ∧
    (rd ≠ 15 → ¬(pre = false ∧ wb = true) →
      (∀ v, halfAddressing s pre wb up rn rd (.imm v) = addressing s pre wb up rn rd (v.setWidth 32)) ∧
      (∀ rm, rm ≠ 15 → halfAddressing s pre wb up rn rd (.reg 0 rm) = addressing s pre wb up rn rd (s.reg rm)) ∧
      halfAddressing s pre wb up rn rd (.reg 0 15) = .error .rmIsR15 ∧
      ∀ sbz rm, sbz ≠ 0 → halfAddressing s pre wb up rn rd (.reg sbz rm) = .error .shouldBeField) ∧
    (∀ o, pre = false → wb = true → halfAddressing s pre wb up rn rd o = .error .postIndexedW) ∧
    ∀ o, ¬(pre = false ∧ wb = true) → halfAddressing s pre wb up rn 15 o = .error .rdIsR15

/-- R14, R271, R272, R275, R276, R279, R280, R282, R283: the ARM loads. LDR to R15 branches with bits 1:0 cleared and T
unchanged; the byte and T forms to R15 stop; a form whose addressing mode stops, stops so. -/
def Obligations.ArmLoads : Prop :=
  ∀ (s : State) (c : Cond) (up : Bool) (rn rd : RegNo), condPassed c s.cpsr = true →
    let effect (a : Addressing) (load : State → Word → Word × State) (t : State) : Prop :=
      t.reg rd = (load s a.address).1 ∧ (a.writeback = true → t.reg rn = a.newBase) ∧ t.cpsr = s.cpsr ∧
        t.pc = s.pc + s.w ∧ t.cycles = (load s a.address).2.cycles + 1 ∧
        LoadFrame s (physRegs s.cpsr.mode (rd :: if a.writeback then [rn] else [])) t
    (∀ ix off, let mode := singleAddressing s (Index.pre ix) (Index.wb ix) up rn rd off
      (∀ a, mode = .ok a →
        (rd ≠ 15 → Gives (.armLdr c ix up rn rd off) s (effect a loadWord) ∧
          Gives (.armLdrb c ix up rn rd off) s (effect a loadByte)) ∧
        (rd = 15 → Gives (.armLdr c ix up rn rd off) s (fun t =>
            t.pc = (loadWord s a.address).1 &&& 0xFFFFFFFC ∧ (a.writeback = true → t.reg rn = a.newBase) ∧
            t.cpsr = s.cpsr ∧ (loadWord s a.address).2.cycles + 3 ≤ t.cycles ∧
            LoadFrame s (physRegs s.cpsr.mode (if a.writeback then [rn] else [])) t) ∧
          Stops (.armLdrb c ix up rn rd off) s .ldrbToR15)) ∧
      ∀ e, mode = .error e → Stops (.armLdr c ix up rn rd off) s e ∧ Stops (.armLdrb c ix up rn rd off) s e) ∧
    (∀ off, let mode := singleAddressing s false true up rn rd off
      (∀ a, mode = .ok a →
        (rd ≠ 15 → Gives (.armLdrt c up rn rd off) s (effect a loadWord) ∧
          Gives (.armLdrbt c up rn rd off) s (effect a loadByte)) ∧
        (rd = 15 → Stops (.armLdrt c up rn rd off) s .ldrtToR15 ∧ Stops (.armLdrbt c up rn rd off) s .ldrtToR15)) ∧
      ∀ e, mode = .error e → Stops (.armLdrt c up rn rd off) s e ∧ Stops (.armLdrbt c up rn rd off) s e) ∧
    ∀ p w off, let mode := halfAddressing s p w up rn rd off
      (∀ a, mode = .ok a → Gives (.armLdrh c p up w rn rd off) s (effect a loadHalf) ∧
        Gives (.armLdrsb c p up w rn rd off) s (effect a loadSignedByte) ∧
        Gives (.armLdrsh c p up w rn rd off) s (effect a loadSignedHalf)) ∧
      ∀ e, mode = .error e → Stops (.armLdrh c p up w rn rd off) s e ∧ Stops (.armLdrsb c p up w rn rd off) s e ∧
        Stops (.armLdrsh c p up w rn rd off) s e

/-- R14, R273, R274, R277 to R279, R281, R705: the ARM stores. R15 is stored as PC + 12 by STR and STRT; STRB and STRBT of
it stop; a store into the two instruction slots after PC stops, and so does a form whose addressing mode stops. -/
def Obligations.ArmStores : Prop :=
  ∀ (s : State) (c : Cond) (up : Bool) (rn rd : RegNo), condPassed c s.cpsr = true →
    let word : Word := if rd = 15 then s.pc + 12 else s.reg rd
    let stores (i : Instr) (mode : Except Fault Addressing) (n : Width) (v : Word) : Prop :=
      (∀ a, mode = .ok a →
        (prefetchHit s a.address n = false → Gives i s fun t =>
          StoreFrame s (physRegs s.cpsr.mode (if a.writeback then [rn] else [])) [a.address] n t ∧
            (a.writeback = true → t.reg rn = a.newBase) ∧ (StoresWhole a.address n → BytesAt t a.address n v)) ∧
        (prefetchHit s a.address n = true → Stops i s .storeIntoPrefetched)) ∧
      ∀ e, mode = .error e → Stops i s e
    (∀ ix off, let mode := singleAddressing s (Index.pre ix) (Index.wb ix) up rn rd off
      stores (.armStr c ix up rn rd off) mode .word word ∧
      (rd ≠ 15 → stores (.armStrb c ix up rn rd off) mode .byte (s.reg rd)) ∧
      (rd = 15 → ∀ a, mode = .ok a → Stops (.armStrb c ix up rn rd off) s .strbFromR15)) ∧
    (∀ off, let mode := singleAddressing s false true up rn rd off
      stores (.armStrt c up rn rd off) mode .word word ∧
      (rd ≠ 15 → stores (.armStrbt c up rn rd off) mode .byte (s.reg rd)) ∧
      (rd = 15 → ∀ a, mode = .ok a → Stops (.armStrbt c up rn rd off) s .strbFromR15)) ∧
    ∀ p w off, stores (.armStrh c p up w rn rd off) (halfAddressing s p w up rn rd off) .half (s.reg rd)

/-- R66, R123, R284, R285, R457: the registers, the first address and the new base of an ARM block transfer; the registers
of a Thumb one, in ascending order; the empty list under each policy; and the consecutive words a block load reads from
plain memory, not rotated. -/
def Obligations.BlockTransferFrame : Prop :=
  (∀ (s : State) (p up : Bool) (rn : RegNo) (list : BitVec 16),
    (blockFrame s p up 15 list = .error .rnIsR15) ∧
    (rn ≠ 15 → list ≠ 0 → ∃ fr, blockFrame s p up rn list = .ok fr ∧
      (∀ k : RegNo, k ∈ fr.regs ↔ list.getLsbD k.toNat = true) ∧ fr.regs.Pairwise (fun j k => j.toNat < k.toNat) ∧
      fr.newBase = (if up then s.reg rn + 4 * BitVec.ofNat 32 fr.regs.length
        else s.reg rn - 4 * BitVec.ofNat 32 fr.regs.length) ∧
      fr.start = (match p, up with
        | false, true => s.reg rn
        | true, true => s.reg rn + 4
        | false, false => fr.newBase + 4
        | true, false => fr.newBase)) ∧
    (rn ≠ 15 → s.params.emptyList = .stop → blockFrame s p up rn 0 = .error .emptyRegisterList) ∧
    (rn ≠ 15 → s.params.emptyList = .arm7tdmi → ∃ fr, blockFrame s p up rn 0 = .ok fr ∧ fr.regs = [15] ∧
      fr.newBase = (if up then s.reg rn + 0x40 else s.reg rn - 0x40) ∧
      fr.start = (match p, up with
        | false, true => s.reg rn
        | true, true => s.reg rn + 4
        | false, false => s.reg rn - 0x40 + 4
        | true, false => s.reg rn - 0x40))) ∧
  (∀ (s : State) (list : Byte),
    ((lowList list).Pairwise (fun j k => j.toNat < k.toNat)) ∧
    (∀ k : RegNo, k ∈ lowList list ↔ k.toNat < 8 ∧ list.getLsbD k.toNat = true) ∧
    (∀ regs, regs ≠ [] → listOrEmpty s regs = .ok (regs, regs.length)) ∧
    (s.params.emptyList = .stop →
      Stops (.thumbPush false 0) s .emptyRegisterList ∧ Stops (.thumbPop false 0) s .emptyRegisterList ∧
        ∀ rb, Stops (.thumbStmia rb 0) s .emptyRegisterList ∧ Stops (.thumbLdmia rb 0) s .emptyRegisterList) ∧
    (s.params.emptyList = .arm7tdmi → listOrEmpty s [] = .ok ([15], 16))) ∧
  ∀ (regs : List RegNo) (s : State) (a : Word),
    (∀ b, b ∈ blockAddresses a regs.length → Plain s b) →
      (readBlock s a regs).1.map Prod.fst = regs ∧
      ∀ (j : Nat) (h : j < (readBlock s a regs).1.length),
        BytesAt s (a + 4 * BitVec.ofNat 32 j) .word ((readBlock s a regs).1[j].2)

/-- R14, R284, R285: LDM, a loaded R15 included. -/
def Obligations.LoadMultiple : Prop :=
  ∀ (s : State) (c : Cond) (p up w : Bool) (rn : RegNo) (list : BitVec 16), condPassed c s.cpsr = true →
    (∀ e, blockFrame s p up rn list = .error e → Stops (.armLdm c p up w rn list) s e) ∧
    ∀ fr, blockFrame s p up rn list = .ok fr →
      ((w = true ∧ list.getLsbD rn.toNat = true) → Stops (.armLdm c p up w rn list) s .rnInListWithWriteback) ∧
      (¬(w = true ∧ list.getLsbD rn.toNat = true) → Gives (.armLdm c p up w rn list) s fun t =>
        (∀ k v, (k, v) ∈ (readBlock s fr.start fr.regs).1 → k ≠ 15 → t.reg k = v) ∧
        (w = true → t.reg rn = fr.newBase) ∧ t.cpsr = s.cpsr ∧ (15 ∉ fr.regs → t.pc = s.pc + s.w) ∧
        (∀ v, (15, v) ∈ (readBlock s fr.start fr.regs).1 → t.pc = v &&& 0xFFFFFFFC) ∧
        LoadFrame s (physRegs s.cpsr.mode (fr.regs ++ if w then [rn] else [])) t)

/-- R14, R284, R286, R705: STM. The base, written back and not the lowest register of the list, is stored as the next free
value, the only one that is drawn. -/
def Obligations.StoreMultiple : Prop :=
  ∀ (s : State) (c : Cond) (p up w : Bool) (rn : RegNo) (list : BitVec 16), condPassed c s.cpsr = true →
    (∀ e, blockFrame s p up rn list = .error e → Stops (.armStm c p up w rn list) s e) ∧
    ∀ fr, blockFrame s p up rn list = .ok fr →
      (¬BlockClear s fr.start fr.regs.length → Stops (.armStm c p up w rn list) s .storeIntoPrefetched) ∧
      (BlockClear s fr.start fr.regs.length → Gives (.armStm c p up w rn list) s fun t =>
        StoreFrame s (physRegs s.cpsr.mode (if w then [rn] else [])) (blockAddresses fr.start fr.regs.length) .word t ∧
        (w = true → t.reg rn = fr.newBase) ∧
        ((∀ b, b ∈ blockAddresses fr.start fr.regs.length → StoresWhole b .word) →
          ∀ (j : Nat) (h : j < fr.regs.length), BytesAt t (fr.start + 4 * BitVec.ofNat 32 j) .word
            (if w = true ∧ fr.regs[j] = rn ∧ j ≠ 0 then Config.draw s.draws
              else if fr.regs[j] = 15 then s.pc + 12 else s.reg fr.regs[j])) ∧
        t.draws = s.draws + if w = true ∧ rn ∈ fr.regs.tail then 1 else 0)

/-- R14, R284, R287, R288, R705: the user-bank forms transfer the User registers and leave the current bank; they stop with
writeback, and in User and System mode. That an empty list under the policy arm7tdmi loads R15 is the model's choice (log
entry 21). -/
def Obligations.UserBankTransfers : Prop :=
  ∀ (s : State) (c : Cond) (p up w : Bool) (rn : RegNo), condPassed c s.cpsr = true →
    (∀ list, let i : Instr := .armLdmUser c p up w rn list
      (∀ e, blockFrame s p up rn (0#1 ++ list) = .error e → Stops i s e) ∧
      ∀ fr, blockFrame s p up rn (0#1 ++ list) = .ok fr →
        (s.cpsr.mode = .usr ∨ s.cpsr.mode = .sys → Stops i s .sBitInUserOrSystem) ∧
        (s.cpsr.mode ≠ .usr → s.cpsr.mode ≠ .sys → w = true → Stops i s .sBitWithWriteback) ∧
        (s.cpsr.mode ≠ .usr → s.cpsr.mode ≠ .sys → w = false → Gives i s fun t =>
          (∀ k v, (k, v) ∈ (readBlock s fr.start fr.regs).1 → k ≠ 15 → t.regOf .usr k = v) ∧ t.cpsr = s.cpsr ∧
          (list ≠ 0 → t.pc = s.pc + s.w) ∧
          (list = 0 → ∀ v, (15, v) ∈ (readBlock s fr.start fr.regs).1 → t.pc = v &&& 0xFFFFFFFC) ∧
          LoadFrame s (physRegs .usr fr.regs) t)) ∧
    ∀ list, let i : Instr := .armStmUser c p up w rn list
      (∀ e, blockFrame s p up rn list = .error e → Stops i s e) ∧
      ∀ fr, blockFrame s p up rn list = .ok fr →
        (s.cpsr.mode = .usr ∨ s.cpsr.mode = .sys → Stops i s .sBitInUserOrSystem) ∧
        (s.cpsr.mode ≠ .usr → s.cpsr.mode ≠ .sys → w = true → Stops i s .sBitWithWriteback) ∧
        (s.cpsr.mode ≠ .usr → s.cpsr.mode ≠ .sys → w = false →
          (¬BlockClear s fr.start fr.regs.length → Stops i s .storeIntoPrefetched) ∧
          (BlockClear s fr.start fr.regs.length → Gives i s fun t =>
            StoreFrame s [] (blockAddresses fr.start fr.regs.length) .word t ∧
            ((∀ b, b ∈ blockAddresses fr.start fr.regs.length → StoresWhole b .word) →
              ∀ (j : Nat) (h : j < fr.regs.length), BytesAt t (fr.start + 4 * BitVec.ofNat 32 j) .word
                (if fr.regs[j] = 15 then s.pc + 12 else s.regOf .usr fr.regs[j]))))

/-- R46, R706: after a user-bank transfer that ran, the next instruction stops if it names a register banked in the mode;
the bit is set at the end of a step exactly where the step's instruction was such a transfer and its condition passed, and
it is down at the end of a halted step. How the state holds the bit is log entry 18; which registers an instruction names is
the model's reading (log entry 19). -/
def Obligations.UserBankHazard : Prop :=
  (∀ (s : State) (bytes : List Byte) (i : Instr), Ready s → CodeAt s bytes → decode s.cpsr.t bytes = .ok (i, []) →
    s.userBankHazard = true → condPassed (Instr.cond i) s.cpsr = true →
    (∃ n, n ∈ Instr.regs i ∧ bankedIn s.cpsr.mode n = true) → step s = .fault .bankedAfterUserTransfer) ∧
  (∀ (s t : State) (bytes : List Byte) (i : Instr), s.MarkReached → Ready s → CodeAt s bytes →
    decode s.cpsr.t bytes = .ok (i, []) → step s = .next t →
      t.userBankHazard = (Instr.isUserBank i && condPassed (Instr.cond i) s.cpsr)) ∧
  ∀ s t : State, s.MarkReached → s.run = .halted → s.wakeLine = false → step s = .next t → t.userBankHazard = false

/-- R14, R36, R284, R289: LDM with exception return. -/
def Obligations.LoadMultipleExceptionReturn : Prop :=
  ∀ (s : State) (c : Cond) (p up w : Bool) (rn : RegNo) (list : BitVec 15), condPassed c s.cpsr = true →
    let i : Instr := .armLdmExc c p up w rn list
    (∀ e, blockFrame s p up rn (1#1 ++ list) = .error e → Stops i s e) ∧
    ∀ fr, blockFrame s p up rn (1#1 ++ list) = .ok fr →
      (s.spsr.get s.cpsr.mode = none → Stops i s .noSpsr) ∧
      ∀ sv, s.spsr.get s.cpsr.mode = some sv →
        ((w = true ∧ list.getLsbD rn.toNat = true) → Stops i s .rnInListWithWriteback) ∧
        (¬(w = true ∧ list.getLsbD rn.toNat = true) →
          (sv.restored? = none → Stops i s .invalidMode) ∧
          ∀ q, sv.restored? = some q → Gives i s fun t =>
            (∀ k v, (k, v) ∈ (readBlock s fr.start fr.regs).1 → k ≠ 15 → t.regOf s.cpsr.mode k = v) ∧
            (w = true → t.regOf s.cpsr.mode rn = fr.newBase) ∧ t.cpsr = q ∧
            (∀ v, (15, v) ∈ (readBlock s fr.start fr.regs).1 →
              t.pc = if q.t then v &&& 0xFFFFFFFE else v &&& 0xFFFFFFFC) ∧
            LoadFrame s (physRegs s.cpsr.mode (fr.regs ++ if w then [rn] else [])) t)

/-! ### Branches -/

/-- R14, R310, R311: B and BL at an aligned PC in ARM state. -/
def Obligations.ArmBranches : Prop :=
  ∀ (s : State) (c : Cond) (offset : BitVec 24), condPassed c s.cpsr = true → s.cpsr.t = false → s.pcAligned = true →
    let target : Word := s.pc + 8 + BitVec.ofInt 32 (4 * offset.toInt)
    Gives (.armB c offset) s (BranchEffect s target s.cpsr []) ∧
      Gives (.armBl c offset) s (fun t =>
        BranchEffect s target s.cpsr (physRegs s.cpsr.mode [14]) t ∧ t.reg 14 = s.pc + 4)

/-- R26, R312, R484: BX in both sets: T from bit 0 of the register, the target checked against the new T. -/
def Obligations.BranchExchange : Prop :=
  ∀ (s : State) (c : Cond) (rm : RegNo), condPassed c s.cpsr = true →
    ∀ i, i = .armBx c 0xFFF rm ∨ i = .thumbBx false rm 0 →
      ((s.reg rm).toNat % 2 = 1 →
        Gives i s (BranchEffect s (s.reg rm - 1) { s.cpsr with t := true } [])) ∧
      ((s.reg rm).toNat % 4 = 0 → Gives i s (BranchEffect s (s.reg rm) { s.cpsr with t := false } [])) ∧
      ((s.reg rm).toNat % 4 = 2 → Stops i s .misalignedBranchTarget)

/-- R14, R480 to R483: the Thumb branches at an aligned PC in Thumb state. -/
def Obligations.ThumbBranches : Prop :=
  ∀ s : State, s.cpsr.t = true → s.pcAligned = true →
    (∀ c (off : Byte), condPassed c s.cpsr = true →
      Gives (.thumbBcond c off) s (BranchEffect s (s.pc + 4 + BitVec.ofInt 32 (2 * off.toInt)) s.cpsr [])) ∧
    (∀ c (off : Byte), condPassed c s.cpsr = false → Gives (.thumbBcond c off) s (StatusEffect s s.cpsr 0)) ∧
    (∀ off : BitVec 11,
      Gives (.thumbB off) s (BranchEffect s (s.pc + 4 + BitVec.ofInt 32 (2 * off.toInt)) s.cpsr [])) ∧
    (∀ off : BitVec 11, Gives (.thumbBlHigh off) s
      (RegisterEffect s 14 (s.pc + 4 + BitVec.ofInt 32 (4096 * off.toInt)) s.cpsr 0)) ∧
    ∀ off : BitVec 11,
      ((s.reg 14).toNat % 2 = 0 → Gives (.thumbBlLow off) s (fun t =>
        BranchEffect s (s.reg 14 + BitVec.ofNat 32 (2 * off.toNat)) s.cpsr (physRegs s.cpsr.mode [14]) t ∧
          t.reg 14 = s.pc + 3)) ∧
      ((s.reg 14).toNat % 2 = 1 → Stops (.thumbBlLow off) s .misalignedBranchTarget)

/-! ### Thumb -/

/-- R401 to R403, R408, R412 to R416, R419, R420, R424, R426, R427: the Thumb shifts, moves and logical operations. -/
def Obligations.ThumbShiftsAndLogic : Prop :=
  ∀ (s : State) (rs rd : LowReg),
    let flags (r : Word) (c sets : Bool) : Cpsr := { s.cpsr with
      n := r.getLsbD 31, z := r == 0, c := c, marks := ⟨true, true, s.cpsr.marks.c || sets, s.cpsr.marks.v⟩ }
    let logic (r : Word) := RegisterEffect s (low rd) r (flags r s.cpsr.c false) 0
    let shift (k : Nat) (r : Word × Bool) (sets : Bool) := RegisterEffect s (low rd) r.1 (flags r.1 r.2 sets) k
    let x := s.reg (low rd)
    let y := s.reg (low rs)
    let amt := y.toNat % 256
    (∀ k : BitVec 5,
      Gives (.thumbLslImm k rs rd) s (shift 0 (shiftByImm .lsl k.toNat y s.cpsr.c) (decide (k ≠ 0))) ∧
      Gives (.thumbLsrImm k rs rd) s (shift 0 (shiftByImm .lsr k.toNat y s.cpsr.c) true) ∧
      Gives (.thumbAsrImm k rs rd) s (shift 0 (shiftByImm .asr k.toNat y s.cpsr.c) true)) ∧
    Gives (.thumbLslReg rs rd) s (shift 1 (shiftByReg .lsl amt x s.cpsr.c) (decide (amt ≠ 0))) ∧
    Gives (.thumbLsrReg rs rd) s (shift 1 (shiftByReg .lsr amt x s.cpsr.c) (decide (amt ≠ 0))) ∧
    Gives (.thumbAsrReg rs rd) s (shift 1 (shiftByReg .asr amt x s.cpsr.c) (decide (amt ≠ 0))) ∧
    Gives (.thumbRorReg rs rd) s (shift 1 (shiftByReg .ror amt x s.cpsr.c) (decide (amt ≠ 0))) ∧
    (∀ imm8 : Byte, Gives (.thumbMovImm rd imm8) s (RegisterEffect s (low rd) (imm8.setWidth 32)
      { s.cpsr with n := false, z := imm8 == 0, marks := ⟨true, true, s.cpsr.marks.c, s.cpsr.marks.v⟩ } 0)) ∧
    Gives (.thumbAnd rs rd) s (logic (x &&& y)) ∧ Gives (.thumbEor rs rd) s (logic (x ^^^ y)) ∧
    Gives (.thumbOrr rs rd) s (logic (x ||| y)) ∧ Gives (.thumbBic rs rd) s (logic (x &&& ~~~y)) ∧
    Gives (.thumbMvn rs rd) s (logic (~~~y)) ∧
    Gives (.thumbTst rs rd) s (StatusEffect s (flags (x &&& y) s.cpsr.c false) 0)

/-- R404 to R407, R409 to R411, R417, R418, R421 to R423, R429: the Thumb additions, subtractions and comparisons. -/
def Obligations.ThumbArithmetic : Prop :=
  ∀ (s : State) (rn rs rd : LowReg),
    let flags (r : Word × Bool × Bool) : Cpsr :=
      { s.cpsr with n := r.1.getLsbD 31, z := r.1 == 0, c := r.2.1, v := r.2.2, marks := FlagMarks.fill true }
    let effect (r : Word × Bool × Bool) := RegisterEffect s (low rd) r.1 (flags r) 0
    let compare (r : Word × Bool × Bool) := StatusEffect s (flags r) 0
    let x := s.reg (low rd)
    let y := s.reg (low rs)
    let z := s.reg (low rn)
    Gives (.thumbAddReg rn rs rd) s (effect (addWithCarry y z false)) ∧
    Gives (.thumbSubReg rn rs rd) s (effect (addWithCarry y (~~~z) true)) ∧
    (∀ k : BitVec 3, Gives (.thumbAddImm3 k rs rd) s (effect (addWithCarry y (k.setWidth 32) false)) ∧
      Gives (.thumbSubImm3 k rs rd) s (effect (addWithCarry y (~~~k.setWidth 32) true))) ∧
    (∀ k : Byte, Gives (.thumbAddImm8 rd k) s (effect (addWithCarry x (k.setWidth 32) false)) ∧
      Gives (.thumbSubImm8 rd k) s (effect (addWithCarry x (~~~k.setWidth 32) true)) ∧
      Gives (.thumbCmpImm rd k) s (compare (addWithCarry x (~~~k.setWidth 32) true))) ∧
    Gives (.thumbAdc rs rd) s (effect (addWithCarry x y s.cpsr.c)) ∧
    Gives (.thumbSbc rs rd) s (effect (addWithCarry x (~~~y) s.cpsr.c)) ∧
    Gives (.thumbNeg rs rd) s (effect (addWithCarry 0 (~~~y) true)) ∧
    Gives (.thumbCmpReg rs rd) s (compare (addWithCarry x (~~~y) true)) ∧
    Gives (.thumbCmn rs rd) s (compare (addWithCarry x y false)) ∧
    ∀ hs hd : RegNo, 8 ≤ hs.toNat ∨ 8 ≤ hd.toNat →
      Gives (.thumbCmpHi hs hd) s (compare (addWithCarry (s.reg hd) (~~~s.reg hs) true))

/-- R428, R430 to R434: high-register ADD and MOV, R15 included, and the address-generation forms, none of which writes a
flag. -/
def Obligations.ThumbAddressAndHighRegisters : Prop :=
  ∀ s : State,
    (∀ hs hd : RegNo, 8 ≤ hs.toNat ∨ 8 ≤ hd.toNat →
      (hd ≠ 15 → Gives (.thumbAddHi hs hd) s (RegisterEffect s hd (s.reg hd + s.reg hs) s.cpsr 0) ∧
        Gives (.thumbMovHi hs hd) s (RegisterEffect s hd (s.reg hs) s.cpsr 0)) ∧
      (hd = 15 → Gives (.thumbAddHi hs hd) s
          (BranchEffect s ((s.reg hd + s.reg hs) &&& 0xFFFFFFFE) s.cpsr []) ∧
        Gives (.thumbMovHi hs hd) s (BranchEffect s (s.reg hs &&& 0xFFFFFFFE) s.cpsr []))) ∧
    (∀ (rd : LowReg) (k : Byte),
      (s.cpsr.t = true → Gives (.thumbAddPc rd k) s (RegisterEffect s (low rd)
        (((s.pc + 4) &&& 0xFFFFFFFC) + BitVec.ofNat 32 (4 * k.toNat)) s.cpsr 0)) ∧
      Gives (.thumbAddSp rd k) s
        (RegisterEffect s (low rd) (s.reg 13 + BitVec.ofNat 32 (4 * k.toNat)) s.cpsr 0)) ∧
    ∀ k : BitVec 7,
      Gives (.thumbIncSp k) s (RegisterEffect s 13 (s.reg 13 + BitVec.ofNat 32 (4 * k.toNat)) s.cpsr 0) ∧
      Gives (.thumbDecSp k) s (RegisterEffect s 13 (s.reg 13 - BitVec.ofNat 32 (4 * k.toNat)) s.cpsr 0)

/-- R14, R440, R443, R444, R446 to R448, R450, R452, R454, R456: the Thumb loads. -/
def Obligations.ThumbLoads : Prop :=
  ∀ (s : State) (ro rb rd : LowReg) (k : BitVec 5) (imm8 : Byte),
    let effect (a : Word) (load : State → Word → Word × State) (t : State) : Prop :=
      t.reg (low rd) = (load s a).1 ∧ t.cpsr = s.cpsr ∧ t.pc = s.pc + s.w ∧ t.cycles = (load s a).2.cycles + 1 ∧
        LoadFrame s (physRegs s.cpsr.mode [low rd]) t
    let a := s.reg (low rb) + s.reg (low ro)
    let off (scale : Nat) : Word := s.reg (low rb) + BitVec.ofNat 32 (scale * k.toNat)
    (s.cpsr.t = true → Gives (.thumbLdrPc rd imm8) s
      (effect (((s.pc + 4) &&& 0xFFFFFFFC) + BitVec.ofNat 32 (4 * imm8.toNat)) loadWord)) ∧
    Gives (.thumbLdrReg ro rb rd) s (effect a loadWord) ∧ Gives (.thumbLdrbReg ro rb rd) s (effect a loadByte) ∧
    Gives (.thumbLdsbReg ro rb rd) s (effect a loadSignedByte) ∧ Gives (.thumbLdrhReg ro rb rd) s (effect a loadHalf) ∧
    Gives (.thumbLdshReg ro rb rd) s (effect a loadSignedHalf) ∧
    Gives (.thumbLdrImm k rb rd) s (effect (off 4) loadWord) ∧
    Gives (.thumbLdrbImm k rb rd) s (effect (off 1) loadByte) ∧
    Gives (.thumbLdrhImm k rb rd) s (effect (off 2) loadHalf) ∧
    Gives (.thumbLdrSp rd imm8) s (effect (s.reg 13 + BitVec.ofNat 32 (4 * imm8.toNat)) loadWord)

/-- R441, R442, R445, R449, R451, R453, R455: the Thumb stores. -/
def Obligations.ThumbStores : Prop :=
  ∀ (s : State) (ro rb rd : LowReg) (k : BitVec 5) (imm8 : Byte),
    let stores (i : Instr) (a : Word) (n : Width) : Prop :=
      (prefetchHit s a n = false → Gives i s fun t =>
        StoreFrame s [] [a] n t ∧ (StoresWhole a n → BytesAt t a n (s.reg (low rd)))) ∧
      (prefetchHit s a n = true → Stops i s .storeIntoPrefetched)
    let a := s.reg (low rb) + s.reg (low ro)
    let off (scale : Nat) : Word := s.reg (low rb) + BitVec.ofNat 32 (scale * k.toNat)
    stores (.thumbStrReg ro rb rd) a .word ∧ stores (.thumbStrbReg ro rb rd) a .byte ∧
      stores (.thumbStrhReg ro rb rd) a .half ∧ stores (.thumbStrImm k rb rd) (off 4) .word ∧
      stores (.thumbStrbImm k rb rd) (off 1) .byte ∧ stores (.thumbStrhImm k rb rd) (off 2) .half ∧
      stores (.thumbStrSp rd imm8) (s.reg 13 + BitVec.ofNat 32 (4 * imm8.toNat)) .word

/-- R14, R457, R458, R460, R705: PUSH and STMIA. The base of STMIA, listed and not the lowest, is stored as the next free
value, the only one that is drawn. -/
def Obligations.ThumbBlockStores : Prop :=
  ∀ (s : State) (list : Byte) (regs : List RegNo) (count : Nat),
    let stores (i : Instr) (start : Word) (base : RegNo) (newBase : Word) (kept : Option RegNo) : Prop :=
      (¬BlockClear s start regs.length → Stops i s .storeIntoPrefetched) ∧
      (BlockClear s start regs.length → Gives i s fun t =>
        StoreFrame s (physRegs s.cpsr.mode [base]) (blockAddresses start regs.length) .word t ∧ t.reg base = newBase ∧
          ((∀ b, b ∈ blockAddresses start regs.length → StoresWhole b .word) →
            ∀ (j : Nat) (h : j < regs.length), BytesAt t (start + 4 * BitVec.ofNat 32 j) .word
              (if kept = some regs[j] ∧ j ≠ 0 then Config.draw s.draws
                else if regs[j] = 15 then s.pc + 6 else s.reg regs[j])) ∧
          t.draws = s.draws + if ∃ k, kept = some k ∧ k ∈ regs.tail then 1 else 0)
    (∀ lr, listOrEmpty s (lowList list ++ (if lr then [14] else [])) = .ok (regs, count) →
      let start := s.reg 13 - 4 * BitVec.ofNat 32 count
      stores (.thumbPush lr list) start 13 start none) ∧
    ∀ rb, listOrEmpty s (lowList list) = .ok (regs, count) →
      stores (.thumbStmia rb list) (s.reg (low rb)) (low rb) (s.reg (low rb) + 4 * BitVec.ofNat 32 count)
        (some (low rb))

/-- R14, R457, R459, R461: POP and LDMIA; a loaded base overrides the writeback, a loaded R15 branches with bit 0 cleared.
-/
def Obligations.ThumbBlockLoads : Prop :=
  ∀ (s : State) (list : Byte) (regs : List RegNo) (count : Nat),
    let effect (start : Word) (base : RegNo) (t : State) : Prop :=
      (∀ k v, (k, v) ∈ (readBlock s start regs).1 → k ≠ 15 → t.reg k = v) ∧
      (base ∉ regs → t.reg base = start + 4 * BitVec.ofNat 32 count) ∧ t.cpsr = s.cpsr ∧
      (15 ∉ regs → t.pc = s.pc + s.w) ∧
      (∀ v, (15, v) ∈ (readBlock s start regs).1 → t.pc = v &&& 0xFFFFFFFE) ∧
      LoadFrame s (physRegs s.cpsr.mode (base :: regs)) t
    (∀ pc, listOrEmpty s (lowList list ++ (if pc then [15] else [])) = .ok (regs, count) →
      Gives (.thumbPop pc list) s (effect (s.reg 13) 13)) ∧
    ∀ rb, listOrEmpty s (lowList list) = .ok (regs, count) →
      Gives (.thumbLdmia rb list) s (effect (s.reg (low rb)) (low rb))

end
end

