-- ==== Sys2Proof/Laws/State.lean ====
section
/-! SUPPORT. One lemma for each field of the state and each named update: what the update leaves, and what it writes. -/

namespace Sys2Proof.Machine

/-! ### s.setCpsr p -/

@[simp] theorem setCpsr_regs (s : State) (p : Cpsr) : (s.setCpsr p).regs = s.regs := rfl
@[simp] theorem setCpsr_written (s : State) (p : Cpsr) : (s.setCpsr p).written = s.written := rfl
@[simp] theorem setCpsr_pc (s : State) (p : Cpsr) : (s.setCpsr p).pc = s.pc := rfl
@[simp] theorem setCpsr_cpsr (s : State) (p : Cpsr) : (s.setCpsr p).cpsr = p := rfl
@[simp] theorem setCpsr_spsr (s : State) (p : Cpsr) : (s.setCpsr p).spsr = s.spsr := rfl
@[simp] theorem setCpsr_run (s : State) (p : Cpsr) : (s.setCpsr p).run = s.run := rfl
@[simp] theorem setCpsr_hazardMark (s : State) (p : Cpsr) : (s.setCpsr p).hazardMark = s.hazardMark := rfl
@[simp] theorem setCpsr_cycles (s : State) (p : Cpsr) : (s.setCpsr p).cycles = s.cycles := rfl
@[simp] theorem setCpsr_last (s : State) (p : Cpsr) : (s.setCpsr p).last = s.last := rfl
@[simp] theorem setCpsr_waitcnt (s : State) (p : Cpsr) : (s.setCpsr p).waitcnt = s.waitcnt := rfl
@[simp] theorem setCpsr_mem (s : State) (p : Cpsr) : (s.setCpsr p).mem = s.mem := rfl
@[simp] theorem setCpsr_irqc (s : State) (p : Cpsr) : (s.setCpsr p).irqc = s.irqc := rfl
@[simp] theorem setCpsr_irqInput (s : State) (p : Cpsr) : (s.setCpsr p).irqInput = s.irqInput := rfl
@[simp] theorem setCpsr_fiqLine (s : State) (p : Cpsr) : (s.setCpsr p).fiqLine = s.fiqLine := rfl
@[simp] theorem setCpsr_haltRequest (s : State) (p : Cpsr) : (s.setCpsr p).haltRequest = s.haltRequest := rfl
@[simp] theorem setCpsr_params (s : State) (p : Cpsr) : (s.setCpsr p).params = s.params := rfl
@[simp] theorem setCpsr_draws (s : State) (p : Cpsr) : (s.setCpsr p).draws = s.draws := rfl
@[simp] theorem setCpsr_answers (s : State) (p : Cpsr) : (s.setCpsr p).answers = s.answers := rfl
@[simp] theorem setCpsr_forwarded (s : State) (p : Cpsr) : (s.setCpsr p).forwarded = s.forwarded := rfl

/-! ### s.setRegOf m n v -/

@[simp] theorem setRegOf_pc (s : State) (m : Mode) (n : RegNo) (v : Word) : (s.setRegOf m n v).pc = s.pc := by unfold State.setRegOf; split <;> rfl
@[simp] theorem setRegOf_cpsr (s : State) (m : Mode) (n : RegNo) (v : Word) : (s.setRegOf m n v).cpsr = s.cpsr := by unfold State.setRegOf; split <;> rfl
@[simp] theorem setRegOf_spsr (s : State) (m : Mode) (n : RegNo) (v : Word) : (s.setRegOf m n v).spsr = s.spsr := by unfold State.setRegOf; split <;> rfl
@[simp] theorem setRegOf_run (s : State) (m : Mode) (n : RegNo) (v : Word) : (s.setRegOf m n v).run = s.run := by unfold State.setRegOf; split <;> rfl
@[simp] theorem setRegOf_hazardMark (s : State) (m : Mode) (n : RegNo) (v : Word) : (s.setRegOf m n v).hazardMark = s.hazardMark := by unfold State.setRegOf; split <;> rfl
@[simp] theorem setRegOf_cycles (s : State) (m : Mode) (n : RegNo) (v : Word) : (s.setRegOf m n v).cycles = s.cycles := by unfold State.setRegOf; split <;> rfl
@[simp] theorem setRegOf_last (s : State) (m : Mode) (n : RegNo) (v : Word) : (s.setRegOf m n v).last = s.last := by unfold State.setRegOf; split <;> rfl
@[simp] theorem setRegOf_waitcnt (s : State) (m : Mode) (n : RegNo) (v : Word) : (s.setRegOf m n v).waitcnt = s.waitcnt := by unfold State.setRegOf; split <;> rfl
@[simp] theorem setRegOf_mem (s : State) (m : Mode) (n : RegNo) (v : Word) : (s.setRegOf m n v).mem = s.mem := by unfold State.setRegOf; split <;> rfl
@[simp] theorem setRegOf_irqc (s : State) (m : Mode) (n : RegNo) (v : Word) : (s.setRegOf m n v).irqc = s.irqc := by unfold State.setRegOf; split <;> rfl
@[simp] theorem setRegOf_irqInput (s : State) (m : Mode) (n : RegNo) (v : Word) : (s.setRegOf m n v).irqInput = s.irqInput := by unfold State.setRegOf; split <;> rfl
@[simp] theorem setRegOf_fiqLine (s : State) (m : Mode) (n : RegNo) (v : Word) : (s.setRegOf m n v).fiqLine = s.fiqLine := by unfold State.setRegOf; split <;> rfl
@[simp] theorem setRegOf_haltRequest (s : State) (m : Mode) (n : RegNo) (v : Word) : (s.setRegOf m n v).haltRequest = s.haltRequest := by unfold State.setRegOf; split <;> rfl
@[simp] theorem setRegOf_params (s : State) (m : Mode) (n : RegNo) (v : Word) : (s.setRegOf m n v).params = s.params := by unfold State.setRegOf; split <;> rfl
@[simp] theorem setRegOf_draws (s : State) (m : Mode) (n : RegNo) (v : Word) : (s.setRegOf m n v).draws = s.draws := by unfold State.setRegOf; split <;> rfl
@[simp] theorem setRegOf_answers (s : State) (m : Mode) (n : RegNo) (v : Word) : (s.setRegOf m n v).answers = s.answers := by unfold State.setRegOf; split <;> rfl
@[simp] theorem setRegOf_forwarded (s : State) (m : Mode) (n : RegNo) (v : Word) : (s.setRegOf m n v).forwarded = s.forwarded := by unfold State.setRegOf; split <;> rfl

/-! ### s.setReg n v -/

@[simp] theorem setReg_pc (s : State) (n : RegNo) (v : Word) : (s.setReg n v).pc = s.pc := by simp [State.setReg]
@[simp] theorem setReg_cpsr (s : State) (n : RegNo) (v : Word) : (s.setReg n v).cpsr = s.cpsr := by simp [State.setReg]
@[simp] theorem setReg_spsr (s : State) (n : RegNo) (v : Word) : (s.setReg n v).spsr = s.spsr := by simp [State.setReg]
@[simp] theorem setReg_run (s : State) (n : RegNo) (v : Word) : (s.setReg n v).run = s.run := by simp [State.setReg]
@[simp] theorem setReg_hazardMark (s : State) (n : RegNo) (v : Word) : (s.setReg n v).hazardMark = s.hazardMark := by simp [State.setReg]
@[simp] theorem setReg_cycles (s : State) (n : RegNo) (v : Word) : (s.setReg n v).cycles = s.cycles := by simp [State.setReg]
@[simp] theorem setReg_last (s : State) (n : RegNo) (v : Word) : (s.setReg n v).last = s.last := by simp [State.setReg]
@[simp] theorem setReg_waitcnt (s : State) (n : RegNo) (v : Word) : (s.setReg n v).waitcnt = s.waitcnt := by simp [State.setReg]
@[simp] theorem setReg_mem (s : State) (n : RegNo) (v : Word) : (s.setReg n v).mem = s.mem := by simp [State.setReg]
@[simp] theorem setReg_irqc (s : State) (n : RegNo) (v : Word) : (s.setReg n v).irqc = s.irqc := by simp [State.setReg]
@[simp] theorem setReg_irqInput (s : State) (n : RegNo) (v : Word) : (s.setReg n v).irqInput = s.irqInput := by simp [State.setReg]
@[simp] theorem setReg_fiqLine (s : State) (n : RegNo) (v : Word) : (s.setReg n v).fiqLine = s.fiqLine := by simp [State.setReg]
@[simp] theorem setReg_haltRequest (s : State) (n : RegNo) (v : Word) : (s.setReg n v).haltRequest = s.haltRequest := by simp [State.setReg]
@[simp] theorem setReg_params (s : State) (n : RegNo) (v : Word) : (s.setReg n v).params = s.params := by simp [State.setReg]
@[simp] theorem setReg_draws (s : State) (n : RegNo) (v : Word) : (s.setReg n v).draws = s.draws := by simp [State.setReg]
@[simp] theorem setReg_answers (s : State) (n : RegNo) (v : Word) : (s.setReg n v).answers = s.answers := by simp [State.setReg]
@[simp] theorem setReg_forwarded (s : State) (n : RegNo) (v : Word) : (s.setReg n v).forwarded = s.forwarded := by simp [State.setReg]

/-! ### s.spend k -/

@[simp] theorem spend_regs (s : State) (k : Nat) : (s.spend k).regs = s.regs := rfl
@[simp] theorem spend_written (s : State) (k : Nat) : (s.spend k).written = s.written := rfl
@[simp] theorem spend_pc (s : State) (k : Nat) : (s.spend k).pc = s.pc := rfl
@[simp] theorem spend_cpsr (s : State) (k : Nat) : (s.spend k).cpsr = s.cpsr := rfl
@[simp] theorem spend_spsr (s : State) (k : Nat) : (s.spend k).spsr = s.spsr := rfl
@[simp] theorem spend_run (s : State) (k : Nat) : (s.spend k).run = s.run := rfl
@[simp] theorem spend_hazardMark (s : State) (k : Nat) : (s.spend k).hazardMark = s.hazardMark := rfl
@[simp] theorem spend_cycles (s : State) (k : Nat) : (s.spend k).cycles = s.cycles + k := rfl
@[simp] theorem spend_last (s : State) (k : Nat) : (s.spend k).last = s.last := rfl
@[simp] theorem spend_waitcnt (s : State) (k : Nat) : (s.spend k).waitcnt = s.waitcnt := rfl
@[simp] theorem spend_mem (s : State) (k : Nat) : (s.spend k).mem = s.mem := rfl
@[simp] theorem spend_irqc (s : State) (k : Nat) : (s.spend k).irqc = s.irqc := rfl
@[simp] theorem spend_irqInput (s : State) (k : Nat) : (s.spend k).irqInput = s.irqInput := rfl
@[simp] theorem spend_fiqLine (s : State) (k : Nat) : (s.spend k).fiqLine = s.fiqLine := rfl
@[simp] theorem spend_haltRequest (s : State) (k : Nat) : (s.spend k).haltRequest = s.haltRequest := rfl
@[simp] theorem spend_params (s : State) (k : Nat) : (s.spend k).params = s.params := rfl
@[simp] theorem spend_draws (s : State) (k : Nat) : (s.spend k).draws = s.draws := rfl
@[simp] theorem spend_answers (s : State) (k : Nat) : (s.spend k).answers = s.answers := rfl
@[simp] theorem spend_forwarded (s : State) (k : Nat) : (s.spend k).forwarded = s.forwarded := rfl

/-! ### charge s a n -/

@[simp] theorem charge_regs (s : State) (a : Word) (n : Width) : (charge s a n).regs = s.regs := rfl
@[simp] theorem charge_written (s : State) (a : Word) (n : Width) : (charge s a n).written = s.written := rfl
@[simp] theorem charge_pc (s : State) (a : Word) (n : Width) : (charge s a n).pc = s.pc := rfl
@[simp] theorem charge_cpsr (s : State) (a : Word) (n : Width) : (charge s a n).cpsr = s.cpsr := rfl
@[simp] theorem charge_spsr (s : State) (a : Word) (n : Width) : (charge s a n).spsr = s.spsr := rfl
@[simp] theorem charge_run (s : State) (a : Word) (n : Width) : (charge s a n).run = s.run := rfl
@[simp] theorem charge_hazardMark (s : State) (a : Word) (n : Width) : (charge s a n).hazardMark = s.hazardMark := rfl
@[simp] theorem charge_cycles (s : State) (a : Word) (n : Width) : (charge s a n).cycles = s.cycles + accessCost s.waitcnt (region (align a n)) n (sequential s.last (align a n)) := rfl
@[simp] theorem charge_last (s : State) (a : Word) (n : Width) : (charge s a n).last = some ⟨align a n, n, region (align a n)⟩ := rfl
@[simp] theorem charge_waitcnt (s : State) (a : Word) (n : Width) : (charge s a n).waitcnt = s.waitcnt := rfl
@[simp] theorem charge_mem (s : State) (a : Word) (n : Width) : (charge s a n).mem = s.mem := rfl
@[simp] theorem charge_irqc (s : State) (a : Word) (n : Width) : (charge s a n).irqc = s.irqc := rfl
@[simp] theorem charge_irqInput (s : State) (a : Word) (n : Width) : (charge s a n).irqInput = s.irqInput := rfl
@[simp] theorem charge_fiqLine (s : State) (a : Word) (n : Width) : (charge s a n).fiqLine = s.fiqLine := rfl
@[simp] theorem charge_haltRequest (s : State) (a : Word) (n : Width) : (charge s a n).haltRequest = s.haltRequest := rfl
@[simp] theorem charge_params (s : State) (a : Word) (n : Width) : (charge s a n).params = s.params := rfl
@[simp] theorem charge_draws (s : State) (a : Word) (n : Width) : (charge s a n).draws = s.draws := rfl
@[simp] theorem charge_answers (s : State) (a : Word) (n : Width) : (charge s a n).answers = s.answers := rfl
@[simp] theorem charge_forwarded (s : State) (a : Word) (n : Width) : (charge s a n).forwarded = s.forwarded := rfl

/-! ### advance s -/

@[simp] theorem advance_regs (s : State) : (advance s).regs = s.regs := rfl
@[simp] theorem advance_written (s : State) : (advance s).written = s.written := rfl
@[simp] theorem advance_pc (s : State) : (advance s).pc = s.pc + s.w := rfl
@[simp] theorem advance_cpsr (s : State) : (advance s).cpsr = s.cpsr := rfl
@[simp] theorem advance_spsr (s : State) : (advance s).spsr = s.spsr := rfl
@[simp] theorem advance_run (s : State) : (advance s).run = s.run := rfl
@[simp] theorem advance_hazardMark (s : State) : (advance s).hazardMark = s.hazardMark := rfl
@[simp] theorem advance_cycles (s : State) : (advance s).cycles = s.cycles := rfl
@[simp] theorem advance_last (s : State) : (advance s).last = s.last := rfl
@[simp] theorem advance_waitcnt (s : State) : (advance s).waitcnt = s.waitcnt := rfl
@[simp] theorem advance_mem (s : State) : (advance s).mem = s.mem := rfl
@[simp] theorem advance_irqc (s : State) : (advance s).irqc = s.irqc := rfl
@[simp] theorem advance_irqInput (s : State) : (advance s).irqInput = s.irqInput := rfl
@[simp] theorem advance_fiqLine (s : State) : (advance s).fiqLine = s.fiqLine := rfl
@[simp] theorem advance_haltRequest (s : State) : (advance s).haltRequest = s.haltRequest := rfl
@[simp] theorem advance_params (s : State) : (advance s).params = s.params := rfl
@[simp] theorem advance_draws (s : State) : (advance s).draws = s.draws := rfl
@[simp] theorem advance_answers (s : State) : (advance s).answers = s.answers := rfl
@[simp] theorem advance_forwarded (s : State) : (advance s).forwarded = s.forwarded := rfl

/-! ### refill s t -/

@[simp] theorem refill_regs (s : State) (t : Word) : (refill s t).regs = s.regs := rfl
@[simp] theorem refill_written (s : State) (t : Word) : (refill s t).written = s.written := rfl
@[simp] theorem refill_pc (s : State) (t : Word) : (refill s t).pc = s.pc := rfl
@[simp] theorem refill_cpsr (s : State) (t : Word) : (refill s t).cpsr = s.cpsr := rfl
@[simp] theorem refill_spsr (s : State) (t : Word) : (refill s t).spsr = s.spsr := rfl
@[simp] theorem refill_run (s : State) (t : Word) : (refill s t).run = s.run := rfl
@[simp] theorem refill_hazardMark (s : State) (t : Word) : (refill s t).hazardMark = s.hazardMark := rfl
@[simp] theorem refill_waitcnt (s : State) (t : Word) : (refill s t).waitcnt = s.waitcnt := rfl
@[simp] theorem refill_mem (s : State) (t : Word) : (refill s t).mem = s.mem := rfl
@[simp] theorem refill_irqc (s : State) (t : Word) : (refill s t).irqc = s.irqc := rfl
@[simp] theorem refill_irqInput (s : State) (t : Word) : (refill s t).irqInput = s.irqInput := rfl
@[simp] theorem refill_fiqLine (s : State) (t : Word) : (refill s t).fiqLine = s.fiqLine := rfl
@[simp] theorem refill_haltRequest (s : State) (t : Word) : (refill s t).haltRequest = s.haltRequest := rfl
@[simp] theorem refill_params (s : State) (t : Word) : (refill s t).params = s.params := rfl
@[simp] theorem refill_draws (s : State) (t : Word) : (refill s t).draws = s.draws := rfl
@[simp] theorem refill_answers (s : State) (t : Word) : (refill s t).answers = s.answers := rfl
@[simp] theorem refill_forwarded (s : State) (t : Word) : (refill s t).forwarded = s.forwarded := rfl

/-! ### jump s t -/

@[simp] theorem jump_regs (s : State) (t : Word) : (jump s t).regs = s.regs := rfl
@[simp] theorem jump_written (s : State) (t : Word) : (jump s t).written = s.written := rfl
@[simp] theorem jump_pc (s : State) (t : Word) : (jump s t).pc = t := rfl
@[simp] theorem jump_cpsr (s : State) (t : Word) : (jump s t).cpsr = s.cpsr := rfl
@[simp] theorem jump_spsr (s : State) (t : Word) : (jump s t).spsr = s.spsr := rfl
@[simp] theorem jump_run (s : State) (t : Word) : (jump s t).run = s.run := rfl
@[simp] theorem jump_hazardMark (s : State) (t : Word) : (jump s t).hazardMark = s.hazardMark := rfl
@[simp] theorem jump_waitcnt (s : State) (t : Word) : (jump s t).waitcnt = s.waitcnt := rfl
@[simp] theorem jump_mem (s : State) (t : Word) : (jump s t).mem = s.mem := rfl
@[simp] theorem jump_irqc (s : State) (t : Word) : (jump s t).irqc = s.irqc := rfl
@[simp] theorem jump_irqInput (s : State) (t : Word) : (jump s t).irqInput = s.irqInput := rfl
@[simp] theorem jump_fiqLine (s : State) (t : Word) : (jump s t).fiqLine = s.fiqLine := rfl
@[simp] theorem jump_haltRequest (s : State) (t : Word) : (jump s t).haltRequest = s.haltRequest := rfl
@[simp] theorem jump_params (s : State) (t : Word) : (jump s t).params = s.params := rfl
@[simp] theorem jump_draws (s : State) (t : Word) : (jump s t).draws = s.draws := rfl
@[simp] theorem jump_answers (s : State) (t : Word) : (jump s t).answers = s.answers := rfl
@[simp] theorem jump_forwarded (s : State) (t : Word) : (jump s t).forwarded = s.forwarded := rfl

/-! ### wake s -/

@[simp] theorem wake_regs (s : State) : (wake s).regs = s.regs := rfl
@[simp] theorem wake_written (s : State) : (wake s).written = s.written := rfl
@[simp] theorem wake_pc (s : State) : (wake s).pc = s.pc := rfl
@[simp] theorem wake_cpsr (s : State) : (wake s).cpsr = s.cpsr := rfl
@[simp] theorem wake_spsr (s : State) : (wake s).spsr = s.spsr := rfl
@[simp] theorem wake_run (s : State) : (wake s).run = .running := rfl
@[simp] theorem wake_hazardMark (s : State) : (wake s).hazardMark = s.hazardMark := rfl
@[simp] theorem wake_cycles (s : State) : (wake s).cycles = s.cycles := rfl
@[simp] theorem wake_last (s : State) : (wake s).last = s.last := rfl
@[simp] theorem wake_waitcnt (s : State) : (wake s).waitcnt = s.waitcnt := rfl
@[simp] theorem wake_mem (s : State) : (wake s).mem = s.mem := rfl
@[simp] theorem wake_irqc (s : State) : (wake s).irqc = s.irqc := rfl
@[simp] theorem wake_irqInput (s : State) : (wake s).irqInput = s.irqInput := rfl
@[simp] theorem wake_fiqLine (s : State) : (wake s).fiqLine = s.fiqLine := rfl
@[simp] theorem wake_haltRequest (s : State) : (wake s).haltRequest = s.haltRequest := rfl
@[simp] theorem wake_params (s : State) : (wake s).params = s.params := rfl
@[simp] theorem wake_draws (s : State) : (wake s).draws = s.draws := rfl
@[simp] theorem wake_answers (s : State) : (wake s).answers = s.answers := rfl
@[simp] theorem wake_forwarded (s : State) : (wake s).forwarded = s.forwarded := rfl

/-! ### haltedStep s -/

@[simp] theorem haltedStep_regs (s : State) : (haltedStep s).regs = s.regs := rfl
@[simp] theorem haltedStep_written (s : State) : (haltedStep s).written = s.written := rfl
@[simp] theorem haltedStep_pc (s : State) : (haltedStep s).pc = s.pc := rfl
@[simp] theorem haltedStep_cpsr (s : State) : (haltedStep s).cpsr = s.cpsr := rfl
@[simp] theorem haltedStep_spsr (s : State) : (haltedStep s).spsr = s.spsr := rfl
@[simp] theorem haltedStep_run (s : State) : (haltedStep s).run = s.run := rfl
@[simp] theorem haltedStep_hazardMark (s : State) : (haltedStep s).hazardMark = s.hazardMark := rfl
@[simp] theorem haltedStep_cycles (s : State) : (haltedStep s).cycles = s.cycles + 1 := rfl
@[simp] theorem haltedStep_last (s : State) : (haltedStep s).last = s.last := rfl
@[simp] theorem haltedStep_waitcnt (s : State) : (haltedStep s).waitcnt = s.waitcnt := rfl
@[simp] theorem haltedStep_mem (s : State) : (haltedStep s).mem = s.mem := rfl
@[simp] theorem haltedStep_irqc (s : State) : (haltedStep s).irqc = s.irqc := rfl
@[simp] theorem haltedStep_irqInput (s : State) : (haltedStep s).irqInput = s.irqInput := rfl
@[simp] theorem haltedStep_fiqLine (s : State) : (haltedStep s).fiqLine = s.fiqLine := rfl
@[simp] theorem haltedStep_haltRequest (s : State) : (haltedStep s).haltRequest = s.haltRequest := rfl
@[simp] theorem haltedStep_params (s : State) : (haltedStep s).params = s.params := rfl
@[simp] theorem haltedStep_draws (s : State) : (haltedStep s).draws = s.draws := rfl
@[simp] theorem haltedStep_answers (s : State) : (haltedStep s).answers = s.answers := rfl
@[simp] theorem haltedStep_forwarded (s : State) : (haltedStep s).forwarded = s.forwarded := rfl

/-! ### forward s e -/

@[simp] theorem forward_regs (s : State) (e : Forward) : (forward s e).regs = s.regs := rfl
@[simp] theorem forward_written (s : State) (e : Forward) : (forward s e).written = s.written := rfl
@[simp] theorem forward_pc (s : State) (e : Forward) : (forward s e).pc = s.pc := rfl
@[simp] theorem forward_cpsr (s : State) (e : Forward) : (forward s e).cpsr = s.cpsr := rfl
@[simp] theorem forward_spsr (s : State) (e : Forward) : (forward s e).spsr = s.spsr := rfl
@[simp] theorem forward_run (s : State) (e : Forward) : (forward s e).run = s.run := rfl
@[simp] theorem forward_hazardMark (s : State) (e : Forward) : (forward s e).hazardMark = s.hazardMark := rfl
@[simp] theorem forward_cycles (s : State) (e : Forward) : (forward s e).cycles = s.cycles := rfl
@[simp] theorem forward_last (s : State) (e : Forward) : (forward s e).last = s.last := rfl
@[simp] theorem forward_waitcnt (s : State) (e : Forward) : (forward s e).waitcnt = s.waitcnt := rfl
@[simp] theorem forward_mem (s : State) (e : Forward) : (forward s e).mem = s.mem := rfl
@[simp] theorem forward_irqc (s : State) (e : Forward) : (forward s e).irqc = s.irqc := rfl
@[simp] theorem forward_irqInput (s : State) (e : Forward) : (forward s e).irqInput = s.irqInput := rfl
@[simp] theorem forward_fiqLine (s : State) (e : Forward) : (forward s e).fiqLine = s.fiqLine := rfl
@[simp] theorem forward_haltRequest (s : State) (e : Forward) : (forward s e).haltRequest = s.haltRequest := rfl
@[simp] theorem forward_params (s : State) (e : Forward) : (forward s e).params = s.params := rfl
@[simp] theorem forward_draws (s : State) (e : Forward) : (forward s e).draws = s.draws := rfl
@[simp] theorem forward_answers (s : State) (e : Forward) : (forward s e).answers = s.answers := rfl
@[simp] theorem forward_forwarded (s : State) (e : Forward) : (forward s e).forwarded = e :: s.forwarded := rfl

/-! ### storeAt s r o n v -/

@[simp] theorem storeAt_regs (s : State) (r : Region) (o : Nat) (n : Width) (v : Word) : (storeAt s r o n v).regs = s.regs := rfl
@[simp] theorem storeAt_written (s : State) (r : Region) (o : Nat) (n : Width) (v : Word) : (storeAt s r o n v).written = s.written := rfl
@[simp] theorem storeAt_pc (s : State) (r : Region) (o : Nat) (n : Width) (v : Word) : (storeAt s r o n v).pc = s.pc := rfl
@[simp] theorem storeAt_cpsr (s : State) (r : Region) (o : Nat) (n : Width) (v : Word) : (storeAt s r o n v).cpsr = s.cpsr := rfl
@[simp] theorem storeAt_spsr (s : State) (r : Region) (o : Nat) (n : Width) (v : Word) : (storeAt s r o n v).spsr = s.spsr := rfl
@[simp] theorem storeAt_run (s : State) (r : Region) (o : Nat) (n : Width) (v : Word) : (storeAt s r o n v).run = s.run := rfl
@[simp] theorem storeAt_hazardMark (s : State) (r : Region) (o : Nat) (n : Width) (v : Word) : (storeAt s r o n v).hazardMark = s.hazardMark := rfl
@[simp] theorem storeAt_cycles (s : State) (r : Region) (o : Nat) (n : Width) (v : Word) : (storeAt s r o n v).cycles = s.cycles := rfl
@[simp] theorem storeAt_last (s : State) (r : Region) (o : Nat) (n : Width) (v : Word) : (storeAt s r o n v).last = s.last := rfl
@[simp] theorem storeAt_waitcnt (s : State) (r : Region) (o : Nat) (n : Width) (v : Word) : (storeAt s r o n v).waitcnt = s.waitcnt := rfl
@[simp] theorem storeAt_mem (s : State) (r : Region) (o : Nat) (n : Width) (v : Word) : (storeAt s r o n v).mem = Mem.store s.mem (r.base + o) n v := rfl
@[simp] theorem storeAt_irqc (s : State) (r : Region) (o : Nat) (n : Width) (v : Word) : (storeAt s r o n v).irqc = s.irqc := rfl
@[simp] theorem storeAt_irqInput (s : State) (r : Region) (o : Nat) (n : Width) (v : Word) : (storeAt s r o n v).irqInput = s.irqInput := rfl
@[simp] theorem storeAt_fiqLine (s : State) (r : Region) (o : Nat) (n : Width) (v : Word) : (storeAt s r o n v).fiqLine = s.fiqLine := rfl
@[simp] theorem storeAt_haltRequest (s : State) (r : Region) (o : Nat) (n : Width) (v : Word) : (storeAt s r o n v).haltRequest = s.haltRequest := rfl
@[simp] theorem storeAt_params (s : State) (r : Region) (o : Nat) (n : Width) (v : Word) : (storeAt s r o n v).params = s.params := rfl
@[simp] theorem storeAt_draws (s : State) (r : Region) (o : Nat) (n : Width) (v : Word) : (storeAt s r o n v).draws = s.draws := rfl
@[simp] theorem storeAt_answers (s : State) (r : Region) (o : Nat) (n : Width) (v : Word) : (storeAt s r o n v).answers = s.answers := rfl
@[simp] theorem storeAt_forwarded (s : State) (r : Region) (o : Nat) (n : Width) (v : Word) : (storeAt s r o n v).forwarded = s.forwarded := rfl

/-! ### (draw s).2 -/

@[simp] theorem draw_state_regs (s : State) : ((draw s).2).regs = s.regs := rfl
@[simp] theorem draw_state_written (s : State) : ((draw s).2).written = s.written := rfl
@[simp] theorem draw_state_pc (s : State) : ((draw s).2).pc = s.pc := rfl
@[simp] theorem draw_state_cpsr (s : State) : ((draw s).2).cpsr = s.cpsr := rfl
@[simp] theorem draw_state_spsr (s : State) : ((draw s).2).spsr = s.spsr := rfl
@[simp] theorem draw_state_run (s : State) : ((draw s).2).run = s.run := rfl
@[simp] theorem draw_state_hazardMark (s : State) : ((draw s).2).hazardMark = s.hazardMark := rfl
@[simp] theorem draw_state_cycles (s : State) : ((draw s).2).cycles = s.cycles := rfl
@[simp] theorem draw_state_last (s : State) : ((draw s).2).last = s.last := rfl
@[simp] theorem draw_state_waitcnt (s : State) : ((draw s).2).waitcnt = s.waitcnt := rfl
@[simp] theorem draw_state_mem (s : State) : ((draw s).2).mem = s.mem := rfl
@[simp] theorem draw_state_irqc (s : State) : ((draw s).2).irqc = s.irqc := rfl
@[simp] theorem draw_state_irqInput (s : State) : ((draw s).2).irqInput = s.irqInput := rfl
@[simp] theorem draw_state_fiqLine (s : State) : ((draw s).2).fiqLine = s.fiqLine := rfl
@[simp] theorem draw_state_haltRequest (s : State) : ((draw s).2).haltRequest = s.haltRequest := rfl
@[simp] theorem draw_state_params (s : State) : ((draw s).2).params = s.params := rfl
@[simp] theorem draw_state_draws (s : State) : ((draw s).2).draws = s.draws + 1 := rfl
@[simp] theorem draw_state_answers (s : State) : ((draw s).2).answers = s.answers := rfl
@[simp] theorem draw_state_forwarded (s : State) : ((draw s).2).forwarded = s.forwarded := rfl

/-! ### (takeAnswer s).2 -/

@[simp] theorem takeAnswer_state_regs (s : State) : ((takeAnswer s).2).regs = s.regs := by unfold takeAnswer; split <;> rfl
@[simp] theorem takeAnswer_state_written (s : State) : ((takeAnswer s).2).written = s.written := by unfold takeAnswer; split <;> rfl
@[simp] theorem takeAnswer_state_pc (s : State) : ((takeAnswer s).2).pc = s.pc := by unfold takeAnswer; split <;> rfl
@[simp] theorem takeAnswer_state_cpsr (s : State) : ((takeAnswer s).2).cpsr = s.cpsr := by unfold takeAnswer; split <;> rfl
@[simp] theorem takeAnswer_state_spsr (s : State) : ((takeAnswer s).2).spsr = s.spsr := by unfold takeAnswer; split <;> rfl
@[simp] theorem takeAnswer_state_run (s : State) : ((takeAnswer s).2).run = s.run := by unfold takeAnswer; split <;> rfl
@[simp] theorem takeAnswer_state_hazardMark (s : State) : ((takeAnswer s).2).hazardMark = s.hazardMark := by unfold takeAnswer; split <;> rfl
@[simp] theorem takeAnswer_state_cycles (s : State) : ((takeAnswer s).2).cycles = s.cycles := by unfold takeAnswer; split <;> rfl
@[simp] theorem takeAnswer_state_last (s : State) : ((takeAnswer s).2).last = s.last := by unfold takeAnswer; split <;> rfl
@[simp] theorem takeAnswer_state_waitcnt (s : State) : ((takeAnswer s).2).waitcnt = s.waitcnt := by unfold takeAnswer; split <;> rfl
@[simp] theorem takeAnswer_state_mem (s : State) : ((takeAnswer s).2).mem = s.mem := by unfold takeAnswer; split <;> rfl
@[simp] theorem takeAnswer_state_irqc (s : State) : ((takeAnswer s).2).irqc = s.irqc := by unfold takeAnswer; split <;> rfl
@[simp] theorem takeAnswer_state_irqInput (s : State) : ((takeAnswer s).2).irqInput = s.irqInput := by unfold takeAnswer; split <;> rfl
@[simp] theorem takeAnswer_state_fiqLine (s : State) : ((takeAnswer s).2).fiqLine = s.fiqLine := by unfold takeAnswer; split <;> rfl
@[simp] theorem takeAnswer_state_haltRequest (s : State) : ((takeAnswer s).2).haltRequest = s.haltRequest := by unfold takeAnswer; split <;> rfl
@[simp] theorem takeAnswer_state_params (s : State) : ((takeAnswer s).2).params = s.params := by unfold takeAnswer; split <;> rfl
@[simp] theorem takeAnswer_state_forwarded (s : State) : ((takeAnswer s).2).forwarded = s.forwarded := by unfold takeAnswer; split <;> rfl

/-! ### baseUpdate s w n v -/

@[simp] theorem baseUpdate_pc (s : State) (w : Bool) (n : RegNo) (v : Word) : (baseUpdate s w n v).pc = s.pc := by unfold baseUpdate; split <;> simp
@[simp] theorem baseUpdate_cpsr (s : State) (w : Bool) (n : RegNo) (v : Word) : (baseUpdate s w n v).cpsr = s.cpsr := by unfold baseUpdate; split <;> simp
@[simp] theorem baseUpdate_spsr (s : State) (w : Bool) (n : RegNo) (v : Word) : (baseUpdate s w n v).spsr = s.spsr := by unfold baseUpdate; split <;> simp
@[simp] theorem baseUpdate_run (s : State) (w : Bool) (n : RegNo) (v : Word) : (baseUpdate s w n v).run = s.run := by unfold baseUpdate; split <;> simp
@[simp] theorem baseUpdate_hazardMark (s : State) (w : Bool) (n : RegNo) (v : Word) : (baseUpdate s w n v).hazardMark = s.hazardMark := by unfold baseUpdate; split <;> simp
@[simp] theorem baseUpdate_cycles (s : State) (w : Bool) (n : RegNo) (v : Word) : (baseUpdate s w n v).cycles = s.cycles := by unfold baseUpdate; split <;> simp
@[simp] theorem baseUpdate_last (s : State) (w : Bool) (n : RegNo) (v : Word) : (baseUpdate s w n v).last = s.last := by unfold baseUpdate; split <;> simp
@[simp] theorem baseUpdate_waitcnt (s : State) (w : Bool) (n : RegNo) (v : Word) : (baseUpdate s w n v).waitcnt = s.waitcnt := by unfold baseUpdate; split <;> simp
@[simp] theorem baseUpdate_mem (s : State) (w : Bool) (n : RegNo) (v : Word) : (baseUpdate s w n v).mem = s.mem := by unfold baseUpdate; split <;> simp
@[simp] theorem baseUpdate_irqc (s : State) (w : Bool) (n : RegNo) (v : Word) : (baseUpdate s w n v).irqc = s.irqc := by unfold baseUpdate; split <;> simp
@[simp] theorem baseUpdate_irqInput (s : State) (w : Bool) (n : RegNo) (v : Word) : (baseUpdate s w n v).irqInput = s.irqInput := by unfold baseUpdate; split <;> simp
@[simp] theorem baseUpdate_fiqLine (s : State) (w : Bool) (n : RegNo) (v : Word) : (baseUpdate s w n v).fiqLine = s.fiqLine := by unfold baseUpdate; split <;> simp
@[simp] theorem baseUpdate_haltRequest (s : State) (w : Bool) (n : RegNo) (v : Word) : (baseUpdate s w n v).haltRequest = s.haltRequest := by unfold baseUpdate; split <;> simp
@[simp] theorem baseUpdate_params (s : State) (w : Bool) (n : RegNo) (v : Word) : (baseUpdate s w n v).params = s.params := by unfold baseUpdate; split <;> simp
@[simp] theorem baseUpdate_draws (s : State) (w : Bool) (n : RegNo) (v : Word) : (baseUpdate s w n v).draws = s.draws := by unfold baseUpdate; split <;> simp
@[simp] theorem baseUpdate_answers (s : State) (w : Bool) (n : RegNo) (v : Word) : (baseUpdate s w n v).answers = s.answers := by unfold baseUpdate; split <;> simp
@[simp] theorem baseUpdate_forwarded (s : State) (w : Bool) (n : RegNo) (v : Word) : (baseUpdate s w n v).forwarded = s.forwarded := by unfold baseUpdate; split <;> simp

/-! ### writeBack s n a -/

@[simp] theorem writeBack_pc (s : State) (n : RegNo) (a : Addressing) : (writeBack s n a).pc = s.pc := by unfold writeBack; split <;> simp
@[simp] theorem writeBack_cpsr (s : State) (n : RegNo) (a : Addressing) : (writeBack s n a).cpsr = s.cpsr := by unfold writeBack; split <;> simp
@[simp] theorem writeBack_spsr (s : State) (n : RegNo) (a : Addressing) : (writeBack s n a).spsr = s.spsr := by unfold writeBack; split <;> simp
@[simp] theorem writeBack_run (s : State) (n : RegNo) (a : Addressing) : (writeBack s n a).run = s.run := by unfold writeBack; split <;> simp
@[simp] theorem writeBack_hazardMark (s : State) (n : RegNo) (a : Addressing) : (writeBack s n a).hazardMark = s.hazardMark := by unfold writeBack; split <;> simp
@[simp] theorem writeBack_cycles (s : State) (n : RegNo) (a : Addressing) : (writeBack s n a).cycles = s.cycles := by unfold writeBack; split <;> simp
@[simp] theorem writeBack_last (s : State) (n : RegNo) (a : Addressing) : (writeBack s n a).last = s.last := by unfold writeBack; split <;> simp
@[simp] theorem writeBack_waitcnt (s : State) (n : RegNo) (a : Addressing) : (writeBack s n a).waitcnt = s.waitcnt := by unfold writeBack; split <;> simp
@[simp] theorem writeBack_mem (s : State) (n : RegNo) (a : Addressing) : (writeBack s n a).mem = s.mem := by unfold writeBack; split <;> simp
@[simp] theorem writeBack_irqc (s : State) (n : RegNo) (a : Addressing) : (writeBack s n a).irqc = s.irqc := by unfold writeBack; split <;> simp
@[simp] theorem writeBack_irqInput (s : State) (n : RegNo) (a : Addressing) : (writeBack s n a).irqInput = s.irqInput := by unfold writeBack; split <;> simp
@[simp] theorem writeBack_fiqLine (s : State) (n : RegNo) (a : Addressing) : (writeBack s n a).fiqLine = s.fiqLine := by unfold writeBack; split <;> simp
@[simp] theorem writeBack_haltRequest (s : State) (n : RegNo) (a : Addressing) : (writeBack s n a).haltRequest = s.haltRequest := by unfold writeBack; split <;> simp
@[simp] theorem writeBack_params (s : State) (n : RegNo) (a : Addressing) : (writeBack s n a).params = s.params := by unfold writeBack; split <;> simp
@[simp] theorem writeBack_draws (s : State) (n : RegNo) (a : Addressing) : (writeBack s n a).draws = s.draws := by unfold writeBack; split <;> simp
@[simp] theorem writeBack_answers (s : State) (n : RegNo) (a : Addressing) : (writeBack s n a).answers = s.answers := by unfold writeBack; split <;> simp
@[simp] theorem writeBack_forwarded (s : State) (n : RegNo) (a : Addressing) : (writeBack s n a).forwarded = s.forwarded := by unfold writeBack; split <;> simp

/-! ### The end of a step -/

@[simp] theorem finishStep_pc (b p : Bool) (s : State) : (finishStep b p s).pc = s.pc := by unfold finishStep; dsimp only; split <;> first | rfl | (split <;> rfl)
@[simp] theorem finishStep_regs (b p : Bool) (s : State) : (finishStep b p s).regs = s.regs := by unfold finishStep; dsimp only; split <;> first | rfl | (split <;> rfl)
@[simp] theorem finishStep_written (b p : Bool) (s : State) : (finishStep b p s).written = s.written := by unfold finishStep; dsimp only; split <;> first | rfl | (split <;> rfl)
@[simp] theorem finishStep_cpsr (b p : Bool) (s : State) : (finishStep b p s).cpsr = s.cpsr := by unfold finishStep; dsimp only; split <;> first | rfl | (split <;> rfl)
@[simp] theorem finishStep_spsr (b p : Bool) (s : State) : (finishStep b p s).spsr = s.spsr := by unfold finishStep; dsimp only; split <;> first | rfl | (split <;> rfl)
@[simp] theorem finishStep_cycles (b p : Bool) (s : State) : (finishStep b p s).cycles = s.cycles := by unfold finishStep; dsimp only; split <;> first | rfl | (split <;> rfl)
@[simp] theorem finishStep_mem (b p : Bool) (s : State) : (finishStep b p s).mem = s.mem := by unfold finishStep; dsimp only; split <;> first | rfl | (split <;> rfl)
@[simp] theorem finishStep_waitcnt (b p : Bool) (s : State) : (finishStep b p s).waitcnt = s.waitcnt := by unfold finishStep; dsimp only; split <;> first | rfl | (split <;> rfl)
@[simp] theorem finishStep_params (b p : Bool) (s : State) : (finishStep b p s).params = s.params := by unfold finishStep; dsimp only; split <;> first | rfl | (split <;> rfl)
@[simp] theorem finishStep_hazardMark (b p : Bool) (s : State) : (finishStep b p s).hazardMark =
    if p then (if b then some s.cycles else none) else s.hazardMark := by unfold finishStep; dsimp only; cases p <;> cases s.haltRequest <;> rfl

/-! ### Results -/

@[simp] theorem andThen_next (s : State) (f : State → Result) : andThen (.next s) f = f s := rfl
@[simp] theorem andThen_fault (e : Fault) (f : State → Result) : andThen (.fault e) f = .fault e := rfl
@[simp] theorem orFault_ok {α : Type} (a : α) (f : α → Result) : orFault (.ok a) f = f a := rfl
@[simp] theorem orFault_error {α : Type} (e : Fault) (f : α → Result) : orFault (.error e) f = .fault e := rfl

/-- The only way andThen answers a next state. -/
theorem andThen_eq_next {r : Result} {f : State → Result} {t : State} (h : andThen r f = .next t) :
    ∃ u, r = .next u ∧ f u = .next t := by
  cases r with
  | next u => exact ⟨u, rfl, h⟩
  | fault e => cases h
  | refused e => cases h

/-- The only way orFault answers a next state. -/
theorem orFault_eq_next {α : Type} {x : Except Fault α} {f : α → Result} {t : State} (h : orFault x f = .next t) :
    ∃ a, x = .ok a ∧ f a = .next t := by
  cases x with
  | ok a => exact ⟨a, rfl, h⟩
  | error e => cases h

/-- The two ways a predicated instruction answers a next state. -/
theorem predicated_eq_next {c : Cond} {s : State} {f : State → Result} {t : State} (h : predicated c s f = .next t) :
    (condPassed c s.cpsr = true ∧ f s = .next t) ∨ (condPassed c s.cpsr = false ∧ t = advance s) := by
  unfold predicated at h
  cases hc : condPassed c s.cpsr with
  | true => exact .inl ⟨rfl, by simpa [hc] using h⟩
  | false => exact .inr ⟨rfl, by simp only [hc] at h; cases h; rfl⟩

theorem predicated_of_passed {c : Cond} {s : State} (f : State → Result) (h : condPassed c s.cpsr = true) :
    predicated c s f = f s := by simp [predicated, h]

theorem predicated_of_failed {c : Cond} {s : State} (f : State → Result) (h : condPassed c s.cpsr = false) :
    predicated c s f = .next (advance s) := by simp [predicated, h]

/-! ### The host's calls -/

@[simp] theorem withdrawRequest_irqInput (s : State) : (withdrawRequest s).irqInput = false := rfl
@[simp] theorem raiseSource_ie (k : Fin 14) (s : State) : (raiseSource k s).irqc.ie = s.irqc.ie := rfl

end Sys2Proof.Machine
end

