-- ==== Sys2Proof/Laws/Memory.lean ====
section
/-! SUPPORT. The list of written bytes (read after write, the canonical form), alignment, regions and offsets, and the bytes
that a stored value is made of. -/

namespace Sys2Proof.Machine

/-! ### Reading and writing the list -/

theorem Mem.get_set (m : List Host.Cell) (a c : Nat) (b : Byte) :
    Mem.get (Mem.set m a b) c = if a = c then some b else Mem.get m c := by
  induction m with
  | nil => simp only [Mem.set, Mem.get]
  | cons p rest ih =>
    obtain ⟨k, v⟩ := p
    simp only [Mem.set]
    split
    · simp only [Mem.get]
    · split
      · rename_i h; subst h; simp only [Mem.get]; split <;> rfl
      · simp only [Mem.get, ih]
        split
        · split
          · omega
          · rfl
        · rfl

theorem Mem.get_store (m : List Host.Cell) (k : Nat) (n : Width) (v : Word) (c : Nat) :
    Mem.get (Mem.store m k n v) c =
      if k ≤ c ∧ c < k + n.bytes then some (v.extractLsb' (8 * (c - k)) 8) else Mem.get m c := by
  have out : ∀ (b : Nat), ¬(k ≤ c ∧ c < k + b) → (if k ≤ c ∧ c < k + b then some (v.extractLsb' (8 * (c - k)) 8)
      else Mem.get m c) = Mem.get m c := fun b h => if_neg h
  cases n with
  | byte =>
    simp only [Mem.store, Mem.get_set]
    by_cases h : k = c
    · subst h; simp [Width.bytes]
    · rw [if_neg h]; exact (out 1 (by omega)).symm
  | half =>
    simp only [Mem.store, Mem.get_set]
    by_cases h1 : k + 1 = c
    · subst h1; simp [Width.bytes]
    · by_cases h : k = c
      · subst h; simp [Width.bytes]
      · rw [if_neg h1, if_neg h]; exact (out 2 (by omega)).symm
  | word =>
    simp only [Mem.store, Mem.get_set]
    by_cases h3 : k + 3 = c
    · subst h3; simp [Width.bytes]
    · by_cases h2 : k + 2 = c
      · subst h2; simp [Width.bytes]
      · by_cases h1 : k + 1 = c
        · subst h1; simp [Width.bytes]
        · by_cases h : k = c
          · subst h; simp [Width.bytes]
          · rw [if_neg h3, if_neg h2, if_neg h1, if_neg h]; exact (out 4 (by omega)).symm

theorem Mem.wfFrom_set {m : List Host.Cell} {lo a : Nat} {b : Byte} (h : Mem.wfFrom lo m = true) (hlo : lo ≤ a)
    (ha : Mem.backed a = true) : Mem.wfFrom lo (Mem.set m a b) = true := by
  induction m generalizing lo with
  | nil => simp [Mem.set, Mem.wfFrom, hlo, ha]
  | cons p rest ih =>
    obtain ⟨k, v⟩ := p
    simp only [Mem.wfFrom, Bool.and_eq_true, decide_eq_true_eq] at h
    obtain ⟨⟨h1, h2⟩, h3⟩ := h
    simp only [Mem.set]
    split
    · rename_i hlt
      simp only [Mem.wfFrom, Bool.and_eq_true, decide_eq_true_eq]
      exact ⟨⟨hlo, ha⟩, ⟨by omega, h2⟩, h3⟩
    · split
      · rename_i heq
        simp only [Mem.wfFrom, Bool.and_eq_true, decide_eq_true_eq]
        exact ⟨⟨hlo, ha⟩, heq ▸ h3⟩
      · simp only [Mem.wfFrom, Bool.and_eq_true, decide_eq_true_eq]
        exact ⟨⟨h1, h2⟩, ih h3 (by omega)⟩

/-- Writing a byte at a backed address keeps the canonical form. -/
theorem Mem.wf_set {m : List Host.Cell} {a : Nat} {b : Byte} (h : Mem.wf m = true) (ha : Mem.backed a = true) :
    Mem.wf (Mem.set m a b) = true := Mem.wfFrom_set h (Nat.zero_le a) ha

/-- Writing a value at backed addresses keeps the canonical form. -/
theorem Mem.wf_store {m : List Host.Cell} {k : Nat} {n : Width} {v : Word} (h : Mem.wf m = true)
    (hk : ∀ i, i < n.bytes → Mem.backed (k + i) = true) : Mem.wf (Mem.store m k n v) = true := by
  cases n with
  | byte => exact Mem.wf_set h (hk 0 (by decide))
  | half => exact Mem.wf_set (Mem.wf_set h (hk 0 (by decide))) (hk 1 (by decide))
  | word =>
    exact Mem.wf_set (Mem.wf_set (Mem.wf_set (Mem.wf_set h (hk 0 (by decide))) (hk 1 (by decide))) (hk 2 (by decide)))
      (hk 3 (by decide))

theorem Mem.wf_reset : Mem.wf State.reset.mem = true := rfl

/-! ### Alignment -/

theorem and_mask2 (a : Word) : (a &&& 0xFFFFFFFE).toNat = a.toNat / 2 * 2 := by
  have h : a &&& (0xFFFFFFFE : Word) = (a >>> 1) <<< 1 := by
    apply BitVec.eq_of_getLsbD_eq
    intro i hi
    have hm : (0xFFFFFFFE : Word).getLsbD i = decide (1 ≤ i) := by interval_cases i <;> rfl
    rw [BitVec.getLsbD_and, hm, BitVec.getLsbD_shiftLeft, BitVec.getLsbD_ushiftRight]
    rcases i with _ | i
    · simp
    · simp [hi, Nat.add_comm]
  rw [h, BitVec.toNat_shiftLeft, BitVec.toNat_ushiftRight, Nat.shiftLeft_eq, Nat.shiftRight_eq_div_pow]
  have := a.isLt
  omega

theorem and_mask4 (a : Word) : (a &&& 0xFFFFFFFC).toNat = a.toNat / 4 * 4 := by
  have h : a &&& (0xFFFFFFFC : Word) = (a >>> 2) <<< 2 := by
    apply BitVec.eq_of_getLsbD_eq
    intro i hi
    have hm : (0xFFFFFFFC : Word).getLsbD i = decide (2 ≤ i) := by interval_cases i <;> rfl
    rw [BitVec.getLsbD_and, hm, BitVec.getLsbD_shiftLeft, BitVec.getLsbD_ushiftRight]
    rcases i with _ | _ | i
    · simp
    · simp
    · simp [hi, Nat.add_comm 2]
  rw [h, BitVec.toNat_shiftLeft, BitVec.toNat_ushiftRight, Nat.shiftLeft_eq, Nat.shiftRight_eq_div_pow]
  have := a.isLt
  omega

/-- Align(a, n) is the largest multiple of n that is at most a (R65). -/
theorem align_toNat (a : Word) (n : Width) : (align a n).toNat = a.toNat / n.bytes * n.bytes := by
  cases n with
  | byte => simp [align, Width.bytes]
  | half => exact and_mask2 a
  | word => exact and_mask4 a

/-- Byte k of an aligned access. -/
theorem align_add_toNat (a : Word) (n : Width) (k : Nat) (hk : k < n.bytes) :
    (align a n + BitVec.ofNat 32 k).toNat = a.toNat / n.bytes * n.bytes + k := by
  rw [BitVec.toNat_add, align_toNat, BitVec.toNat_ofNat]
  have := a.isLt
  cases n <;> simp only [Width.bytes] at * <;> omega

/-! ### Regions and offsets -/

/-- Every boundary of R61 is a multiple of 0x400: addresses in one such block are in one region. -/
theorem region_congr {a b : Word} (h : a.toNat / 0x400 = b.toNat / 0x400) : region a = region b := by
  unfold region
  simp only [show a.toNat < 0x00004000 ↔ b.toNat < 0x00004000 by omega,
    show a.toNat < 0x02000000 ↔ b.toNat < 0x02000000 by omega,
    show a.toNat < 0x03000000 ↔ b.toNat < 0x03000000 by omega,
    show a.toNat < 0x04000000 ↔ b.toNat < 0x04000000 by omega,
    show a.toNat < 0x04000400 ↔ b.toNat < 0x04000400 by omega,
    show a.toNat < 0x05000000 ↔ b.toNat < 0x05000000 by omega,
    show a.toNat < 0x06000000 ↔ b.toNat < 0x06000000 by omega,
    show a.toNat < 0x07000000 ↔ b.toNat < 0x07000000 by omega,
    show a.toNat < 0x08000000 ↔ b.toNat < 0x08000000 by omega,
    show a.toNat < 0x0A000000 ↔ b.toNat < 0x0A000000 by omega,
    show a.toNat < 0x0C000000 ↔ b.toNat < 0x0C000000 by omega,
    show a.toNat < 0x0E000000 ↔ b.toNat < 0x0E000000 by omega,
    show a.toNat < 0x10000000 ↔ b.toNat < 0x10000000 by omega]

theorem region_align (a : Word) (n : Width) : region (align a n) = region a := by
  apply region_congr
  rw [align_toNat]
  cases n <;> simp only [Width.bytes] <;> omega

theorem region_align_add (a : Word) (n : Width) (k : Nat) (hk : k < n.bytes) :
    region (align a n + BitVec.ofNat 32 k) = region a := by
  apply region_congr
  rw [align_add_toNat a n k hk]
  cases n <;> simp only [Width.bytes] at * <;> omega

/-- The VRAM fold of R61: the last 0x8000 bytes of each mirror repeat the 0x8000 before them. -/
def vramFold (x : Nat) : Nat := if x % 0x20000 < 0x18000 then x % 0x20000 else x % 0x20000 - 0x8000

theorem vramFold_add {y k : Nat} (h : y % 4 + k < 4) : vramFold (y + k) = vramFold y + k := by
  unfold vramFold
  by_cases h1 : y % 0x20000 < 0x18000
  · rw [if_pos h1, if_pos (by omega)]; omega
  · rw [if_neg h1, if_neg (by omega)]; omega

theorem vramFold_mod (x : Nat) : vramFold x % 0x400 = x % 0x400 := by
  unfold vramFold
  split <;> omega

theorem vramFold_lt (x : Nat) : vramFold x < 0x18000 := by
  unfold vramFold
  split <;> omega

/-- The offset as a function of the region. -/
def Region.offsetOf (r : Region) (x : Nat) : Nat :=
  match r with
  | .bios => x
  | .ewram => x % 0x40000
  | .iwram => x % 0x8000
  | .io => x % 0x400
  | .pram => x % 0x400
  | .vram => vramFold x
  | .oam => x % 0x400
  | .rom0 => x % 0x2000000
  | .rom1 => x % 0x2000000
  | .rom2 => x % 0x2000000
  | .sram => x % 0x10000
  | .unmapped => x

theorem offset_eq (a : Word) : offset a = (region a).offsetOf a.toNat := by
  unfold offset Region.offsetOf
  cases region a <;> rfl

/-- Byte k of an aligned access lies k bytes above its first byte, mirrors included. -/
theorem offset_align_add (a : Word) (n : Width) (k : Nat) (hk : k < n.bytes) :
    offset (align a n + BitVec.ofNat 32 k) = offset (align a n) + k := by
  rw [offset_eq, offset_eq, region_align_add a n k hk, region_align, align_add_toNat a n k hk, align_toNat]
  generalize region a = r
  have := a.isLt
  cases r <;> cases n <;> simp only [Region.offsetOf, Width.bytes] at * <;>
    first | omega | exact vramFold_add (by omega)

/-- Two addresses of one location agree in their low ten bits. -/
theorem mod_of_location_eq {a b : Word} (h : location a = location b) : a.toNat % 0x400 = b.toNat % 0x400 := by
  have hr : region a = region b := congrArg Prod.fst h
  have ho : offset a = offset b := congrArg Prod.snd h
  rw [offset_eq, offset_eq, hr] at ho
  revert ho
  generalize region b = r
  cases r <;> simp only [Region.offsetOf] <;> intro ho <;>
    first | omega | (have h1 := vramFold_mod a.toNat; have h2 := vramFold_mod b.toNat; omega)

/-- The size of a region's byte store or image (R61). -/
def Region.size : Region → Nat
  | .bios => 0x4000
  | .ewram => 0x40000
  | .iwram => 0x8000
  | .pram => 0x400
  | .vram => 0x18000
  | .oam => 0x400
  | .rom0 => 0x2000000
  | .rom1 => 0x2000000
  | .rom2 => 0x2000000
  | .io => 0x400
  | .sram => 0x10000
  | .unmapped => 0x100000000

theorem ite_ne {α : Type} {c : Prop} [Decidable c] {x y z : α} (hx : x ≠ z) (hy : y ≠ z) : (if c then x else y) ≠ z := by
  split <;> assumption

theorem region_bios {a : Word} (h : region a = .bios) : a.toNat < 0x4000 := by
  by_contra hn
  revert h
  unfold region
  rw [if_neg hn]
  iterate 12 refine ite_ne (by decide) ?_
  decide

theorem offset_lt (a : Word) : offset a < (region a).size := by
  rw [offset_eq]
  have ha := a.isLt
  have hb : region a = .bios → a.toNat < 0x4000 := region_bios
  revert hb
  generalize region a = r
  intro hb
  cases r <;> simp only [Region.offsetOf, Region.size] <;> first | exact hb rfl | exact vramFold_lt _ | omega

/-- An aligned access lies within its region's store. -/
theorem offset_align_le (a : Word) (n : Width) : offset (align a n) + n.bytes ≤ (region a).size := by
  have h := offset_lt (align a n + BitVec.ofNat 32 (n.bytes - 1))
  rw [region_align_add a n _ (by cases n <;> decide), offset_align_add a n _ (by cases n <;> decide)] at h
  cases n <;> simp only [Width.bytes] at * <;> omega

theorem backed_of_stored {r : Region} {o : Nat} (hr : r.stored = true) (ho : o < r.size) :
    Mem.backed (r.base + o) = true := by
  unfold Mem.backed
  simp only [Bool.or_eq_true, Bool.and_eq_true, decide_eq_true_eq]
  cases r <;> simp only [Region.stored, Bool.false_eq_true] at hr <;> simp only [Region.size, Region.base] at * <;> omega

/-- Distinct stores do not share a physical address, the three views of the ROM apart. -/
theorem base_disjoint {r r' : Region} {o o' : Nat} (hr : r.stored = true) (hr' : r'.stored = true) (ho : o < r.size)
    (ho' : o' < r'.size) (h : r.base + o = r'.base + o') : (r = r' ∨ (r.isRom = true ∧ r'.isRom = true)) ∧ o = o' := by
  cases r <;> simp [Region.stored] at hr <;> cases r' <;> simp [Region.stored] at hr' <;>
    simp only [Region.size, Region.base] at * <;> refine ⟨?_, ?_⟩ <;> first | omega | decide

/-! ### Stored values -/

/-- Byte k of a stored value is the byte stored k places above (R64). -/
theorem storedValue_byte (s : State) (r : Region) (o k : Nat) (n : Width) (hk : k < n.bytes) :
    (storedValue s r o n).extractLsb' (8 * k) 8 = storedByte s r (o + k) := by
  apply BitVec.eq_of_getLsbD_eq
  intro i hi
  rw [BitVec.getLsbD_extractLsb']
  cases n with
  | byte =>
    have hk : k < 1 := hk
    interval_cases k
    simp [storedValue, hi]
    intro; omega
  | half =>
    have hk : k < 2 := hk
    interval_cases k <;> interval_cases i <;>
      simp only [storedValue, BitVec.getLsbD_setWidth, BitVec.getLsbD_append] <;> simp
  | word =>
    have hk : k < 4 := hk
    interval_cases k <;> interval_cases i <;> simp only [storedValue, BitVec.getLsbD_append] <;> simp

/-- A stored value has no more bits than its width (R66). -/
theorem storedValue_lt (s : State) (r : Region) (o : Nat) (n : Width) :
    (storedValue s r o n).toNat < 2 ^ (8 * n.bytes) := by
  cases n with
  | byte => simp only [storedValue, Width.bytes, BitVec.toNat_setWidth]; have := (storedByte s r o).isLt; omega
  | half =>
    simp only [storedValue, Width.bytes, BitVec.toNat_setWidth]
    have := (storedByte s r (o + 1) ++ storedByte s r o).isLt
    omega
  | word => exact (storedValue s r o .word).isLt

/-- What inspection sees at byte k of an aligned access to a stored region. -/
theorem peek_align_add (s : State) (a : Word) (n : Width) (k : Nat) (hk : k < n.bytes) (hs : (region a).stored = true) :
    s.peek (align a n + BitVec.ofNat 32 k) = some (storedByte s (region a) (offset (align a n) + k)) := by
  unfold State.peek
  rw [region_align_add a n k hk, offset_align_add a n k hk, if_pos hs]

/-- The bytes of a value read from a stored region are the bytes inspection sees there. -/
theorem bytesAt_storedValue (s : State) (a : Word) (n : Width) (hs : (region a).stored = true) :
    BytesAt s a n (storedValue s (region a) (offset (align a n)) n) := by
  intro k hk
  rw [peek_align_add s a n k hk hs, storedValue_byte s _ _ k n hk]

/-- Memory as inspection sees it depends on the list, and on ROM_SIZE. -/
theorem peek_congr {s t : State} (hm : t.mem = s.mem) (hp : t.params = s.params) (a : Word) : t.peek a = s.peek a := by
  simp [State.peek, storedByte, hm, hp]

theorem sameMemory_of_mem {s t : State} (hm : t.mem = s.mem) (hp : t.params = s.params) : SameMemory s t :=
  peek_congr hm hp

end Sys2Proof.Machine
end

