-- ==== Sys2Proof/Laws/Bus.lean ====
section
/-! SUPPORT. What a bus read and a bus write can do: one lemma each that says everything a caller needs. -/

namespace Sys2Proof.Machine

/-! ### Reads -/

/-- t is s but for the clock, the last-access record, the free values drawn, the answers taken and what was forwarded. -/
structure BusOnly (s t : State) : Prop where
  regs : t.regs = s.regs
  written : t.written = s.written
  pc : t.pc = s.pc
  cpsr : t.cpsr = s.cpsr
  spsr : t.spsr = s.spsr
  run : t.run = s.run
  hazardMark : t.hazardMark = s.hazardMark
  waitcnt : t.waitcnt = s.waitcnt
  mem : t.mem = s.mem
  irqc : t.irqc = s.irqc
  irqInput : t.irqInput = s.irqInput
  fiqLine : t.fiqLine = s.fiqLine
  haltRequest : t.haltRequest = s.haltRequest
  params : t.params = s.params

theorem BusOnly.refl (s : State) : BusOnly s s := ⟨rfl, rfl, rfl, rfl, rfl, rfl, rfl, rfl, rfl, rfl, rfl, rfl, rfl, rfl⟩

theorem BusOnly.trans {s t u : State} (h : BusOnly s t) (k : BusOnly t u) : BusOnly s u :=
  ⟨k.regs.trans h.regs, k.written.trans h.written, k.pc.trans h.pc, k.cpsr.trans h.cpsr, k.spsr.trans h.spsr, k.run.trans h.run,
    k.hazardMark.trans h.hazardMark, k.waitcnt.trans h.waitcnt, k.mem.trans h.mem, k.irqc.trans h.irqc,
    k.irqInput.trans h.irqInput, k.fiqLine.trans h.fiqLine, k.haltRequest.trans h.haltRequest, k.params.trans h.params⟩

theorem BusOnly.sameMemory {s t : State} (h : BusOnly s t) : SameMemory s t := sameMemory_of_mem h.mem h.params

theorem BusOnly.sameIo {s t : State} (h : BusOnly s t) : SameIo s t := ⟨h.waitcnt, h.irqc, h.haltRequest⟩

theorem BusOnly.sameControl {s t : State} (h : BusOnly s t) : SameControl s t :=
  ⟨h.spsr, h.run, h.hazardMark, h.irqInput, h.fiqLine, h.params⟩

theorem busOnly_draw (s : State) : BusOnly s (draw s).2 :=
  ⟨rfl, rfl, rfl, rfl, rfl, rfl, rfl, rfl, rfl, rfl, rfl, rfl, rfl, rfl⟩

theorem busOnly_takeAnswer (s : State) : BusOnly s (takeAnswer s).2 := by
  unfold takeAnswer
  split
  · exact ⟨rfl, rfl, rfl, rfl, rfl, rfl, rfl, rfl, rfl, rfl, rfl, rfl, rfl, rfl⟩
  · exact busOnly_draw s

theorem busOnly_forward (s : State) (e : Forward) : BusOnly s (forward s e) :=
  ⟨rfl, rfl, rfl, rfl, rfl, rfl, rfl, rfl, rfl, rfl, rfl, rfl, rfl, rfl⟩

theorem busOnly_charge (s : State) (a : Word) (n : Width) : BusOnly s (charge s a n) :=
  ⟨rfl, rfl, rfl, rfl, rfl, rfl, rfl, rfl, rfl, rfl, rfl, rfl, rfl, rfl⟩

theorem busOnly_spend (s : State) (k : Nat) : BusOnly s (s.spend k) :=
  ⟨rfl, rfl, rfl, rfl, rfl, rfl, rfl, rfl, rfl, rfl, rfl, rfl, rfl, rfl⟩

theorem busOnly_forwardRead (s : State) (t : Target) (o : Nat) (n : Width) : BusOnly s (forwardRead s t o n).2 :=
  (busOnly_forward s _).trans (busOnly_takeAnswer _)

/-- Everything a forwarded read gives and does (R41, R75). -/
theorem forwardRead_spec (s : State) (t : Target) (o : Nat) (n : Width) :
    (forwardRead s t o n).1 = n.trunc (nextAnswer s) ∧ (forwardRead s t o n).2.answers = s.answers.tail ∧
      (forwardRead s t o n).2.forwarded = ⟨t, false, o, n, 0⟩ :: s.forwarded := by
  unfold forwardRead takeAnswer nextAnswer
  cases h : s.answers <;> simp [forward, draw, h]

theorem busOnly_saveRead (s : State) (a : Word) (n : Width) : BusOnly s (saveRead s a n).2 :=
  busOnly_forwardRead s _ _ _

theorem busOnly_irqControlRead (s : State) (o : Nat) (n : Width) : BusOnly s (irqControlRead s o n).2 := by
  unfold irqControlRead
  split
  · exact BusOnly.refl s
  · split
    · exact BusOnly.refl s
    · exact busOnly_draw s

theorem busOnly_ioReadPart (s : State) (o : Nat) (n : Width) : BusOnly s (ioReadPart s o n).2 := by
  unfold ioReadPart
  split
  · exact BusOnly.refl s
  · exact busOnly_irqControlRead s o n
  · exact busOnly_forwardRead s _ _ _
  · exact busOnly_forwardRead s _ _ _
  · exact busOnly_draw s

theorem busOnly_ioRead (s : State) (o : Nat) (n : Width) : BusOnly s (ioRead s o n).2 := by
  unfold ioRead
  split
  · split
    · exact busOnly_forwardRead s _ _ _
    · exact (busOnly_ioReadPart s o .half).trans (busOnly_ioReadPart _ (o + 2) .half)
  · exact busOnly_ioReadPart s o n

theorem busOnly_readValue (s : State) (fetch : Bool) (a : Word) (n : Width) : BusOnly s (readValue s fetch a n).2 := by
  unfold readValue
  simp only []
  split
  · split
    · exact busOnly_draw s
    · exact BusOnly.refl s
  · exact BusOnly.refl s
  · exact BusOnly.refl s
  · exact BusOnly.refl s
  · exact BusOnly.refl s
  · exact BusOnly.refl s
  · split
    · exact busOnly_saveRead s a n
    · exact BusOnly.refl s
  · split
    · exact busOnly_saveRead s a n
    · exact BusOnly.refl s
  · split
    · exact busOnly_saveRead s a n
    · exact BusOnly.refl s
  · exact busOnly_ioRead s _ n
  · exact busOnly_saveRead s a n
  · exact busOnly_draw s

/-! ### Owners of the I/O window (R73) -/

theorem deviceAt_eq_device {l : List DeviceRange} {o id : Nat} :
    deviceAt l o = .device id ↔ ∃ before d after, l = before ++ d :: after ∧ d.id = id ∧ d.first ≤ o ∧ o ≤ d.last ∧
      ∀ e, e ∈ before → ¬(e.first ≤ o ∧ o ≤ e.last) := by
  induction l with
  | nil => simp [deviceAt]
  | cons d rest ih =>
    by_cases h : d.first ≤ o ∧ o ≤ d.last
    · simp only [deviceAt, if_pos h, IoOwner.device.injEq]
      constructor
      · rintro rfl
        exact ⟨[], d, rest, rfl, rfl, h.1, h.2, by simp⟩
      · rintro ⟨before, e, after, hl, rfl, -, -, hb⟩
        cases before with
        | nil => simp only [List.nil_append, List.cons.injEq] at hl; rw [hl.1]
        | cons f _ =>
          simp only [List.cons_append, List.cons.injEq] at hl
          exact absurd (hl.1 ▸ h) (hb f (List.mem_cons_self ..))
    · simp only [deviceAt, if_neg h]
      rw [ih]
      constructor
      · rintro ⟨before, e, after, rfl, hi, h1, h2, hb⟩
        refine ⟨d :: before, e, after, rfl, hi, h1, h2, fun f hf => ?_⟩
        rcases List.mem_cons.mp hf with rfl | hf
        · exact h
        · exact hb f hf
      · rintro ⟨before, e, after, hl, hi, h1, h2, hb⟩
        cases before with
        | nil => simp only [List.nil_append, List.cons.injEq] at hl; exact absurd (hl.1 ▸ ⟨h1, h2⟩) h
        | cons f before =>
          simp only [List.cons_append, List.cons.injEq] at hl
          exact ⟨before, e, after, hl.2, hi, h1, h2, fun g hg => hb g (List.mem_cons_of_mem _ hg)⟩

theorem deviceAt_eq_nobody {l : List DeviceRange} {o : Nat} :
    deviceAt l o = .nobody ↔ ∀ d, d ∈ l → ¬(d.first ≤ o ∧ o ≤ d.last) := by
  induction l with
  | nil => simp [deviceAt]
  | cons d rest ih =>
    unfold deviceAt
    split
    · rename_i h
      simp only [reduceCtorEq, false_iff]
      exact fun k => k d (List.mem_cons_self ..) h
    · rename_i h
      rw [ih, List.forall_mem_cons]
      exact ⟨fun k => ⟨h, k⟩, fun k => k.2⟩

theorem ioOwner_of_not_own {s : State} {o : Nat} (h : ¬OwnOffset o) : ioOwner s o = deviceAt s.params.devices o := by
  unfold OwnOffset at h
  unfold ioOwner
  rw [if_neg (by omega), if_neg (by omega), if_neg (by omega)]

theorem ioOwner_eq_device {s : State} {o id : Nat} : ioOwner s o = .device id ↔ Registered s o id := by
  constructor
  · intro h
    have hn : ¬OwnOffset o := by
      unfold ioOwner at h
      unfold OwnOffset
      split at h
      · cases h
      · split at h
        · cases h
        · split at h
          · cases h
          · omega
    rw [ioOwner_of_not_own hn] at h
    exact ⟨hn, deviceAt_eq_device.mp h⟩
  · rintro ⟨hn, h⟩
    rw [ioOwner_of_not_own hn]
    exact deviceAt_eq_device.mpr h

theorem ioOwner_of_unregistered {s : State} {o : Nat} (h : Unregistered s o) : ioOwner s o = .nobody := by
  rw [ioOwner_of_not_own h.1]
  exact deviceAt_eq_nobody.mpr h.2

theorem wordDevice_eq_some {s : State} {o id : Nat} :
    wordDevice s o = some id ↔ Registered s o id ∧ Registered s (o + 2) id := by
  rw [← ioOwner_eq_device, ← ioOwner_eq_device]
  unfold wordDevice
  split
  · rename_i a b ha hb
    rw [ha, hb]
    split <;> simp_all
    rintro rfl
    exact fun e => absurd e.symm ‹_›
  · rename_i h
    simp only [reduceCtorEq, false_iff]
    exact fun e => h id id e.1 e.2

/-- Everything a data read can do to the state. -/
theorem memRead_busOnly (s : State) (a : Word) (n : Width) : BusOnly s (memRead s a n).2 :=
  (busOnly_readValue s false a n).trans (busOnly_charge _ a n)

/-! ### Prices -/

theorem halfCost_pos (ws : BitVec 16) (r : Region) (seq : Bool) : 1 ≤ halfCost ws r seq := by
  cases r <;> simp [halfCost]

/-- Every access costs at least one cycle (R83). -/
theorem accessCost_pos (ws : BitVec 16) (r : Region) (n : Width) (seq : Bool) : 1 ≤ accessCost ws r n seq := by
  unfold accessCost
  have := halfCost_pos ws r seq
  split <;> omega

theorem charge_cycles_lt (s : State) (a : Word) (n : Width) : s.cycles + 1 ≤ (charge s a n).cycles := by
  have := accessCost_pos s.waitcnt (region (align a n)) n (sequential s.last (align a n))
  simp only [charge_cycles]
  omega

theorem draw_cycles (s : State) : (draw s).2.cycles = s.cycles := rfl

theorem takeAnswer_cycles (s : State) : (takeAnswer s).2.cycles = s.cycles := by unfold takeAnswer; split <;> rfl

theorem irqControlRead_cycles (s : State) (o : Nat) (n : Width) : (irqControlRead s o n).2.cycles = s.cycles := by
  unfold irqControlRead
  split
  · rfl
  · split <;> rfl

theorem ioReadPart_cycles (s : State) (o : Nat) (n : Width) : (ioReadPart s o n).2.cycles = s.cycles := by
  unfold ioReadPart
  split
  · rfl
  · exact irqControlRead_cycles s o n
  · exact takeAnswer_cycles _
  · exact takeAnswer_cycles _
  · rfl

theorem readValue_cycles (s : State) (fetch : Bool) (a : Word) (n : Width) :
    (readValue s fetch a n).2.cycles = s.cycles := by
  unfold readValue saveRead ioRead
  simp only []
  split <;> (try split) <;> (try split) <;>
    first | rfl | exact takeAnswer_cycles _ | exact ioReadPart_cycles _ _ _ |
      exact (ioReadPart_cycles _ _ _).trans (ioReadPart_cycles _ _ _)

theorem memRead_cycles_lt (s : State) (a : Word) (n : Width) : s.cycles + 1 ≤ (memRead s a n).2.cycles := by
  have h := charge_cycles_lt (readValue s false a n).2 a n
  rw [readValue_cycles] at h
  exact h

/-! ### A read of plain memory -/

theorem readValue_plain (s : State) (fetch : Bool) (a : Word) (n : Width) (hs : (region a).stored = true)
    (hc : (region a).isRom = true → claimed s a = false) (hb : region a = .bios → fetch = false → s.pc.toNat < 0x4000) :
    readValue s fetch a n = (storedValue s (region a) (offset (align a n)) n, s) := by
  unfold readValue
  simp only [region_align]
  revert hs hc hb
  generalize region a = r
  cases r <;> simp [Region.stored, Region.isRom]
  · intro h1 h2 h3
    have := h1 h2
    omega
  all_goals
    intro h1 h2
    rw [h1] at h2
    cases h2

/-- Reading plain memory returns the stored bytes and only takes time (R66). -/
theorem memRead_plain {s : State} {a : Word} (n : Width) (h : Plain s a) :
    memRead s a n = (storedValue s (region a) (offset (align a n)) n, charge s a n) := by
  unfold memRead
  rw [readValue_plain s false a n h.1 h.2.1 fun hb _ => h.2.2 hb]

/-- A data read of the BIOS from outside it is a free value (R70). -/
theorem memRead_protected {s : State} {a : Word} (n : Width) (hb : region a = .bios) (hp : 0x4000 ≤ s.pc.toNat) :
    memRead s a n = (n.trunc (Config.draw s.draws), charge (draw s).2 a n) := by
  unfold memRead readValue
  simp [region_align, hb, hp, draw]

theorem Plain.congr {s t : State} {a : Word} (h : Plain s a) (hp : t.params = s.params) (hpc : t.pc = s.pc) : Plain t a :=
  ⟨h.1, fun hr => by simpa [claimed, hp] using h.2.1 hr, fun hb => hpc ▸ h.2.2 hb⟩

/-! ### Writes -/

/-- What a bus write leaves, whatever it writes. -/
structure WriteFrame (s t : State) : Prop where
  regs : t.regs = s.regs
  written : t.written = s.written
  pc : t.pc = s.pc
  cpsr : t.cpsr = s.cpsr
  spsr : t.spsr = s.spsr
  run : t.run = s.run
  hazardMark : t.hazardMark = s.hazardMark
  irqInput : t.irqInput = s.irqInput
  fiqLine : t.fiqLine = s.fiqLine
  params : t.params = s.params
  draws : t.draws = s.draws
  answers : t.answers = s.answers

theorem WriteFrame.refl (s : State) : WriteFrame s s := ⟨rfl, rfl, rfl, rfl, rfl, rfl, rfl, rfl, rfl, rfl, rfl, rfl⟩

theorem WriteFrame.trans {s t u : State} (h : WriteFrame s t) (k : WriteFrame t u) : WriteFrame s u :=
  ⟨k.regs.trans h.regs, k.written.trans h.written, k.pc.trans h.pc, k.cpsr.trans h.cpsr, k.spsr.trans h.spsr, k.run.trans h.run,
    k.hazardMark.trans h.hazardMark, k.irqInput.trans h.irqInput, k.fiqLine.trans h.fiqLine,
    k.params.trans h.params, k.draws.trans h.draws, k.answers.trans h.answers⟩

theorem writeFrame_charge (s : State) (a : Word) (n : Width) : WriteFrame s (charge s a n) :=
  ⟨rfl, rfl, rfl, rfl, rfl, rfl, rfl, rfl, rfl, rfl, rfl, rfl⟩

theorem writeFrame_forward (s : State) (e : Forward) : WriteFrame s (forward s e) :=
  ⟨rfl, rfl, rfl, rfl, rfl, rfl, rfl, rfl, rfl, rfl, rfl, rfl⟩

theorem writeFrame_storeAt (s : State) (r : Region) (o : Nat) (n : Width) (v : Word) : WriteFrame s (storeAt s r o n v) :=
  ⟨rfl, rfl, rfl, rfl, rfl, rfl, rfl, rfl, rfl, rfl, rfl, rfl⟩

theorem writeFrame_ioWritePart (s : State) (o : Nat) (n : Width) (v : Word) : WriteFrame s (ioWritePart s o n v) := by
  unfold ioWritePart irqControlWrite
  split
  · exact ⟨rfl, rfl, rfl, rfl, rfl, rfl, rfl, rfl, rfl, rfl, rfl, rfl⟩
  · repeat' split
    all_goals exact ⟨rfl, rfl, rfl, rfl, rfl, rfl, rfl, rfl, rfl, rfl, rfl, rfl⟩
  · exact ⟨rfl, rfl, rfl, rfl, rfl, rfl, rfl, rfl, rfl, rfl, rfl, rfl⟩
  · exact writeFrame_forward s _
  · exact WriteFrame.refl s

theorem writeFrame_ioWrite (s : State) (o : Nat) (n : Width) (v : Word) : WriteFrame s (ioWrite s o n v) := by
  unfold ioWrite
  split
  · split
    · exact writeFrame_forward s _
    · exact (writeFrame_ioWritePart s o .half _).trans (writeFrame_ioWritePart _ (o + 2) .half _)
  · exact writeFrame_ioWritePart s o n v

theorem writeFrame_romWrite (s : State) (a : Word) (n : Width) (v : Word) : WriteFrame s (romWrite s a n v) := by
  unfold romWrite
  split <;> exact writeFrame_forward s _

theorem writeFrame_writeValue (s : State) (a : Word) (n : Width) (v : Word) : WriteFrame s (writeValue s a n v) := by
  unfold writeValue
  simp only []
  split
  case h_3 => split <;> exact writeFrame_storeAt _ _ _ _ _
  case h_4 =>
    split
    · split
      · exact writeFrame_storeAt _ _ _ _ _
      · exact WriteFrame.refl s
    · exact writeFrame_storeAt _ _ _ _ _
  case h_5 =>
    split
    · exact WriteFrame.refl s
    · exact writeFrame_storeAt _ _ _ _ _
  case h_6 => exact writeFrame_ioWrite s _ n v
  all_goals
    first
    | exact writeFrame_storeAt _ _ _ _ _ | exact writeFrame_forward s _ | exact writeFrame_romWrite s a n v
    | exact WriteFrame.refl s

/-- The two answers of a write (R705). -/
theorem memWrite_eq (s : State) (a : Word) (n : Width) (v : Word) :
    (prefetchHit s a n = true → memWrite s a n v = .fault .storeIntoPrefetched) ∧
      (prefetchHit s a n = false → memWrite s a n v = .next (writeValue (charge s a n) a n v)) := by
  unfold memWrite
  constructor <;> intro h <;> simp [h]

theorem memWrite_next {s t : State} {a : Word} {n : Width} {v : Word} (h : memWrite s a n v = .next t) :
    prefetchHit s a n = false ∧ t = writeValue (charge s a n) a n v := by
  cases hp : prefetchHit s a n with
  | true => rw [(memWrite_eq s a n v).1 hp] at h; cases h
  | false => rw [(memWrite_eq s a n v).2 hp] at h; cases h; exact ⟨rfl, rfl⟩

theorem memWrite_frame {s t : State} {a : Word} {n : Width} {v : Word} (h : memWrite s a n v = .next t) :
    WriteFrame s t := by
  obtain ⟨-, rfl⟩ := memWrite_next h
  exact (writeFrame_charge s a n).trans (writeFrame_writeValue _ a n v)

/-! ### What a write does to memory -/

theorem ioWritePart_mem (s : State) (o : Nat) (n : Width) (v : Word) : (ioWritePart s o n v).mem = s.mem := by
  unfold ioWritePart irqControlWrite
  split
  · rfl
  · repeat' split
    all_goals rfl
  · rfl
  · rfl
  · rfl

theorem ioWrite_mem (s : State) (o : Nat) (n : Width) (v : Word) : (ioWrite s o n v).mem = s.mem := by
  unfold ioWrite
  split
  · split
    · rfl
    · rw [ioWritePart_mem, ioWritePart_mem]
  · exact ioWritePart_mem s o n v

/-- A write of the I/O window keeps bits 13 and 15 of WAITCNT zero (R76). -/
theorem ioWritePart_waitcnt {s : State} (o : Nat) (n : Width) (v : Word) (h : s.waitcnt &&& 0xA000 = 0) :
    (ioWritePart s o n v).waitcnt &&& 0xA000 = 0 := by
  unfold ioWritePart irqControlWrite
  split
  · show halfUpdate s.waitcnt o n v &&& waitcntMask &&& 0xA000 = 0
    rw [BitVec.and_assoc, show (waitcntMask &&& 0xA000 : BitVec 16) = 0#16 by decide]
    exact BitVec.and_zero
  · repeat' split
    all_goals exact h
  · exact h
  · exact h
  · exact h

theorem ioWrite_waitcnt {s : State} (o : Nat) (n : Width) (v : Word) (h : s.waitcnt &&& 0xA000 = 0) :
    (ioWrite s o n v).waitcnt &&& 0xA000 = 0 := by
  unfold ioWrite
  split
  · split
    · exact h
    · exact ioWritePart_waitcnt _ _ _ (ioWritePart_waitcnt _ _ _ h)
  · exact ioWritePart_waitcnt _ _ _ h

/-- The store into memory a write makes, if it makes one: region, offset, width, value (R67, R77 to R80). -/
def storeOf (s : State) (a : Word) (n : Width) (v : Word) : Option (Nat × Width × Word) :=
  match region a with
  | .ewram => some (offset (align a n), n, v)
  | .iwram => some (offset (align a n), n, v)
  | .pram => if n = .byte then some (offset a / 2 * 2, .half, doubled v) else some (offset (align a n), n, v)
  | .vram =>
    if n = .byte then (if offset a < s.params.vramBoundary.value then some (offset a / 2 * 2, .half, doubled v) else none)
    else some (offset (align a n), n, v)
  | .oam => if n = .byte then none else some (offset (align a n), n, v)
  | .bios => none
  | .io => none
  | .rom0 => none
  | .rom1 => none
  | .rom2 => none
  | .sram => none
  | .unmapped => none

/-- The memory after a write. -/
theorem writeValue_mem (s : State) (a : Word) (n : Width) (v : Word) :
    (writeValue s a n v).mem = match storeOf s a n v with
      | some (o, m, w) => Mem.store s.mem ((region a).base + o) m w
      | none => s.mem := by
  unfold writeValue storeOf
  simp only [region_align]
  cases hr : region a <;> simp only []
  case pram =>
    by_cases hn : n = .byte
    · subst hn; rfl
    · simp only [if_neg hn]; rfl
  case vram =>
    by_cases hn : n = .byte
    · subst hn
      by_cases hv : offset a < s.params.vramBoundary.value
      · simp only [if_true, if_pos hv]; exact congrArg State.mem (if_pos hv)
      · simp only [if_true, if_neg hv]; exact congrArg State.mem (if_neg hv)
    · simp only [if_neg hn]; rfl
  case oam =>
    by_cases hn : n = .byte
    · simp only [if_pos hn]
    · simp only [if_neg hn]; rfl
  case io => exact ioWrite_mem s _ n v
  case rom0 => unfold romWrite; split <;> rfl
  case rom1 => unfold romWrite; split <;> rfl
  case rom2 => unfold romWrite; split <;> rfl
  all_goals rfl

/-- A byte or halfword or word access in a region that stores bytes lies inside it. -/
theorem storeOf_bounds {s : State} {a : Word} {n : Width} {v : Word} {o : Nat} {m : Width} {w : Word}
    (h : storeOf s a n v = some (o, m, w)) :
    (region a).stored = true ∧ (region a).isRom = false ∧ region a ≠ .bios ∧ o + m.bytes ≤ (region a).size := by
  have hle := offset_align_le a n
  have hhalf := offset_align_le a .half
  have hev : offset (align a .half) = offset a / 2 * 2 ∨ (region a ≠ .pram ∧ region a ≠ .vram) := by
    rw [offset_eq, offset_eq, region_align, align_toNat]
    cases region a <;> simp [Region.offsetOf, Width.bytes]
    · omega
    · unfold vramFold; split <;> split <;> omega
  unfold storeOf at h
  revert h hle hhalf hev
  cases region a <;> intro h hle hhalf hev <;> dsimp only at h
  case pram =>
    split at h <;> simp only [Option.some.injEq, Prod.mk.injEq] at h <;> obtain ⟨rfl, rfl, rfl⟩ := h
    · refine ⟨rfl, rfl, by decide, ?_⟩
      rcases hev with hev | hev
      · rw [← hev]; exact hhalf
      · simp at hev
    · exact ⟨rfl, rfl, by decide, hle⟩
  case vram =>
    split at h
    · split at h
      · simp only [Option.some.injEq, Prod.mk.injEq] at h
        obtain ⟨rfl, rfl, rfl⟩ := h
        refine ⟨rfl, rfl, by decide, ?_⟩
        rcases hev with hev | hev
        · rw [← hev]; exact hhalf
        · simp at hev
      · cases h
    · simp only [Option.some.injEq, Prod.mk.injEq] at h
      obtain ⟨rfl, rfl, rfl⟩ := h
      exact ⟨rfl, rfl, by decide, hle⟩
  case oam =>
    split at h
    · cases h
    · simp only [Option.some.injEq, Prod.mk.injEq] at h
      obtain ⟨rfl, rfl, rfl⟩ := h
      exact ⟨rfl, rfl, by decide, hle⟩
  case ewram =>
    simp only [Option.some.injEq, Prod.mk.injEq] at h
    obtain ⟨rfl, rfl, rfl⟩ := h
    exact ⟨rfl, rfl, by decide, hle⟩
  case iwram =>
    simp only [Option.some.injEq, Prod.mk.injEq] at h
    obtain ⟨rfl, rfl, rfl⟩ := h
    exact ⟨rfl, rfl, by decide, hle⟩
  all_goals cases h

/-- A write keeps memory in canonical form. -/
theorem writeValue_wf {s : State} (a : Word) (n : Width) (v : Word) (h : Mem.wf s.mem = true) :
    Mem.wf (writeValue s a n v).mem = true := by
  rw [writeValue_mem]
  cases hs : storeOf s a n v with
  | none => exact h
  | some p =>
    obtain ⟨o, m, w⟩ := p
    obtain ⟨h1, -, -, h4⟩ := storeOf_bounds hs
    apply Mem.wf_store h
    intro i hi
    rw [Nat.add_assoc]
    exact backed_of_stored h1 (by omega)

/-- A write changes the registers of the I/O window only when it is addressed there. -/
theorem writeValue_sameIo {s : State} {a : Word} (n : Width) (v : Word) (h : region a ≠ .io) :
    SameIo s (writeValue s a n v) := by
  unfold writeValue romWrite saveWrite
  simp only [region_align]
  revert h
  cases region a <;> intro h <;> simp only [] <;> (try split) <;> (try split) <;>
    first | exact ⟨rfl, rfl, rfl⟩ | exact absurd rfl h

theorem writeValue_waitcnt {s : State} (a : Word) (n : Width) (v : Word) (h : s.waitcnt &&& 0xA000 = 0) :
    (writeValue s a n v).waitcnt &&& 0xA000 = 0 := by
  by_cases hr : region a = .io
  · unfold writeValue
    simp only [region_align, hr]
    exact ioWrite_waitcnt _ n v h
  · rw [(writeValue_sameIo n v hr).1]
    exact h

/-- The physical address of a stored byte determines its location, the three views of the ROM apart. -/
theorem storedByte_writeValue_ne (s : State) (a : Word) (n : Width) (v : Word) (b : Word)
    (hb : (region b).stored = true)
    (hne : ∀ o m w, storeOf s a n v = some (o, m, w) →
      ¬(region b = region a ∧ o ≤ offset b ∧ offset b < o + m.bytes)) :
    (writeValue s a n v).peek b = s.peek b := by
  have hp : (writeValue s a n v).params = s.params := (writeFrame_writeValue s a n v).params
  unfold State.peek
  rw [if_pos hb, if_pos hb]
  congr 1
  unfold storedByte
  rw [hp, writeValue_mem]
  cases hs : storeOf s a n v with
  | none => rfl
  | some p =>
    obtain ⟨o, m, w⟩ := p
    obtain ⟨h1, h2, -, h4⟩ := storeOf_bounds hs
    have h5 := hne o m w hs
    suffices hg : Mem.get (Mem.store s.mem ((region a).base + o) m w) ((region b).base + offset b) =
        Mem.get s.mem ((region b).base + offset b) by simp only [hg]
    rw [Mem.get_store, if_neg]
    rintro ⟨h6, h7⟩
    have hlt := offset_lt b
    obtain ⟨h8, h9⟩ := base_disjoint (o := offset b) (o' := o + ((region b).base + offset b - ((region a).base + o)))
      hb h1 hlt (by omega) (by omega)
    rcases h8 with h8 | ⟨-, h8⟩
    · exact h5 ⟨h8, by omega, by rw [h8] at h7; omega⟩
    · rw [h2] at h8; cases h8

/-- Outside the bytes a write can change, memory reads as before. -/
theorem peek_writeValue_outside (s : State) (a : Word) (n : Width) (v : Word) (b : Word) (h : OutsideStore a n b) :
    (writeValue s a n v).peek b = s.peek b := by
  cases hb : (region b).stored with
  | false => simp [State.peek, hb]
  | true =>
    apply storedByte_writeValue_ne s a n v b hb
    rintro o m w hs ⟨hr, h1, h2⟩
    have hev : offset (align a .half) = offset a / 2 * 2 ∨ (region a ≠ .pram ∧ region a ≠ .vram) := by
      rw [offset_eq, offset_eq, region_align, align_toNat]
      cases region a <;> simp [Region.offsetOf, Width.bytes]
      · omega
      · unfold vramFold; split <;> split <;> omega
    have key : ∃ m' : Width, storeSpan a n = (align a m', m'.bytes) ∧ o = offset (align a m') ∧ m.bytes = m'.bytes := by
      unfold storeOf at hs
      unfold storeSpan
      revert hs hev
      cases hra : region a <;> intro hs hev <;> dsimp only at hs
      case pram =>
        by_cases hn : n = .byte
        · simp only [if_pos hn, Option.some.injEq, Prod.mk.injEq] at hs
          obtain ⟨rfl, rfl, rfl⟩ := hs
          refine ⟨.half, by simp [hn, Width.bytes], ?_, rfl⟩
          rcases hev with hev | hev
          · exact hev.symm
          · simp at hev
        · simp only [if_neg hn, Option.some.injEq, Prod.mk.injEq] at hs
          obtain ⟨rfl, rfl, rfl⟩ := hs
          exact ⟨n, by simp [hn], rfl, rfl⟩
      case vram =>
        by_cases hn : n = .byte
        · simp only [if_pos hn] at hs
          split at hs
          · simp only [Option.some.injEq, Prod.mk.injEq] at hs
            obtain ⟨rfl, rfl, rfl⟩ := hs
            refine ⟨.half, by simp [hn, Width.bytes], ?_, rfl⟩
            rcases hev with hev | hev
            · exact hev.symm
            · simp at hev
          · cases hs
        · simp only [if_neg hn, Option.some.injEq, Prod.mk.injEq] at hs
          obtain ⟨rfl, rfl, rfl⟩ := hs
          exact ⟨n, by simp [hn], rfl, rfl⟩
      case oam =>
        split at hs
        · cases hs
        · simp only [Option.some.injEq, Prod.mk.injEq] at hs
          obtain ⟨rfl, rfl, rfl⟩ := hs
          exact ⟨n, by simp, rfl, rfl⟩
      case ewram =>
        simp only [Option.some.injEq, Prod.mk.injEq] at hs
        obtain ⟨rfl, rfl, rfl⟩ := hs
        exact ⟨n, by simp, rfl, rfl⟩
      case iwram =>
        simp only [Option.some.injEq, Prod.mk.injEq] at hs
        obtain ⟨rfl, rfl, rfl⟩ := hs
        exact ⟨n, by simp, rfl, rfl⟩
      all_goals cases hs
    obtain ⟨m', hsp, ho, hm⟩ := key
    have hk : offset b - o < m'.bytes := by omega
    have hout := h (offset b - o) (by rw [hsp]; exact hk)
    rw [hsp] at hout
    apply hout
    unfold location
    rw [region_align_add a m' _ hk, offset_align_add a m' _ hk, ← ho, hr]
    congr 1
    omega

/-- A store that stores all its bytes leaves them at the aligned address. -/
theorem bytesAt_writeValue (s : State) (a : Word) (n : Width) (v : Word) (h : StoresWhole a n) :
    BytesAt (writeValue s a n v) a n v := by
  intro k hk
  have hs : storeOf s a n v = some (offset (align a n), n, v) := by
    unfold storeOf
    rcases h with h | h | ⟨hn, h | h | h⟩ <;> simp only [h] <;> simp [hn]
  obtain ⟨h1, h2, -, h4⟩ := storeOf_bounds hs
  rw [peek_align_add _ a n k hk h1]
  congr 1
  unfold storedByte
  rw [writeValue_mem, hs, h2]
  simp only [Bool.false_and, Bool.false_eq_true, if_false]
  rw [Mem.get_store, if_pos (by omega)]
  simp only [Option.getD_some]
  congr 2
  omega

theorem prefetchHit_congr {s t : State} (hpc : t.pc = s.pc) (hc : t.cpsr = s.cpsr) (a : Word) (n : Width) :
    prefetchHit t a n = prefetchHit s a n := by
  simp only [prefetchHit, State.w, hpc, hc]

end Sys2Proof.Machine
end

