-- ==== Sys2Proof/Laws/Registers.lean ====
section
/-! SUPPORT. Register names, physical registers, and what writing one leaves of the others (R20 to R23). -/

namespace Sys2Proof.Machine

/-! ### Names and places -/

/-- The number a physical register has in the modes that see it. -/
def PhysReg.number : PhysReg → RegNo
  | .low n => BitVec.ofNat 4 n.val
  | .mid n => BitVec.ofNat 4 (8 + n.val)
  | .midFiq n => BitVec.ofNat 4 (8 + n.val)
  | .sp _ => 13
  | .lr _ => 14

/-- Every register number is one of sixteen. -/
theorem regNo_cases (P : RegNo → Prop) (h : ∀ k : Fin 16, P (BitVec.ofNat 4 k.val)) (n : RegNo) : P n := by
  have := h ⟨n.toNat, n.isLt⟩
  simpa using this

theorem phys_number {m : Mode} {n : RegNo} {p : PhysReg} (h : phys m n = some p) : p.number = n := by
  revert h
  revert n
  apply regNo_cases
  intro k
  fin_cases k <;> cases m <;> simp only [phys] <;> rintro ⟨⟩ <;> rfl

/-- A mode gives two different numbers two different registers. -/
theorem phys_inj {m : Mode} {a b : RegNo} {p : PhysReg} (ha : phys m a = some p) (hb : phys m b = some p) : a = b := by
  rw [← phys_number ha, ← phys_number hb]

@[simp] theorem phys_15 (m : Mode) : phys m 15 = none := rfl

/-- Every number but 15 names a physical register. -/
theorem phys_of_ne {m : Mode} {n : RegNo} (h : n ≠ 15) : ∃ p, phys m n = some p := by
  revert h
  revert n
  apply regNo_cases
  intro k
  fin_cases k <;> simp [phys]

theorem phys_ne {m : Mode} {n : RegNo} {p : PhysReg} (h : phys m n = some p) : n ≠ 15 := by
  rintro rfl
  rw [phys_15] at h
  cases h

/-- R14 of a mode. -/
theorem phys_14 (m : Mode) : phys m 14 = some (.lr m.bank) := rfl

theorem low_ne_15 (r : LowReg) : low r ≠ 15 := by
  intro h
  have := congrArg BitVec.toNat h
  have hr := r.isLt
  simp [low] at this
  omega

theorem low_inj {a b : LowReg} (h : low a = low b) : a = b := by
  have := congrArg BitVec.toNat h
  have ha := a.isLt
  have hb := b.isLt
  simp [low] at this
  apply BitVec.eq_of_toNat_eq
  omega

/-! ### The register file -/

theorem Bank.index_inj {a b : Bank} (h : a.index = b.index) : a = b := by
  cases a <;> cases b <;> first | rfl | (exact absurd h (by decide))

theorem Banked.get_set_self {α : Type} (r : Banked α) (p : PhysReg) (v : α) : (r.set p v).get p = v := by
  cases p <;> simp [Banked.get, Banked.set]

theorem Banked.get_set_ne {α : Type} (r : Banked α) {p q : PhysReg} (v : α) (h : p ≠ q) :
    (r.set p v).get q = r.get q := by
  cases p <;> cases q <;> simp only [Banked.get, Banked.set]
  case low.low a b => exact Vector.getElem_set_ne _ _ (fun e => h (by rw [Fin.ext e]))
  case mid.mid a b => exact Vector.getElem_set_ne _ _ (fun e => h (by rw [Fin.ext e]))
  case midFiq.midFiq a b => exact Vector.getElem_set_ne _ _ (fun e => h (by rw [Fin.ext e]))
  case sp.sp a b => exact Vector.getElem_set_ne _ _ (fun e => h (by rw [Bank.index_inj (Fin.ext e)]))
  case lr.lr a b => exact Vector.getElem_set_ne _ _ (fun e => h (by rw [Bank.index_inj (Fin.ext e)]))

/-! ### Reading a name -/

theorem regOf_phys {s : State} {m : Mode} {n : RegNo} {p : PhysReg} (h : phys m n = some p) :
    s.regOf m n = s.regs.get p := by simp [State.regOf, h]

theorem regWritten_phys {s : State} {m : Mode} {n : RegNo} {p : PhysReg} (h : phys m n = some p) :
    s.regWritten m n = s.written.get p := by simp [State.regWritten, h]

theorem regOf_congr {s t : State} (hr : t.regs = s.regs) {m : Mode} {n : RegNo} (hn : n ≠ 15) :
    t.regOf m n = s.regOf m n := by
  obtain ⟨p, hp⟩ := phys_of_ne (m := m) hn
  rw [regOf_phys hp, regOf_phys hp, hr]

theorem reg_congr {s t : State} (hr : t.regs = s.regs) (hm : t.cpsr.mode = s.cpsr.mode) {n : RegNo} (hn : n ≠ 15) :
    t.reg n = s.reg n := by
  unfold State.reg
  rw [hm]
  exact regOf_congr hr hn

theorem reg_15 (s : State) : s.reg 15 = s.pcRead := rfl

/-! ### Writing a name -/

theorem setRegOf_regs {s : State} {m : Mode} {n : RegNo} {p : PhysReg} (v : Word) (h : phys m n = some p) :
    (s.setRegOf m n v).regs = s.regs.set p v := by simp [State.setRegOf, h]

theorem setRegOf_written {s : State} {m : Mode} {n : RegNo} {p : PhysReg} (v : Word) (h : phys m n = some p) :
    (s.setRegOf m n v).written = s.written.set p true := by simp [State.setRegOf, h]

/-- Writing a name marks it written (R14). -/
theorem regWritten_setRegOf (s : State) (m : Mode) (n : RegNo) (v : Word) : (s.setRegOf m n v).regWritten m n = true := by
  cases hp : phys m n with
  | some p => rw [regWritten_phys hp, setRegOf_written v hp, Banked.get_set_self]
  | none => simp [State.regWritten, hp]

/-- Writing a name takes no written mark away (R14, R701). -/
theorem written_setRegOf_mono (s : State) (m : Mode) (n : RegNo) (v : Word) {q : PhysReg} (h : s.written.get q = true) :
    (s.setRegOf m n v).written.get q = true := by
  unfold State.setRegOf
  split
  · rename_i p hp
    by_cases e : p = q
    · exact e ▸ Banked.get_set_self _ _ _
    · exact (Banked.get_set_ne _ _ e).trans h
  · exact h

theorem regOf_setRegOf_self {s : State} {m : Mode} {n : RegNo} (v : Word) (hn : n ≠ 15) :
    (s.setRegOf m n v).regOf m n = v := by
  obtain ⟨p, hp⟩ := phys_of_ne (m := m) hn
  rw [regOf_phys hp, setRegOf_regs v hp, Banked.get_set_self]

theorem regOf_setRegOf_ne {s : State} {m : Mode} {n k : RegNo} (v : Word) (hk : k ≠ 15) (h : n ≠ k) :
    (s.setRegOf m n v).regOf m k = s.regOf m k := by
  by_cases hn : n = 15
  · subst hn; rfl
  · obtain ⟨p, hp⟩ := phys_of_ne (m := m) hn
    obtain ⟨q, hq⟩ := phys_of_ne (m := m) hk
    rw [regOf_phys hq, regOf_phys hq, setRegOf_regs v hp]
    apply Banked.get_set_ne
    rintro rfl
    exact h (phys_inj hp hq)

/-- Writing a name leaves every physical register but the one it names. -/
theorem otherRegs_setRegOf (s : State) (m : Mode) (n : RegNo) (v : Word) :
    OtherRegs (physRegs m [n]) s (s.setRegOf m n v) := by
  intro q hq
  unfold State.setRegOf
  split
  · rename_i p hp
    have hne : p ≠ q := by
      rintro rfl
      exact hq (by simp [physRegs, hp])
    exact ⟨Banked.get_set_ne _ _ hne, Banked.get_set_ne _ _ hne⟩
  · exact ⟨rfl, rfl⟩

theorem reg_setReg_self {s : State} {n : RegNo} (v : Word) (hn : n ≠ 15) : (s.setReg n v).reg n = v := by
  show (s.setReg n v).regOf (s.setReg n v).cpsr.mode n = v
  rw [setReg_cpsr]
  exact regOf_setRegOf_self v hn

theorem reg_setReg_ne {s : State} {n k : RegNo} (v : Word) (hk : k ≠ 15) (h : n ≠ k) :
    (s.setReg n v).reg k = s.reg k := by
  show (s.setReg n v).regOf (s.setReg n v).cpsr.mode k = s.reg k
  rw [setReg_cpsr]
  exact regOf_setRegOf_ne v hk h

theorem otherRegs_setReg (s : State) (n : RegNo) (v : Word) :
    OtherRegs (physRegs s.cpsr.mode [n]) s (s.setReg n v) := otherRegs_setRegOf s s.cpsr.mode n v

/-! ### Frames of registers -/

theorem OtherRegs.of_regs {l : List PhysReg} {s t : State} (h : t.regs = s.regs) (hw : t.written = s.written) :
    OtherRegs l s t := fun p _ => by rw [h, hw]; exact ⟨rfl, rfl⟩

theorem OtherRegs.trans {l m k : List PhysReg} {s t u : State} (h : OtherRegs l s t) (h' : OtherRegs m t u)
    (hl : ∀ p, p ∈ l → p ∈ k) (hm : ∀ p, p ∈ m → p ∈ k) : OtherRegs k s u :=
  fun p hp =>
    have a := h p fun x => hp (hl p x)
    have b := h' p fun x => hp (hm p x)
    ⟨b.1.trans a.1, b.2.trans a.2⟩

theorem OtherRegs.mono {l k : List PhysReg} {s t : State} (h : OtherRegs l s t) (hl : ∀ p, p ∈ l → p ∈ k) :
    OtherRegs k s t := fun p hp => h p fun x => hp (hl p x)

theorem OtherRegs.congr {l : List PhysReg} {s t u : State} (h : OtherRegs l s t) (hr : u.regs = t.regs)
    (hw : u.written = t.written) : OtherRegs l s u := fun p hp => by rw [hr, hw]; exact h p hp

/-- Registers are written after one of their names was, if the others were before (R14). -/
theorem AllWritten.setRegOf {l : List RegNo} {s : State} {m : Mode} {n : RegNo} (v : Word)
    (h : ∀ k, k ∈ l → k ≠ n → ∀ p, phys m k = some p → s.written.get p = true) :
    AllWritten (physRegs m l) (s.setRegOf m n v) := by
  intro p hp
  simp only [physRegs, List.mem_filterMap] at hp
  obtain ⟨k, hk, e⟩ := hp
  by_cases hkn : k = n
  · rw [← regWritten_phys e, hkn]
    exact regWritten_setRegOf s m n v
  · exact written_setRegOf_mono s m n v (h k hk hkn p e)

theorem AllWritten.setReg (s : State) (n : RegNo) (v : Word) : AllWritten (physRegs s.cpsr.mode [n]) (s.setReg n v) :=
  AllWritten.setRegOf v fun _ hk hne => absurd (List.mem_singleton.mp hk) hne

/-- Writing a name adds it to the names that are written. -/
theorem AllWritten.cons {l : List RegNo} {s : State} (n : RegNo) (v : Word) (h : AllWritten (physRegs s.cpsr.mode l) s) :
    AllWritten (physRegs s.cpsr.mode (n :: l)) (s.setReg n v) := by
  refine AllWritten.setRegOf v fun k hk hne p hp => h p ?_
  exact List.mem_filterMap.mpr ⟨k, (List.mem_cons.mp hk).resolve_left hne, hp⟩

theorem AllWritten.writeBack (s : State) (n : RegNo) (a : Addressing) :
    AllWritten (physRegs s.cpsr.mode (if a.writeback then [n] else [])) (writeBack s n a) := by
  unfold Machine.writeBack
  split
  · exact AllWritten.setReg s n a.newBase
  · exact fun _ h => absurd h List.not_mem_nil

theorem AllWritten.baseUpdate (s : State) (w : Bool) (n : RegNo) (v : Word) :
    AllWritten (physRegs s.cpsr.mode (if w then [n] else [])) (baseUpdate s w n v) := by
  unfold Machine.baseUpdate
  split
  · exact AllWritten.setReg s n v
  · exact fun _ h => absurd h List.not_mem_nil

theorem AllWritten.nil (s : State) : AllWritten [] s := fun _ h => absurd h List.not_mem_nil

theorem AllWritten.congr {l : List PhysReg} {s t : State} (h : AllWritten l s) (hw : t.written = s.written) :
    AllWritten l t := fun p hp => hw ▸ h p hp

theorem physRegs_mono {m : Mode} {l k : List RegNo} (h : ∀ n, n ∈ l → n ∈ k) :
    ∀ p, p ∈ physRegs m l → p ∈ physRegs m k := by
  intro p hp
  simp only [physRegs, List.mem_filterMap] at *
  obtain ⟨n, hn, e⟩ := hp
  exact ⟨n, h n hn, e⟩

end Sys2Proof.Machine
end

