-- ==== Sys2Proof/Laws/Control.lean ====
section
/-! SUPPORT. Branches, status registers, exception entry and return: one lemma each that says what the operation does. -/

namespace Sys2Proof.Machine

/-! ### Branches -/

theorem refill_cycles_le (s : State) (t : Word) : s.cycles + 2 ≤ (refill s t).cycles := by
  unfold refill
  have h1 := charge_cycles_lt s t s.fetchWidth
  have h2 := charge_cycles_lt (charge s t s.fetchWidth) (t + s.w) s.fetchWidth
  omega

theorem jump_cycles_le (s : State) (t : Word) : s.cycles + 2 ≤ (jump s t).cycles := refill_cycles_le s t

/-- Everything BranchTo can answer (R26). -/
theorem branchTo_cases (s : State) (t : Word) :
    (pcFits s.cpsr.t t = true ∧ branchTo s t = .next (jump s t)) ∨
      (pcFits s.cpsr.t t = false ∧ branchTo s t = .fault .misalignedBranchTarget) := by
  unfold branchTo
  cases pcFits s.cpsr.t t <;> simp

theorem branchTo_next {s u : State} {t : Word} (h : branchTo s t = .next u) :
    pcFits s.cpsr.t t = true ∧ u = jump s t := by
  rcases branchTo_cases s t with ⟨h1, h2⟩ | ⟨h1, h2⟩
  · rw [h2] at h; cases h; exact ⟨h1, rfl⟩
  · rw [h2] at h; cases h

/-- What a branch leaves: everything but PC, the clock and the last-access record. -/
theorem branchEffect_jump {s s' : State} {t : Word} {p : Cpsr} {l : List PhysReg} (hp : s'.cpsr = p)
    (hc : s.cycles ≤ s'.cycles) (hw : AllWritten l s') (hr : OtherRegs l s s') (hctl : SameControl s s') (hio : SameIo s s')
    (hx : NoExchange s s') (hm : SameMemory s s') : BranchEffect s t p l (jump s' t) := by
  refine ⟨rfl, hp, ?_, hw, hr.congr rfl rfl, hctl, hio, hx, fun a => ?_⟩
  · have := jump_cycles_le s' t
    omega
  · rw [← hm a]
    exact peek_congr rfl rfl a

/-! ### Modes and status registers -/

theorem Mode.ofBits?_bits (m : Mode) : Mode.ofBits? m.bits = some m := by cases m <;> rfl

theorem Mode.bits_of_ofBits? {b : BitVec 5} {m : Mode} (h : Mode.ofBits? b = some m) : m.bits = b := by
  unfold Mode.ofBits? at h
  apply BitVec.eq_of_toNat_eq
  split at h <;> first | (cases h; simp_all [Mode.bits]) | cases h

theorem Mode.ofBits?_eq_some {b : BitVec 5} {m : Mode} : Mode.ofBits? b = some m ↔ m.bits = b :=
  ⟨Mode.bits_of_ofBits?, fun h => h ▸ Mode.ofBits?_bits m⟩

theorem Mode.ofBits?_eq_none {b : BitVec 5} : Mode.ofBits? b = none ↔ ∀ m : Mode, m.bits ≠ b := by
  constructor
  · intro h m hm
    rw [← hm, Mode.ofBits?_bits] at h
    cases h
  · intro h
    cases hb : Mode.ofBits? b with
    | none => rfl
    | some m => exact absurd (Mode.bits_of_ofBits? hb) (h m)

/-- A saved CPSR restores to itself (R603, R36). -/
theorem Cpsr.restored_saved (p : Cpsr) : p.saved.restored? = some p := by
  simp [Psr.restored?, Cpsr.saved, Mode.ofBits?_bits]

theorem Spsrs.get_set_self {m : Mode} (p : Spsrs) (v : Psr) (h : m ≠ .usr ∧ m ≠ .sys) : (p.set m v).get m = some v := by
  cases m <;> simp_all [Spsrs.get, Spsrs.set]

theorem Spsrs.get_set_ne {m k : Mode} (p : Spsrs) (v : Psr) (h : k ≠ m) : (p.set m v).get k = p.get k := by
  cases m <;> cases k <;> simp_all [Spsrs.get, Spsrs.set]

theorem hasSpsr_iff (p : Spsrs) (m : Mode) : m.hasSpsr = false ↔ p.get m = none := by
  cases m <;> simp [Mode.hasSpsr, Spsrs.get]

/-- Everything CPSR <- SPSR can answer (R36). -/
theorem restoreCpsr_cases (s : State) :
    (s.spsr.get s.cpsr.mode = none ∧ restoreCpsr s = .error .noSpsr) ∨
      (∃ p, s.spsr.get s.cpsr.mode = some p ∧ p.restored? = none ∧ restoreCpsr s = .error .invalidMode) ∨
      ∃ p q, s.spsr.get s.cpsr.mode = some p ∧ p.restored? = some q ∧ restoreCpsr s = .ok (s.setCpsr q) := by
  unfold restoreCpsr
  cases h : s.spsr.get s.cpsr.mode with
  | none => exact .inl ⟨rfl, rfl⟩
  | some p =>
    cases h2 : p.restored? with
    | none => exact .inr (.inl ⟨p, rfl, h2, by simp [h2]⟩)
    | some q => exact .inr (.inr ⟨p, q, rfl, h2, by simp [h2]⟩)

theorem restoreCpsr_ok {s t : State} (h : restoreCpsr s = .ok t) :
    ∃ p q, s.spsr.get s.cpsr.mode = some p ∧ p.restored? = some q ∧ t = s.setCpsr q := by
  rcases restoreCpsr_cases s with ⟨-, h2⟩ | ⟨p, -, -, h2⟩ | ⟨p, q, h1, h3, h2⟩
  · rw [h2] at h; cases h
  · rw [h2] at h; cases h
  · rw [h2] at h; cases h; exact ⟨p, q, h1, h3, rfl⟩

/-- Everything a masked write of the CPSR can do (R35): in User mode, or without mask bit 0, only the flags. -/
theorem writeCpsr_ok {s t : State} {v : Word} {mask : BitVec 4} (h : writeCpsr s v mask = .ok t) :
    ∃ q, t = s.setCpsr q ∧ q.t = s.cpsr.t ∧
      (s.cpsr.mode = .usr → q.mode = .usr ∧ q.i = s.cpsr.i ∧ q.f = s.cpsr.f) := by
  unfold writeCpsr at h
  simp only [] at h
  split at h
  · rename_i hm
    simp only [Bool.and_eq_true] at hm
    split at h
    · cases h
    · split at h
      · cases h
        refine ⟨_, rfl, ?_, ?_⟩
        · split <;> rfl
        · intro hu
          rw [hu] at hm
          exact absurd hm.2 (by decide)
      · cases h
  · cases h
    refine ⟨_, rfl, ?_, ?_⟩
    · split <;> rfl
    · intro hu
      split <;> exact ⟨hu, rfl, rfl⟩

theorem writeSpsr_ok {s t : State} {v : Word} {mask : BitVec 4} (h : writeSpsr s v mask = .ok t) :
    s.cpsr.mode ≠ .usr ∧ ∃ p, t = { s with spsr := s.spsr.set s.cpsr.mode p } := by
  unfold writeSpsr at h
  split at h
  · cases h
  · rename_i p hp
    cases h
    refine ⟨?_, _, rfl⟩
    intro hu
    rw [hu] at hp
    cases hp

/-! ### The user-bank mark -/

theorem userBankHazard_eq_true {s : State} : s.userBankHazard = true ↔ s.hazardMark = some s.cycles := by
  simp [State.userBankHazard]

/-- An instruction that executed leaves the bit up exactly where it is a user-bank transfer (R46). -/
theorem finishStep_userBankHazard (b : Bool) (s : State) : (finishStep b true s).userBankHazard = b := by
  cases b <;> simp [State.userBankHazard]

/-- A mark that a step leaves as it was no longer counts at the end of it (R46). -/
theorem userBankHazard_eq_false {s t : State} (hs : s.MarkReached) (hm : t.hazardMark = s.hazardMark)
    (hc : s.cycles < t.cycles) : t.userBankHazard = false := by
  rw [Bool.eq_false_iff, Ne, userBankHazard_eq_true, hm]
  intro h
  have := hs _ h
  omega

/-! ### Exceptions -/

/-- Everything exception entry does (R603), for every kind but Reset. -/
theorem entered_takeException (s : State) {k : ExcKind} (hk : k ≠ .reset) : Entered s k (takeException s k) := by
  have hm : k.mode ≠ .usr ∧ k.mode ≠ .sys := by cases k <;> decide
  have hb : phys k.mode 14 = some (.lr k.mode.bank) := phys_14 k.mode
  have hc := jump_cycles_le ({ (s.setCpsr { s.cpsr with
    mode := k.mode, t := false, i := true, f := s.cpsr.f || k.masksF }).setRegOf k.mode 14
      (k.returnAddress s.pc s.cpsr.t) with spsr := s.spsr.set k.mode s.cpsr.saved }) k.vector
  unfold takeException
  simp only [if_neg hk, setCpsr_spsr]
  refine ⟨Spsrs.get_set_self _ _ hm, fun m h => Spsrs.get_set_ne _ _ h, ?_, ?_, ?_, ?_, rfl, ?_, ?_, ?_, ?_, ?_, ?_, ?_, ?_⟩
  · rw [regOf_phys hb]
    show (State.setRegOf _ _ _ _).regs.get _ = _
    rw [setRegOf_regs _ hb, Banked.get_set_self]
  · intro n hn
    rw [List.mem_singleton.mp hn]
    rw [regWritten_phys hb]
    show (State.setRegOf _ _ _ _).written.get _ = _
    rw [setRegOf_written _ hb, Banked.get_set_self]
  · intro p hp
    have hne : PhysReg.lr k.mode.bank ≠ p := fun e => hp (by simp [e])
    show (State.setRegOf _ _ _ _).regs.get p = _ ∧ (State.setRegOf _ _ _ _).written.get p = _
    rw [setRegOf_regs _ hb, setRegOf_written _ hb]
    exact ⟨Banked.get_set_ne _ _ hne, Banked.get_set_ne _ _ hne⟩
  · simp
  · simpa using hc
  all_goals first | (simp [SameIo, NoExchange]; done) | (intro a; exact peek_congr (by simp) (by simp) a)

/-- Exception entry costs the refill at the vector: two accesses of the BIOS, one cycle each (R601, R712, R716). -/
theorem takeException_cycles (s : State) (k : ExcKind) : (takeException s k).cycles = s.cycles + 2 := by
  have bios : ∀ (t : State) (a : Word), region (align a .word) = .bios → (charge t a .word).cycles = t.cycles + 1 := by
    intro t a h
    simp [charge, h, accessCost, Region.narrow, halfCost]
  have hj : ∀ t : State, t.cpsr.t = false → (jump t k.vector).cycles = t.cycles + 2 := by
    intro t ht
    have hw : t.fetchWidth = .word ∧ t.w = 4 := by simp [State.fetchWidth, State.w, ht]
    show (charge (charge t k.vector t.fetchWidth) (k.vector + t.w) t.fetchWidth).cycles = _
    rw [hw.1, hw.2, bios _ _ (by cases k <;> decide), bios _ _ (by cases k <;> decide)]
  unfold takeException
  split <;> exact (hj _ (by simp)).trans (by simp)

end Sys2Proof.Machine
end

