-- ==== Sys2Proof/Laws/Block.lean ====
section
/-! SUPPORT. Block transfers (R284 to R289, R457): register lists, the words read and written, the registers loaded. -/

namespace Sys2Proof.Machine

/-! ### Register lists -/

theorem mem_regList {list : BitVec 16} {n : RegNo} : n ∈ regList list ↔ list.getLsbD n.toNat = true := by
  simp only [regList, List.mem_map, List.mem_filter, List.mem_range]
  constructor
  · rintro ⟨k, ⟨hk, hb⟩, rfl⟩
    simpa [Nat.mod_eq_of_lt hk] using hb
  · intro h
    exact ⟨n.toNat, ⟨n.isLt, h⟩, by simp⟩

theorem regList_pairwise (list : BitVec 16) : (regList list).Pairwise fun j k => j.toNat < k.toNat := by
  unfold regList
  rw [List.pairwise_map]
  have h : ((List.range 16).filter fun k => list.getLsbD k).Pairwise fun a b => a < 16 ∧ b < 16 ∧ a < b := by
    apply List.Pairwise.filter
    decide
  refine h.imp ?_
  rintro a b ⟨ha, hb, hab⟩
  simpa [Nat.mod_eq_of_lt ha, Nat.mod_eq_of_lt hb] using hab

theorem regList_nodup (list : BitVec 16) : (regList list).Nodup :=
  (regList_pairwise list).imp fun h e => by rw [e] at h; exact Nat.lt_irrefl _ h

theorem regList_eq_nil {list : BitVec 16} : regList list = [] ↔ list = 0 := by
  constructor
  · intro h
    apply BitVec.eq_of_getLsbD_eq
    intro i hi
    have hm : (BitVec.ofNat 4 i) ∉ regList list := by rw [h]; simp
    rw [mem_regList] at hm
    simpa [Nat.mod_eq_of_lt hi] using hm
  · rintro rfl
    rfl

/-- Everything `listOrEmpty` can answer (R284, R457). -/
theorem listOrEmpty_cases (s : State) (regs : List RegNo) :
    (regs ≠ [] ∧ listOrEmpty s regs = .ok (regs, regs.length)) ∨
      (regs = [] ∧ s.params.emptyList = .stop ∧ listOrEmpty s regs = .error .emptyRegisterList) ∨
      (regs = [] ∧ s.params.emptyList = .arm7tdmi ∧ listOrEmpty s regs = .ok ([15], 16)) := by
  unfold listOrEmpty
  by_cases h : regs = []
  · cases hp : s.params.emptyList <;> simp [h]
  · simp [h]

/-- Everything an ARM block transfer's frame is (R284). -/
theorem blockFrame_ok {s : State} {p up : Bool} {rn : RegNo} {list : BitVec 16} {fr : BlockFrame}
    (h : blockFrame s p up rn list = .ok fr) :
    rn ≠ 15 ∧ ∃ count, listOrEmpty s (regList list) = .ok (fr.regs, count) ∧
      fr.start = blockStart p up (s.reg rn) count ∧ fr.newBase = blockBase up (s.reg rn) count := by
  unfold blockFrame at h
  split at h
  · cases h
  · rename_i hn
    split at h
    · cases h
    · rename_i regs count hl
      cases h
      exact ⟨hn, count, hl, rfl, rfl⟩

/-! ### Words read -/

theorem readBlock_busOnly (regs : List RegNo) (s : State) (a : Word) : BusOnly s (readBlock s a regs).2 := by
  induction regs generalizing s a with
  | nil => exact BusOnly.refl s
  | cons k rest ih => exact (memRead_busOnly s a .word).trans (ih _ _)

theorem readBlock_fst (regs : List RegNo) (s : State) (a : Word) : (readBlock s a regs).1.map Prod.fst = regs := by
  induction regs generalizing s a with
  | nil => rfl
  | cons k rest ih =>
    show k :: (readBlock (memRead s a .word).2 (a + 4) rest).1.map Prod.fst = k :: rest
    rw [ih]

theorem readBlock_cycles_le (regs : List RegNo) (s : State) (a : Word) :
    s.cycles + regs.length ≤ (readBlock s a regs).2.cycles := by
  induction regs generalizing s a with
  | nil => exact Nat.le_refl _
  | cons k rest ih =>
    have h1 := memRead_cycles_lt s a .word
    have h2 := ih (memRead s a .word).2 (a + 4)
    show s.cycles + (rest.length + 1) ≤ (readBlock (memRead s a .word).2 (a + 4) rest).2.cycles
    omega

/-! ### Words written -/

/-- Everything a block store that completes leaves. -/
theorem writeBlock_frame {vals : List (RegNo × Word)} {s t : State} {a : Word} (h : writeBlock s a vals = .next t) :
    WriteFrame s t := by
  induction vals generalizing s a with
  | nil => cases h; exact WriteFrame.refl _
  | cons kv rest ih =>
    obtain ⟨u, hu, hr⟩ := andThen_eq_next h
    exact (memWrite_frame hu).trans (ih hr)

/-- The values of a block store draw free values and change nothing else. -/
theorem storeValues_busOnly (regs : List RegNo) (s : State) (base : Option RegNo) (pc : Word) (first : Bool) :
    BusOnly s (storeValues s base pc first regs).2 ∧ (storeValues s base pc first regs).2.cycles = s.cycles ∧
      (storeValues s base pc first regs).1.map Prod.fst = regs := by
  induction regs generalizing s first with
  | nil => exact ⟨BusOnly.refl s, rfl, rfl⟩
  | cons k rest ih =>
    unfold storeValues
    simp only []
    split
    · exact ⟨(ih s false).1, (ih s false).2.1, by simp [(ih s false).2.2]⟩
    · split
      · refine ⟨(busOnly_draw s).trans (ih _ false).1, (ih _ false).2.1, by simp [(ih _ false).2.2]⟩
      · exact ⟨(ih s false).1, (ih s false).2.1, by simp [(ih s false).2.2]⟩

/-! ### Registers loaded -/

/-- Loading registers changes the register file and its written marks alone. -/
theorem loadRegs_eq (vals : List (RegNo × Word)) (s : State) (m : Mode) :
    loadRegs s m vals = { s with regs := (loadRegs s m vals).regs, written := (loadRegs s m vals).written } := by
  induction vals generalizing s with
  | nil => rfl
  | cons kv rest ih =>
    show loadRegs (s.setRegOf m kv.1 kv.2) m rest = { s with
      regs := (loadRegs (s.setRegOf m kv.1 kv.2) m rest).regs
      written := (loadRegs (s.setRegOf m kv.1 kv.2) m rest).written }
    rw [ih (s.setRegOf m kv.1 kv.2)]
    unfold State.setRegOf
    split <;> rfl

theorem loadRegs_otherRegs (vals : List (RegNo × Word)) (s : State) (m : Mode) :
    OtherRegs (physRegs m (vals.map Prod.fst)) s (loadRegs s m vals) := by
  induction vals generalizing s with
  | nil => exact fun _ _ => ⟨rfl, rfl⟩
  | cons kv rest ih =>
    exact (otherRegs_setRegOf s m kv.1 kv.2).trans (ih (s.setRegOf m kv.1 kv.2))
      (physRegs_mono (by simp)) (physRegs_mono (by simp +contextual))

/-- Loading registers marks each of them written and takes no mark away (R14). -/
theorem loadRegs_written (vals : List (RegNo × Word)) (s : State) (m : Mode) :
    AllWritten (physRegs m (vals.map Prod.fst)) (loadRegs s m vals) ∧
      ∀ p, s.written.get p = true → (loadRegs s m vals).written.get p = true := by
  induction vals generalizing s with
  | nil => exact ⟨AllWritten.nil _, fun _ h => h⟩
  | cons kv rest ih =>
    obtain ⟨h1, h2⟩ := ih (s.setRegOf m kv.1 kv.2)
    refine ⟨fun p hp => ?_, fun p hp => h2 p (written_setRegOf_mono s m kv.1 kv.2 hp)⟩
    simp only [physRegs, List.map_cons, List.filterMap_cons] at hp
    cases hk : phys m kv.1 with
    | none => rw [hk] at hp; exact h1 p hp
    | some q =>
      rw [hk] at hp
      rcases List.mem_cons.mp hp with rfl | hr
      · exact h2 p ((regWritten_phys hk).symm.trans (regWritten_setRegOf s m kv.1 kv.2))
      · exact h1 p hr

/-- A register that is not in the list keeps its value. -/
theorem loadRegs_regOf_notMem {vals : List (RegNo × Word)} {k : RegNo} (s : State) (m : Mode) (hk : k ≠ 15)
    (h : k ∉ vals.map Prod.fst) : (loadRegs s m vals).regOf m k = s.regOf m k := by
  induction vals generalizing s with
  | nil => rfl
  | cons kv rest ih =>
    simp only [List.map_cons, List.mem_cons, not_or] at h
    show (loadRegs (s.setRegOf m kv.1 kv.2) m rest).regOf m k = _
    rw [ih _ h.2]
    exact regOf_setRegOf_ne kv.2 hk fun e => h.1 e.symm

/-- A register of a list without repeats holds the value loaded for it. -/
theorem loadRegs_regOf_mem {vals : List (RegNo × Word)} {k : RegNo} {v : Word} (s : State) (m : Mode) (hk : k ≠ 15)
    (hd : (vals.map Prod.fst).Nodup) (h : (k, v) ∈ vals) : (loadRegs s m vals).regOf m k = v := by
  induction vals generalizing s with
  | nil => cases h
  | cons kv rest ih =>
    simp only [List.map_cons, List.nodup_cons] at hd
    rcases List.mem_cons.mp h with e | hr
    · subst e
      show (loadRegs (s.setRegOf m k v) m rest).regOf m k = v
      rw [loadRegs_regOf_notMem _ _ hk hd.1]
      exact regOf_setRegOf_self v hk
    · exact ih _ hd.2 hr

/-- The value a block load gives R15. -/
theorem loadedPc_eq_some {vals : List (RegNo × Word)} {v : Word} (hd : (vals.map Prod.fst).Nodup)
    (h : (15, v) ∈ vals) : loadedPc vals = some v := by
  induction vals with
  | nil => cases h
  | cons kv rest ih =>
    simp only [List.map_cons, List.nodup_cons] at hd
    rcases List.mem_cons.mp h with e | hr
    · subst e; rfl
    · have hne : kv.1 ≠ 15 := fun e => hd.1 (e ▸ List.mem_map_of_mem (f := Prod.fst) hr)
      show (if kv.1 = 15 then some kv.2 else loadedPc rest) = some v
      rw [if_neg hne]
      exact ih hd.2 hr

theorem loadedPc_eq_none {vals : List (RegNo × Word)} (h : 15 ∉ vals.map Prod.fst) : loadedPc vals = none := by
  induction vals with
  | nil => rfl
  | cons kv rest ih =>
    simp only [List.map_cons, List.mem_cons, not_or] at h
    show (if kv.1 = 15 then some kv.2 else loadedPc rest) = none
    rw [if_neg fun e => h.1 e.symm]
    exact ih h.2

/-! ### Memory the placing of code leaves -/

/-- Placing an instruction keeps memory in canonical form. -/
theorem wf_placeCode {s : State} (code : Code) (h : Mem.wf s.mem = true) : Mem.wf (placeCode s code).mem = true := by
  have key : ∀ (a : Word) (n : Width), align a n = a → (region a).stored = true → ∀ v,
      Mem.wf (Mem.store s.mem ((region a).base + offset a) n v) = true := by
    intro a n ha hs v
    have hb := offset_align_le a n
    rw [ha] at hb
    apply Mem.wf_store h
    intro i hi
    rw [Nat.add_assoc]
    exact backed_of_stored hs (by omega)
  have idem : ∀ (a : Word) (n : Width), align (align a n) n = align a n := by
    intro a n
    cases n <;> simp only [align] <;> rw [BitVec.and_assoc] <;> rfl
  have hp : ∀ a : Word, placeable s a = true → (region a).stored = true := by
    intro a ha
    simp only [placeable, Bool.and_eq_true] at ha
    exact ha.1
  have pick : ∀ n : Width, ∃ a, (if placeable s (align s.pc n) = true then align s.pc n else 0x03000000) = a ∧
      align a n = a ∧ (region a).stored = true := by
    intro n
    by_cases hq : placeable s (align s.pc n) = true
    · exact ⟨_, if_pos hq, idem _ _, hp _ hq⟩
    · exact ⟨_, if_neg hq, by cases n <;> decide, by decide⟩
  cases code with
  | arm w =>
    obtain ⟨a, h1, h2, h3⟩ := pick .word
    show Mem.wf (Mem.store s.mem ((region (if placeable s (align s.pc .word) = true then align s.pc .word
      else 0x03000000)).base + offset (if placeable s (align s.pc .word) = true then align s.pc .word
        else 0x03000000)) .word w) = true
    rw [h1]
    exact key a .word h2 h3 w
  | thumb w =>
    obtain ⟨a, h1, h2, h3⟩ := pick .half
    show Mem.wf (Mem.store s.mem ((region (if placeable s (align s.pc .half) = true then align s.pc .half
      else 0x03000000)).base + offset (if placeable s (align s.pc .half) = true then align s.pc .half
        else 0x03000000)) .half _) = true
    rw [h1]
    exact key a .half h2 h3 _
end Sys2Proof.Machine
end

