-- ==== Sys2Proof/Laws/PerInstr.lean ====
section
/-! SUPPORT. A statement about every instruction as syntax, one lemma for each constructor: bits 31:28 of an ARM word are the
condition of the instruction it encodes (R111, R113, R115 to R125), and a Thumb instruction has none. -/

namespace Sys2Proof.Laws.CondField

/-- The condition field of the encoding is the condition the instruction executes under (R113). -/
def Statement (i : Instr) : Prop :=
  (∀ w : Word, encodeCode i = .arm w → w.extractLsb' 28 4 = (Machine.Instr.cond i).bits) ∧
    ∀ h : Half, encodeCode i = .thumb h → Machine.Instr.cond i = .al

/-- It is enough to look at the word. -/
theorem of_arm {i : Instr} {v : Word} (he : encodeCode i = .arm v)
    (h : v.extractLsb' 28 4 = (Machine.Instr.cond i).bits) : Statement i :=
  ⟨fun w hw => (by rw [he] at hw; cases hw; exact h), fun k hk => (by rw [he] at hk; cases hk)⟩

/-- A Thumb instruction carries no condition at this level: it always executes. -/
theorem of_thumb {i : Instr} {v : Half} (he : encodeCode i = .thumb v) (h : Machine.Instr.cond i = .al) : Statement i :=
  ⟨fun w hw => (by rw [he] at hw; cases hw), fun _ _ => h⟩

theorem encDataProc_cond (c : Cond) (op : BitVec 4) (s : Bool) (rn rd : BitVec 4) (o : Operand2) :
    (encDataProc c op s rn rd o).extractLsb' 28 4 = c.bits := by
  unfold encDataProc
  repeat rw [BitVec.extractLsb'_append_eq_of_le (by omega)]
  simp

theorem encMul_cond (c : Cond) (op : BitVec 4) (s : Bool) (a b rs rm : BitVec 4) :
    (encMul c op s a b rs rm).extractLsb' 28 4 = c.bits := by
  unfold encMul
  repeat rw [BitVec.extractLsb'_append_eq_of_le (by omega)]
  simp

theorem encSwap_cond (c : Cond) (b : Bool) (rn rd sbz rm : BitVec 4) :
    (encSwap c b rn rd sbz rm).extractLsb' 28 4 = c.bits := by
  unfold encSwap
  repeat rw [BitVec.extractLsb'_append_eq_of_le (by omega)]
  simp

theorem encSingle_cond (c : Cond) (p up b w l : Bool) (rn rd : BitVec 4) (o : Offset12) :
    (encSingle c p up b w l rn rd o).extractLsb' 28 4 = c.bits := by
  unfold encSingle
  repeat rw [BitVec.extractLsb'_append_eq_of_le (by omega)]
  simp

theorem encHalf_cond (c : Cond) (p up w l sgn h : Bool) (rn rd : BitVec 4) (o : Offset8) :
    (encHalf c p up w l sgn h rn rd o).extractLsb' 28 4 = c.bits := by
  unfold encHalf
  repeat rw [BitVec.extractLsb'_append_eq_of_le (by omega)]
  simp

theorem encBlock_cond (c : Cond) (p up s w l : Bool) (rn : BitVec 4) (list : BitVec 16) :
    (encBlock c p up s w l rn list).extractLsb' 28 4 = c.bits := by
  unfold encBlock
  repeat rw [BitVec.extractLsb'_append_eq_of_le (by omega)]
  simp

theorem encCoprocTransfer_cond (c : Cond) (p up n w l : Bool) (rn crd cp : BitVec 4) (off : Byte) :
    (encCoprocTransfer c p up n w l rn crd cp off).extractLsb' 28 4 = c.bits := by
  unfold encCoprocTransfer
  repeat rw [BitVec.extractLsb'_append_eq_of_le (by omega)]
  simp

theorem encCoprocReg_cond (c : Cond) (op1 : BitVec 3) (l : Bool) (crn rd cp : BitVec 4) (op2 : BitVec 3) (crm : BitVec 4) :
    (encCoprocReg c op1 l crn rd cp op2 crm).extractLsb' 28 4 = c.bits := by
  unfold encCoprocReg
  repeat rw [BitVec.extractLsb'_append_eq_of_le (by omega)]
  simp

theorem armAnd (c : Cond) (s : Bool) (rn rd : RegNo) (op2 : Operand2) :
    Statement (Instr.armAnd c s rn rd op2) := of_arm rfl (encDataProc_cond ..)
theorem armEor (c : Cond) (s : Bool) (rn rd : RegNo) (op2 : Operand2) :
    Statement (Instr.armEor c s rn rd op2) := of_arm rfl (encDataProc_cond ..)
theorem armSub (c : Cond) (s : Bool) (rn rd : RegNo) (op2 : Operand2) :
    Statement (Instr.armSub c s rn rd op2) := of_arm rfl (encDataProc_cond ..)
theorem armRsb (c : Cond) (s : Bool) (rn rd : RegNo) (op2 : Operand2) :
    Statement (Instr.armRsb c s rn rd op2) := of_arm rfl (encDataProc_cond ..)
theorem armAdd (c : Cond) (s : Bool) (rn rd : RegNo) (op2 : Operand2) :
    Statement (Instr.armAdd c s rn rd op2) := of_arm rfl (encDataProc_cond ..)
theorem armAdc (c : Cond) (s : Bool) (rn rd : RegNo) (op2 : Operand2) :
    Statement (Instr.armAdc c s rn rd op2) := of_arm rfl (encDataProc_cond ..)
theorem armSbc (c : Cond) (s : Bool) (rn rd : RegNo) (op2 : Operand2) :
    Statement (Instr.armSbc c s rn rd op2) := of_arm rfl (encDataProc_cond ..)
theorem armRsc (c : Cond) (s : Bool) (rn rd : RegNo) (op2 : Operand2) :
    Statement (Instr.armRsc c s rn rd op2) := of_arm rfl (encDataProc_cond ..)
theorem armTst (c : Cond) (rn : RegNo) (sbz : BitVec 4) (op2 : Operand2) :
    Statement (Instr.armTst c rn sbz op2) := of_arm rfl (encDataProc_cond ..)
theorem armTeq (c : Cond) (rn : RegNo) (sbz : BitVec 4) (op2 : Operand2) :
    Statement (Instr.armTeq c rn sbz op2) := of_arm rfl (encDataProc_cond ..)
theorem armCmp (c : Cond) (rn : RegNo) (sbz : BitVec 4) (op2 : Operand2) :
    Statement (Instr.armCmp c rn sbz op2) := of_arm rfl (encDataProc_cond ..)
theorem armCmn (c : Cond) (rn : RegNo) (sbz : BitVec 4) (op2 : Operand2) :
    Statement (Instr.armCmn c rn sbz op2) := of_arm rfl (encDataProc_cond ..)
theorem armOrr (c : Cond) (s : Bool) (rn rd : RegNo) (op2 : Operand2) :
    Statement (Instr.armOrr c s rn rd op2) := of_arm rfl (encDataProc_cond ..)
theorem armMov (c : Cond) (s : Bool) (sbz : BitVec 4) (rd : RegNo) (op2 : Operand2) :
    Statement (Instr.armMov c s sbz rd op2) := of_arm rfl (encDataProc_cond ..)
theorem armBic (c : Cond) (s : Bool) (rn rd : RegNo) (op2 : Operand2) :
    Statement (Instr.armBic c s rn rd op2) := of_arm rfl (encDataProc_cond ..)
theorem armMvn (c : Cond) (s : Bool) (sbz : BitVec 4) (rd : RegNo) (op2 : Operand2) :
    Statement (Instr.armMvn c s sbz rd op2) := of_arm rfl (encDataProc_cond ..)
theorem armMrs (c : Cond) (spsr : Bool) (sbo : BitVec 4) (rd : RegNo) (sbzHi sbzLo : BitVec 4) :
    Statement (Instr.armMrs c spsr sbo rd sbzHi sbzLo) := of_arm rfl (by
  repeat rw [BitVec.extractLsb'_append_eq_of_le (by omega)]
  simp [Machine.Instr.cond])
theorem armMsrReg (c : Cond) (spsr : Bool) (mask sbo sbz : BitVec 4) (rm : RegNo) :
    Statement (Instr.armMsrReg c spsr mask sbo sbz rm) := of_arm rfl (by
  repeat rw [BitVec.extractLsb'_append_eq_of_le (by omega)]
  simp [Machine.Instr.cond])
theorem armMsrImm (c : Cond) (spsr : Bool) (mask sbo rotate : BitVec 4) (imm8 : Byte) :
    Statement (Instr.armMsrImm c spsr mask sbo rotate imm8) := of_arm rfl (by
  repeat rw [BitVec.extractLsb'_append_eq_of_le (by omega)]
  simp [Machine.Instr.cond])
theorem armMul (c : Cond) (s : Bool) (rd : RegNo) (sbz : BitVec 4) (rs rm : RegNo) :
    Statement (Instr.armMul c s rd sbz rs rm) := of_arm rfl (encMul_cond ..)
theorem armMla (c : Cond) (s : Bool) (rd rn rs rm : RegNo) :
    Statement (Instr.armMla c s rd rn rs rm) := of_arm rfl (encMul_cond ..)
theorem armUmull (c : Cond) (s : Bool) (rdHi rdLo rs rm : RegNo) :
    Statement (Instr.armUmull c s rdHi rdLo rs rm) := of_arm rfl (encMul_cond ..)
theorem armUmlal (c : Cond) (s : Bool) (rdHi rdLo rs rm : RegNo) :
    Statement (Instr.armUmlal c s rdHi rdLo rs rm) := of_arm rfl (encMul_cond ..)
theorem armSmull (c : Cond) (s : Bool) (rdHi rdLo rs rm : RegNo) :
    Statement (Instr.armSmull c s rdHi rdLo rs rm) := of_arm rfl (encMul_cond ..)
theorem armSmlal (c : Cond) (s : Bool) (rdHi rdLo rs rm : RegNo) :
    Statement (Instr.armSmlal c s rdHi rdLo rs rm) := of_arm rfl (encMul_cond ..)
theorem armSwp (c : Cond) (rn rd : RegNo) (sbz : BitVec 4) (rm : RegNo) :
    Statement (Instr.armSwp c rn rd sbz rm) := of_arm rfl (encSwap_cond ..)
theorem armSwpb (c : Cond) (rn rd : RegNo) (sbz : BitVec 4) (rm : RegNo) :
    Statement (Instr.armSwpb c rn rd sbz rm) := of_arm rfl (encSwap_cond ..)
theorem armLdr (c : Cond) (ix : Index) (up : Bool) (rn rd : RegNo) (off : Offset12) :
    Statement (Instr.armLdr c ix up rn rd off) := of_arm rfl (encSingle_cond ..)
theorem armLdrb (c : Cond) (ix : Index) (up : Bool) (rn rd : RegNo) (off : Offset12) :
    Statement (Instr.armLdrb c ix up rn rd off) := of_arm rfl (encSingle_cond ..)
theorem armStr (c : Cond) (ix : Index) (up : Bool) (rn rd : RegNo) (off : Offset12) :
    Statement (Instr.armStr c ix up rn rd off) := of_arm rfl (encSingle_cond ..)
theorem armStrb (c : Cond) (ix : Index) (up : Bool) (rn rd : RegNo) (off : Offset12) :
    Statement (Instr.armStrb c ix up rn rd off) := of_arm rfl (encSingle_cond ..)
theorem armLdrt (c : Cond) (up : Bool) (rn rd : RegNo) (off : Offset12) :
    Statement (Instr.armLdrt c up rn rd off) := of_arm rfl (encSingle_cond ..)
theorem armLdrbt (c : Cond) (up : Bool) (rn rd : RegNo) (off : Offset12) :
    Statement (Instr.armLdrbt c up rn rd off) := of_arm rfl (encSingle_cond ..)
theorem armStrt (c : Cond) (up : Bool) (rn rd : RegNo) (off : Offset12) :
    Statement (Instr.armStrt c up rn rd off) := of_arm rfl (encSingle_cond ..)
theorem armStrbt (c : Cond) (up : Bool) (rn rd : RegNo) (off : Offset12) :
    Statement (Instr.armStrbt c up rn rd off) := of_arm rfl (encSingle_cond ..)
theorem armStrh (c : Cond) (p up w : Bool) (rn rd : RegNo) (off : Offset8) :
    Statement (Instr.armStrh c p up w rn rd off) := of_arm rfl (encHalf_cond ..)
theorem armLdrh (c : Cond) (p up w : Bool) (rn rd : RegNo) (off : Offset8) :
    Statement (Instr.armLdrh c p up w rn rd off) := of_arm rfl (encHalf_cond ..)
theorem armLdrsb (c : Cond) (p up w : Bool) (rn rd : RegNo) (off : Offset8) :
    Statement (Instr.armLdrsb c p up w rn rd off) := of_arm rfl (encHalf_cond ..)
theorem armLdrsh (c : Cond) (p up w : Bool) (rn rd : RegNo) (off : Offset8) :
    Statement (Instr.armLdrsh c p up w rn rd off) := of_arm rfl (encHalf_cond ..)
theorem armLdm (c : Cond) (p up w : Bool) (rn : RegNo) (list : BitVec 16) :
    Statement (Instr.armLdm c p up w rn list) := of_arm rfl (encBlock_cond ..)
theorem armStm (c : Cond) (p up w : Bool) (rn : RegNo) (list : BitVec 16) :
    Statement (Instr.armStm c p up w rn list) := of_arm rfl (encBlock_cond ..)
theorem armLdmUser (c : Cond) (p up w : Bool) (rn : RegNo) (list : BitVec 15) :
    Statement (Instr.armLdmUser c p up w rn list) := of_arm rfl (encBlock_cond ..)
theorem armStmUser (c : Cond) (p up w : Bool) (rn : RegNo) (list : BitVec 16) :
    Statement (Instr.armStmUser c p up w rn list) := of_arm rfl (encBlock_cond ..)
theorem armLdmExc (c : Cond) (p up w : Bool) (rn : RegNo) (list : BitVec 15) :
    Statement (Instr.armLdmExc c p up w rn list) := of_arm rfl (encBlock_cond ..)
theorem armB (c : Cond) (offset : BitVec 24) :
    Statement (Instr.armB c offset) := of_arm rfl (by
  repeat rw [BitVec.extractLsb'_append_eq_of_le (by omega)]
  simp [Machine.Instr.cond])
theorem armBl (c : Cond) (offset : BitVec 24) :
    Statement (Instr.armBl c offset) := of_arm rfl (by
  repeat rw [BitVec.extractLsb'_append_eq_of_le (by omega)]
  simp [Machine.Instr.cond])
theorem armBx (c : Cond) (sbo : BitVec 12) (rm : RegNo) :
    Statement (Instr.armBx c sbo rm) := of_arm rfl (by
  repeat rw [BitVec.extractLsb'_append_eq_of_le (by omega)]
  simp [Machine.Instr.cond])
theorem armSwi (c : Cond) (comment : BitVec 24) :
    Statement (Instr.armSwi c comment) := of_arm rfl (by
  repeat rw [BitVec.extractLsb'_append_eq_of_le (by omega)]
  simp [Machine.Instr.cond])
theorem armCdp (c : Cond) (op1 crn crd cp : BitVec 4) (op2 : BitVec 3) (crm : BitVec 4) :
    Statement (Instr.armCdp c op1 crn crd cp op2 crm) := of_arm rfl (by
  repeat rw [BitVec.extractLsb'_append_eq_of_le (by omega)]
  simp [Machine.Instr.cond])
theorem armLdc (c : Cond) (p up n w : Bool) (rn : RegNo) (crd cp : BitVec 4) (offset : Byte) :
    Statement (Instr.armLdc c p up n w rn crd cp offset) := of_arm rfl (encCoprocTransfer_cond ..)
theorem armStc (c : Cond) (p up n w : Bool) (rn : RegNo) (crd cp : BitVec 4) (offset : Byte) :
    Statement (Instr.armStc c p up n w rn crd cp offset) := of_arm rfl (encCoprocTransfer_cond ..)
theorem armMcr (c : Cond) (op1 : BitVec 3) (crn : BitVec 4) (rd : RegNo) (cp : BitVec 4) (op2 : BitVec 3) (crm : BitVec 4) :
    Statement (Instr.armMcr c op1 crn rd cp op2 crm) := of_arm rfl (encCoprocReg_cond ..)
theorem armMrc (c : Cond) (op1 : BitVec 3) (crn : BitVec 4) (rd : RegNo) (cp : BitVec 4) (op2 : BitVec 3) (crm : BitVec 4) :
    Statement (Instr.armMrc c op1 crn rd cp op2 crm) := of_arm rfl (encCoprocReg_cond ..)
theorem armUndArch (c : Cond) (hi : BitVec 20) (lo : BitVec 4) :
    Statement (Instr.armUndArch c hi lo) := of_arm rfl (by
  repeat rw [BitVec.extractLsb'_append_eq_of_le (by omega)]
  simp [Machine.Instr.cond])
theorem armUndMul (c : Cond) (op : BitVec 5) (mid : BitVec 12) (lo : BitVec 4) :
    Statement (Instr.armUndMul c op mid lo) := of_arm rfl (by
  repeat rw [BitVec.extractLsb'_append_eq_of_le (by omega)]
  simp [Machine.Instr.cond])
theorem armUndSignedStore (c : Cond) (op : BitVec 4) (mid : BitVec 12) (h : Bool) (lo : BitVec 4) :
    Statement (Instr.armUndSignedStore c op mid h lo) := of_arm rfl (by
  repeat rw [BitVec.extractLsb'_append_eq_of_le (by omega)]
  simp [Machine.Instr.cond])
theorem armUndMisc (c : Cond) (op : BitVec 2) (mid : BitVec 12) (lo : Byte) :
    Statement (Instr.armUndMisc c op mid lo) := of_arm rfl (by
  repeat rw [BitVec.extractLsb'_append_eq_of_le (by omega)]
  simp [Machine.Instr.cond])
theorem armUndMsrImm (c : Cond) (r : Bool) (rest : BitVec 20) :
    Statement (Instr.armUndMsrImm c r rest) := of_arm rfl (by
  repeat rw [BitVec.extractLsb'_append_eq_of_le (by omega)]
  simp [Machine.Instr.cond])
theorem thumbLslImm (amount : BitVec 5) (rs rd : LowReg) : Statement (Instr.thumbLslImm amount rs rd) := of_thumb rfl rfl
theorem thumbLsrImm (amount : BitVec 5) (rs rd : LowReg) : Statement (Instr.thumbLsrImm amount rs rd) := of_thumb rfl rfl
theorem thumbAsrImm (amount : BitVec 5) (rs rd : LowReg) : Statement (Instr.thumbAsrImm amount rs rd) := of_thumb rfl rfl
theorem thumbAddReg (rn rs rd : LowReg) : Statement (Instr.thumbAddReg rn rs rd) := of_thumb rfl rfl
theorem thumbSubReg (rn rs rd : LowReg) : Statement (Instr.thumbSubReg rn rs rd) := of_thumb rfl rfl
theorem thumbAddImm3 (imm3 : BitVec 3) (rs rd : LowReg) : Statement (Instr.thumbAddImm3 imm3 rs rd) := of_thumb rfl rfl
theorem thumbSubImm3 (imm3 : BitVec 3) (rs rd : LowReg) : Statement (Instr.thumbSubImm3 imm3 rs rd) := of_thumb rfl rfl
theorem thumbMovImm (rd : LowReg) (imm8 : Byte) : Statement (Instr.thumbMovImm rd imm8) := of_thumb rfl rfl
theorem thumbCmpImm (rd : LowReg) (imm8 : Byte) : Statement (Instr.thumbCmpImm rd imm8) := of_thumb rfl rfl
theorem thumbAddImm8 (rd : LowReg) (imm8 : Byte) : Statement (Instr.thumbAddImm8 rd imm8) := of_thumb rfl rfl
theorem thumbSubImm8 (rd : LowReg) (imm8 : Byte) : Statement (Instr.thumbSubImm8 rd imm8) := of_thumb rfl rfl
theorem thumbAnd (rs rd : LowReg) : Statement (Instr.thumbAnd rs rd) := of_thumb rfl rfl
theorem thumbEor (rs rd : LowReg) : Statement (Instr.thumbEor rs rd) := of_thumb rfl rfl
theorem thumbLslReg (rs rd : LowReg) : Statement (Instr.thumbLslReg rs rd) := of_thumb rfl rfl
theorem thumbLsrReg (rs rd : LowReg) : Statement (Instr.thumbLsrReg rs rd) := of_thumb rfl rfl
theorem thumbAsrReg (rs rd : LowReg) : Statement (Instr.thumbAsrReg rs rd) := of_thumb rfl rfl
theorem thumbAdc (rs rd : LowReg) : Statement (Instr.thumbAdc rs rd) := of_thumb rfl rfl
theorem thumbSbc (rs rd : LowReg) : Statement (Instr.thumbSbc rs rd) := of_thumb rfl rfl
theorem thumbRorReg (rs rd : LowReg) : Statement (Instr.thumbRorReg rs rd) := of_thumb rfl rfl
theorem thumbTst (rs rd : LowReg) : Statement (Instr.thumbTst rs rd) := of_thumb rfl rfl
theorem thumbNeg (rs rd : LowReg) : Statement (Instr.thumbNeg rs rd) := of_thumb rfl rfl
theorem thumbCmpReg (rs rd : LowReg) : Statement (Instr.thumbCmpReg rs rd) := of_thumb rfl rfl
theorem thumbCmn (rs rd : LowReg) : Statement (Instr.thumbCmn rs rd) := of_thumb rfl rfl
theorem thumbOrr (rs rd : LowReg) : Statement (Instr.thumbOrr rs rd) := of_thumb rfl rfl
theorem thumbMul (rs rd : LowReg) : Statement (Instr.thumbMul rs rd) := of_thumb rfl rfl
theorem thumbBic (rs rd : LowReg) : Statement (Instr.thumbBic rs rd) := of_thumb rfl rfl
theorem thumbMvn (rs rd : LowReg) : Statement (Instr.thumbMvn rs rd) := of_thumb rfl rfl
theorem thumbAddHi (hs hd : RegNo) : Statement (Instr.thumbAddHi hs hd) := of_thumb rfl rfl
theorem thumbCmpHi (hs hd : RegNo) : Statement (Instr.thumbCmpHi hs hd) := of_thumb rfl rfl
theorem thumbMovHi (hs hd : RegNo) : Statement (Instr.thumbMovHi hs hd) := of_thumb rfl rfl
theorem thumbBx (h1 : Bool) (hs : RegNo) (sbz : BitVec 3) : Statement (Instr.thumbBx h1 hs sbz) := of_thumb rfl rfl
theorem thumbLdrPc (rd : LowReg) (imm8 : Byte) : Statement (Instr.thumbLdrPc rd imm8) := of_thumb rfl rfl
theorem thumbStrReg (ro rb rd : LowReg) : Statement (Instr.thumbStrReg ro rb rd) := of_thumb rfl rfl
theorem thumbStrbReg (ro rb rd : LowReg) : Statement (Instr.thumbStrbReg ro rb rd) := of_thumb rfl rfl
theorem thumbLdrReg (ro rb rd : LowReg) : Statement (Instr.thumbLdrReg ro rb rd) := of_thumb rfl rfl
theorem thumbLdrbReg (ro rb rd : LowReg) : Statement (Instr.thumbLdrbReg ro rb rd) := of_thumb rfl rfl
theorem thumbStrhReg (ro rb rd : LowReg) : Statement (Instr.thumbStrhReg ro rb rd) := of_thumb rfl rfl
theorem thumbLdsbReg (ro rb rd : LowReg) : Statement (Instr.thumbLdsbReg ro rb rd) := of_thumb rfl rfl
theorem thumbLdrhReg (ro rb rd : LowReg) : Statement (Instr.thumbLdrhReg ro rb rd) := of_thumb rfl rfl
theorem thumbLdshReg (ro rb rd : LowReg) : Statement (Instr.thumbLdshReg ro rb rd) := of_thumb rfl rfl
theorem thumbStrImm (offset : BitVec 5) (rb rd : LowReg) : Statement (Instr.thumbStrImm offset rb rd) := of_thumb rfl rfl
theorem thumbLdrImm (offset : BitVec 5) (rb rd : LowReg) : Statement (Instr.thumbLdrImm offset rb rd) := of_thumb rfl rfl
theorem thumbStrbImm (offset : BitVec 5) (rb rd : LowReg) : Statement (Instr.thumbStrbImm offset rb rd) := of_thumb rfl rfl
theorem thumbLdrbImm (offset : BitVec 5) (rb rd : LowReg) : Statement (Instr.thumbLdrbImm offset rb rd) := of_thumb rfl rfl
theorem thumbStrhImm (offset : BitVec 5) (rb rd : LowReg) : Statement (Instr.thumbStrhImm offset rb rd) := of_thumb rfl rfl
theorem thumbLdrhImm (offset : BitVec 5) (rb rd : LowReg) : Statement (Instr.thumbLdrhImm offset rb rd) := of_thumb rfl rfl
theorem thumbStrSp (rd : LowReg) (imm8 : Byte) : Statement (Instr.thumbStrSp rd imm8) := of_thumb rfl rfl
theorem thumbLdrSp (rd : LowReg) (imm8 : Byte) : Statement (Instr.thumbLdrSp rd imm8) := of_thumb rfl rfl
theorem thumbAddPc (rd : LowReg) (imm8 : Byte) : Statement (Instr.thumbAddPc rd imm8) := of_thumb rfl rfl
theorem thumbAddSp (rd : LowReg) (imm8 : Byte) : Statement (Instr.thumbAddSp rd imm8) := of_thumb rfl rfl
theorem thumbIncSp (imm7 : BitVec 7) : Statement (Instr.thumbIncSp imm7) := of_thumb rfl rfl
theorem thumbDecSp (imm7 : BitVec 7) : Statement (Instr.thumbDecSp imm7) := of_thumb rfl rfl
theorem thumbPush (lr : Bool) (list : Byte) : Statement (Instr.thumbPush lr list) := of_thumb rfl rfl
theorem thumbPop (pc : Bool) (list : Byte) : Statement (Instr.thumbPop pc list) := of_thumb rfl rfl
theorem thumbStmia (rb : LowReg) (list : Byte) : Statement (Instr.thumbStmia rb list) := of_thumb rfl rfl
theorem thumbLdmia (rb : LowReg) (list : Byte) : Statement (Instr.thumbLdmia rb list) := of_thumb rfl rfl
theorem thumbSwi (comment : Byte) : Statement (Instr.thumbSwi comment) := of_thumb rfl rfl
theorem thumbBcond (c : Cond) (offset : Byte) : Statement (Instr.thumbBcond c offset) := of_thumb rfl rfl
theorem thumbB (offset : BitVec 11) : Statement (Instr.thumbB offset) := of_thumb rfl rfl
theorem thumbBlHigh (offset : BitVec 11) : Statement (Instr.thumbBlHigh offset) := of_thumb rfl rfl
theorem thumbBlLow (offset : BitVec 11) : Statement (Instr.thumbBlLow offset) := of_thumb rfl rfl
theorem thumbUnd1011 (bits : BitVec 12) : Statement (Instr.thumbUnd1011 bits) := of_thumb rfl rfl
theorem thumbUndCond (bits : Byte) : Statement (Instr.thumbUndCond bits) := of_thumb rfl rfl
theorem thumbUnd11101 (bits : BitVec 11) : Statement (Instr.thumbUnd11101 bits) := of_thumb rfl rfl

end Sys2Proof.Laws.CondField
end

