-- ==== Sys2Proof/Laws/Snapshot.lean ====
section
/-! SUPPORT. The host calls that replace the state: the snapshot (R43, R623), what restoring one gives, and memory after a reset
(R701). -/

namespace Sys2Proof.Machine

/-! ### Lists of cells cut and joined by address -/

/-- A filter that looks at addresses alone keeps or drops all that is written at an address. -/
theorem Mem.get_filter (p : Host.Cell → Bool) (hp : ∀ k v w, p (k, v) = p (k, w)) (m : List Host.Cell) (a : Nat) :
    Mem.get (m.filter p) a = if p (a, 0) then Mem.get m a else none := by
  induction m with
  | nil => simp [Mem.get]
  | cons c rest ih =>
    obtain ⟨k, v⟩ := c
    by_cases h : k = a
    · subst h
      cases hk : p (k, 0) <;> simp_all [Mem.get, hp k v 0]
    · rw [List.filter_cons]
      split <;> simp_all [Mem.get]

theorem Mem.get_append (m l : List Host.Cell) (a : Nat) : Mem.get (m ++ l) a = (Mem.get m a).or (Mem.get l a) := by
  induction m with
  | nil => rfl
  | cons c rest ih =>
    obtain ⟨k, v⟩ := c
    by_cases h : k = a <;> simp [Mem.get, h, ih]

theorem Mem.wfFrom_filter (p : Host.Cell → Bool) {m : List Host.Cell} {lo hi : Nat} (hl : hi ≤ lo)
    (h : Mem.wfFrom lo m = true) : Mem.wfFrom hi (m.filter p) = true := by
  induction m generalizing lo hi with
  | nil => rfl
  | cons c rest ih =>
    obtain ⟨k, v⟩ := c
    simp only [Mem.wfFrom, Bool.and_eq_true, decide_eq_true_eq] at h
    rw [List.filter_cons]
    split
    · simp only [Mem.wfFrom, Bool.and_eq_true, decide_eq_true_eq]
      exact ⟨⟨by omega, h.1.2⟩, ih (by omega) h.2⟩
    · exact ih (by omega) h.2

/-- Two canonical lists, the first below an address and the second from it on, are one. -/
theorem Mem.wfFrom_append {m l : List Host.Cell} {lo mid : Nat} (hm : Mem.wfFrom lo m = true)
    (hb : ∀ c, c ∈ m → c.1 < mid) (hlo : lo ≤ mid) (hl : Mem.wfFrom mid l = true) : Mem.wfFrom lo (m ++ l) = true := by
  induction m generalizing lo with
  | nil =>
    have := Mem.wfFrom_filter (fun _ => true) hlo hl
    simpa using this
  | cons c rest ih =>
    obtain ⟨k, v⟩ := c
    simp only [Mem.wfFrom, List.cons_append, Bool.and_eq_true, decide_eq_true_eq] at hm ⊢
    exact ⟨hm.1, ih hm.2 (fun c hc => hb c (List.mem_cons_of_mem _ hc)) (hb (k, v) (List.mem_cons_self ..))⟩

/-- Cells from an address on that a filter keeps are canonical from that address on. -/
theorem Mem.wfFrom_filter_above (p : Host.Cell → Bool) {m : List Host.Cell} {lo hi : Nat} (hp : ∀ c, p c = true → hi ≤ c.1)
    (h : Mem.wfFrom lo m = true) : Mem.wfFrom hi (m.filter p) = true := by
  induction m generalizing lo with
  | nil => rfl
  | cons c rest ih =>
    obtain ⟨k, v⟩ := c
    simp only [Mem.wfFrom, Bool.and_eq_true, decide_eq_true_eq] at h
    rw [List.filter_cons]
    split
    · rename_i hk
      simp only [Mem.wfFrom, Bool.and_eq_true, decide_eq_true_eq]
      exact ⟨⟨hp _ hk, h.1.2⟩, Mem.wfFrom_filter p (Nat.le_refl _) h.2⟩
    · exact ih h.2

/-! ### BIOS, RAM and ROM cells -/

/-- The memory a restored machine has: RAM of one, images of another, both canonical. -/
theorem Mem.wf_restored {m l : List Host.Cell} (hm : Mem.wf m = true) (hl : Mem.wf l = true) :
    Mem.wf (l.filter isBiosCell ++ m.filter isRamCell ++ l.filter isRomCell) = true := by
  have hb : Mem.wfFrom 0 (l.filter isBiosCell) = true := Mem.wfFrom_filter _ (Nat.le_refl _) hl
  have hr : Mem.wfFrom 0x4000 (m.filter isRamCell) = true :=
    Mem.wfFrom_filter_above _ (fun c h => by simp [isRamCell, isBiosCell] at h; omega) hm
  have ho : Mem.wfFrom 0x08000000 (l.filter isRomCell) = true :=
    Mem.wfFrom_filter_above _ (fun c h => by simpa [isRomCell] using h) hl
  refine Mem.wfFrom_append (mid := 0x08000000) (Mem.wfFrom_append (mid := 0x4000) hb ?_ (by decide) hr) ?_ (by decide) ho
  · intro c hc
    have := (List.mem_filter.mp hc).2
    simpa [isBiosCell] using this
  · intro c hc
    rcases List.mem_append.mp hc with h | h
    · have := (List.mem_filter.mp h).2
      simp [isBiosCell] at this
      omega
    · have := (List.mem_filter.mp h).2
      simp [isRamCell, isRomCell] at this
      omega

/-- What stands at an address of that memory. -/
theorem Mem.get_restored (m l : List Host.Cell) (a : Nat) :
    Mem.get (l.filter isBiosCell ++ m.filter isRamCell ++ l.filter isRomCell) a =
      Mem.get (if 0x4000 ≤ a ∧ a < 0x08000000 then m else l) a := by
  rw [Mem.get_append, Mem.get_append, Mem.get_filter _ (fun _ _ _ => rfl), Mem.get_filter _ (fun _ _ _ => rfl),
    Mem.get_filter _ (fun _ _ _ => rfl)]
  simp only [isRamCell, isBiosCell, isRomCell]
  by_cases h1 : a < 0x4000
  · simp [h1, show ¬(0x4000 ≤ a ∧ a < 0x08000000) by omega, show ¬0x08000000 ≤ a by omega]
  · by_cases h2 : 0x08000000 ≤ a
    · simp [h1, h2, show ¬(0x4000 ≤ a ∧ a < 0x08000000) by omega]
    · simp [h1, h2, show 0x4000 ≤ a by omega, show a < 0x08000000 by omega]

/-! ### Restoring -/

/-- Two canonical memories that hold the same at every address are the same list. -/
theorem Mem.ext_wfFrom {m l : List Host.Cell} {lo : Nat} (hm : Mem.wfFrom lo m = true) (hl : Mem.wfFrom lo l = true)
    (h : ∀ a, Mem.get m a = Mem.get l a) : m = l := by
  have below : ∀ {n : List Host.Cell} {k a : Nat}, Mem.wfFrom k n = true → a < k → Mem.get n a = none := by
    intro n
    induction n with
    | nil => intros; rfl
    | cons c rest ih =>
      intro k a hn ha
      obtain ⟨j, v⟩ := c
      simp only [Mem.wfFrom, Bool.and_eq_true, decide_eq_true_eq] at hn
      simp only [Mem.get, if_neg (show ¬j = a by omega)]
      exact ih hn.2 (by omega)
  induction m generalizing l lo with
  | nil =>
    cases l with
    | nil => rfl
    | cons c rest => have := h c.1; simp [Mem.get] at this
  | cons c rest ih =>
    obtain ⟨k, v⟩ := c
    cases l with
    | nil => have := h k; simp [Mem.get] at this
    | cons d rest' =>
      obtain ⟨j, w⟩ := d
      simp only [Mem.wfFrom, Bool.and_eq_true, decide_eq_true_eq] at hm hl
      have hkj : k = j := by
        by_contra hne
        rcases Nat.lt_or_gt_of_ne hne with hlt | hlt
        · have e := h k
          simp only [Mem.get, if_true, if_neg (show ¬j = k by omega), below hl.2 (show k < j + 1 by omega)] at e
          cases e
        · have e := h j
          simp only [Mem.get, if_true, if_neg (show ¬k = j by omega), below hm.2 (show j < k + 1 by omega)] at e
          cases e
      subst hkj
      have e := h k
      simp only [Mem.get, if_true, Option.some.injEq] at e
      subst e
      congr 1
      refine ih hm.2 hl.2 fun a => ?_
      by_cases ha : a < k + 1
      · rw [below hm.2 ha, below hl.2 ha]
      · have e := h a
        simpa only [Mem.get, if_neg (show ¬k = a by omega)] using e

/-- Restoring a machine's own snapshot changes nothing (R623). -/
theorem restoreState_saveState {s : State} (h : Mem.wf s.mem = true) : restoreState (saveState s) s = some s := by
  have e : s.mem.filter isBiosCell ++ s.mem.filter isRamCell ++ s.mem.filter isRomCell = s.mem :=
    Mem.ext_wfFrom (Mem.wf_restored h h) h fun a => by rw [Mem.get_restored, ite_self]
  simp [restoreState, saveState, e]

/-! ### Reset -/

/-- A reset keeps memory in canonical form (R701). -/
theorem hostReset_wf (mode : BootMode) {s : State} (h : Mem.wf s.mem = true) : Mem.wf (hostReset mode s).mem = true :=
  Mem.wfFrom_filter _ (Nat.le_refl _) h

end Sys2Proof.Machine
end

