-- ==== Sys2Proof/Tests/Slice0.lean ====
section
/-! SUPPORT. The model's own tests: the well-formedness checks, every constructor decoded from a word written out field by
field from the encodings of 30_encoding, single steps against the vectors of 95_test_vectors, and a witness for the hypotheses
of every statement that has some. -/

namespace Sys2Proof.Tests.Slice0

open Sys2Proof Sys2Proof.Machine

/-! ### Well-formedness refuses an ill-formed term for each of its checks -/

theorem test_wf_refuses : (Instr.armUndMul .al 0x01 0 0).wf = false ∧ (Instr.armUndMul .al 0x08 0 0).wf = false ∧
    (Instr.armUndMul .al 0x10 0 0).wf = false ∧ (Instr.armUndMisc .al 0 0 0x00).wf = false ∧
    (Instr.armUndMisc .al 1 0 0x10).wf = false ∧ (Instr.armUndMisc .al 0 0 0x90).wf = false ∧
    (Instr.thumbBcond .al 0).wf = false ∧ (Instr.thumbBcond .nv 0).wf = false ∧ (Instr.thumbUnd1011 0x000).wf = false ∧
    (Instr.thumbUnd1011 0x400).wf = false ∧ (Instr.thumbUnd1011 0xD00).wf = false := by decide

theorem test_wf_accepts : (Instr.armUndMul .al 0x05 0 0).wf = true ∧ (Instr.armUndMisc .al 1 0 0x20).wf = true ∧
    (Instr.thumbBcond .le 0).wf = true ∧ (Instr.thumbUnd1011 0x200).wf = true := by decide

/-- The decoder refuses too few bytes by name. -/
theorem test_decode_too_short : decode false [0, 0, 0] = .error .tooShort ∧ decode true [0] = .error .tooShort := by
  decide

/-! ### Decoding words written out from the encodings -/

theorem test_decode_data_processing :
    decodeArm 0b1110_00_0_0000_0_0110_0111_00010_10_0_0011 = .armAnd .al false 6 7 (.immShift 2 .asr 3) ∧
    decodeArm 0b1110_00_0_0001_1_0110_0111_0100_0_11_1_0101 = .armEor .al true 6 7 (.regShift 4 .ror 5) ∧
    decodeArm 0b1110_00_1_0010_0_0110_0111_1001_10000001 = .armSub .al false 6 7 (.imm 9 0x81) ∧
    decodeArm 0b1110_00_0_0011_1_0110_0111_00010_10_0_0011 = .armRsb .al true 6 7 (.immShift 2 .asr 3) ∧
    decodeArm 0b1110_00_0_0100_0_0110_0111_0100_0_11_1_0101 = .armAdd .al false 6 7 (.regShift 4 .ror 5) ∧
    decodeArm 0b1110_00_1_0101_1_0110_0111_1001_10000001 = .armAdc .al true 6 7 (.imm 9 0x81) ∧
    decodeArm 0b1110_00_0_0110_0_0110_0111_00010_10_0_0011 = .armSbc .al false 6 7 (.immShift 2 .asr 3) ∧
    decodeArm 0b1110_00_0_0111_1_0110_0111_0100_0_11_1_0101 = .armRsc .al true 6 7 (.regShift 4 .ror 5) := by decide

theorem test_decode_data_processing_2 :
    decodeArm 0b0001_00_1_1000_1_0110_0000_1001_10000001 = .armTst .ne 6 0 (.imm 9 0x81) ∧
    decodeArm 0b0001_00_0_1001_1_0110_0000_00010_10_0_0011 = .armTeq .ne 6 0 (.immShift 2 .asr 3) ∧
    decodeArm 0b0001_00_0_1010_1_0110_0000_0100_0_11_1_0101 = .armCmp .ne 6 0 (.regShift 4 .ror 5) ∧
    decodeArm 0b0001_00_1_1011_1_0110_0000_1001_10000001 = .armCmn .ne 6 0 (.imm 9 0x81) ∧
    decodeArm 0b1110_00_0_1100_0_0110_0111_00010_10_0_0011 = .armOrr .al false 6 7 (.immShift 2 .asr 3) ∧
    decodeArm 0b1110_00_0_1101_1_0000_0111_0100_0_11_1_0101 = .armMov .al true 0 7 (.regShift 4 .ror 5) ∧
    decodeArm 0b1110_00_1_1110_0_0110_0111_1001_10000001 = .armBic .al false 6 7 (.imm 9 0x81) ∧
    decodeArm 0b1110_00_0_1111_1_0000_0111_00010_10_0_0011 = .armMvn .al true 0 7 (.immShift 2 .asr 3) := by decide

theorem test_decode_psr_multiply_swap :
    decodeArm 0b1110_00010_1_00_1111_0011_0000_0000_0000 = .armMrs .al true 0xF 3 0 0 ∧
    decodeArm 0b1110_00010_0_10_1001_1111_0000_0000_0011 = .armMsrReg .al false 0x9 0xF 0 3 ∧
    decodeArm 0b1110_00110_1_10_1000_1111_0010_11110000 = .armMsrImm .al true 0x8 0xF 2 0xF0 ∧
    decodeArm 0b1110_000000_0_1_0001_0000_0010_1001_0011 = .armMul .al true 1 0 2 3 ∧
    decodeArm 0b1110_000000_1_0_0001_0100_0010_1001_0011 = .armMla .al false 1 4 2 3 ∧
    decodeArm 0b1110_00001_0_0_0_0001_0100_0010_1001_0011 = .armUmull .al false 1 4 2 3 ∧
    decodeArm 0b1110_00001_0_1_0_0001_0100_0010_1001_0011 = .armUmlal .al false 1 4 2 3 ∧
    decodeArm 0b1110_00001_1_0_0_0001_0100_0010_1001_0011 = .armSmull .al false 1 4 2 3 ∧
    decodeArm 0b1110_00001_1_1_0_0001_0100_0010_1001_0011 = .armSmlal .al false 1 4 2 3 ∧
    decodeArm 0b1110_00010_0_00_0001_0010_0000_1001_0011 = .armSwp .al 1 2 0 3 ∧
    decodeArm 0b1110_00010_1_00_0001_0010_0000_1001_0011 = .armSwpb .al 1 2 0 3 := by decide

theorem test_decode_single_transfer :
    decodeArm 0b1110_01_0_1_0_0_1_1_0001_0010_100000000100 = .armLdr .al .preIndexed false 1 2 (.imm 0x804) ∧
    decodeArm 0b1110_01_1_1_1_1_0_1_0001_0010_00011_01_0_0100 = .armLdrb .al .offset true 1 2 (.reg 3 .lsr 4) ∧
    decodeArm 0b1110_01_0_0_1_0_0_0_0001_0010_000000000100 = .armStr .al .postIndexed true 1 2 (.imm 4) ∧
    decodeArm 0b1110_01_0_1_1_1_1_0_0001_0010_000000000001 = .armStrb .al .preIndexed true 1 2 (.imm 1) ∧
    decodeArm 0b1110_01_0_0_1_0_1_1_0001_0010_000000000100 = .armLdrt .al true 1 2 (.imm 4) ∧
    decodeArm 0b1110_01_0_0_0_1_1_1_0001_0010_000000000100 = .armLdrbt .al false 1 2 (.imm 4) ∧
    decodeArm 0b1110_01_1_0_1_0_1_0_0001_0010_00000_11_0_0011 = .armStrt .al true 1 2 (.reg 0 .ror 3) ∧
    decodeArm 0b1110_01_0_0_1_1_1_0_0001_0010_000000000100 = .armStrbt .al true 1 2 (.imm 4) ∧
    decodeArm 0b1110_000_1_1_1_0_0_0001_0010_0101_1_0_1_1_0011 = .armStrh .al true true false 1 2 (.imm 0x53) ∧
    decodeArm 0b1110_000_1_0_0_1_1_0001_0010_0000_1_0_1_1_0011 = .armLdrh .al true false true 1 2 (.reg 0 3) ∧
    decodeArm 0b1110_000_0_1_1_0_1_0001_0010_0101_1_1_0_1_0011 = .armLdrsb .al false true false 1 2 (.imm 0x53) ∧
    decodeArm 0b1110_000_1_1_1_0_1_0001_0010_0101_1_1_1_1_0011 = .armLdrsh .al true true false 1 2 (.imm 0x53) := by decide

theorem test_decode_block_transfer :
    decodeArm 0b1110_100_0_1_0_1_1_1101_1000000000000110 = .armLdm .al false true true 13 0x8006 ∧
    decodeArm 0b1110_100_1_0_0_1_0_1101_0100000000000011 = .armStm .al true false true 13 0x4003 ∧
    decodeArm 0b1110_100_0_1_1_0_1_0001_0110000000000000 = .armLdmUser .al false true false 1 0x6000 ∧
    decodeArm 0b1110_100_1_1_1_0_0_0001_1100000000000000 = .armStmUser .al true true false 1 0xC000 ∧
    decodeArm 0b1110_100_0_1_1_1_1_1101_1000000000000001 = .armLdmExc .al false true true 13 0x0001 := by decide

theorem test_decode_branch_system :
    decodeArm 0b0000_101_0_111111111111111111111110 = .armB .eq 0xFFFFFE ∧
    decodeArm 0b1110_101_1_000000000000000000000010 = .armBl .al 2 ∧
    decodeArm 0b1110_00010010_1111_1111_1111_0001_1110 = .armBx .al 0xFFF 14 ∧
    decodeArm 0b1110_1111_000100100011010001010110 = .armSwi .al 0x123456 ∧
    decodeArm 0b1110_1110_0001_0010_0011_0100_101_0_0110 = .armCdp .al 1 2 3 4 5 6 ∧
    decodeArm 0b1110_110_1_1_0_0_1_0001_0010_0011_00000100 = .armLdc .al true true false false 1 2 3 4 ∧
    decodeArm 0b1110_110_0_1_1_1_0_0001_0010_0011_00000100 = .armStc .al false true true true 1 2 3 4 ∧
    decodeArm 0b1110_1110_001_0_0010_0011_0100_101_1_0110 = .armMcr .al 1 2 3 4 5 6 ∧
    decodeArm 0b1110_1110_001_1_0010_0011_0100_101_1_0110 = .armMrc .al 1 2 3 4 5 6 ∧
    decodeArm 0b1110_011_00010010001101000101_1_0110 = .armUndArch .al 0x12345 6 ∧
    decodeArm 0b1110_000_00101_000100100011_1001_0100 = .armUndMul .al 0x05 0x123 4 ∧
    decodeArm 0b1110_000_1010_0_000100100011_1_1_1_1_0100 = .armUndSignedStore .al 0xA 0x123 true 4 ∧
    decodeArm 0b1110_00010_01_0_000100100011_0010_0100 = .armUndMisc .al 1 0x123 0x24 ∧
    decodeArm 0b1110_00110_1_00_00010010001101000101 = .armUndMsrImm .al true 0x12345 := by decide

theorem test_decode_thumb_shift_add :
    decodeThumb 0b000_00_00011_001_010 = .thumbLslImm 3 1 2 ∧
    decodeThumb 0b000_01_00011_001_010 = .thumbLsrImm 3 1 2 ∧
    decodeThumb 0b000_10_00011_001_010 = .thumbAsrImm 3 1 2 ∧
    decodeThumb 0b00011_0_0_011_001_010 = .thumbAddReg 3 1 2 ∧
    decodeThumb 0b00011_0_1_011_001_010 = .thumbSubReg 3 1 2 ∧
    decodeThumb 0b00011_1_0_011_001_010 = .thumbAddImm3 3 1 2 ∧
    decodeThumb 0b00011_1_1_011_001_010 = .thumbSubImm3 3 1 2 ∧
    decodeThumb 0b001_00_010_10000001 = .thumbMovImm 2 0x81 ∧
    decodeThumb 0b001_01_010_10000001 = .thumbCmpImm 2 0x81 ∧
    decodeThumb 0b001_10_010_10000001 = .thumbAddImm8 2 0x81 ∧
    decodeThumb 0b001_11_010_10000001 = .thumbSubImm8 2 0x81 := by decide

theorem test_decode_thumb_alu :
    decodeThumb 0b010000_0000_001_010 = .thumbAnd 1 2 ∧
    decodeThumb 0b010000_0001_001_010 = .thumbEor 1 2 ∧
    decodeThumb 0b010000_0010_001_010 = .thumbLslReg 1 2 ∧
    decodeThumb 0b010000_0011_001_010 = .thumbLsrReg 1 2 ∧
    decodeThumb 0b010000_0100_001_010 = .thumbAsrReg 1 2 ∧
    decodeThumb 0b010000_0101_001_010 = .thumbAdc 1 2 ∧
    decodeThumb 0b010000_0110_001_010 = .thumbSbc 1 2 ∧
    decodeThumb 0b010000_0111_001_010 = .thumbRorReg 1 2 ∧
    decodeThumb 0b010000_1000_001_010 = .thumbTst 1 2 ∧
    decodeThumb 0b010000_1001_001_010 = .thumbNeg 1 2 ∧
    decodeThumb 0b010000_1010_001_010 = .thumbCmpReg 1 2 ∧
    decodeThumb 0b010000_1011_001_010 = .thumbCmn 1 2 ∧
    decodeThumb 0b010000_1100_001_010 = .thumbOrr 1 2 ∧
    decodeThumb 0b010000_1101_001_010 = .thumbMul 1 2 ∧
    decodeThumb 0b010000_1110_001_010 = .thumbBic 1 2 ∧
    decodeThumb 0b010000_1111_001_010 = .thumbMvn 1 2 ∧
    decodeThumb 0b010001_00_0_1_001_010 = .thumbAddHi 9 2 ∧
    decodeThumb 0b010001_01_1_0_001_010 = .thumbCmpHi 1 10 ∧
    decodeThumb 0b010001_10_1_1_001_010 = .thumbMovHi 9 10 ∧
    decodeThumb 0b010001_11_0_1_110_000 = .thumbBx false 14 0 := by decide

theorem test_decode_thumb_memory :
    decodeThumb 0b01001_010_10000001 = .thumbLdrPc 2 0x81 ∧
    decodeThumb 0b0101_0_0_0_011_001_010 = .thumbStrReg 3 1 2 ∧
    decodeThumb 0b0101_0_1_0_011_001_010 = .thumbStrbReg 3 1 2 ∧
    decodeThumb 0b0101_1_0_0_011_001_010 = .thumbLdrReg 3 1 2 ∧
    decodeThumb 0b0101_1_1_0_011_001_010 = .thumbLdrbReg 3 1 2 ∧
    decodeThumb 0b0101_0_0_1_011_001_010 = .thumbStrhReg 3 1 2 ∧
    decodeThumb 0b0101_1_0_1_011_001_010 = .thumbLdrhReg 3 1 2 ∧
    decodeThumb 0b0101_0_1_1_011_001_010 = .thumbLdsbReg 3 1 2 ∧
    decodeThumb 0b0101_1_1_1_011_001_010 = .thumbLdshReg 3 1 2 ∧
    decodeThumb 0b011_0_0_00011_001_010 = .thumbStrImm 3 1 2 ∧
    decodeThumb 0b011_0_1_00011_001_010 = .thumbLdrImm 3 1 2 ∧
    decodeThumb 0b011_1_0_00011_001_010 = .thumbStrbImm 3 1 2 ∧
    decodeThumb 0b011_1_1_00011_001_010 = .thumbLdrbImm 3 1 2 ∧
    decodeThumb 0b1000_0_00011_001_010 = .thumbStrhImm 3 1 2 ∧
    decodeThumb 0b1000_1_00011_001_010 = .thumbLdrhImm 3 1 2 ∧
    decodeThumb 0b1001_0_010_10000001 = .thumbStrSp 2 0x81 ∧
    decodeThumb 0b1001_1_010_10000001 = .thumbLdrSp 2 0x81 ∧
    decodeThumb 0b1010_0_010_10000001 = .thumbAddPc 2 0x81 ∧
    decodeThumb 0b1010_1_010_10000001 = .thumbAddSp 2 0x81 ∧
    decodeThumb 0b10110000_0_1000001 = .thumbIncSp 0x41 ∧
    decodeThumb 0b10110000_1_1000001 = .thumbDecSp 0x41 := by decide

theorem test_decode_thumb_block_branch :
    decodeThumb 0b1011_0_10_1_10000001 = .thumbPush true 0x81 ∧
    decodeThumb 0b1011_1_10_1_10000001 = .thumbPop true 0x81 ∧
    decodeThumb 0b1100_0_010_10000001 = .thumbStmia 2 0x81 ∧
    decodeThumb 0b1100_1_010_10000001 = .thumbLdmia 2 0x81 ∧
    decodeThumb 0b11011111_10000001 = .thumbSwi 0x81 ∧
    decodeThumb 0b1101_1010_10000001 = .thumbBcond .ge 0x81 ∧
    decodeThumb 0b11100_10000000001 = .thumbB 0x401 ∧
    decodeThumb 0b1111_0_10000000001 = .thumbBlHigh 0x401 ∧
    decodeThumb 0b1111_1_10000000001 = .thumbBlLow 0x401 ∧
    decodeThumb 0b1011_001010000001 = .thumbUnd1011 0x281 ∧
    decodeThumb 0b11011110_10000001 = .thumbUndCond 0x81 ∧
    decodeThumb 0b11101_10000000001 = .thumbUnd11101 0x401 := by decide

/-! ### Single steps: the vectors of 95_test_vectors -/

/-- The common start state of 95_test_vectors section 0. -/
def base : State :=
  { State.reset with
    pc := 0x03000000
    cpsr := { State.reset.cpsr with mode := .sys }
    params := { Params.initial with emptyList := .stop } }

def putw (a v : Nat) (s : State) : State :=
  let a : Word := BitVec.ofNat 32 a
  { s with mem := Mem.store s.mem ((region a).base + offset a) .word (BitVec.ofNat 32 v) }

def puth (a v : Nat) (s : State) : State :=
  let a : Word := BitVec.ofNat 32 a
  { s with mem := Mem.store s.mem ((region a).base + offset a) .half (BitVec.ofNat 32 v) }

/-- Memory block M of 95_test_vectors section 0. -/
def M (s : State) : State :=
  putw 0x03000100 0x11223344 (putw 0x03000104 0x55667788 (putw 0x03000108 0x99AABBCC (putw 0x0300010C 0x03000201 s)))

def setr (n v : Nat) (s : State) : State := s.setReg (BitVec.ofNat 4 n) (BitVec.ofNat 32 v)

def setrm (m : Mode) (n v : Nat) (s : State) : State := s.setRegOf m (BitVec.ofNat 4 n) (BitVec.ofNat 32 v)

/-- NZCV from four bits. -/
def flags (k : Nat) (s : State) : State :=
  { s with cpsr := { s.cpsr with n := k.testBit 3, z := k.testBit 2, c := k.testBit 1, v := k.testBit 0 } }

def mode (m : Mode) (s : State) : State := { s with cpsr := { s.cpsr with mode := m } }

def thumb (s : State) : State := { s with cpsr := { s.cpsr with t := true } }

def setpc (v : Nat) (s : State) : State := { s with pc := BitVec.ofNat 32 v }

def getw (s : State) (a : Nat) : Word :=
  let a : Word := BitVec.ofNat 32 a
  storedValue s (region a) (offset a) .word

def rd (s : State) (n : Nat) : Word := s.reg (BitVec.ofNat 4 n)

/-- NZCV as four bits. -/
def nzcv (s : State) : Nat :=
  8 * s.cpsr.n.toNat + 4 * s.cpsr.z.toNat + 2 * s.cpsr.c.toNat + s.cpsr.v.toNat

/-- One step answers a next state that passes the check. -/
def runs (s : State) (check : State → Bool) : Bool :=
  match step s with
  | .next t => check t
  | .fault _ => false
  | .refused _ => false

/-- One step stops with the fault. -/
def stopsWith (s : State) (f : Fault) : Bool :=
  match step s with
  | .next _ => false
  | .fault g => g == f
  | .refused _ => false

/-- LDR R0, [R1]: 0xE5910000. -/
theorem test_ldr_rotates :
    runs (setr 1 0x3000101 (putw 0x3000000 0xE5910000 (M base)))
    (fun s => rd s 0 == 0x44112233 && nzcv s == 0 && s.pc == 0x3000004) = true := by decide

/-- LDRH R0, [R1, #1]: 0xE1D100B1. -/
theorem test_ldrh_odd :
    runs (setr 1 0x3000100 (putw 0x3000000 0xE1D100B1 (M base)))
    (fun s => rd s 0 == 0x44000033 && nzcv s == 0 && s.pc == 0x3000004) = true := by decide

/-- LDRSH R0, [R1, #1]: 0xE1D100F1. -/
theorem test_ldrsh_odd :
    runs (setr 1 0x3000100 (putw 0x3000000 0xE1D100F1 (M base)))
    (fun s => rd s 0 == 0x33 && nzcv s == 0 && s.pc == 0x3000004) = true := by decide

/-- STR R0, [R1] with R0 = 0xAABBCCDD: 0xE5810000. -/
theorem test_str_aligned :
    runs (setr 0 0xaabbccdd (setr 1 0x3000102 (putw 0x3000000 0xE5810000 (M base))))
    (fun s => getw s 0x03000100 == 0xAABBCCDD && nzcv s == 0 && s.pc == 0x3000004) = true := by decide

/-- STRH R0, [R1, #1] with R0 = 0xAABBCCDD: 0xE1C100B1. -/
theorem test_strh_odd :
    runs (setr 0 0xaabbccdd (setr 1 0x3000100 (putw 0x3000000 0xE1C100B1 (M base))))
    (fun s => getw s 0x03000100 == 0x1122CCDD && nzcv s == 0 && s.pc == 0x3000004) = true := by decide

/-- MOVEQ R0, #1: 0x03A00001. -/
theorem test_moveq_fails :
    runs (setr 0 0x7 (putw 0x3000000 0x03A00001 (M base)))
    (fun s => rd s 0 == 0x7 && nzcv s == 0 && s.pc == 0x03000004 && s.cycles == 1) = true := by decide

/-- MULNV R0, R0, R1 (cond 1111): 0xF0000190. -/
theorem test_nv_fails :
    runs (putw 0x3000000 0xF0000190 (M base))
    (fun s => nzcv s == 0 && s.pc == 0x03000004 && s.cycles == 1) = true := by decide

/-- BEQ (Thumb) 0xD006 at 0x03000000, T = 1: 0xD006. -/
theorem test_thumb_beq_fails :
    runs (puth 0x3000000 0xD006 (M (thumb base)))
    (fun s => nzcv s == 0 && s.pc == 0x03000002 && s.cycles == 1) = true := by decide

/-- ADDS R0, R1, R2 overflow: 0xE0910002. -/
theorem test_adds_overflow :
    runs (setr 2 0x1 (setr 1 0x7fffffff (putw 0x3000000 0xE0910002 (M base))))
    (fun s => rd s 0 == 0x80000000 && nzcv s == 9 && s.pc == 0x3000004 && s.cycles == 1) = true := by decide

/-- ADDS R0, R1, R2 carry and zero: 0xE0910002. -/
theorem test_adds_carry :
    runs (setr 2 0x1 (setr 1 0xffffffff (putw 0x3000000 0xE0910002 (M base))))
    (fun s => rd s 0 == 0x0 && nzcv s == 6 && s.pc == 0x3000004 && s.cycles == 1) = true := by decide

/-- SUBS R0, R1, R2 borrow: 0xE0510002. -/
theorem test_subs_borrow :
    runs (setr 2 0x5 (setr 1 0x3 (putw 0x3000000 0xE0510002 (M base))))
    (fun s => rd s 0 == 0xfffffffe && nzcv s == 8 && s.pc == 0x3000004 && s.cycles == 1) = true := by decide

/-- SUBS R0, R1, R2 signed overflow: 0xE0510002. -/
theorem test_subs_overflow :
    runs (setr 2 0x1 (setr 1 0x80000000 (putw 0x3000000 0xE0510002 (M base))))
    (fun s => rd s 0 == 0x7fffffff && nzcv s == 3 && s.pc == 0x3000004 && s.cycles == 1) = true := by decide

/-- RSBS R0, R1, #0: 0xE2710000. -/
theorem test_rsbs :
    runs (setr 1 0x1 (putw 0x3000000 0xE2710000 (M base)))
    (fun s => rd s 0 == 0xffffffff && nzcv s == 8 && s.pc == 0x3000004 && s.cycles == 1) = true := by decide

/-- ADCS R0, R1, R2: 0xE0B10002. -/
theorem test_adcs :
    runs (flags 2 (setr 2 0x0 (setr 1 0xffffffff (putw 0x3000000 0xE0B10002 (M base)))))
    (fun s => rd s 0 == 0x0 && nzcv s == 6 && s.pc == 0x3000004 && s.cycles == 1) = true := by decide

/-- SBCS R0, R1, R2: 0xE0D10002. -/
theorem test_sbcs :
    runs (setr 2 0x5 (setr 1 0x5 (putw 0x3000000 0xE0D10002 (M base))))
    (fun s => rd s 0 == 0xffffffff && nzcv s == 8 && s.pc == 0x3000004 && s.cycles == 1) = true := by decide

/-- RSCS R0, R1, R2: 0xE0F10002. -/
theorem test_rscs :
    runs (flags 2 (setr 2 0x3 (setr 1 0x1 (putw 0x3000000 0xE0F10002 (M base)))))
    (fun s => rd s 0 == 0x2 && nzcv s == 2 && s.pc == 0x3000004 && s.cycles == 1) = true := by decide

/-- ANDS R0, R1, R2: 0xE0110002. -/
theorem test_ands_keeps_c_v :
    runs (flags 3 (setr 2 0xf0f0f0f (setr 1 0xf0f0f0f0 (putw 0x3000000 0xE0110002 (M base)))))
    (fun s => rd s 0 == 0x0 && nzcv s == 7 && s.pc == 0x3000004 && s.cycles == 1) = true := by decide

/-- EORS R0, R1, R2: 0xE0310002. -/
theorem test_eors :
    runs (flags 3 (setr 2 0xffff (setr 1 0xffff0000 (putw 0x3000000 0xE0310002 (M base)))))
    (fun s => rd s 0 == 0xffffffff && nzcv s == 11 && s.pc == 0x3000004 && s.cycles == 1) = true := by decide

/-- ORR R0, R1, R2: 0xE1810002. -/
theorem test_orr :
    runs (setr 2 0xf (setr 1 0xf0 (putw 0x3000000 0xE1810002 (M base))))
    (fun s => rd s 0 == 0xff && nzcv s == 0 && s.pc == 0x3000004 && s.cycles == 1) = true := by decide

/-- BICS R0, R1, #0xFF: 0xE3D100FF. -/
theorem test_bics :
    runs (setr 1 0x1ff (putw 0x3000000 0xE3D100FF (M base)))
    (fun s => rd s 0 == 0x100 && nzcv s == 0 && s.pc == 0x3000004 && s.cycles == 1) = true := by decide

/-- MVNS R0, #0: 0xE3F00000. -/
theorem test_mvns :
    runs (putw 0x3000000 0xE3F00000 (M base))
    (fun s => rd s 0 == 0xffffffff && nzcv s == 8 && s.pc == 0x3000004 && s.cycles == 1) = true := by decide

/-- TST R1, #0x80000000: 0xE3110102. -/
theorem test_tst_shifter_carry :
    runs (setr 1 0x80000000 (putw 0x3000000 0xE3110102 (M base)))
    (fun s => nzcv s == 10 && s.pc == 0x3000004 && s.cycles == 1) = true := by decide

/-- TEQ R1, R2: 0xE1310002. -/
theorem test_teq :
    runs (setr 2 0x7 (setr 1 0x7 (putw 0x3000000 0xE1310002 (M base))))
    (fun s => nzcv s == 4 && s.pc == 0x3000004 && s.cycles == 1) = true := by decide

/-- CMN R1, R2: 0xE1710002. -/
theorem test_cmn :
    runs (setr 2 0x1 (setr 1 0xffffffff (putw 0x3000000 0xE1710002 (M base))))
    (fun s => nzcv s == 6 && s.pc == 0x3000004 && s.cycles == 1) = true := by decide

/-- MOVS R0, #0xFF000000: 0xE3B004FF. -/
theorem test_movs_rotated_carry :
    runs (putw 0x3000000 0xE3B004FF (M base))
    (fun s => rd s 0 == 0xff000000 && nzcv s == 10 && s.pc == 0x3000004 && s.cycles == 1) = true := by decide

/-- MOVS R0, R1, ASR #32: 0xE1B00041. -/
theorem test_movs_asr_32 :
    runs (setr 1 0x80000000 (putw 0x3000000 0xE1B00041 (M base)))
    (fun s => rd s 0 == 0xffffffff && nzcv s == 10 && s.pc == 0x3000004 && s.cycles == 1) = true := by decide

/-- MOVS R0, R1, RRX: 0xE1B00061. -/
theorem test_movs_rrx :
    runs (flags 2 (setr 1 0x3 (putw 0x3000000 0xE1B00061 (M base))))
    (fun s => rd s 0 == 0x80000001 && nzcv s == 10 && s.pc == 0x3000004 && s.cycles == 1) = true := by decide

/-- MOVS R0, R1, LSL R2: 0xE1B00211. -/
theorem test_movs_lsl_33 :
    runs (setr 2 0x21 (setr 1 0x1 (putw 0x3000000 0xE1B00211 (M base))))
    (fun s => rd s 0 == 0x0 && nzcv s == 4 && s.pc == 0x3000004 && s.cycles == 2) = true := by decide

/-- MOVS R0, R1, ROR R2: 0xE1B00271. -/
theorem test_movs_ror_32 :
    runs (setr 2 0x20 (setr 1 0x80000001 (putw 0x3000000 0xE1B00271 (M base))))
    (fun s => rd s 0 == 0x80000001 && nzcv s == 10 && s.pc == 0x3000004 && s.cycles == 2) = true := by decide

/-- ADD R0, PC, R1, LSL R2 (R15 reads PC + 12, D4): 0xE08F0211. -/
theorem test_add_pc_register_shift :
    runs (setr 2 0x0 (setr 1 0x0 (putw 0x3000000 0xE08F0211 (M base))))
    (fun s => rd s 0 == 0x300000c && nzcv s == 0 && s.pc == 0x3000004 && s.cycles == 2) = true := by decide

/-- ADD R0, PC, #0 (R15 reads PC + 8): 0xE28F0000. -/
theorem test_add_pc_immediate :
    runs (putw 0x3000000 0xE28F0000 (M base))
    (fun s => rd s 0 == 0x3000008 && nzcv s == 0 && s.pc == 0x3000004 && s.cycles == 1) = true := by decide

/-- MOVS PC, LR in System mode: 0xE1B0F00E. -/
theorem test_movs_pc_system_mode :
    stopsWith (setr 14 0x3000100 (putw 0x3000000 0xE1B0F00E (M (mode .sys base)))) .noSpsr = true := by decide

/-- MOV PC, R0 misaligned: 0xE1A0F000. -/
theorem test_mov_pc_misaligned :
    stopsWith (setr 0 0x3000102 (putw 0x3000000 0xE1A0F000 (M base))) .misalignedBranchTarget = true := by decide

/-- CMP R1, #0 with Rd field = 1: 0xE3511000. -/
theorem test_cmp_should_be_zero :
    stopsWith (setr 1 0x0 (putw 0x3000000 0xE3511000 (M base))) .shouldBeField = true := by decide

/-- MSR CPSR_f, #0xF0000000: 0xE328F20F. -/
theorem test_msr_flags :
    runs (putw 0x3000000 0xE328F20F (M base))
    (fun s => nzcv s == 15 && s.pc == 0x3000004 && s.cycles == 1) = true := by decide

/-- MSR CPSR_c, R0: 0xE121F000. -/
theorem test_msr_mode :
    runs (setr 0 0xd2 (putw 0x3000000 0xE121F000 (M base)))
    (fun s => nzcv s == 0 && s.pc == 0x3000004 && decide (s.cpsr.mode = .irq) && s.cycles == 1) = true := by decide

/-- MSR CPSR_c, R0 invalid mode: 0xE121F000. -/
theorem test_msr_invalid_mode :
    stopsWith (setr 0 0xd5 (putw 0x3000000 0xE121F000 (M base))) .invalidMode = true := by decide

/-- MSR CPSR_c, R0 in User mode: 0xE121F000. -/
theorem test_msr_user_mode :
    runs (setr 0 0xd3 (putw 0x3000000 0xE121F000 (M (mode .usr base))))
    (fun s => nzcv s == 0 && s.pc == 0x3000004 && s.cycles == 1) = true := by decide

/-- MRS R0, SPSR in System mode: 0xE14F0000. -/
theorem test_mrs_spsr_system_mode :
    stopsWith (putw 0x3000000 0xE14F0000 (M (mode .sys base))) .noSpsr = true := by decide

/-- MLA R0, R1, R2, R3: 0xE0203291. -/
theorem test_mla :
    runs (setr 3 0x1 (setr 2 0x12345678 (setr 1 0x3 (putw 0x3000000 0xE0203291 (M base)))))
    (fun s => rd s 0 == 0x369d0369 && nzcv s == 0 && s.pc == 0x3000004 && s.cycles == 6) = true := by decide

/-- UMULL R0, R1, R2, R3: 0xE0810392. -/
theorem test_umull :
    runs (setr 3 0xffffffff (setr 2 0xffffffff (putw 0x3000000 0xE0810392 (M base))))
    (fun s => rd s 0 == 0x1 && rd s 1 == 0xfffffffe && nzcv s == 0 && s.pc == 0x3000004 && s.cycles == 6) = true := by decide

/-- SMULL R0, R1, R2, R3: 0xE0C10392. -/
theorem test_smull :
    runs (setr 3 0xffffffff (setr 2 0xffffffff (putw 0x3000000 0xE0C10392 (M base))))
    (fun s => rd s 0 == 0x1 && rd s 1 == 0x0 && nzcv s == 0 && s.pc == 0x3000004 && s.cycles == 3) = true := by decide

/-- MUL R0, R0, R1 (Rd = Rm): 0xE0000190. -/
theorem test_mul_rd_is_rm :
    stopsWith (setr 1 0x2 (setr 0 0x1 (putw 0x3000000 0xE0000190 (M base)))) .multiplyOperands = true := by decide

/-- SWP R0, R1, [R2]: 0xE1020091. -/
theorem test_swp :
    runs (setr 2 0x3000100 (setr 1 0xcafebabe (putw 0x3000000 0xE1020091 (M base))))
    (fun s => rd s 0 == 0x11223344 && getw s 0x03000100 == 0xCAFEBABE && nzcv s == 0 && s.pc == 0x3000004 && s.cycles == 4) = true := by decide

/-- SWPB R0, R1, [R2]: 0xE1420091. -/
theorem test_swpb :
    runs (setr 2 0x3000101 (setr 1 0xcafebabe (putw 0x3000000 0xE1420091 (M base))))
    (fun s => rd s 0 == 0x33 && getw s 0x03000100 == 0x1122BE44 && nzcv s == 0 && s.pc == 0x3000004 && s.cycles == 4) = true := by decide

/-- LDRB R0, [R1, #3]: 0xE5D10003. -/
theorem test_ldrb :
    runs (setr 1 0x3000100 (putw 0x3000000 0xE5D10003 (M base)))
    (fun s => rd s 0 == 0x11 && nzcv s == 0 && s.pc == 0x3000004 && s.cycles == 3) = true := by decide

/-- LDRSB R0, [R1, #7]: 0xE1D100D7. -/
theorem test_ldrsb :
    runs (setr 1 0x3000100 (putw 0x3000000 0xE1D100D7 (M base)))
    (fun s => rd s 0 == 0x55 && nzcv s == 0 && s.pc == 0x3000004 && s.cycles == 3) = true := by decide

/-- LDRSH R0, [R1, #6]: 0xE1D100F6. -/
theorem test_ldrsh :
    runs (setr 1 0x3000100 (putw 0x3000000 0xE1D100F6 (M base)))
    (fun s => rd s 0 == 0x5566 && nzcv s == 0 && s.pc == 0x3000004 && s.cycles == 3) = true := by decide

/-- LDR R0, [R1], #4: 0xE4910004. -/
theorem test_ldr_post_indexed :
    runs (setr 1 0x3000100 (putw 0x3000000 0xE4910004 (M base)))
    (fun s => rd s 0 == 0x11223344 && rd s 1 == 0x3000104 && nzcv s == 0 && s.pc == 0x3000004 && s.cycles == 3) = true := by decide

/-- LDR R0, [R1, #4]!: 0xE5B10004. -/
theorem test_ldr_pre_indexed :
    runs (setr 1 0x3000100 (putw 0x3000000 0xE5B10004 (M base)))
    (fun s => rd s 0 == 0x55667788 && rd s 1 == 0x3000104 && nzcv s == 0 && s.pc == 0x3000004 && s.cycles == 3) = true := by decide

/-- LDR R0, [R1, -R2, LSL #2]: 0xE7110102. -/
theorem test_ldr_scaled_register :
    runs (setr 2 0x2 (setr 1 0x3000108 (putw 0x3000000 0xE7110102 (M base))))
    (fun s => rd s 0 == 0x11223344 && nzcv s == 0 && s.pc == 0x3000004 && s.cycles == 3) = true := by decide

/-- STRB R0, [R1, #2]: 0xE5C10002. -/
theorem test_strb :
    runs (setr 1 0x3000100 (setr 0 0xaabbccdd (putw 0x3000000 0xE5C10002 (M base))))
    (fun s => getw s 0x03000100 == 0x11DD3344 && nzcv s == 0 && s.pc == 0x3000004 && s.cycles == 2) = true := by decide

/-- STR PC, [R1] (PC + 12, D4): 0xE581F000. -/
theorem test_str_pc :
    runs (setr 1 0x3000100 (putw 0x3000000 0xE581F000 (M base)))
    (fun s => getw s 0x03000100 == 0x0300000C && nzcv s == 0 && s.pc == 0x3000004 && s.cycles == 2) = true := by decide

/-- STR R0, [R1] into the next instruction: 0xE5810000. -/
theorem test_store_into_next :
    stopsWith (setr 1 0x3000004 (setr 0 0x0 (putw 0x3000000 0xE5810000 (M base)))) .storeIntoPrefetched = true := by decide

/-- STR R0, [R1] three instructions ahead: 0xE5810000. -/
theorem test_store_three_ahead :
    runs (setr 1 0x300000c (setr 0 0x0 (putw 0x3000000 0xE5810000 (M base))))
    (fun s => getw s 0x0300000C == 0 && nzcv s == 0 && s.pc == 0x3000004 && s.cycles == 2) = true := by decide

/-- LDR R0, [R1] from EWRAM: 0xE5910000. -/
theorem test_ldr_ewram_cost :
    runs (setr 1 0x2000000 (putw 0x3000000 0xE5910000 (M base)))
    (fun s => nzcv s == 0 && s.pc == 0x3000004 && s.cycles == 8) = true := by decide

/-- LDR R0, [R1] from ROM0: 0xE5910000. -/
theorem test_ldr_rom_cost :
    runs (setr 1 0x8000000 (putw 0x3000000 0xE5910000 (M base)))
    (fun s => nzcv s == 0 && s.pc == 0x3000004 && s.cycles == 10) = true := by decide

/-- LDR PC, [R1]: 0xE591F000. -/
theorem test_ldr_pc :
    runs (setr 1 0x300010c (putw 0x3000000 0xE591F000 (M base)))
    (fun s => nzcv s == 0 && s.pc == 0x03000200 && s.cpsr.t == false && s.cycles == 5) = true := by decide

/-- LDRB PC, [R1]: 0xE5D1F000. -/
theorem test_ldrb_pc :
    stopsWith (setr 1 0x3000100 (putw 0x3000000 0xE5D1F000 (M base))) .ldrbToR15 = true := by decide

/-- LDMIA R0!, (R1, R2): 0xE8B00006. -/
theorem test_ldmia :
    runs (setr 0 0x3000100 (putw 0x3000000 0xE8B00006 (M base)))
    (fun s => rd s 1 == 0x11223344 && rd s 2 == 0x55667788 && rd s 0 == 0x3000108 && nzcv s == 0 && s.pc == 0x3000004 && s.cycles == 4) = true := by decide

/-- LDMDB R0!, (R1, R2): 0xE9300006. -/
theorem test_ldmdb :
    runs (setr 0 0x3000108 (putw 0x3000000 0xE9300006 (M base)))
    (fun s => rd s 1 == 0x11223344 && rd s 2 == 0x55667788 && rd s 0 == 0x3000100 && nzcv s == 0 && s.pc == 0x3000004 && s.cycles == 4) = true := by decide

/-- STMIB R0, (R1, R2): 0xE9800006. -/
theorem test_stmib :
    runs (setr 2 0x2 (setr 1 0x1 (setr 0 0x30000fc (putw 0x3000000 0xE9800006 (M base)))))
    (fun s => getw s 0x03000100 == 1 && getw s 0x03000104 == 2 && nzcv s == 0 && s.pc == 0x3000004 && s.cycles == 3) = true := by decide

/-- STMDA R0!, (R1, R2): 0xE8200006. -/
theorem test_stmda :
    runs (setr 2 0x2 (setr 1 0x1 (setr 0 0x3000104 (putw 0x3000000 0xE8200006 (M base)))))
    (fun s => rd s 0 == 0x30000fc && getw s 0x03000100 == 1 && getw s 0x03000104 == 2 && nzcv s == 0 && s.pc == 0x3000004 && s.cycles == 3) = true := by decide

/-- STMIA R0!, (R0, R1) (base lowest): 0xE8A00003. -/
theorem test_stmia_base_lowest :
    runs (setr 1 0x9 (setr 0 0x3000100 (putw 0x3000000 0xE8A00003 (M base))))
    (fun s => rd s 0 == 0x3000108 && getw s 0x03000100 == 0x03000100 && getw s 0x03000104 == 9 && nzcv s == 0 && s.pc == 0x3000004 && s.cycles == 3) = true := by decide

/-- LDMIA R0!, (R0, R1): 0xE8B00003. -/
theorem test_ldmia_base_in_list :
    stopsWith (setr 0 0x3000100 (putw 0x3000000 0xE8B00003 (M base))) .rnInListWithWriteback = true := by decide

/-- LDMIA R0, (): 0xE8900000. -/
theorem test_ldm_empty_stops :
    stopsWith (setr 0 0x3000100 (putw 0x3000000 0xE8900000 (M base))) .emptyRegisterList = true := by decide

/-- B 0x03000100: 0xEA00003E. -/
theorem test_b :
    runs (putw 0x3000000 0xEA00003E (M base))
    (fun s => nzcv s == 0 && s.pc == 0x03000100 && s.cycles == 3) = true := by decide

/-- BL 0x03000100: 0xEB00003E. -/
theorem test_bl :
    runs (putw 0x3000000 0xEB00003E (M base))
    (fun s => rd s 14 == 0x3000004 && nzcv s == 0 && s.pc == 0x03000100 && s.cycles == 3) = true := by decide

/-- BX R0 to Thumb: 0xE12FFF10. -/
theorem test_bx_to_thumb :
    runs (setr 0 0x3000101 (putw 0x3000000 0xE12FFF10 (M base)))
    (fun s => nzcv s == 0 && s.pc == 0x03000100 && s.cpsr.t == true && s.cycles == 3) = true := by decide

/-- BX R0 misaligned ARM target: 0xE12FFF10. -/
theorem test_bx_misaligned :
    stopsWith (setr 0 0x3000102 (putw 0x3000000 0xE12FFF10 (M base))) .misalignedBranchTarget = true := by decide

/-- SWI 0x123456 in User mode: 0xEF123456. -/
theorem test_swi_user_mode :
    runs (flags 4 (putw 0x3000000 0xEF123456 (M (mode .usr base))))
    (fun s => s.regOf .svc 14 == 0x03000004 && nzcv s == 4 && s.pc == 0x00000008 && decide (s.cpsr.mode = .svc) && s.cycles == 3) = true := by decide

/-- CDP p0, 0, c0, c0, c0, 0: 0xEE000000. -/
theorem test_cdp_undefined :
    runs (putw 0x3000000 0xEE000000 (M (mode .usr base)))
    (fun s => s.regOf .und 14 == 0x03000004 && nzcv s == 0 && s.pc == 0x00000004 && decide (s.cpsr.mode = .und) && s.cycles == 4) = true := by decide

/-- undefined space: 0xE7F000F0. -/
theorem test_undefined_space :
    runs (putw 0x3000000 0xE7F000F0 (M (mode .usr base)))
    (fun s => s.regOf .und 14 == 0x03000004 && nzcv s == 0 && s.pc == 0x00000004 && decide (s.cpsr.mode = .und) && s.cycles == 4) = true := by decide

/-- LSL R0, R1, #0: 0x0008. -/
theorem test_thumb_lsl_zero :
    runs (flags 2 (setr 1 0x80000001 (puth 0x3000000 0x0008 (M (thumb base)))))
    (fun s => rd s 0 == 0x80000001 && nzcv s == 10 && s.pc == 0x3000002 && s.cycles == 1) = true := by decide

/-- LSR R0, R1, #0 (means #32): 0x0808. -/
theorem test_thumb_lsr_32 :
    runs (setr 1 0x80000001 (puth 0x3000000 0x0808 (M (thumb base))))
    (fun s => rd s 0 == 0x0 && nzcv s == 6 && s.pc == 0x3000002 && s.cycles == 1) = true := by decide

/-- SUB R0, R1, #7: 0x1FC8. -/
theorem test_thumb_sub_imm3 :
    runs (setr 1 0x7 (puth 0x3000000 0x1FC8 (M (thumb base))))
    (fun s => rd s 0 == 0x0 && nzcv s == 6 && s.pc == 0x3000002 && s.cycles == 1) = true := by decide

/-- MOV R0, #0: 0x2000. -/
theorem test_thumb_mov_zero :
    runs (flags 11 (puth 0x3000000 0x2000 (M (thumb base))))
    (fun s => rd s 0 == 0x0 && nzcv s == 7 && s.pc == 0x3000002 && s.cycles == 1) = true := by decide

/-- CMP R0, #255: 0x28FF. -/
theorem test_thumb_cmp_imm :
    runs (setr 0 0xff (puth 0x3000000 0x28FF (M (thumb base))))
    (fun s => nzcv s == 6 && s.pc == 0x3000002 && s.cycles == 1) = true := by decide

/-- ADD R0, #200: 0x30C8. -/
theorem test_thumb_add_imm8 :
    runs (setr 0 0xffffff80 (puth 0x3000000 0x30C8 (M (thumb base))))
    (fun s => rd s 0 == 0x48 && nzcv s == 2 && s.pc == 0x3000002 && s.cycles == 1) = true := by decide

/-- NEG R0, R1: 0x4248. -/
theorem test_thumb_neg :
    runs (setr 1 0x80000000 (puth 0x3000000 0x4248 (M (thumb base))))
    (fun s => rd s 0 == 0x80000000 && nzcv s == 9 && s.pc == 0x3000002 && s.cycles == 1) = true := by decide

/-- ROR R0, R1: 0x41C8. -/
theorem test_thumb_ror :
    runs (setr 1 0x24 (setr 0 0xf (puth 0x3000000 0x41C8 (M (thumb base)))))
    (fun s => rd s 0 == 0xf0000000 && nzcv s == 10 && s.pc == 0x3000002 && s.cycles == 2) = true := by decide

/-- ASR R0, R1: 0x4108. -/
theorem test_thumb_asr :
    runs (setr 1 0x28 (setr 0 0x80000000 (puth 0x3000000 0x4108 (M (thumb base)))))
    (fun s => rd s 0 == 0xffffffff && nzcv s == 10 && s.pc == 0x3000002 && s.cycles == 2) = true := by decide

/-- ADC R0, R1: 0x4148. -/
theorem test_thumb_adc :
    runs (flags 2 (setr 1 0xfffffffe (setr 0 0x1 (puth 0x3000000 0x4148 (M (thumb base))))))
    (fun s => rd s 0 == 0x0 && nzcv s == 6 && s.pc == 0x3000002 && s.cycles == 1) = true := by decide

/-- SBC R0, R1: 0x4188. -/
theorem test_thumb_sbc :
    runs (setr 1 0x0 (setr 0 0x0 (puth 0x3000000 0x4188 (M (thumb base)))))
    (fun s => rd s 0 == 0xffffffff && nzcv s == 8 && s.pc == 0x3000002 && s.cycles == 1) = true := by decide

/-- CMN R0, R1: 0x42C8. -/
theorem test_thumb_cmn :
    runs (setr 1 0x80000000 (setr 0 0x80000000 (puth 0x3000000 0x42C8 (M (thumb base)))))
    (fun s => nzcv s == 7 && s.pc == 0x3000002 && s.cycles == 1) = true := by decide

/-- BIC R0, R1: 0x4388. -/
theorem test_thumb_bic :
    runs (setr 1 0xf (setr 0 0xff (puth 0x3000000 0x4388 (M (thumb base)))))
    (fun s => rd s 0 == 0xf0 && nzcv s == 0 && s.pc == 0x3000002 && s.cycles == 1) = true := by decide

/-- MUL R0, R0: 0x4340. -/
theorem test_thumb_mul_same :
    stopsWith (setr 0 0x3 (puth 0x3000000 0x4340 (M (thumb base)))) .multiplyOperands = true := by decide

/-- ADD R8, R1: 0x4488. -/
theorem test_thumb_add_hi :
    runs (setr 1 0x1 (setr 8 0xffffffff (puth 0x3000000 0x4488 (M (thumb base)))))
    (fun s => rd s 8 == 0x0 && nzcv s == 0 && s.pc == 0x3000002 && s.cycles == 1) = true := by decide

/-- CMP R8, R9: 0x45C8. -/
theorem test_thumb_cmp_hi :
    runs (setr 9 0x5 (setr 8 0x5 (puth 0x3000000 0x45C8 (M (thumb base)))))
    (fun s => nzcv s == 6 && s.pc == 0x3000002 && s.cycles == 1) = true := by decide

/-- MOV PC, R0: 0x4687. -/
theorem test_thumb_mov_pc :
    runs (setr 0 0x3000101 (puth 0x3000000 0x4687 (M (thumb base))))
    (fun s => nzcv s == 0 && s.pc == 0x03000100 && s.cycles == 3) = true := by decide

/-- ADD R0, R1 with H1 = H2 = 0: 0x4408. -/
theorem test_thumb_add_low_registers :
    stopsWith (puth 0x3000000 0x4408 (M (thumb base))) .shouldBeField = true := by decide

/-- ADD R0, PC, #4 at 0x03000002: 0xA001. -/
theorem test_thumb_add_pc :
    runs (puth 0x3000002 0xA001 (M (setpc 0x3000002 (thumb base))))
    (fun s => rd s 0 == 0x3000008 && nzcv s == 0 && s.pc == 0x03000004 && s.cycles == 1) = true := by decide

/-- ADD R0, SP, #1020: 0xA8FF. -/
theorem test_thumb_add_sp :
    runs (setr 13 0x3007000 (puth 0x3000000 0xA8FF (M (thumb base))))
    (fun s => rd s 0 == 0x30073fc && nzcv s == 0 && s.pc == 0x3000002 && s.cycles == 1) = true := by decide

/-- SUB SP, #508: 0xB0FF. -/
theorem test_thumb_dec_sp :
    runs (setr 13 0x3007f00 (puth 0x3000000 0xB0FF (M (thumb base))))
    (fun s => rd s 13 == 0x3007d04 && nzcv s == 0 && s.pc == 0x3000002 && s.cycles == 1) = true := by decide

/-- LDR R0, [PC, #0xFC] at 0x03000002: 0x483F. -/
theorem test_thumb_ldr_pc :
    runs (puth 0x3000002 0x483F (M (setpc 0x3000002 (thumb base))))
    (fun s => rd s 0 == 0x11223344 && nzcv s == 0 && s.pc == 0x03000004 && s.cycles == 3) = true := by decide

/-- LDSB R0, [R1, R2]: 0x5688. -/
theorem test_thumb_ldsb :
    runs (setr 2 0xb (setr 1 0x3000100 (puth 0x3000000 0x5688 (M (thumb base)))))
    (fun s => rd s 0 == 0xffffff99 && nzcv s == 0 && s.pc == 0x3000002 && s.cycles == 3) = true := by decide

/-- LDSH R0, [R1, R2]: 0x5E88. -/
theorem test_thumb_ldsh :
    runs (setr 2 0xa (setr 1 0x3000100 (puth 0x3000000 0x5E88 (M (thumb base)))))
    (fun s => rd s 0 == 0xffff99aa && nzcv s == 0 && s.pc == 0x3000002 && s.cycles == 3) = true := by decide

/-- LDRH R0, [R1, #6]: 0x88C8. -/
theorem test_thumb_ldrh :
    runs (setr 1 0x3000100 (puth 0x3000000 0x88C8 (M (thumb base))))
    (fun s => rd s 0 == 0x5566 && nzcv s == 0 && s.pc == 0x3000002 && s.cycles == 3) = true := by decide

/-- STR R0, [R1, #124]: 0x67C8. -/
theorem test_thumb_str_imm :
    runs (setr 1 0x3000084 (setr 0 0xaabbccdd (puth 0x3000000 0x67C8 (M (thumb base)))))
    (fun s => getw s 0x03000100 == 0xAABBCCDD && nzcv s == 0 && s.pc == 0x3000002 && s.cycles == 2) = true := by decide

/-- PUSH (R0, LR): 0xB501. -/
theorem test_thumb_push :
    runs (setr 14 0x3000201 (setr 13 0x3000110 (setr 0 0x1 (puth 0x3000000 0xB501 (M (thumb base))))))
    (fun s => rd s 13 == 0x3000108 && getw s 0x03000108 == 1 && getw s 0x0300010C == 0x03000201 && nzcv s == 0 && s.pc == 0x3000002 && s.cycles == 3) = true := by decide

/-- POP (R0, PC): 0xBD01. -/
theorem test_thumb_pop_pc :
    runs (setr 13 0x3000108 (puth 0x3000000 0xBD01 (M (thumb base))))
    (fun s => rd s 0 == 0x99aabbcc && rd s 13 == 0x3000110 && nzcv s == 0 && s.pc == 0x03000200 && s.cycles == 6) = true := by decide

/-- STMIA R0!, (R0, R1) (base lowest): 0xC003. -/
theorem test_thumb_stmia_base_lowest :
    runs (setr 1 0x9 (setr 0 0x3000100 (puth 0x3000000 0xC003 (M (thumb base)))))
    (fun s => rd s 0 == 0x3000108 && getw s 0x03000100 == 0x03000100 && getw s 0x03000104 == 9 && nzcv s == 0 && s.pc == 0x3000002 && s.cycles == 3) = true := by decide

/-- LDMIA R0!, (R0, R1) (Rb in the list): 0xC803. -/
theorem test_thumb_ldmia_base_listed :
    runs (setr 0 0x3000100 (puth 0x3000000 0xC803 (M (thumb base))))
    (fun s => rd s 0 == 0x11223344 && rd s 1 == 0x55667788 && nzcv s == 0 && s.pc == 0x3000002 && s.cycles == 4) = true := by decide

/-- BEQ 0x03000020: 0xD00E. -/
theorem test_thumb_beq_taken :
    runs (flags 4 (puth 0x3000000 0xD00E (M (thumb base))))
    (fun s => nzcv s == 4 && s.pc == 0x03000020 && s.cycles == 3) = true := by decide

/-- B .: 0xE7FE. -/
theorem test_thumb_b_self :
    runs (puth 0x3000000 0xE7FE (M (thumb base)))
    (fun s => nzcv s == 0 && s.pc == 0x03000000 && s.cycles == 3) = true := by decide

/-- BL prefix: 0xF000. -/
theorem test_thumb_bl_high :
    runs (puth 0x3000000 0xF000 (M (thumb base)))
    (fun s => rd s 14 == 0x3000004 && nzcv s == 0 && s.pc == 0x03000002 && s.cycles == 1) = true := by decide

/-- BX R0: 0x4700. -/
theorem test_thumb_bx_to_arm :
    runs (setr 0 0x3000200 (puth 0x3000000 0x4700 (M (thumb base))))
    (fun s => nzcv s == 0 && s.pc == 0x03000200 && s.cpsr.t == false && s.cycles == 3) = true := by decide

/-- BX PC at 0x03000002: 0x4778. -/
theorem test_thumb_bx_pc_misaligned :
    stopsWith (puth 0x3000002 0x4778 (M (setpc 0x3000002 (thumb base)))) .misalignedBranchTarget = true := by decide

/-- SWI 0: 0xDF00. -/
theorem test_thumb_swi :
    runs (puth 0x3000000 0xDF00 (M (thumb base)))
    (fun s => s.regOf .svc 14 == 0x03000002 && nzcv s == 0 && s.pc == 0x00000008 && s.cpsr.t == false && decide (s.cpsr.mode = .svc) && s.cycles == 3) = true := by decide

/-- undefined word: 0xDE00. -/
theorem test_thumb_undefined :
    runs (puth 0x3000000 0xDE00 (M (thumb base)))
    (fun s => s.regOf .und 14 == 0x03000002 && nzcv s == 0 && s.pc == 0x00000004 && s.cpsr.t == false && decide (s.cpsr.mode = .und) && s.cycles == 4) = true := by decide

/-- A saved status with NZCV = 0100 and the status byte m. -/
def savedZ (m : BitVec 5) : Psr := ⟨false, true, false, false, false, false, false, m, FlagMarks.fill true, true⟩

/-- The SPSR of IRQ mode holds it. -/
def irqSaved (m : BitVec 5) (s : State) : State := mode .irq { s with spsr := { s.spsr with irq := savedZ m } }

/-- LDMFD SP!, (R0, PC)^ in IRQ mode: 0xE8FD8001. -/
theorem test_ldm_exception_return :
    runs (setr 13 0x03000108 (irqSaved 0x1F (putw 0x3000000 0xE8FD8001 (M base))))
    (fun s => rd s 0 == 0x99AABBCC && s.regOf .irq 13 == 0x03000110 && s.pc == 0x03000200 && nzcv s == 4 &&
      decide (s.cpsr.mode = .sys) && s.cycles == 6) = true := by decide

/-- An instruction placed by withFetchWord is the next one to run (R700: the first after reset). -/
theorem test_placed_after_reset :
    runs (State.withFetchWord State.reset 32 0xE3A00001) (fun s => rd s 0 == 1 && s.pc == 4) = true := by decide

/-- An unmasked IRQ is taken before the instruction at PC, and the one at the vector runs (R608). -/
theorem test_irq_taken :
    runs (putw 0x18 0xE1A00000 { base with cpsr := { base.cpsr with i := false }, irqInput := true })
    (fun s => s.regOf .irq 14 == 0x03000004 && s.pc == 0x1C && decide (s.cpsr.mode = .irq) && s.cpsr.i) = true := by
  decide

/-- A halted machine lets one cycle pass (R615, R717). -/
theorem test_halted_step :
    runs { base with run := .halted } (fun s => s.cycles == 1 && s.pc == 0x03000000 && decide (s.run = .halted)) = true := by
  decide

/-- A byte stored to PRAM fills the halfword (R77). -/
theorem test_pram_byte :
    runs (setr 0 0xAB (setr 1 0x05000003 (putw 0x3000000 0xE5C10000 base)))
    (fun s => s.peek 0x05000002 == some 0xAB && s.peek 0x05000003 == some 0xAB) = true := by decide

/-- A byte stored to OAM changes nothing (R79). -/
theorem test_oam_byte :
    runs (setr 0 0xAB (setr 1 0x07000003 (putw 0x3000000 0xE5C10000 (putw 0x07000000 0x01020304 base))))
    (fun s => getw s 0x07000000 == 0x01020304) = true := by decide

/-- The bits 13 and 15 of WAITCNT do not store (R76). -/
theorem test_waitcnt_mask :
    runs (setr 0 0xFFFF (setr 1 0x04000204 (putw 0x3000000 0xE1C100B0 base))) (fun s => s.waitcnt == 0x5FFF) = true := by
  decide

/-- A byte stored to HALTCNT halts at the end of the step (R614). -/
theorem test_haltcnt :
    runs (setr 0 0 (setr 1 0x04000301 (putw 0x3000000 0xE5C10000 base)))
    (fun s => decide (s.run = .halted) && !s.haltRequest) = true := by decide

/-- The state right after a user-bank transfer (R46). -/
def marked (s : State) : State := { s with hazardMark := some s.cycles }

/-- An instruction that names a banked register right after a user-bank transfer stops (R706). -/
theorem test_user_bank_hazard :
    stopsWith (marked (mode .irq (putw 0x3000000 0xE1A0000D base))) .bankedAfterUserTransfer = true := by decide

/-- MOVS R0, #1 with C unwritten leaves C unwritten (95_test_vectors, C8), and R0 is written. -/
theorem test_movs_leaves_c_unwritten :
    runs (putw 0x3000000 0xE3B00001 base)
    (fun s => rd s 0 == 1 && nzcv s == 0 && decide (s.cpsr.marks = ⟨true, true, false, false⟩) && s.regWritten .sys 0 &&
      !s.regWritten .sys 1) = true := by decide

/-- A word stored to the cartridge at 0x08000103 reaches it at the aligned address (R65, R80). -/
theorem test_rom_write_aligned :
    runs (setr 0 0xAB (setr 1 0x08000103 (putw 0x3000000 0xE5810000 base)))
    (fun s => decide (s.forwarded = [⟨.cartridge, true, 0x08000100, .word, 0xAB⟩])) = true := by decide

/-- A byte read at an odd I/O offset goes to the device registered for that offset (R73). -/
theorem test_device_at_odd_offset :
    runs (setr 1 0x04000061 (putw 0x3000000 0xE5D10000
      { base with params := { base.params with devices := [⟨0x60, 0x60, 1⟩, ⟨0x61, 0x61, 2⟩] }, answers := [0xAB] }))
    (fun s => rd s 0 == 0xAB && decide (s.forwarded = [⟨.device 2, false, 0x61, .byte, 0⟩])) = true := by decide

/-- An instruction whose condition fails, and a halted step, end with the bit down (R46). -/
theorem test_hazard_lasts_one_step :
    (marked base).userBankHazard = true ∧ runs (marked (putw 0x3000000 0x03A00001 base)) (fun s => !s.userBankHazard) = true ∧
    runs (marked { base with run := .halted }) (fun s => !s.userBankHazard) = true := by decide

/-- A snapshot restored into another machine brings registers and RAM, and leaves its ROM image (R43). -/
theorem test_snapshot :
    (match restoreState (saveState (setr 0 5 (putw 0x08000000 1 (M base)))) (putw 0x03000100 7 (putw 0x08000000 9 base)) with
      | some s => rd s 0 == 5 && s.regWritten .sys 0 && getw s 0x03000100 == 0x11223344 && getw s 0x08000000 == 9
      | none => false) = true ∧
    restoreState { saveState base with version := 2 } base = none := by decide

/-! ### Witnesses: the hypotheses of every statement that has some can be met -/

/-- The answer is a next state. -/
def isNext (r : Result) : Bool :=
  match r with
  | .next _ => true
  | .fault _ => false
  | .refused _ => false

theorem exists_next {r : Result} (h : isNext r = true) : ∃ t, r = .next t := by
  cases r with
  | next t => exact ⟨t, rfl⟩
  | fault _ => cases h
  | refused _ => cases h

/-- A state whose next instruction is the ARM word. -/
def armAt (w : Nat) : State := putw 0x3000000 w (M base)

/-- A state whose next instruction is the Thumb halfword. -/
def thumbAt (h : Nat) : State := thumb (puth 0x3000000 h (M base))

theorem witness_StepRunsDecodedInstruction :
    (Ready (armAt 0xE1A00000) ∧ CodeAt (armAt 0xE1A00000) [0x00, 0x00, 0xA0, 0xE1] ∧
      decode false [0x00, 0x00, 0xA0, 0xE1] = .ok (.armMov .al false 0 0 (.immShift 0 .lsl 0), []) ∧
      bankHazard (.armMov .al false 0 0 (.immShift 0 .lsl 0)) (armAt 0xE1A00000) = false) ∧
    Ready (thumbAt 0x4348) ∧ CodeAt (thumbAt 0x4348) [0x48, 0x43] ∧
      decode true [0x48, 0x43] = .ok (.thumbMul 1 0, []) ∧ bankHazard (.thumbMul 1 0) (thumbAt 0x4348) = false :=
  ⟨⟨⟨by decide, by decide, by decide⟩, ⟨by decide, by decide⟩, by decide, by decide⟩,
    ⟨by decide, by decide, by decide⟩, ⟨by decide, by decide⟩, by decide, by decide⟩

theorem witness_ThumbDecodeOfEncode : (Instr.thumbBcond .le 0xFF).wf = true ∧ (Instr.thumbBcond .le 0xFF).isThumb = true ∧
    (Instr.thumbUnd1011 0x2FF).wf = true ∧ (Instr.thumbUnd1011 0x2FF).isThumb = true := by decide

theorem witness_ArmDecodeOfEncode : (Instr.armUndMul .al 0x05 0xFFF 0xF).wf = true ∧
    (Instr.armUndMul .al 0x05 0xFFF 0xF).isThumb = false ∧ (Instr.armSwi .nv 0xFFFFFF).wf = true ∧
    (Instr.armSwi .nv 0xFFFFFF).isThumb = false := by decide

theorem witness_EveryStepKeepsInvariant : (armAt 0xE5810000).Inv ∧ ∃ t, step (armAt 0xE5810000) = .next t :=
  ⟨⟨by decide, by decide, by decide, by intro k h; cases h⟩, exists_next (by decide)⟩

theorem witness_ResetState : (∃ t, step (armAt 0xE1A00000) = .next t) ∧ Mem.wf (M base).mem = true ∧
    (setr 0 5 (armAt 0xE1A00000)).written.get (.low 0) = true ∧ ((0x4000 : Nat) < 0x08000000) ∧
    (∃ v, restoreState (saveState (M base)) base = some v ∧ Mem.get v.mem 0x03000100 = some 0x44) :=
  ⟨exists_next (by decide), by decide, by decide, by decide, _, rfl, by decide⟩

theorem witness_CyclesStrictlyIncrease : (∃ t, step (armAt 0xE1A00000) = .next t) ∧
    ∃ t, step { base with run := .halted } = .next t := ⟨exists_next (by decide), exists_next (by decide)⟩

theorem witness_StepsLeaveImages : (∃ t, step (setr 1 0x3FFC (armAt 0xE5810000)) = .next t) ∧ region 0x3FFC = .bios ∧
    (region 0x09FFFFFF).isRom = true := ⟨exists_next (by decide), by decide, by decide⟩

theorem witness_UserModeLeftOnlyByException :
    ((mode .usr (armAt 0xEF000000)).cpsr.mode = .usr ∧ ∃ t, exec (.armSwi .al 0) (mode .usr base) = .next t) ∧
    serviceInterrupts (mode .usr (armAt 0xEF000000)) = mode .usr (armAt 0xEF000000) ∧
    runs (mode .usr (armAt 0xEF000000)) (fun t => t.cpsr.mode != .usr && t.pc == 8) = true ∧
    runs (mode .usr (armAt 0xE7F000F0)) (fun t => t.cpsr.mode != .usr && t.pc == 4) = true ∧
    isNext (exec (.armMsrImm .al false 9 0xF 0 0x1F) (mode .usr base)) = true :=
  ⟨⟨by decide, exists_next (by decide)⟩, by decide, by decide, by decide, by decide⟩

theorem witness_OtherBanksUntouched : Instr.isUserBank (.armMov .al false 0 13 (.imm 0 1)) = false ∧
    (∃ t, exec (.armMov .al false 0 13 (.imm 0 1)) base = .next t ∧ t.cpsr.mode = base.cpsr.mode) ∧
    ∀ n, phys base.cpsr.mode n ≠ some (.sp .irq) := by
  refine ⟨by decide, ⟨_, rfl, by decide⟩, by decide⟩

theorem witness_HaltedState : State.pcAligned { base with run := .halted } = true ∧
    State.wakeLine { base with run := .halted } = false ∧
    State.wakeLine { base with run := .halted, irqc := ⟨1, 1, false⟩ } = true := by decide

theorem witness_InterruptEntry : base.pcAligned = true ∧ base.run = .running ∧ base.fiqLine = false ∧
    base.irqLine = false ∧
    (State.fiqLine { base with cpsr := { base.cpsr with f := false }, fiqLine := true } = true) ∧
    State.irqLine { base with cpsr := { base.cpsr with i := false }, irqInput := true } = true ∧
    isNext (step { (putw 0x1C 0xE1A00000 base) with cpsr := { base.cpsr with f := false }, fiqLine := true }) = true := by
  decide

theorem witness_InterruptLines : base.irqInput = false ∧
    State.irqLine { base with irqc := ⟨0x8000, 0x8000, true⟩ } = true ∧
    State.irqLine { base with irqc := ⟨0x8000, 0x8000, false⟩ } = false ∧
    ∃ t, memWrite { base with irqc := ⟨0, 0x8001, false⟩ } 0x04000202 .half 0x8000 = .next t ∧ t.irqc.iflag = 1 ∧
    isNext (memWrite base 0x04000200 .half 1) = true ∧ isNext (memWrite base 0x04000201 .byte 1) = true ∧
    isNext (memWrite base 0x04000203 .byte 1) = true ∧ isNext (memWrite base 0x04000208 .half 1) = true ∧
    isNext (memWrite base 0x04000209 .byte 1) = true :=
  ⟨by decide, by decide, by decide, _, rfl, by decide, by decide, by decide, by decide, by decide, by decide⟩

theorem witness_SoftwareInterrupt : condPassed .al base.cpsr = true ∧ condPassed .ne base.cpsr = true := by decide

theorem witness_UndefinedInstruction : condPassed .al base.cpsr = true ∧ condPassed .nv base.cpsr = false := by decide

theorem witness_ExceptionRoundTrip : base.pcAligned = true ∧ (thumbAt 0xDF00).pcAligned = true ∧
    (setpc 0x03000002 (thumbAt 0)).pcAligned = true := by decide

theorem witness_FailedConditionIsNoOp : (Instr.armSwi .eq 0).isThumb = false ∧
    condPassed (Instr.cond (.armSwi .eq 0)) base.cpsr = false ∧
    condPassed (Instr.cond (.armMov .nv false 0 15 (.imm 0 0))) base.cpsr = false := by decide

/-- The boundary amounts of R202. -/
theorem witness_ImmediateShifts : shiftByImm .lsl 1 0x80000001 false = (2, true) ∧
    shiftByImm .lsl 31 0x80000003 false = (0x80000000, true) ∧ shiftByImm .lsr 31 0xC0000000 false = (1, true) ∧
    shiftByImm .asr 31 0x80000000 false = (0xFFFFFFFF, false) ∧ shiftByImm .ror 31 0x80000001 true = (3, false) ∧
    shiftByImm .asr 0 0x7FFFFFFF true = (0, false) := by decide

/-- The boundary amounts of R203. -/
theorem witness_RegisterShifts : shiftByReg .lsl 0 0x80000001 true = (0x80000001, true) ∧
    shiftByReg .lsl 1 0x80000001 false = (2, true) ∧ shiftByReg .lsl 32 0x80000001 false = (0, true) ∧
    shiftByReg .lsl 33 0x80000001 true = (0, false) ∧ shiftByReg .lsr 32 0x80000001 false = (0, true) ∧
    shiftByReg .lsr 255 0x80000001 true = (0, false) ∧ shiftByReg .asr 255 0x80000001 false = (0xFFFFFFFF, true) ∧
    shiftByReg .ror 32 0x80000001 false = (0x80000001, true) ∧ shiftByReg .ror 255 1 false = (2, false) ∧
    condPassed .al base.cpsr = true ∧ operand2 base (.regShift 15 .lsl 0) = .error .rsIsR15 := by decide

theorem witness_ReadingR15 : (7 : RegNo).toNat = (7 : Fin 8).val ∧ (8 : RegNo).toNat = (0 : Fin 5).val + 8 ∧
    (12 : RegNo).toNat = (4 : Fin 5).val + 8 ∧ phys .fiq 7 = some (.low 7) ∧ phys .fiq 8 = some (.midFiq 0) ∧
    phys .irq 12 = some (.mid 4) ∧ phys .sys 13 = some (.sp .usr) ∧ (14 : RegNo) ≠ 15 ∧ base.reg 15 = 0x03000008 ∧ (thumb base).reg 15 = 0x03000004 ∧
    operand2 base (.regShift 3 .lsl 15) = .ok (0x0300000C, false) ∧
    operand2 base (.immShift 0 .lsl 15) = .ok (0x03000008, false) := by decide

theorem witness_LogicalResults : condPassed .al base.cpsr = true ∧
    operand2 base (.imm 1 0xFF) = .ok (0xC000003F, true) ∧ operand2 base (.regShift 1 .lsl 15) = .ok (0x0300000C, false) ∧
    (14 : RegNo) ≠ 15 := by decide

theorem witness_ArithmeticResults : condPassed .al base.cpsr = true ∧ operand2 base (.imm 0 1) = .ok (1, false) ∧
    operand2 (setr 1 0x80000000 base) (.immShift 0 .lsr 1) = .ok (0, true) ∧ (0 : RegNo) ≠ 15 := by decide

theorem witness_TestAndCompareResults : condPassed .al base.cpsr = true ∧
    operand2 (setr 2 0x21 (setr 1 1 base)) (.regShift 2 .lsl 1) = .ok (0, false) := by decide

theorem witness_DataProcessingToPc : condPassed .al base.cpsr = true ∧
    operand2 (setr 0 0x03000102 base) (.immShift 0 .lsl 0) = .ok (0x03000102, false) ∧
    pcFits false 0x03000102 = false ∧ pcFits false 0x03000100 = true ∧ pcFits true 0x03000102 = true ∧
    base.spsr.get base.cpsr.mode = none ∧
    (irqSaved 0x1F base).spsr.get (irqSaved 0x1F base).cpsr.mode =
      some (savedZ 0x1F) ∧
    (savedZ 0x1F).restored? = some ⟨false, true, false, false, false, false, false, .sys, FlagMarks.fill true⟩ ∧
    (savedZ 0).restored? = none := by decide

theorem witness_ShouldBeFieldStops : condPassed .al base.cpsr = true ∧ (1 : BitVec 4) ≠ 0 ∧ (0xE : BitVec 4) ≠ 0xF ∧
    (0xFFE : BitVec 12) ≠ 0xFFF ∧ (7 : RegNo).toNat < 8 ∧ (14 : RegNo) ≠ 15 ∧
    exec (.armStrh .al true true false 1 0 (.reg 1 2)) base = .fault .shouldBeField :=
  ⟨by decide, by decide, by decide, by decide, by decide, by decide, rfl⟩

theorem witness_MrsResults : condPassed .al base.cpsr = true ∧ (14 : RegNo) ≠ 15 ∧ base.cpsr.mode = .sys ∧
    (irqSaved 0x1F base).spsr.get (irqSaved 0x1F base).cpsr.mode =
      some (savedZ 0x1F) := by decide

theorem witness_MsrResults : condPassed .al base.cpsr = true ∧ (0 : RegNo) ≠ 15 ∧ (1 : BitVec 4).getLsbD 0 = true ∧
    (8 : BitVec 4).getLsbD 0 = false ∧ (mode .usr base).cpsr.mode = .usr ∧ base.cpsr.mode ≠ .usr ∧
    (0xC0 : Word).extractLsb' 0 5 ∉ [0x10, 0x11, 0x12, 0x13, 0x17, 0x1B, (0x1F : BitVec 5)] ∧ Mode.irq.bits = (0xD2 : Word).extractLsb' 0 5 ∧
    (0xD2 : Word).getLsbD 5 = base.cpsr.t ∧ (0xF2 : Word).getLsbD 5 ≠ base.cpsr.t ∧
    (irqSaved 0x1F base).spsr.get (irqSaved 0x1F base).cpsr.mode =
      some (savedZ 0x1F) := by
  refine ⟨by decide, by decide, by decide, by decide, by decide, by decide, by decide, by decide, by decide, by decide,
    by decide⟩

theorem witness_MultiplyResults : condPassed .al base.cpsr = true ∧ (0 : RegNo) ≠ 15 ∧ (14 : RegNo) ≠ 15 ∧
    (0 : RegNo) ≠ 14 ∧ (0 : LowReg) ≠ 7 := by decide

theorem witness_LongMultiplyResults : condPassed .al base.cpsr = true ∧ (1 : RegNo) ≠ 15 ∧ (0 : RegNo) ≠ 15 ∧
    (2 : RegNo) ≠ 15 ∧ (3 : RegNo) ≠ 15 ∧ (1 : RegNo) ≠ 0 ∧ (1 : RegNo) ≠ 2 ∧ (0 : RegNo) ≠ 2 := by decide

theorem witness_OperandRestrictionStops : condPassed .al base.cpsr = true ∧
    exec (.armMul .al false 0 0 1 0) base = .fault .multiplyOperands ∧
    exec (.armUmull .al false 1 0 2 0) base = .fault .multiplyOperands ∧
    exec (.armSwp .al 2 2 0 3) base = .fault .swpOperands := ⟨by decide, rfl, rfl, rfl⟩

theorem witness_SwapResults : condPassed .al base.cpsr = true ∧ (2 : RegNo) ≠ 15 ∧ (0 : RegNo) ≠ 15 ∧ (2 : RegNo) ≠ 0 ∧
    prefetchHit base 0x03000100 .word = false ∧ prefetchHit base 0x03000004 .word = true ∧
    prefetchHit base 0x0300000B .byte = true ∧ prefetchHit base 0x0300000C .byte = false := by decide

/-- Devices 1 and 2 own the halves at 0x60 and 0x62, device 3 the word at 0x64; the save media claims 0x0D000000. -/
def attached : State :=
  { base with params := { base.params with
      devices := [⟨0x60, 0x61, 1⟩, ⟨0x62, 0x63, 2⟩, ⟨0x64, 0x67, 3⟩], saveClaims := [⟨0x0D000000, 0x0DFFFFFF⟩] } }

theorem registered_60 : Registered attached 0x60 1 :=
  ⟨by unfold OwnOffset; omega, [], ⟨0x60, 0x61, 1⟩, [⟨0x62, 0x63, 2⟩, ⟨0x64, 0x67, 3⟩], rfl, rfl, by decide, by decide,
    by simp⟩

theorem registered_64 : Registered attached 0x64 3 ∧ Registered attached 0x66 3 :=
  ⟨⟨by unfold OwnOffset; omega, [⟨0x60, 0x61, 1⟩, ⟨0x62, 0x63, 2⟩], ⟨0x64, 0x67, 3⟩, [], rfl, rfl, by decide, by decide,
    by decide⟩, by unfold OwnOffset; omega, [⟨0x60, 0x61, 1⟩, ⟨0x62, 0x63, 2⟩], ⟨0x64, 0x67, 3⟩, [], rfl, rfl, by decide,
    by decide, by decide⟩

theorem unregistered_206 : Unregistered attached 0x206 := ⟨by unfold OwnOffset; omega, by decide⟩

/-- Device 2, not device 1, owns the offset 0x62: the word at 0x60 is two halfwords. -/
theorem split_60 : ∀ id, ¬(Registered attached 0x60 id ∧ Registered attached 0x62 id) := by
  rintro id ⟨⟨-, b, d, e, hl, rfl, h1, h2, -⟩, -, b', d', e', hl', hid, h1', h2', -⟩
  have hd : d ∈ attached.params.devices := by rw [hl]; simp
  have hd' : d' ∈ attached.params.devices := by rw [hl']; simp
  simp [attached] at hd hd'
  rcases hd with rfl | rfl | rfl <;> rcases hd' with rfl | rfl | rfl <;> simp at *

theorem witness_MemoryReads : Plain base 0x0203FFFF ∧ Plain base 0x09FFFFFF ∧ Plain (setpc 0x3FFC base) 0x3FFF ∧
    (region 0 = .bios ∧ 0x4000 ≤ base.pc.toNat ∧ 0x4000 ≤ (setpc 0x4000 base).pc.toNat) ∧
    ((0x03000102 : Word).toNat % 2 = 0 ∧ (0x03000103 : Word).toNat % 2 = 1) ∧
    (region 0x4000 = .unmapped ∧ region 0x04000206 = .io ∧ Width.half ≠ .word) ∧
    offset (align 0x04000207 .half) = 0x206 ∧ offset (align 0x04000063 .word) = 0x60 ∧
    (SaveWindow attached 0x0E00FFFF ∧ SaveWindow attached 0x0DFFFFFF ∧ ¬SaveWindow attached 0x0CFFFFFF) :=
  ⟨⟨by decide, by decide, by decide⟩, ⟨by decide, by decide, by decide⟩, ⟨by decide, by decide, by decide⟩, by decide,
    by decide, by decide, by decide, by decide, .inl (by decide), .inr (by decide),
    fun h => h.elim (by decide) (by decide)⟩

/-- The last address of each store, and the places where byte stores change. -/
theorem witness_MemoryWrites : (∃ t, memWrite base 0x03007FFF .byte 0xAB = .next t) ∧ StoresWhole 0x03007FFF .byte ∧
    (∃ t, memWrite base 0x0600FFFF .byte 0xAB = .next t) ∧ region 0x0600FFFF = .vram ∧
    offset 0x0600FFFF < base.params.vramBoundary.value ∧ (∃ t, memWrite base 0x06010000 .byte 0xAB = .next t) ∧
    base.params.vramBoundary.value ≤ offset 0x06010000 ∧ (∃ t, memWrite base 0x070003FF .byte 0xAB = .next t) ∧
    (∃ t, memWrite base 0x3FFF .word 1 = .next t) ∧ region 0x3FFF = .bios ∧ region 0x4000 = .unmapped ∧
    ((∃ t, memWrite attached 0x04000060 .word 1 = .next t) ∧ ∃ t, memWrite attached 0x04000064 .word 1 = .next t) ∧
    (∃ t, memWrite attached 0x0E000001 .half 1 = .next t) ∧ (∃ t, memWrite attached 0x0C000001 .half 1 = .next t) ∧
    (region 0x0C000001).isRom = true ∧ claimed attached 0x0C000001 = false ∧
    OutsideStore 0x03000100 .word 0x03000104 :=
  ⟨exists_next (by decide), .inr (.inl (by decide)), exists_next (by decide), by decide, by decide,
    exists_next (by decide), by decide, exists_next (by decide), exists_next (by decide), by decide, by decide,
    ⟨exists_next (by decide), exists_next (by decide)⟩, exists_next (by decide), exists_next (by decide), by decide,
    by decide, fun k hk => by
      have h : k = 0 ∨ k = 1 ∨ k = 2 ∨ k = 3 := by
        have : k < 4 := hk
        omega
      rcases h with rfl | rfl | rfl | rfl <;> decide⟩

theorem witness_PrefetchHazard : memWrite base 0x03000004 .word 0 = .fault .storeIntoPrefetched ∧
    memWrite base 0x0300000B .byte 0 = .fault .storeIntoPrefetched ∧
    memWrite base 0x03008004 .word 0 = .fault .storeIntoPrefetched ∧
    (∃ t, memWrite base 0x0300000C .word 0 = .next t) ∧ ∃ t, memWrite base 0x03000003 .word 0 = .next t :=
  ⟨rfl, rfl, rfl, exists_next (by decide), exists_next (by decide)⟩

theorem witness_ControlRegisterWrites : (∃ t, memWrite base 0x04000204 .half 0xFFFF = .next t) ∧
    (∃ t, memWrite base 0x04000204 .byte 0xFF = .next t) ∧ (∃ t, memWrite base 0x04000205 .byte 0xFF = .next t) ∧
    ∃ t, memWrite base 0x04000301 .byte 0 = .next t :=
  ⟨exists_next (by decide), exists_next (by decide), exists_next (by decide), exists_next (by decide)⟩

theorem witness_PricesOfAccessesAndMultiplies : sequential (some ⟨0x08000000, .half, .rom0⟩) 0x08000002 = true ∧
    sequential (some ⟨0x0801FFFE, .half, .rom0⟩) 0x08020000 = false ∧ multiplyCycles 0xFF true = 1 ∧
    multiplyCycles 0x100 true = 2 ∧ multiplyCycles 0xFFFFFF00 true = 1 ∧ multiplyCycles 0xFFFFFEFF true = 2 ∧
    multiplyCycles 0xFFFFFF00 false = 4 ∧ multiplyCycles 0xFFFFFF false = 3 := by decide

theorem witness_AddressingModes : (1 : RegNo) ≠ 15 ∧ (1 : RegNo) ≠ 2 ∧
    addressing (setr 1 0x100 base) true false false 1 1 4 = .ok ⟨0xFC, 0xFC, false⟩ ∧
    addressing (setr 1 0x100 base) false false true 1 2 4 = .ok ⟨0x100, 0x104, true⟩ ∧
    addressing base false false true 1 1 4 = .error .writeback ∧
    halfAddressing base false true true 1 2 (.imm 0) = .error .postIndexedW ∧
    halfAddressing base true false true 1 15 (.imm 0) = .error .rdIsR15 := by decide

theorem witness_ArmLoads : condPassed .al base.cpsr = true ∧ (0 : RegNo) ≠ 15 ∧
    singleAddressing (setr 1 0x03000100 base) true true true 1 0 (.imm 4) = .ok ⟨0x03000104, 0x03000104, true⟩ ∧
    singleAddressing (setr 1 0x03000100 base) true false true 1 15 (.imm 4) = .ok ⟨0x03000104, 0x03000104, false⟩ ∧
    singleAddressing (setr 1 0x03000100 base) false true true 1 0 (.imm 4) = .ok ⟨0x03000100, 0x03000104, true⟩ ∧
    halfAddressing (setr 1 0x03000100 base) true false true 1 0 (.imm 2) = .ok ⟨0x03000102, 0x03000102, false⟩ ∧
    singleAddressing base true false true 1 0 (.reg 0 .lsl 15) = .error .rmIsR15 ∧
    halfAddressing base true false true 1 0 (.reg 1 2) = .error .shouldBeField := by decide

theorem witness_ArmStores : condPassed .al base.cpsr = true ∧ (0 : RegNo) ≠ 15 ∧
    singleAddressing (setr 1 0x03000100 base) true false true 1 15 (.imm 0) = .ok ⟨0x03000100, 0x03000100, false⟩ ∧
    prefetchHit base 0x03000100 .word = false ∧ prefetchHit base 0x03000008 .word = true ∧
    prefetchHit base 0x0300000A .half = true ∧ prefetchHit base 0x0300000C .half = false ∧
    StoresWhole 0x03000100 .byte ∧ StoresWhole 0x05000100 .half :=
  ⟨by decide, by decide, by decide, by decide, by decide, by decide, by decide, .inr (.inl (by decide)),
    .inr (.inr ⟨by decide, .inl (by decide)⟩)⟩

theorem witness_BlockTransferFrame : (13 : RegNo) ≠ 15 ∧ (0x8000 : BitVec 16) ≠ 0 ∧ base.params.emptyList = .stop ∧
    State.reset.params.emptyList = .arm7tdmi ∧ ([3] : List RegNo) ≠ [] ∧
    ∀ b, b ∈ blockAddresses 0x03000100 2 → Plain base b := by
  refine ⟨by decide, by decide, by decide, by decide, by decide, fun b hb => ?_⟩
  have h : b = 0x03000100 ∨ b = 0x03000104 := by
    have e : blockAddresses 0x03000100 2 = [0x03000100, 0x03000104] := by decide
    rw [e] at hb
    simpa using hb
  rcases h with rfl | rfl <;> exact ⟨by decide, by decide, by decide⟩

theorem witness_LoadMultiple : condPassed .al base.cpsr = true ∧
    blockFrame (setr 0 0x03000100 base) false true 0 0x8006 = .ok ⟨[1, 2, 15], 0x03000100, 0x0300010C⟩ ∧
    blockFrame base false true 0 0 = .error .emptyRegisterList ∧
    ((0x8006 : BitVec 16).getLsbD (0 : RegNo).toNat = false) ∧ (0x0003 : BitVec 16).getLsbD (0 : RegNo).toNat = true := by
  decide

/-- The words of the block at 0x03000100 are not in the two instruction slots after PC. -/
theorem blockClear_base : BlockClear base 0x03000100 2 := by
  intro b hb
  have e : blockAddresses 0x03000100 2 = [0x03000100, 0x03000104] := by decide
  rw [e] at hb
  have h : b = 0x03000100 ∨ b = 0x03000104 := by simpa using hb
  rcases h with rfl | rfl <;> decide

theorem witness_StoreMultiple : condPassed .al base.cpsr = true ∧
    blockFrame (setr 1 0x03000100 base) false true 1 0x0003 = .ok ⟨[0, 1], 0x03000100, 0x03000108⟩ ∧
    BlockClear base 0x03000100 2 ∧ ¬BlockClear base 0x03000000 2 ∧ StoresWhole 0x03000104 .word ∧
    (true = true ∧ ([0, 1] : List RegNo)[1] = 1 ∧ (1 : Nat) ≠ 0) ∧ (1 : RegNo) ∈ ([0, 1] : List RegNo).tail :=
  ⟨by decide, by decide, blockClear_base,
    fun h => absurd (h 0x03000004 (by decide)) (by decide), .inr (.inl (by decide)), by decide, by decide⟩

theorem witness_UserBankTransfers : condPassed .al base.cpsr = true ∧ base.cpsr.mode = .sys ∧
    (mode .irq base).cpsr.mode ≠ .usr ∧ (mode .irq base).cpsr.mode ≠ .sys ∧
    blockFrame (mode .irq (setr 0 0x03000100 base)) false true 0 (0#1 ++ (0x6000 : BitVec 15)) =
      .ok ⟨[13, 14], 0x03000100, 0x03000108⟩ ∧
    blockFrame { (setr 0 0x03000100 base) with params := Params.initial } false true 0 (0#1 ++ (0 : BitVec 15)) =
      .ok ⟨[15], 0x03000100, 0x03000140⟩ ∧ BlockClear base 0x03000100 2 :=
  ⟨by decide, by decide, by decide, by decide, by decide, by decide, blockClear_base⟩

theorem witness_UserBankHazard : Ready (marked (armAt 0xE1A0000D)) ∧
    CodeAt (marked (armAt 0xE1A0000D)) [0x0D, 0x00, 0xA0, 0xE1] ∧ (marked (armAt 0xE1A0000D)).userBankHazard = true ∧
    decode false [0x0D, 0x00, 0xA0, 0xE1] = .ok (.armMov .al false 0 0 (.immShift 0 .lsl 13), []) ∧
    (13 : RegNo) ∈ Instr.regs (.armMov .al false 0 0 (.immShift 0 .lsl 13)) ∧ bankedIn .irq 13 = true ∧
    bankedIn .fiq 8 = true ∧ bankedIn .irq 12 = false ∧
    (∃ t, step (mode .irq (setr 0 0x03000100 (armAt 0xE8D06000))) = .next t ∧ t.userBankHazard = true) ∧
    Instr.isUserBank (.armLdmUser .al false true false 0 0x6000) = true ∧
    (∃ t, step (marked (armAt 0x01A0000D)) = .next t) ∧ condPassed .eq (armAt 0x01A0000D).cpsr = false ∧
    (marked (armAt 0x01A0000D)).MarkReached ∧ (∃ t, step (marked { base with run := .halted }) = .next t) ∧
    base.wakeLine = false :=
  ⟨⟨by decide, by decide, by decide⟩, ⟨by decide, by decide⟩, by decide, by decide, by decide, by decide, by decide, by decide,
    ⟨_, rfl, by decide⟩, by decide, exists_next (by decide), by decide, by intro k h; cases h; exact Nat.le_refl _,
    exists_next (by decide), by decide⟩

theorem witness_LoadMultipleExceptionReturn : condPassed .al (irqSaved 0x1F base).cpsr = true ∧
    blockFrame (setr 13 0x03000108 (irqSaved 0x1F base)) false true 13 (1#1 ++ (1 : BitVec 15)) =
      .ok ⟨[0, 15], 0x03000108, 0x03000110⟩ ∧
    base.spsr.get base.cpsr.mode = none ∧
    (irqSaved 0x1F base).spsr.get (irqSaved 0x1F base).cpsr.mode =
      some (savedZ 0x1F) ∧
    (savedZ 0x1F).restored? = some ⟨false, true, false, false, false, false, false, .sys, FlagMarks.fill true⟩ ∧
    (1 : BitVec 15).getLsbD (13 : RegNo).toNat = false := by decide

theorem witness_ArmBranches : condPassed .al base.cpsr = true ∧ base.cpsr.t = false ∧ base.pcAligned = true := by decide

theorem witness_BranchExchange : condPassed .al base.cpsr = true ∧ ((setr 0 0x03000101 base).reg 0).toNat % 2 = 1 ∧
    ((setr 0 0x03000100 base).reg 0).toNat % 4 = 0 ∧ ((setr 0 0x03000102 base).reg 0).toNat % 4 = 2 := by decide

theorem witness_ThumbBranches : (thumb base).cpsr.t = true ∧ (thumb base).pcAligned = true ∧
    condPassed .ne (thumb base).cpsr = true ∧ condPassed .eq (thumb base).cpsr = false ∧
    ((setr 14 0x03001004 (thumb base)).reg 14).toNat % 2 = 0 ∧ ((setr 14 0x03001005 (thumb base)).reg 14).toNat % 2 = 1 := by
  decide

theorem witness_ThumbArithmetic : 8 ≤ (8 : RegNo).toNat := by decide

theorem witness_ThumbAddressAndHighRegisters : 8 ≤ (8 : RegNo).toNat ∧ (14 : RegNo) ≠ 15 ∧ (thumb base).cpsr.t = true := by
  decide

theorem witness_ThumbLoads : (setpc 0x03000002 (thumb base)).cpsr.t = true := by decide

theorem witness_ThumbStores : prefetchHit (thumb base) 0x03000006 .half = false ∧
    prefetchHit (thumb base) 0x03000005 .byte = true ∧ prefetchHit (thumb base) 0x03000000 .word = true ∧
    StoresWhole 0x06017FFC .word := ⟨by decide, by decide, by decide, .inr (.inr ⟨by decide, .inr (.inl (by decide))⟩)⟩

theorem witness_ThumbBlockStores : listOrEmpty base (lowList 3 ++ [14]) = .ok ([0, 1, 14], 3) ∧
    listOrEmpty base (lowList 0x81) = .ok ([0, 7], 2) ∧
    listOrEmpty State.reset (lowList 0) = .ok ([15], 16) ∧ BlockClear base 0x03000100 2 ∧
    ¬BlockClear base 0x03000000 2 :=
  ⟨by decide, by decide, by decide, blockClear_base, fun h => absurd (h 0x03000004 (by decide)) (by decide)⟩

theorem witness_ThumbBlockLoads : listOrEmpty base (lowList 1 ++ [15]) = .ok ([0, 15], 2) ∧
    listOrEmpty base (lowList 0x81) = .ok ([0, 7], 2) ∧ (2 : RegNo) ∉ ([0, 7] : List RegNo) := by decide

end Sys2Proof.Tests.Slice0
end

section
/-! What an instruction can do to the state, said once: a run of moves. Every whole-machine rule is then proved move by
move. -/

open Sys2Proof Sys2Proof.Machine

namespace Sys2Proof.Machine

/-! ### Moves -/

/-- The changes that instructions are made of: what a read or an internal cycle does, a write, a register of mode m, a status
register, and the two ways to the next instruction. -/
inductive Move (m : Mode) : State → State → Prop where
  | bus {s t : State} (h : BusOnly s t) (hc : s.cycles ≤ t.cycles) : Move m s t
  | write {s t : State} {a : Word} {n : Width} {v : Word} (h : memWrite s a n v = .next t) : Move m s t
  | reg (s : State) (n : RegNo) (v : Word) : Move m s (s.setRegOf m n v)
  | status (s : State) (p : Cpsr) : Move m s (s.setCpsr p)
  | saved (s : State) (p : Spsrs) : Move m s { s with spsr := p }
  | advance (s : State) : Move m s (advance s)
  | jump (s : State) (t : Word) : Move m s (jump s t)

/-- t is reached from s by moves that write registers of mode m alone. -/
def Runs (m : Mode) : State → State → Prop := Relation.ReflTransGen (Move m)

namespace Runs

variable {m : Mode} {s t u : State}

theorem refl : Runs m s s := Relation.ReflTransGen.refl

theorem step (h : Runs m s t) (k : Move m t u) : Runs m s u := Relation.ReflTransGen.tail h k

theorem trans (h : Runs m s t) (k : Runs m t u) : Runs m s u := Relation.ReflTransGen.trans h k

theorem write (h : Runs m s t) {a : Word} {n : Width} {v : Word} (k : memWrite t a n v = .next u) : Runs m s u :=
  h.step (.write k)

theorem of_busOnly (h : BusOnly s t) (hc : s.cycles ≤ t.cycles) : Runs m s t := refl.step (.bus h hc)

theorem setRegOf (h : Runs m s t) (n : RegNo) (v : Word) : Runs m s (t.setRegOf m n v) := h.step (.reg t n v)

theorem setReg (h : Runs m s t) (hm : t.cpsr.mode = m) (n : RegNo) (v : Word) : Runs m s (t.setReg n v) := by
  subst hm
  exact h.setRegOf n v

theorem setCpsr (h : Runs m s t) (p : Cpsr) : Runs m s (t.setCpsr p) := h.step (.status t p)

theorem setSpsr (h : Runs m s t) (p : Spsrs) : Runs m s { t with spsr := p } := h.step (.saved t p)

theorem advance (h : Runs m s t) : Runs m s (advance t) := h.step (.advance t)

theorem jump (h : Runs m s t) (a : Word) : Runs m s (jump t a) := h.step (.jump t a)

theorem spend (h : Runs m s t) (k : Nat) : Runs m s (t.spend k) :=
  h.step (.bus (busOnly_spend t k) (Nat.le_add_right _ k))

theorem draw (h : Runs m s t) : Runs m s (draw t).2 := h.step (.bus (busOnly_draw t) (Nat.le_refl _))

end Runs

/-! ### The shared parts of the meanings -/

variable {s t : State} {m : Mode}

theorem branchTo_runs {a : Word} (h : branchTo s a = .next t) : Runs m s t := by
  obtain ⟨-, rfl⟩ := branchTo_next h
  exact Runs.refl.jump a

theorem exceptionReturn_runs {a : Word} (h : exceptionReturn s a = .next t) : Runs m s t := by
  obtain ⟨u, hu, hb⟩ := orFault_eq_next h
  obtain ⟨p, q, -, -, rfl⟩ := restoreCpsr_ok hu
  exact (Runs.refl.setCpsr q).trans (branchTo_runs hb)

/-- A predicated instruction runs by moves if it does where its condition passes. -/
theorem predicated_runs {c : Cond} {f : State → Result} (hf : ∀ t, f s = .next t → Runs m s t)
    (h : predicated c s f = .next t) : Runs m s t := by
  rcases predicated_eq_next h with ⟨-, h⟩ | ⟨-, rfl⟩
  · exact hf t h
  · exact Runs.refl.advance

/-- Exception entry writes R14 of the mode it enters. -/
theorem takeException_runs (s : State) {k : ExcKind} (hk : k ≠ .reset) : Runs k.mode s (takeException s k) := by
  unfold takeException
  simp only [if_neg hk, setCpsr_spsr]
  exact (((Runs.refl.setCpsr _).setRegOf 14 _).setSpsr _).jump _

theorem writeBlock_runs {vals : List (RegNo × Word)} {a : Word} (h : writeBlock s a vals = .next t) : Runs m s t := by
  induction vals generalizing s a with
  | nil => cases h; exact .refl
  | cons kv rest ih =>
    obtain ⟨u, hu, hr⟩ := andThen_eq_next h
    exact (Runs.refl.write hu).trans (ih hr)

theorem Runs.loadRegs (h : Runs m s t) {k : Mode} (hk : k = m) (vals : List (RegNo × Word)) :
    Runs m s (loadRegs t k vals) := by
  subst hk
  induction vals generalizing t with
  | nil => exact h
  | cons kv rest ih => exact ih (h.setRegOf kv.1 kv.2)

theorem Runs.branchLoaded (h : Runs m s t) (vals : List (RegNo × Word)) (f : Word → Word) :
    Runs m s (branchLoaded t vals f) := by
  unfold Machine.branchLoaded
  split
  · exact h.jump _
  · exact h.advance

theorem readBlock_runs (s : State) (a : Word) (regs : List RegNo) : Runs m s (readBlock s a regs).2 :=
  .of_busOnly (readBlock_busOnly regs s a) (by have := readBlock_cycles_le regs s a; omega)

theorem storeValues_runs (s : State) (base : Option RegNo) (pc : Word) (first : Bool) (regs : List RegNo) :
    Runs m s (storeValues s base pc first regs).2 :=
  .of_busOnly (storeValues_busOnly regs s base pc first).1 (storeValues_busOnly regs s base pc first).2.1.ge

/-- Every read of a loaded value is a bus read. -/
def IsLoad (load : State → Word → Word × State) : Prop :=
  ∀ s a, BusOnly s (load s a).2 ∧ s.cycles < (load s a).2.cycles

theorem isLoad_memRead (n : Width) : IsLoad fun s a => memRead s a n :=
  fun s a => ⟨memRead_busOnly s a n, memRead_cycles_lt s a n⟩

theorem isLoad_loadWord : IsLoad loadWord := isLoad_memRead .word

theorem isLoad_loadHalf : IsLoad loadHalf := isLoad_memRead .half

theorem isLoad_loadByte : IsLoad loadByte := isLoad_memRead .byte

theorem isLoad_loadSignedByte : IsLoad loadSignedByte := isLoad_memRead .byte

theorem isLoad_loadSignedHalf : IsLoad loadSignedHalf := by
  intro s a
  unfold loadSignedHalf
  split
  · exact isLoad_memRead .byte s a
  · exact isLoad_memRead .half s a

theorem IsLoad.runs {load : State → Word → Word × State} (hl : IsLoad load) (s : State) (a : Word) :
    Runs m s (load s a).2 := .of_busOnly (hl s a).1 (Nat.le_of_lt (hl s a).2)

theorem Runs.writeBack (h : Runs m s t) (hm : t.cpsr.mode = m) (n : RegNo) (a : Addressing) :
    Runs m s (writeBack t n a) := by
  unfold Machine.writeBack
  split
  · exact h.setReg hm n _
  · exact h

theorem Runs.baseUpdate (h : Runs m s t) (hm : t.cpsr.mode = m) (w : Bool) (n : RegNo) (v : Word) :
    Runs m s (baseUpdate t w n v) := by
  unfold Machine.baseUpdate
  split
  · exact h.setReg hm n v
  · exact h

/-! ### ARM data processing, status registers, multiplies, swap -/

theorem writeResult_runs {sf : Bool} {rd : RegNo} {r : Word} {p : Cpsr} (h : writeResult s sf rd r p = .next t)
    (hs : s.cpsr.mode = m) (hp : p.mode = m) : Runs m s t := by
  unfold writeResult at h
  split at h
  · split at h
    · exact exceptionReturn_runs h
    · exact branchTo_runs h
  · cases h
    split
    · exact ((Runs.refl.setCpsr p).setReg hp rd r).advance
    · exact (Runs.refl.setReg hs rd r).advance

theorem logical_runs {c : Cond} {sf : Bool} {rn rd : RegNo} {o : Operand2} {op : Word → Word → Word}
    (h : logical c sf rn rd o op s = .next t) : Runs s.cpsr.mode s t := by
  refine predicated_runs (fun t h => ?_) h
  obtain ⟨⟨b, sc⟩, -, h⟩ := orFault_eq_next h
  exact (Runs.refl.spend _).trans (writeResult_runs h rfl rfl)

theorem arithmetic_runs {c : Cond} {sf : Bool} {rn rd : RegNo} {o : Operand2} {op : Word → Word → Bool → Word × Bool × Bool}
    (h : arithmetic c sf rn rd o op s = .next t) : Runs s.cpsr.mode s t := by
  refine predicated_runs (fun t h => ?_) h
  obtain ⟨⟨b, sc⟩, -, h⟩ := orFault_eq_next h
  exact (Runs.refl.spend _).trans (writeResult_runs h rfl rfl)

theorem moveOp_runs {c : Cond} {sf : Bool} {sbz : BitVec 4} {rd : RegNo} {o : Operand2} {op : Word → Word}
    (h : moveOp c sf sbz rd o op s = .next t) : Runs s.cpsr.mode s t := by
  refine predicated_runs (fun t h => ?_) h
  split at h
  · cases h
  · obtain ⟨⟨b, sc⟩, -, h⟩ := orFault_eq_next h
    exact (Runs.refl.spend _).trans (writeResult_runs h rfl rfl)

theorem testOp_runs {c : Cond} {rn : RegNo} {sbz : BitVec 4} {o : Operand2} {op : Word → Word → Word}
    (h : testOp c rn sbz o op s = .next t) : Runs s.cpsr.mode s t := by
  refine predicated_runs (fun t h => ?_) h
  split at h
  · cases h
  · obtain ⟨⟨b, sc⟩, -, h⟩ := orFault_eq_next h
    cases h
    exact ((Runs.refl.spend _).setCpsr _).advance

theorem compareOp_runs {c : Cond} {rn : RegNo} {sbz : BitVec 4} {o : Operand2} {op : Word → Word → Word × Bool × Bool}
    (h : compareOp c rn sbz o op s = .next t) : Runs s.cpsr.mode s t := by
  refine predicated_runs (fun t h => ?_) h
  split at h
  · cases h
  · obtain ⟨⟨b, sc⟩, -, h⟩ := orFault_eq_next h
    cases h
    exact ((Runs.refl.spend _).setCpsr _).advance

theorem execArmMrs_runs {c : Cond} {spsr : Bool} {sbo : BitVec 4} {rd : RegNo} {hi lo : BitVec 4}
    (h : execArmMrs c spsr sbo rd hi lo s = .next t) : Runs s.cpsr.mode s t := by
  refine predicated_runs (fun t h => ?_) h
  split at h
  · cases h
  · split at h
    · cases h
    · obtain ⟨p, -, h⟩ := orFault_eq_next h
      cases h
      exact (Runs.refl.draw.setReg rfl rd _).advance

theorem writePsr_runs {spsr : Bool} {mask : BitVec 4} {v : Word} (h : writePsr s spsr mask v = .next t) : Runs m s t := by
  obtain ⟨u, hu, h⟩ := orFault_eq_next h
  cases h
  cases spsr with
  | true =>
    obtain ⟨-, p, rfl⟩ := writeSpsr_ok hu
    exact (Runs.refl.setSpsr _).advance
  | false =>
    obtain ⟨q, rfl, -, -⟩ := writeCpsr_ok hu
    exact (Runs.refl.setCpsr q).advance

theorem execArmMsrReg_runs {c : Cond} {spsr : Bool} {mask sbo sbz : BitVec 4} {rm : RegNo}
    (h : execArmMsrReg c spsr mask sbo sbz rm s = .next t) : Runs s.cpsr.mode s t := by
  refine predicated_runs (fun t h => ?_) h
  split at h
  · cases h
  · split at h
    · cases h
    · exact writePsr_runs h

theorem execArmMsrImm_runs {c : Cond} {spsr : Bool} {mask sbo rot : BitVec 4} {imm8 : Byte}
    (h : execArmMsrImm c spsr mask sbo rot imm8 s = .next t) : Runs s.cpsr.mode s t := by
  refine predicated_runs (fun t h => ?_) h
  split at h
  · cases h
  · exact writePsr_runs h

theorem Runs.mulFlags (h : Runs m s t) (sf : Bool) (r : Word) : Runs m s (mulFlags t sf r) := by
  cases sf with
  | true => exact h.draw.setCpsr _
  | false => exact h

theorem Runs.longMulFlags (h : Runs m s t) (sf : Bool) (p : BitVec 64) : Runs m s (longMulFlags t sf p) := by
  cases sf with
  | true => exact h.draw.draw.setCpsr _
  | false => exact h

@[simp] theorem mulFlags_mode (s : State) (sf : Bool) (r : Word) : (mulFlags s sf r).cpsr.mode = s.cpsr.mode := by
  cases sf <;> rfl

@[simp] theorem longMulFlags_mode (s : State) (sf : Bool) (p : BitVec 64) :
    (longMulFlags s sf p).cpsr.mode = s.cpsr.mode := by
  cases sf <;> rfl

theorem finishMul_runs {sf : Bool} {rd : RegNo} {r : Word} {k : Nat} (h : finishMul s sf rd r k = .next t) :
    Runs s.cpsr.mode s t := by
  cases h
  exact (((Runs.refl.spend k).mulFlags sf r).setReg (by simp) rd r).advance

theorem execArmMul_runs {c : Cond} {sf : Bool} {rd : RegNo} {sbz : BitVec 4} {rs rm : RegNo}
    (h : execArmMul c sf rd sbz rs rm s = .next t) : Runs s.cpsr.mode s t := by
  refine predicated_runs (fun t h => ?_) h
  split at h
  · cases h
  · split at h
    · cases h
    · exact finishMul_runs h

theorem execArmMla_runs {c : Cond} {sf : Bool} {rd rn rs rm : RegNo}
    (h : execArmMla c sf rd rn rs rm s = .next t) : Runs s.cpsr.mode s t := by
  refine predicated_runs (fun t h => ?_) h
  split at h
  · cases h
  · exact finishMul_runs h

theorem longMul_runs {c : Cond} {sf : Bool} {hi lo rs rm : RegNo} {p : State → BitVec 64} {k : State → Nat}
    (h : longMul c sf hi lo rs rm p k s = .next t) : Runs s.cpsr.mode s t := by
  refine predicated_runs (fun t h => ?_) h
  split at h
  · cases h
  · cases h
    exact ((((Runs.refl.spend _).longMulFlags sf _).setReg (by simp) lo _).setReg (by simp) hi _).advance

theorem swap_runs {c : Cond} {rn rd : RegNo} {sbz : BitVec 4} {rm : RegNo} {load : State → Word → Word × State} {n : Width}
    (hl : IsLoad load) (h : swap c rn rd sbz rm load n s = .next t) : Runs s.cpsr.mode s t := by
  refine predicated_runs (fun t h => ?_) h
  split at h
  · cases h
  · split at h
    · cases h
    · obtain ⟨u, hu, h⟩ := andThen_eq_next h
      cases h
      have hm : u.cpsr.mode = s.cpsr.mode := by rw [(memWrite_frame hu).cpsr, (hl s _).1.cpsr]
      exact ((((hl.runs s _).write hu).spend 1).setReg hm rd _).advance

/-! ### Loads and stores -/

theorem loadThrough_runs {a : Except Fault Addressing} {rn rd : RegNo} {load : State → Word → Word × State}
    {toPc : State → Word → Result} (hl : IsLoad load) (hp : ∀ u v t, toPc u v = .next t → Runs s.cpsr.mode u t)
    (h : loadThrough s a rn rd load toPc = .next t) : Runs s.cpsr.mode s t := by
  obtain ⟨a, -, h⟩ := orFault_eq_next h
  have hm : (load s a.address).2.cpsr.mode = s.cpsr.mode := by rw [(hl s _).1.cpsr]
  have hw : Runs s.cpsr.mode s (writeBack ((load s a.address).2.spend 1) rn a) :=
    ((hl.runs s a.address).spend 1).writeBack hm rn a
  dsimp only at h
  split at h
  · exact hw.trans (hp _ _ _ h)
  · cases h
    exact (hw.setReg (by simpa using hm) rd _).advance

theorem storeThrough_runs {a : Except Fault Addressing} {rn : RegNo} {n : Width} {v : Word}
    (h : storeThrough s a rn n v = .next t) : Runs s.cpsr.mode s t := by
  obtain ⟨a, -, h⟩ := orFault_eq_next h
  obtain ⟨u, hu, h⟩ := andThen_eq_next h
  cases h
  exact ((Runs.refl.write hu).writeBack (by rw [(memWrite_frame hu).cpsr]) rn a).advance

theorem storeByteThrough_runs {a : Except Fault Addressing} {rn rd : RegNo}
    (h : storeByteThrough s a rn rd = .next t) : Runs s.cpsr.mode s t := by
  obtain ⟨a, -, h⟩ := orFault_eq_next h
  split at h
  · cases h
  · exact storeThrough_runs h

/-- A load whose instruction stops where Rd is R15. -/
theorem predicated_loadThrough_runs {c : Cond} {a : State → Except Fault Addressing} {rn rd : RegNo}
    {load : State → Word → Word × State} {e : Fault} (hl : IsLoad load)
    (h : predicated c s (fun s => loadThrough s (a s) rn rd load fun _ _ => .fault e) = .next t) :
    Runs s.cpsr.mode s t :=
  predicated_runs (fun _ h => loadThrough_runs hl (fun _ _ _ h => by cases h) h) h

theorem loadHalfForm_runs {c : Cond} {p up w : Bool} {rn rd : RegNo} {off : Offset8}
    {load : State → Word → Word × State} (hl : IsLoad load) (h : loadHalfForm c p up w rn rd off load s = .next t) :
    Runs s.cpsr.mode s t := predicated_loadThrough_runs hl h

theorem predicated_storeThrough_runs {c : Cond} {a : State → Except Fault Addressing} {rn : RegNo} {n : Width}
    {v : State → Word} (h : predicated c s (fun s => storeThrough s (a s) rn n (v s)) = .next t) : Runs s.cpsr.mode s t :=
  predicated_runs (fun _ => storeThrough_runs) h

theorem predicated_storeByteThrough_runs {c : Cond} {a : State → Except Fault Addressing} {rn rd : RegNo}
    (h : predicated c s (fun s => storeByteThrough s (a s) rn rd) = .next t) : Runs s.cpsr.mode s t :=
  predicated_runs (fun _ => storeByteThrough_runs) h

theorem execArmLdr_runs {c : Cond} {ix : Index} {up : Bool} {rn rd : RegNo} {off : Offset12}
    (h : execArmLdr c ix up rn rd off s = .next t) : Runs s.cpsr.mode s t :=
  predicated_runs (fun _ h => loadThrough_runs isLoad_loadWord
    (fun u v t h => by cases h; exact Runs.refl.jump _) h) h

theorem execArmLdm_runs {c : Cond} {p up w : Bool} {rn : RegNo} {list : BitVec 16}
    (h : execArmLdm c p up w rn list s = .next t) : Runs s.cpsr.mode s t := by
  refine predicated_runs (fun t h => ?_) h
  obtain ⟨fr, -, h⟩ := orFault_eq_next h
  split at h
  · cases h
  · cases h
    have hm : (readBlock s fr.start fr.regs).2.cpsr.mode = s.cpsr.mode := by rw [(readBlock_busOnly _ _ _).cpsr]
    exact ((((readBlock_runs s fr.start fr.regs).spend 1).baseUpdate hm w rn _).loadRegs (by simp [hm]) _).branchLoaded _ _

theorem execArmStm_runs {c : Cond} {p up w : Bool} {rn : RegNo} {list : BitVec 16}
    (h : execArmStm c p up w rn list s = .next t) : Runs s.cpsr.mode s t := by
  refine predicated_runs (fun t h => ?_) h
  obtain ⟨fr, -, h⟩ := orFault_eq_next h
  obtain ⟨u, hu, h⟩ := andThen_eq_next h
  cases h
  refine (((storeValues_runs s _ _ true fr.regs).trans (writeBlock_runs hu)).baseUpdate ?_ w rn _).advance
  rw [(writeBlock_frame hu).cpsr, (storeValues_busOnly fr.regs s _ _ true).1.cpsr]

/-- The user-bank load writes registers of the User bank. -/
theorem execArmLdmUser_runs {c : Cond} {p up w : Bool} {rn : RegNo} {list : BitVec 15}
    (h : execArmLdmUser c p up w rn list s = .next t) : Runs .usr s t := by
  refine predicated_runs (fun t h => ?_) h
  obtain ⟨fr, -, h⟩ := orFault_eq_next h
  split at h
  · cases h
  · split at h
    · cases h
    · cases h
      exact (((readBlock_runs s fr.start fr.regs).spend 1).loadRegs rfl _).branchLoaded _ _

theorem execArmStmUser_runs {c : Cond} {p up w : Bool} {rn : RegNo} {list : BitVec 16}
    (h : execArmStmUser c p up w rn list s = .next t) : Runs m s t := by
  refine predicated_runs (fun t h => ?_) h
  obtain ⟨fr, -, h⟩ := orFault_eq_next h
  split at h
  · cases h
  · split at h
    · cases h
    · obtain ⟨u, hu, h⟩ := andThen_eq_next h
      cases h
      exact (writeBlock_runs hu).advance

theorem execArmLdmExc_runs {c : Cond} {p up w : Bool} {rn : RegNo} {list : BitVec 15}
    (h : execArmLdmExc c p up w rn list s = .next t) : Runs s.cpsr.mode s t := by
  refine predicated_runs (fun t h => ?_) h
  obtain ⟨fr, -, h⟩ := orFault_eq_next h
  split at h
  · cases h
  · split at h
    · cases h
    · obtain ⟨u, hu, h⟩ := orFault_eq_next h
      cases h
      obtain ⟨-, q, -, -, rfl⟩ := restoreCpsr_ok hu
      have hm : (readBlock s fr.start fr.regs).2.cpsr.mode = s.cpsr.mode := by rw [(readBlock_busOnly _ _ _).cpsr]
      have hr := ((readBlock_runs s fr.start fr.regs).spend 1).baseUpdate hm w rn fr.newBase
      exact ((hr.loadRegs (by simp [hm]) _).setCpsr q).branchLoaded _ _

/-! ### Branches -/

theorem exchange_runs {v : Word} (h : exchange s v = .next t) : Runs m s t :=
  (Runs.refl.setCpsr _).trans (branchTo_runs h)

theorem execArmB_runs {c : Cond} {off : BitVec 24} (h : execArmB c off s = .next t) : Runs s.cpsr.mode s t :=
  predicated_runs (fun _ => branchTo_runs) h

theorem execArmBl_runs {c : Cond} {off : BitVec 24} (h : execArmBl c off s = .next t) : Runs s.cpsr.mode s t :=
  predicated_runs (fun _ h => (Runs.refl.setReg rfl 14 _).trans (branchTo_runs h)) h

theorem execArmBx_runs {c : Cond} {sbo : BitVec 12} {rm : RegNo} (h : execArmBx c sbo rm s = .next t) :
    Runs s.cpsr.mode s t := by
  refine predicated_runs (fun t h => ?_) h
  split at h
  · cases h
  · exact exchange_runs h

/-! ### Thumb -/

theorem thumbWrite_runs {rd : LowReg} {r : Word} {p : Cpsr} (h : thumbWrite s rd r p = .next t) (hp : p.mode = m) :
    Runs m s t := by
  cases h
  exact ((Runs.refl.setCpsr p).setReg hp _ r).advance

theorem thumbFlags_runs {p : Cpsr} (h : thumbFlags s p = .next t) : Runs m s t := by
  cases h
  exact (Runs.refl.setCpsr p).advance

theorem thumbRegShift_runs {ty : ShiftType} {rs rd : LowReg} (h : thumbRegShift ty rs rd s = .next t) :
    Runs s.cpsr.mode s t := (Runs.refl.spend 1).trans (thumbWrite_runs h rfl)

theorem execThumbMul_runs {rs rd : LowReg} (h : execThumbMul rs rd s = .next t) : Runs s.cpsr.mode s t := by
  unfold execThumbMul at h
  split at h
  · cases h
  · exact (Runs.refl.spend _).draw.trans (thumbWrite_runs h rfl)

theorem thumbHiWrite_runs {hd : RegNo} {r : Word} (h : thumbHiWrite s hd r = .next t) : Runs s.cpsr.mode s t := by
  cases h
  split
  · exact Runs.refl.jump _
  · exact (Runs.refl.setReg rfl hd r).advance

/-- The forms of format 5 that stop where both registers are low. -/
theorem bothLow_runs {hs hd : RegNo} {r : Result} (hr : r = .next t → Runs m s t)
    (h : (if bothLow hs hd then .fault .shouldBeField else r) = .next t) : Runs m s t := by
  split at h
  · cases h
  · exact hr h

theorem setReg_advance_runs {n : RegNo} {v : Word} (h : Host.Outcome.next (advance (s.setReg n v)) = (.next t : Result)) :
    Runs s.cpsr.mode s t := by
  cases h
  exact (Runs.refl.setReg rfl n v).advance

theorem execThumbBx_runs {h1 : Bool} {hs : RegNo} {sbz : BitVec 3} (h : execThumbBx h1 hs sbz s = .next t) :
    Runs m s t := by
  unfold execThumbBx at h
  split at h
  · cases h
  · exact exchange_runs h

theorem execThumbBcond_runs {c : Cond} {off : Byte} (h : execThumbBcond c off s = .next t) : Runs m s t := by
  unfold execThumbBcond at h
  split at h
  · exact branchTo_runs h
  · cases h
    exact Runs.refl.advance

theorem thumbLoad_runs {rd : LowReg} {a : Word} {load : State → Word → Word × State} (hl : IsLoad load)
    (h : thumbLoad s rd a load = .next t) : Runs s.cpsr.mode s t := by
  cases h
  exact (((hl.runs s a).spend 1).setReg (by rw [spend_cpsr, (hl s a).1.cpsr]) _ _).advance

theorem thumbStore_runs {rd : LowReg} {a : Word} {n : Width} (h : thumbStore s rd a n = .next t) : Runs m s t := by
  obtain ⟨u, hu, h⟩ := andThen_eq_next h
  cases h
  exact (Runs.refl.write hu).advance

theorem thumbBlockStore_runs {a : Word} {base : RegNo} {v : Word} {kept : Option RegNo} {regs : List RegNo}
    (h : thumbBlockStore s a base v kept regs = .next t) : Runs s.cpsr.mode s t := by
  obtain ⟨u, hu, h⟩ := andThen_eq_next h
  cases h
  refine (((storeValues_runs s _ _ true regs).trans (writeBlock_runs hu)).setReg ?_ base v).advance
  rw [(writeBlock_frame hu).cpsr, (storeValues_busOnly regs s _ _ true).1.cpsr]

theorem thumbBlockLoad_runs {a : Word} {base : RegNo} {v : Word} {regs : List RegNo}
    (h : thumbBlockLoad s a base v regs = .next t) : Runs s.cpsr.mode s t := by
  cases h
  have hm : (readBlock s a regs).2.cpsr.mode = s.cpsr.mode := by rw [(readBlock_busOnly _ _ _).cpsr]
  exact ((((readBlock_runs s a regs).spend 1).setReg hm base v).loadRegs (by simp [hm]) _).branchLoaded _ _

/-- The Thumb block transfers over the list or what stands for an empty one. -/
theorem listOrEmpty_runs {l : List RegNo} {f : List RegNo × Nat → Result} (hf : ∀ x, f x = .next t → Runs m s t)
    (h : orFault (listOrEmpty s l) f = .next t) : Runs m s t := by
  obtain ⟨x, -, h⟩ := orFault_eq_next h
  exact hf x h

/-! ### Every instruction -/

theorem raiseSwi_next (h : raiseSwi s = .next t) : t = takeException s .swi := by cases h; rfl

theorem raiseUndefined_next (h : raiseUndefined s = .next t) : t = takeException (s.spend 1) .undefined := by
  cases h
  rfl

/-- What an instruction can do: run on the registers of its own mode, run on the User bank where it is a user-bank load, or
raise SWI or Undefined. -/
def Answers (i : Instr) (s t : State) : Prop :=
  Runs s.cpsr.mode s t ∨ (Instr.isUserBank i = true ∧ Runs .usr s t) ∨
    t = takeException s .swi ∨ t = takeException (s.spend 1) .undefined

theorem predicated_raise_answers {i : Instr} {c : Cond} {f : State → Result}
    (hf : f s = .next t → t = takeException s .swi ∨ t = takeException (s.spend 1) .undefined)
    (h : predicated c s f = .next t) : Answers i s t := by
  rcases predicated_eq_next h with ⟨-, h⟩ | ⟨-, rfl⟩
  · exact .inr (.inr (hf h))
  · exact .inl Runs.refl.advance

/-- The one case split over the 122 instructions: each answers by the shared part its meaning is written over. -/
theorem exec_answers {i : Instr} (h : exec i s = .next t) : Answers i s t := by
  cases i <;> dsimp only [exec] at h
  case armAnd | armEor | armOrr | armBic => exact .inl (logical_runs h)
  case armSub | armRsb | armAdd | armAdc | armSbc | armRsc => exact .inl (arithmetic_runs h)
  case armTst | armTeq => exact .inl (testOp_runs h)
  case armCmp | armCmn => exact .inl (compareOp_runs h)
  case armMov | armMvn => exact .inl (moveOp_runs h)
  case armMrs => exact .inl (execArmMrs_runs h)
  case armMsrReg => exact .inl (execArmMsrReg_runs h)
  case armMsrImm => exact .inl (execArmMsrImm_runs h)
  case armMul => exact .inl (execArmMul_runs h)
  case armMla => exact .inl (execArmMla_runs h)
  case armUmull | armUmlal | armSmull | armSmlal => exact .inl (longMul_runs h)
  case armSwp => exact .inl (swap_runs isLoad_loadWord h)
  case armSwpb => exact .inl (swap_runs isLoad_loadByte h)
  case armLdr => exact .inl (execArmLdr_runs h)
  case armLdrb | armLdrbt => exact .inl (predicated_loadThrough_runs isLoad_loadByte h)
  case armStr | armStrt | armStrh => exact .inl (predicated_storeThrough_runs h)
  case armStrb | armStrbt => exact .inl (predicated_storeByteThrough_runs h)
  case armLdrt => exact .inl (predicated_loadThrough_runs isLoad_loadWord h)
  case armLdrh => exact .inl (loadHalfForm_runs isLoad_loadHalf h)
  case armLdrsb => exact .inl (loadHalfForm_runs isLoad_loadSignedByte h)
  case armLdrsh => exact .inl (loadHalfForm_runs isLoad_loadSignedHalf h)
  case armLdm => exact .inl (execArmLdm_runs h)
  case armStm => exact .inl (execArmStm_runs h)
  case armLdmUser => exact .inr (.inl ⟨rfl, execArmLdmUser_runs h⟩)
  case armStmUser => exact .inl (execArmStmUser_runs h)
  case armLdmExc => exact .inl (execArmLdmExc_runs h)
  case armB => exact .inl (execArmB_runs h)
  case armBl => exact .inl (execArmBl_runs h)
  case armBx => exact .inl (execArmBx_runs h)
  case armSwi => exact predicated_raise_answers (fun h => .inl (raiseSwi_next h)) h
  case armCdp | armLdc | armStc | armMcr | armMrc | armUndArch | armUndMul | armUndSignedStore | armUndMisc |
      armUndMsrImm =>
    exact predicated_raise_answers (fun h => .inr (raiseUndefined_next h)) h
  case thumbLslImm | thumbLsrImm | thumbAsrImm | thumbAddReg | thumbSubReg | thumbAddImm3 | thumbSubImm3 |
      thumbMovImm | thumbAddImm8 | thumbSubImm8 | thumbAnd | thumbEor | thumbAdc | thumbSbc | thumbNeg | thumbOrr |
      thumbBic | thumbMvn =>
    exact .inl (thumbWrite_runs h rfl)
  case thumbCmpImm | thumbTst | thumbCmpReg | thumbCmn => exact .inl (thumbFlags_runs h)
  case thumbLslReg | thumbLsrReg | thumbAsrReg | thumbRorReg => exact .inl (thumbRegShift_runs h)
  case thumbMul => exact .inl (execThumbMul_runs h)
  case thumbAddHi | thumbMovHi => exact .inl (bothLow_runs thumbHiWrite_runs h)
  case thumbCmpHi => exact .inl (bothLow_runs thumbFlags_runs h)
  case thumbBx => exact .inl (execThumbBx_runs h)
  case thumbLdrPc | thumbLdrReg | thumbLdrImm | thumbLdrSp => exact .inl (thumbLoad_runs isLoad_loadWord h)
  case thumbStrReg | thumbStrbReg | thumbStrhReg | thumbStrImm | thumbStrbImm | thumbStrhImm | thumbStrSp =>
    exact .inl (thumbStore_runs h)
  case thumbLdrbReg | thumbLdrbImm => exact .inl (thumbLoad_runs isLoad_loadByte h)
  case thumbLdsbReg => exact .inl (thumbLoad_runs isLoad_loadSignedByte h)
  case thumbLdrhReg | thumbLdrhImm => exact .inl (thumbLoad_runs isLoad_loadHalf h)
  case thumbLdshReg => exact .inl (thumbLoad_runs isLoad_loadSignedHalf h)
  case thumbAddPc | thumbAddSp | thumbIncSp | thumbDecSp | thumbBlHigh => exact .inl (setReg_advance_runs h)
  case thumbPush | thumbStmia => exact .inl (listOrEmpty_runs (fun _ => thumbBlockStore_runs) h)
  case thumbPop | thumbLdmia => exact .inl (listOrEmpty_runs (fun _ => thumbBlockLoad_runs) h)
  case thumbSwi => exact .inr (.inr (.inl (raiseSwi_next h)))
  case thumbBcond => exact .inl (execThumbBcond_runs h)
  case thumbB => exact .inl (branchTo_runs h)
  case thumbBlLow => exact .inl ((Runs.refl.setReg rfl 14 _).trans (branchTo_runs h))
  case thumbUnd1011 | thumbUndCond | thumbUnd11101 => exact .inr (.inr (.inr (raiseUndefined_next h)))

end Sys2Proof.Machine
end

section
/-! Whole-machine rules, from the moves of each instruction: images, parameters and written marks (O10, O8), the banks of the
other modes (O12), and the state after a reset (O8). -/

open Sys2Proof Sys2Proof.Machine

namespace Sys2Proof.Machine

variable {s t u : State} {m : Mode}

/-! ### What every step keeps -/

/-- An address of BIOS_IMAGE or ROM_IMAGE. -/
def IsImage (a : Word) : Prop := region a = .bios ∨ (region a).isRom = true

/-- No parameter and no byte of an image changes, and no register loses its written mark. -/
structure Keeps (s t : State) : Prop where
  params : t.params = s.params
  images : ∀ a, IsImage a → t.peek a = s.peek a
  marks : ∀ p, s.written.get p = true → t.written.get p = true

theorem Keeps.refl (s : State) : Keeps s s := ⟨rfl, fun _ _ => rfl, fun _ h => h⟩

theorem Keeps.trans (h : Keeps s t) (k : Keeps t u) : Keeps s u :=
  ⟨k.params.trans h.params, fun a ha => (k.images a ha).trans (h.images a ha), fun p hp => k.marks p (h.marks p hp)⟩

/-- A change of anything but parameters, memory and registers. -/
theorem Keeps.of_eq (hp : t.params = s.params) (hm : t.mem = s.mem) (hw : t.written = s.written) : Keeps s t :=
  ⟨hp, fun a _ => peek_congr hm hp a, fun _ h => hw ▸ h⟩

/-- A write changes no image: it stores into neither of them (R67, R70, R80). -/
theorem peek_writeValue_image (s : State) (a : Word) (n : Width) (v : Word) {b : Word} (hb : IsImage b) :
    (writeValue s a n v).peek b = s.peek b := by
  cases hs : (region b).stored with
  | false => simp [State.peek, hs]
  | true =>
    refine storedByte_writeValue_ne s a n v b hs fun o k w hst => ?_
    obtain ⟨-, hrom, hbios, -⟩ := storeOf_bounds hst
    rintro ⟨hr, -, -⟩
    rcases hb with hb | hb
    · exact hbios (hr ▸ hb)
    · rw [hr, hrom] at hb
      cases hb

theorem keeps_memWrite {a : Word} {n : Width} {v : Word} (h : memWrite s a n v = .next t) : Keeps s t := by
  have hf := memWrite_frame h
  obtain ⟨-, rfl⟩ := memWrite_next h
  refine ⟨hf.params, fun b hb => ?_, fun _ hp => hf.written ▸ hp⟩
  rw [peek_writeValue_image _ a n v hb]
  exact peek_congr rfl rfl b

theorem Move.keeps (h : Move m s t) : Keeps s t := by
  cases h with
  | bus h => exact .of_eq h.params h.mem h.written
  | write h => exact keeps_memWrite h
  | reg n v => exact ⟨by simp, fun a _ => peek_congr (by simp) (by simp) a, fun _ hp => written_setRegOf_mono s m n v hp⟩
  | status p => exact .of_eq rfl rfl rfl
  | saved p => exact .of_eq rfl rfl rfl
  | advance => exact .of_eq rfl rfl rfl
  | jump a => exact .of_eq rfl rfl rfl

theorem Runs.keeps (h : Runs m s t) : Keeps s t := by
  induction h with
  | refl => exact .refl s
  | tail _ hm ih => exact ih.trans hm.keeps

theorem keeps_takeException (s : State) {k : ExcKind} (hk : k ≠ .reset) : Keeps s (takeException s k) :=
  (takeException_runs s hk).keeps

theorem keeps_exec {i : Instr} (h : exec i s = .next t) : Keeps s t := by
  rcases exec_answers h with h | ⟨-, h⟩ | rfl | rfl
  · exact h.keeps
  · exact h.keeps
  · exact keeps_takeException s (by decide)
  · exact (Runs.refl.spend (m := .usr) 1).keeps.trans (keeps_takeException _ (by decide))

theorem keeps_takeInterrupt (s : State) {k : ExcKind} (hk : k ≠ .reset) : Keeps s (takeInterrupt s k) := by
  have hc : Keeps s (charge s (s.pc + s.w + s.w) s.fetchWidth) := .of_eq rfl rfl rfl
  exact (hc.trans (keeps_takeException _ hk)).trans (.of_eq rfl rfl rfl)

theorem keeps_serviceInterrupts (s : State) : Keeps s (serviceInterrupts s) := by
  unfold serviceInterrupts
  split
  · exact keeps_takeInterrupt s (by decide)
  · split
    · exact keeps_takeInterrupt s (by decide)
    · exact .refl s

theorem fetch_busOnly (s : State) : BusOnly s (fetch s).2 :=
  (busOnly_readValue s true s.pc s.fetchWidth).trans (busOnly_charge _ _ _)

/-- The two ways a step answers a next state (R600, R615). -/
theorem step_eq_next (h : step s = .next t) :
    s.pcAligned = true ∧ ((s.run = .halted ∧ s.wakeLine = false ∧ t = haltedStep s) ∨
      (¬(s.run = .halted ∧ s.wakeLine = false) ∧ runInstruction (serviceInterrupts (wake s)) = .next t)) := by
  unfold step runStep at h
  split at h
  · cases h
  · rename_i ha
    refine ⟨by simpa using ha, ?_⟩
    split at h
    · rename_i hh
      cases h
      exact .inl ⟨hh.1, hh.2, rfl⟩
    · rename_i hh
      exact .inr ⟨hh, h⟩

/-- The only way phases (2) to (7) answer a next state (R600). -/
theorem runInstruction_eq_next (h : runInstruction s = .next t) :
    ∃ i u, i = decodeFetched s.cpsr.t (fetch s).1 ∧ bankHazard i s = false ∧ exec i (fetch s).2 = .next u ∧
      t = finishStep (Instr.isUserBank i) (passes i (fetch s).2) u := by
  unfold runInstruction at h
  dsimp only at h
  split at h
  · cases h
  · rename_i hb
    obtain ⟨u, hu, h⟩ := andThen_eq_next h
    cases h
    exact ⟨_, u, rfl, by simpa using hb, hu, rfl⟩

theorem keeps_runInstruction (h : runInstruction s = .next t) : Keeps s t := by
  obtain ⟨i, u, -, -, hu, rfl⟩ := runInstruction_eq_next h
  have hb := fetch_busOnly s
  have hf : Keeps s (fetch s).2 := .of_eq hb.params hb.mem hb.written
  exact (hf.trans (keeps_exec hu)).trans (.of_eq (by simp) (by simp) (by simp))

theorem keeps_step (h : step s = .next t) : Keeps s t := by
  obtain ⟨-, ⟨-, -, rfl⟩ | ⟨-, h⟩⟩ := step_eq_next h
  · exact .of_eq rfl rfl rfl
  · have hw : Keeps s (wake s) := .of_eq rfl rfl rfl
    exact (hw.trans (keeps_serviceInterrupts _)).trans (keeps_runInstruction h)

/-! ### Banks (R22, R23) -/

/-- A register that no number names in a mode is not among those that some numbers name. -/
theorem not_mem_physRegs {p : PhysReg} (hp : ∀ n, phys m n ≠ some p) (l : List RegNo) : p ∉ physRegs m l := by
  intro h
  obtain ⟨n, -, hn⟩ := List.mem_filterMap.mp h
  exact hp n hn

theorem Move.otherBanks (h : Move m s t) {p : PhysReg} (hp : ∀ n, phys m n ≠ some p) :
    t.regs.get p = s.regs.get p ∧ t.written.get p = s.written.get p := by
  cases h with
  | bus h => rw [h.regs, h.written]; exact ⟨rfl, rfl⟩
  | write h => rw [(memWrite_frame h).regs, (memWrite_frame h).written]; exact ⟨rfl, rfl⟩
  | reg n v => exact otherRegs_setRegOf s m n v p (not_mem_physRegs hp [n])
  | status q => exact ⟨rfl, rfl⟩
  | saved q => exact ⟨rfl, rfl⟩
  | advance => exact ⟨rfl, rfl⟩
  | jump a => exact ⟨rfl, rfl⟩

/-- Moves on the registers of a mode leave every physical register that no number names in it. -/
theorem Runs.otherBanks (h : Runs m s t) {p : PhysReg} (hp : ∀ n, phys m n ≠ some p) :
    t.regs.get p = s.regs.get p ∧ t.written.get p = s.written.get p := by
  induction h with
  | refl => exact ⟨rfl, rfl⟩
  | tail _ hm ih =>
    obtain ⟨hr, hw⟩ := hm.otherBanks hp
    exact ⟨hr.trans ih.1, hw.trans ih.2⟩

theorem takeException_mode (s : State) (k : ExcKind) : (takeException s k).cpsr.mode = k.mode := by
  unfold takeException
  split <;> simp

/-- An instruction, the user-bank load apart, that ends in the mode it began in has moved on that mode's registers. -/
theorem exec_runs {i : Instr} (hu : Instr.isUserBank i = false) (h : exec i s = .next t)
    (hm : t.cpsr.mode = s.cpsr.mode) : Runs s.cpsr.mode s t := by
  rcases exec_answers h with h | ⟨hi, -⟩ | rfl | rfl
  · exact h
  · rw [hu] at hi
    cases hi
  · rw [takeException_mode] at hm
    exact hm ▸ takeException_runs s (by decide)
  · rw [takeException_mode] at hm
    exact hm ▸ (Runs.refl.spend 1).trans (takeException_runs _ (by decide))

end Sys2Proof.Machine

/-- Settles O10: by `keeps_step`: a step is a run of moves or an exception entry, and none of these writes to the
images or the parameters. -/
theorem stepsLeaveImages : Obligations.StepsLeaveImages := by
  intro s t h
  exact ⟨(keeps_step h).params, (keeps_step h).images⟩

/-- Settles O12: by `exec_runs`: an instruction that keeps the mode runs on registers of that mode only. -/
theorem otherBanksUntouched : Obligations.OtherBanksUntouched := by
  intro i s t hu h hm p hp
  exact (exec_runs hu h hm).otherBanks hp

/-! ### Reset (R700 to R702) -/

namespace Sys2Proof.Machine

theorem Banked.get_fill {α : Type} (a : α) (p : PhysReg) : (Banked.fill a).get p = a := by
  cases p <;> simp [Banked.get, Banked.fill]

/-- The registers a direct boot leaves: 0 but for the stack pointers of R702. -/
theorem resetDirect_regs_get {p : PhysReg} (h1 : p ≠ .sp .usr) (h2 : p ≠ .sp .irq) (h3 : p ≠ .sp .svc) :
    State.resetDirect.regs.get p = 0 := by
  cases p with
  | sp b =>
    cases b with
    | usr => exact absurd rfl h1
    | irq => exact absurd rfl h2
    | svc => exact absurd rfl h3
    | fiq => rfl
    | abt => rfl
    | und => rfl
  | low n => exact Banked.get_fill 0 (.low n)
  | mid n => exact Banked.get_fill 0 (.mid n)
  | midFiq n => exact Banked.get_fill 0 (.midFiq n)
  | lr b => exact Banked.get_fill 0 (.lr b)

theorem Spsrs.get_zero {w : Bool} {m : Mode} {p : Psr} (h : (Spsrs.zero w).get m = some p) : p = Psr.zero w := by
  cases m <;> cases h <;> rfl

/-- The images stay over a reset (R701). -/
theorem get_hostReset_image (mode : BootMode) (s : State) {a : Nat} (h : a < 0x4000 ∨ 0x08000000 ≤ a) :
    Mem.get (hostReset mode s).mem a = Mem.get s.mem a := by
  show Mem.get (imageBytes s.mem) a = _
  rw [imageBytes, Mem.get_filter _ (fun _ _ _ => rfl), if_pos]
  simpa [isBiosCell, isRomCell] using h

end Sys2Proof.Machine

/-- Settles O8: the two reset states by evaluation, the marks by `keeps_step`, the restored memory by
`Mem.get_restored`. -/
theorem resetState : Obligations.ResetState := by
  refine ⟨by decide, fun m s a h => get_hostReset_image m s h, fun s => ?_, fun s => ?_,
    fun s t h p => (keeps_step h).marks p, fun s u hs hu => ?_⟩
  · exact ⟨rfl, rfl, rfl, rfl, rfl, rfl, fun p => resetDirect_regs_get, fun p => Banked.get_fill true p,
      fun m p h => Spsrs.get_zero h⟩
  · refine ⟨fun p => Banked.get_fill false p, rfl, fun m p h => ?_⟩
    rw [Spsrs.get_zero h]
    exact ⟨rfl, rfl⟩
  · exact ⟨_, rfl, rfl, rfl, rfl, rfl, rfl, rfl, rfl, rfl, rfl, rfl, rfl, rfl, Mem.wf_restored hs hu,
      fun a => (Mem.get_restored s.mem u.mem a).trans (by split <;> rfl)⟩
end

section
/-! Data processing, status-register reads and multiplies: what the shared end of each group of meanings does to the state. -/

open Sys2Proof Sys2Proof.Machine

namespace Sys2Proof.Machine

variable {s t : State}

/-! ### Register and status effects -/

theorem State.w_congr {s t : State} (h : t.cpsr.t = s.cpsr.t) : t.w = s.w := by simp [State.w, h]

theorem allWritten_physRegs {m : Mode} {l : List RegNo} (h : AllWritten (physRegs m l) t) : NowWritten t m l := by
  intro n hn
  cases hp : phys m n with
  | none => simp [State.regWritten, hp]
  | some p => exact (regWritten_phys hp).trans (h p (List.mem_filterMap.mpr ⟨n, hn, hp⟩))

theorem reg_advance (s : State) {n : RegNo} (hn : n ≠ 15) : (advance s).reg n = s.reg n :=
  reg_congr (advance_regs s) rfl hn

/-- The end of an instruction that works on registers only. -/
theorem registerEffect_advance (s : State) {rd : RegNo} (hrd : rd ≠ 15) (r : Word) {p : Cpsr} (k : Nat)
    (hm : p.mode = s.cpsr.mode) (ht : p.t = s.cpsr.t) :
    RegisterEffect s rd r p k (advance (((s.spend k).setCpsr p).setReg rd r)) := by
  have hw : NowWritten (((s.spend k).setCpsr p).setReg rd r) s.cpsr.mode [rd] :=
    allWritten_physRegs (hm ▸ AllWritten.setReg ((s.spend k).setCpsr p) rd r)
  have ho : OtherRegs (physRegs s.cpsr.mode [rd]) s (((s.spend k).setCpsr p).setReg rd r) :=
    hm ▸ otherRegs_setReg ((s.spend k).setCpsr p) rd r
  refine ⟨(reg_advance _ hrd).trans (reg_setReg_self r hrd), hw, by simp, ?_, by simp, by simp, ho, ?_, ?_, ?_, ?_⟩
  · rw [advance_pc, State.w_congr (s := s) (by simpa using ht)]
    simp
  · simp [SameControl]
  · simp [SameIo]
  · simp [NoExchange]
  · exact sameMemory_of_mem (by simp) (by simp)

/-- The same where the flags are left alone. -/
theorem registerEffect_setReg (s : State) {rd : RegNo} (hrd : rd ≠ 15) (r : Word) :
    RegisterEffect s rd r s.cpsr 0 (advance (s.setReg rd r)) := registerEffect_advance s hrd r 0 rfl rfl

/-- The end of an instruction that writes no register. -/
theorem statusEffect_advance (s : State) {p : Cpsr} (k : Nat) (ht : p.t = s.cpsr.t) :
    StatusEffect s p k (advance ((s.spend k).setCpsr p)) := by
  refine ⟨rfl, ?_, rfl, rfl, .of_regs rfl rfl, ?_, ?_, ?_, sameMemory_of_mem rfl rfl⟩
  · rw [advance_pc, State.w_congr (s := s) (by simpa using ht)]
    simp
  · simp [SameControl]
  · simp [SameIo]
  · simp [NoExchange]

/-! ### The sixteen operations (R200) -/

theorem writeResult_of_ne (s : State) (sf : Bool) {rd : RegNo} (hrd : rd ≠ 15) (r : Word) (p : Cpsr) :
    writeResult s sf rd r p = .next (advance ((s.setCpsr (if sf then p else s.cpsr)).setReg rd r)) := by
  unfold writeResult
  rw [if_neg hrd]
  cases sf <;> rfl

/-- A result with the flags it sets when S = 1, none of which is the mode or T. -/
theorem writeResult_effect (s : State) (sf : Bool) {rd : RegNo} (hrd : rd ≠ 15) (r : Word) {p : Cpsr} (k : Nat)
    (hm : p.mode = s.cpsr.mode) (ht : p.t = s.cpsr.t) :
    ∃ t, writeResult (s.spend k) sf rd r p = .next t ∧ RegisterEffect s rd r (if sf then p else s.cpsr) k t := by
  refine ⟨_, writeResult_of_ne _ sf hrd r p, registerEffect_advance s hrd r k ?_ ?_⟩
  · cases sf
    · rfl
    · exact hm
  · cases sf
    · rfl
    · exact ht

section

variable {c : Cond} {o : Operand2} {b : Word} {sc : Bool} (hc : condPassed c s.cpsr = true)
  (ho : operand2 s o = .ok (b, sc))
include hc ho

theorem logical_effect (sf : Bool) (rn : RegNo) {rd : RegNo} (hrd : rd ≠ 15) (op : Word → Word → Word) :
    ∃ t, logical c sf rn rd o op s = .next t ∧ RegisterEffect s rd (op (regOrStore s rn o) b)
      (if sf then s.cpsr.setNZC (op (regOrStore s rn o) b) sc (operand2Sets s o) else s.cpsr) (operand2Cycles o) t := by
  unfold logical
  rw [predicated_of_passed _ hc, ho]
  exact writeResult_effect s sf hrd _ _ rfl rfl

theorem moveOp_effect (sf : Bool) {rd : RegNo} (hrd : rd ≠ 15) (op : Word → Word) :
    ∃ t, moveOp c sf 0 rd o op s = .next t ∧ RegisterEffect s rd (op b)
      (if sf then s.cpsr.setNZC (op b) sc (operand2Sets s o) else s.cpsr) (operand2Cycles o) t := by
  unfold moveOp
  rw [predicated_of_passed _ hc, ho]
  exact writeResult_effect s sf hrd _ _ rfl rfl

theorem arithmetic_effect (sf : Bool) (rn : RegNo) {rd : RegNo} (hrd : rd ≠ 15)
    (op : Word → Word → Bool → Word × Bool × Bool) :
    let r := op (regOrStore s rn o) b s.cpsr.c
    ∃ t, arithmetic c sf rn rd o op s = .next t ∧ RegisterEffect s rd r.1
      (if sf then s.cpsr.setNZCV r.1 r.2.1 r.2.2 else s.cpsr) (operand2Cycles o) t := by
  unfold arithmetic
  rw [predicated_of_passed _ hc, ho]
  exact writeResult_effect s sf hrd _ _ rfl rfl

theorem testOp_effect (rn : RegNo) (op : Word → Word → Word) :
    ∃ t, testOp c rn 0 o op s = .next t ∧ StatusEffect s
      (s.cpsr.setNZC (op (regOrStore s rn o) b) sc (operand2Sets s o)) (operand2Cycles o) t := by
  unfold testOp
  rw [predicated_of_passed _ hc, ho]
  exact ⟨_, rfl, statusEffect_advance s _ rfl⟩

theorem compareOp_effect (rn : RegNo) (op : Word → Word → Word × Bool × Bool) :
    let r := op (regOrStore s rn o) b
    ∃ t, compareOp c rn 0 o op s = .next t ∧ StatusEffect s (s.cpsr.setNZCV r.1 r.2.1 r.2.2) (operand2Cycles o) t := by
  unfold compareOp
  rw [predicated_of_passed _ hc, ho]
  exact ⟨_, rfl, statusEffect_advance s _ rfl⟩

end

end Sys2Proof.Machine

/-- Settles O26: each is `logical` or `moveOp` at its own function of the operands. -/
theorem logicalResults : Obligations.LogicalResults := by
  intro s c sf rn rd o b sc hc ho hrd
  exact ⟨logical_effect hc ho sf rn hrd (fun a b => a &&& b), logical_effect hc ho sf rn hrd (fun a b => a ^^^ b),
    logical_effect hc ho sf rn hrd (fun a b => a ||| b), logical_effect hc ho sf rn hrd (fun a b => a &&& ~~~b),
    moveOp_effect hc ho sf hrd (fun b => b), moveOp_effect hc ho sf hrd (fun b => ~~~b)⟩

/-- Settles O27: each is `arithmetic` at its own addition with carry. -/
theorem arithmeticResults : Obligations.ArithmeticResults := by
  intro s c sf rn rd o b sc hc ho hrd
  exact ⟨arithmetic_effect hc ho sf rn hrd (fun a b _ => addWithCarry a (~~~b) true),
    arithmetic_effect hc ho sf rn hrd (fun a b _ => addWithCarry b (~~~a) true),
    arithmetic_effect hc ho sf rn hrd (fun a b _ => addWithCarry a b false),
    arithmetic_effect hc ho sf rn hrd (fun a b carry => addWithCarry a b carry),
    arithmetic_effect hc ho sf rn hrd (fun a b carry => addWithCarry a (~~~b) carry),
    arithmetic_effect hc ho sf rn hrd (fun a b carry => addWithCarry b (~~~a) carry)⟩

/-- Settles O28: each is `testOp` or `compareOp` at its own function of the operands. -/
theorem testAndCompareResults : Obligations.TestAndCompareResults := by
  intro s c rn o b sc hc ho
  exact ⟨testOp_effect hc ho rn (fun a b => a &&& b), testOp_effect hc ho rn (fun a b => a ^^^ b),
    compareOp_effect hc ho rn (fun a b => addWithCarry a (~~~b) true),
    compareOp_effect hc ho rn (fun a b => addWithCarry a b false)⟩
end

section
/-! Frames of loads step by step, status-register reads and multiplies. -/

open Sys2Proof Sys2Proof.Machine

namespace Sys2Proof.Machine

variable {s t : State} {l : List PhysReg}

/-! ### The frame of a load, update by update -/

namespace LoadFrame

theorem of_busOnly {m : Mode} (h : BusOnly s t) : LoadFrame s (physRegs m []) t :=
  ⟨.nil t, .of_regs h.regs h.written, h.sameControl, h.sameIo, h.sameMemory⟩

theorem refl {m : Mode} (s : State) : LoadFrame s (physRegs m []) s := of_busOnly (.refl s)

theorem advance (h : LoadFrame s l t) : LoadFrame s l (advance t) := h

theorem jump (h : LoadFrame s l t) (a : Word) : LoadFrame s l (jump t a) := h

theorem setCpsr (h : LoadFrame s l t) (p : Cpsr) : LoadFrame s l (t.setCpsr p) := h

theorem spend (h : LoadFrame s l t) (k : Nat) : LoadFrame s l (t.spend k) := h

theorem draw (h : LoadFrame s l t) : LoadFrame s l (draw t).2 := h

/-- Writing a register adds it to the registers that change. -/
theorem setRegOf {m : Mode} {ns : List RegNo} (h : LoadFrame s (physRegs m ns) t) (n : RegNo) (v : Word) :
    LoadFrame s (physRegs m (n :: ns)) (t.setRegOf m n v) := by
  obtain ⟨hw, ho, hc, hi, hm⟩ := h
  refine ⟨AllWritten.setRegOf v fun k hk hne p hp => hw p ?_, ?_, ?_, ?_, fun a => ?_⟩
  · exact List.mem_filterMap.mpr ⟨k, (List.mem_cons.mp hk).resolve_left hne, hp⟩
  · exact ho.trans (otherRegs_setRegOf t m n v) (physRegs_mono (by simp +contextual)) (physRegs_mono (by simp))
  · simpa [SameControl] using hc
  · simpa [SameIo] using hi
  · rw [← hm a]
    exact peek_congr (by simp) (by simp) a

theorem setReg {m : Mode} {ns : List RegNo} (h : LoadFrame s (physRegs m ns) t) (hm : t.cpsr.mode = m) (n : RegNo)
    (v : Word) : LoadFrame s (physRegs m (n :: ns)) (t.setReg n v) := by
  subst hm
  exact h.setRegOf n v

theorem congr {k : List PhysReg} (h : LoadFrame s l t) (hl : ∀ p, p ∈ k ↔ p ∈ l) : LoadFrame s k t := by
  obtain ⟨hw, ho, hrest⟩ := h
  exact ⟨fun p hp => hw p ((hl p).mp hp), ho.mono fun p => (hl p).mpr, hrest⟩

theorem congr_names {m : Mode} {ns ks : List RegNo} (h : LoadFrame s (physRegs m ns) t) (hl : ∀ n, n ∈ ks ↔ n ∈ ns) :
    LoadFrame s (physRegs m ks) t :=
  h.congr fun p => ⟨physRegs_mono (fun n => (hl n).mp) p, physRegs_mono (fun n => (hl n).mpr) p⟩

end LoadFrame

/-! ### MRS (R240) -/

theorem Psr.word_flags (p : Psr) (r : BitVec 20) :
    (p.word r).extractLsb' 28 4 = bit p.n ++ bit p.z ++ bit p.c ++ bit p.v := by
  unfold Psr.word
  repeat rw [BitVec.extractLsb'_append_eq_of_le (by omega)]
  simp

theorem Psr.word_reserved (p : Psr) (r : BitVec 20) : (p.word r).extractLsb' 8 20 = r := by
  unfold Psr.word
  iterate 4 rw [BitVec.extractLsb'_append_eq_of_le (by omega)]
  rw [BitVec.extractLsb'_append_eq_of_add_le (by omega)]
  simp

theorem Psr.word_low (p : Psr) (r : BitVec 20) :
    (p.word r).extractLsb' 0 8 = bit p.i ++ bit p.f ++ bit p.t ++ p.m := by
  apply BitVec.eq_of_getLsbD_eq
  intro k hk
  rw [BitVec.getLsbD_extractLsb']
  unfold Psr.word
  simp only [BitVec.getLsbD_append]
  interval_cases k <;> simp

theorem readPsr_eq_ok {spsr : Bool} {p : Psr}
    (h : (if spsr then s.spsr.get s.cpsr.mode else some s.cpsr.saved) = some p) : readPsr s spsr = .ok p := by
  unfold readPsr
  cases spsr with
  | true => simp only [if_true] at h ⊢; rw [h]
  | false => cases h; rfl

/-- MRS with its should-be fields as they should be. -/
theorem execArmMrs_eq {c : Cond} (hc : condPassed c s.cpsr = true) {rd : RegNo} (hrd : rd ≠ 15) (spsr : Bool) :
    execArmMrs c spsr 0xF rd 0 0 s = orFault (readPsr s spsr) fun p =>
      .next (advance ((draw s).2.setReg rd (p.word ((Config.draw s.draws).extractLsb' 8 20)))) := by
  unfold execArmMrs
  rw [predicated_of_passed _ hc, if_neg (by simp), if_neg hrd]
  rfl

end Sys2Proof.Machine

/-- Settles O31: the word put into Rd is taken apart into its flags, free bits and low byte. -/
theorem mrsResults : Obligations.MrsResults := by
  intro s c rd hc hrd
  refine ⟨fun spsr p hp => ⟨_, (execArmMrs_eq hc hrd spsr).trans (by rw [readPsr_eq_ok hp]; rfl), ?_⟩, fun hm => ?_⟩
  · have hr := (reg_advance _ hrd).trans
      (reg_setReg_self (s := (draw s).2) (p.word ((Config.draw s.draws).extractLsb' 8 20)) hrd)
    dsimp only
    rw [hr, Psr.word_flags, Psr.word_low, Psr.word_reserved]
    refine ⟨rfl, rfl, rfl, by simp, ?_, by simp, by simp, ((LoadFrame.refl s).draw.setReg rfl rd _).advance⟩
    rw [advance_pc, State.w_congr (s := s) (by simp)]
    simp
  · refine (execArmMrs_eq hc hrd true).trans ?_
    have hn : s.spsr.get s.cpsr.mode = none := by rcases hm with h | h <;> rw [h] <;> rfl
    simp [readPsr, hn]

namespace Sys2Proof.Machine

variable {s t : State}

/-! ### Multiplies (R243 to R249, R425) -/

/-- What a 32-bit multiply with result r, a natural number taken modulo 2^32, leaves. -/
def MulEffect (s : State) (rd : RegNo) (sf : Bool) (r k : Nat) (t : State) : Prop :=
  t.reg rd = BitVec.ofNat 32 r ∧
    t.cpsr = (if sf then { s.cpsr with
        n := (BitVec.ofNat 32 r).getLsbD 31, z := decide (r % 2 ^ 32 = 0), c := (Config.draw s.draws).getLsbD 0,
        marks := ⟨true, true, true, s.cpsr.marks.v⟩ }
      else s.cpsr) ∧
    t.draws = s.draws + sf.toNat ∧ t.pc = s.pc + s.w ∧ t.cycles = s.cycles + k ∧
    LoadFrame s (physRegs s.cpsr.mode [rd]) t

theorem ofNat_beq_zero (w r : Nat) : (BitVec.ofNat w r == 0#w) = decide (r % 2 ^ w = 0) := by
  rw [Bool.eq_iff_iff, beq_iff_eq, decide_eq_true_eq, ← BitVec.toNat_inj, BitVec.toNat_ofNat]
  simp

theorem mulFlags_cpsr (s : State) (sf : Bool) (r : Word) : (mulFlags s sf r).cpsr =
    if sf then s.cpsr.setNZC r ((Config.draw s.draws).getLsbD 0) true else s.cpsr := by
  cases sf <;> rfl

theorem mulFlags_draws (s : State) (sf : Bool) (r : Word) : (mulFlags s sf r).draws = s.draws + sf.toNat := by
  cases sf <;> rfl

theorem mulFlags_rest (s : State) (sf : Bool) (r : Word) :
    (mulFlags s sf r).pc = s.pc ∧ (mulFlags s sf r).cycles = s.cycles ∧ (mulFlags s sf r).cpsr.t = s.cpsr.t := by
  cases sf <;> exact ⟨rfl, rfl, rfl⟩

theorem LoadFrame.mulFlags {l : List PhysReg} (h : LoadFrame s l t) (sf : Bool) (r : Word) :
    LoadFrame s l (mulFlags t sf r) := by
  cases sf with
  | true => exact h.draw.setCpsr _
  | false => exact h

theorem finishMul_effect (s : State) (sf : Bool) {rd : RegNo} (hrd : rd ≠ 15) {v : Word} {r : Nat}
    (hv : v = BitVec.ofNat 32 r) (k : Nat) : ∃ t, finishMul s sf rd v k = .next t ∧ MulEffect s rd sf r k t := by
  subst hv
  obtain ⟨hpc, hcy, ht⟩ := mulFlags_rest (s.spend k) sf (BitVec.ofNat 32 r)
  refine ⟨_, rfl, (reg_advance _ hrd).trans (reg_setReg_self _ hrd), ?_, ?_, ?_, ?_, ?_⟩
  · rw [advance_cpsr, setReg_cpsr, mulFlags_cpsr, ← ofNat_beq_zero]
    simp [Cpsr.setNZC]
  · rw [advance_draws, setReg_draws, mulFlags_draws, spend_draws]
  · rw [advance_pc, State.w_congr (s := s) (by simpa using ht), setReg_pc, hpc, spend_pc]
  · rw [advance_cycles, setReg_cycles, hcy, spend_cycles]
  · exact ((((LoadFrame.refl s).spend k).mulFlags sf _).setReg (by simp) rd _).advance

theorem mul_eq_ofNat (x y : Word) : x * y = BitVec.ofNat 32 (x.toNat * y.toNat) := by simp [BitVec.ofNat_mul]

theorem mul_add_eq_ofNat (x y z : Word) : x * y + z = BitVec.ofNat 32 (x.toNat * y.toNat + z.toNat) := by
  simp [BitVec.ofNat_mul, BitVec.ofNat_add]

/-- What a long multiply with the integer result p leaves. -/
def LongMulEffect (s : State) (rdHi rdLo : RegNo) (sf : Bool) (p : Int) (k : Nat) (t : State) : Prop :=
  t.reg rdLo = BitVec.ofInt 32 p ∧ t.reg rdHi = BitVec.ofInt 32 (p / 2 ^ 32) ∧
    t.cpsr = (if sf then { s.cpsr with
        n := (BitVec.ofInt 64 p).getLsbD 63, z := decide (p % 2 ^ 64 = 0), c := (Config.draw s.draws).getLsbD 0,
        v := (Config.draw (s.draws + 1)).getLsbD 0, marks := FlagMarks.fill true }
      else s.cpsr) ∧
    t.draws = s.draws + 2 * sf.toNat ∧ t.pc = s.pc + s.w ∧ t.cycles = s.cycles + k ∧
    LoadFrame s (physRegs s.cpsr.mode [rdHi, rdLo]) t

theorem ofInt_beq_zero (p : Int) : (BitVec.ofInt 64 p == 0#64) = decide (p % 2 ^ 64 = 0) := by
  rw [Bool.eq_iff_iff, beq_iff_eq, decide_eq_true_eq, ← BitVec.toNat_inj, BitVec.toNat_ofInt, BitVec.toNat_zero]
  omega

theorem extractLow_ofInt (p : Int) : (BitVec.ofInt 64 p).extractLsb' 0 32 = BitVec.ofInt 32 p := by
  apply BitVec.eq_of_toNat_eq
  simp only [BitVec.extractLsb'_toNat, BitVec.toNat_ofInt, Nat.shiftRight_zero]
  omega

theorem extractHigh_ofInt (p : Int) : (BitVec.ofInt 64 p).extractLsb' 32 32 = BitVec.ofInt 32 (p / 2 ^ 32) := by
  apply BitVec.eq_of_toNat_eq
  simp only [BitVec.extractLsb'_toNat, BitVec.toNat_ofInt, Nat.shiftRight_eq_div_pow]
  omega

theorem longMulFlags_cpsr (s : State) (sf : Bool) (p : BitVec 64) : (longMulFlags s sf p).cpsr =
    if sf then { s.cpsr with
      n := p.getLsbD 63, z := p == 0, c := (Config.draw s.draws).getLsbD 0, v := (Config.draw (s.draws + 1)).getLsbD 0,
      marks := FlagMarks.fill true }
    else s.cpsr := by
  cases sf <;> rfl

theorem longMulFlags_draws (s : State) (sf : Bool) (p : BitVec 64) :
    (longMulFlags s sf p).draws = s.draws + 2 * sf.toNat := by
  cases sf <;> rfl

theorem longMulFlags_rest (s : State) (sf : Bool) (p : BitVec 64) :
    (longMulFlags s sf p).pc = s.pc ∧ (longMulFlags s sf p).cycles = s.cycles ∧
      (longMulFlags s sf p).cpsr.t = s.cpsr.t := by
  cases sf <;> exact ⟨rfl, rfl, rfl⟩

theorem LoadFrame.longMulFlags {l : List PhysReg} (h : LoadFrame s l t) (sf : Bool) (p : BitVec 64) :
    LoadFrame s l (longMulFlags t sf p) := by
  cases sf with
  | true => exact h.draw.draw.setCpsr _
  | false => exact h

/-- A long multiply whose product, as a word pair, is the integer x. -/
theorem longMul_effect {c : Cond} (hc : condPassed c s.cpsr = true) (sf : Bool) {hi lo rs rm : RegNo}
    (h : ¬(hi = 15 ∨ lo = 15 ∨ rm = 15 ∨ rs = 15 ∨ hi = lo ∨ hi = rm ∨ lo = rm)) {p : State → BitVec 64} {x : Int}
    (hp : p s = BitVec.ofInt 64 x) (k : State → Nat) :
    ∃ t, longMul c sf hi lo rs rm p k s = .next t ∧ LongMulEffect s hi lo sf x (k s) t := by
  unfold longMul
  rw [predicated_of_passed _ hc, if_neg h, hp, extractLow_ofInt, extractHigh_ofInt]
  simp only [not_or] at h
  obtain ⟨hhi, hlo, -, -, hne, -, -⟩ := h
  obtain ⟨hpc, hcy, ht⟩ := longMulFlags_rest (s.spend (k s)) sf (BitVec.ofInt 64 x)
  refine ⟨_, rfl, ?_, (reg_advance _ hhi).trans (reg_setReg_self _ hhi), ?_, ?_, ?_, ?_, ?_⟩
  · rw [reg_advance _ hlo, reg_setReg_ne _ hlo hne, reg_setReg_self _ hlo]
  · rw [advance_cpsr, setReg_cpsr, setReg_cpsr, longMulFlags_cpsr, ← ofInt_beq_zero]
    simp
  · rw [advance_draws, setReg_draws, setReg_draws, longMulFlags_draws, spend_draws]
  · rw [advance_pc, State.w_congr (s := s) (by simpa using ht), setReg_pc, setReg_pc, hpc, spend_pc]
  · rw [advance_cycles, setReg_cycles, setReg_cycles, hcy, spend_cycles]
  · exact (((((LoadFrame.refl s).spend (k s)).longMulFlags sf _).setReg (by simp) lo _).setReg (by simp) hi _).advance

theorem accumulator_eq (hi lo : RegNo) (s : State) :
    accumulator hi lo s = BitVec.ofInt 64 ((s.reg hi).toNat * 2 ^ 32 + (s.reg lo).toNat) := by
  apply BitVec.eq_of_toNat_eq
  have h1 := (s.reg hi).isLt
  have h2 := (s.reg lo).isLt
  rw [accumulator, BitVec.toNat_append, ← Nat.shiftLeft_add_eq_or_of_lt h2, Nat.shiftLeft_eq, BitVec.toNat_ofInt]
  omega

theorem unsignedProduct_eq (rs rm : RegNo) (s : State) :
    unsignedProduct rs rm s = BitVec.ofInt 64 ((s.reg rm).toNat * (s.reg rs).toNat) := by
  rw [unsignedProduct, ← Nat.cast_mul, BitVec.ofInt_natCast]

theorem signedProduct_eq (rs rm : RegNo) (s : State) :
    signedProduct rs rm s = BitVec.ofInt 64 ((s.reg rm).toInt * (s.reg rs).toInt) := rfl

end Sys2Proof.Machine

/-- Settles O33: each ends in `finishMul`, with the low 32 bits of a natural number's value. -/
theorem multiplyResults : Obligations.MultiplyResults := by
  intro s c sf rd rn rs rm hc
  refine ⟨fun hrd hrm hrs hne => ⟨?_, fun hrn => ?_⟩, fun ls ld hne => ?_⟩
  · obtain ⟨t, he, ht⟩ := finishMul_effect s sf hrd (mul_eq_ofNat (s.reg rm) (s.reg rs)) (multiplyCycles (s.reg rs) true)
    refine ⟨t, ?_, ht⟩
    show execArmMul c sf rd 0 rs rm s = _
    rw [execArmMul, predicated_of_passed _ hc, if_neg (by simp), if_neg (by simp only [not_or]; exact ⟨hrd, hrm, hrs, hne⟩), he]
  · obtain ⟨t, he, ht⟩ := finishMul_effect s sf hrd (mul_add_eq_ofNat (s.reg rm) (s.reg rs) (s.reg rn))
      (multiplyCycles (s.reg rs) true + 1)
    refine ⟨t, ?_, ht⟩
    show execArmMla c sf rd rn rs rm s = _
    rw [execArmMla, predicated_of_passed _ hc, if_neg (by simp only [not_or]; exact ⟨hrd, hrm, hrs, hrn, hne⟩), he]
  · obtain ⟨t, he, ht⟩ := finishMul_effect s true (low_ne_15 ld) (mul_eq_ofNat (s.reg (low ls)) (s.reg (low ld)))
      (multiplyCycles (s.reg (low ld)) true)
    refine ⟨t, ?_, ht⟩
    show execThumbMul ls ld s = _
    rw [execThumbMul, if_neg hne]
    exact he

/-- Settles O34: each ends in `longMul`, with the 64-bit word of an integer's value. -/
theorem longMultiplyResults : Obligations.LongMultiplyResults := by
  intro s c sf hi lo rs rm hc h1 h2 h3 h4 h5 h6 h7
  have h : ¬(hi = 15 ∨ lo = 15 ∨ rm = 15 ∨ rs = 15 ∨ hi = lo ∨ hi = rm ∨ lo = rm) := by
    simp only [not_or]
    exact ⟨h1, h2, h3, h4, h5, h6, h7⟩
  have hu := unsignedProduct_eq rs rm s
  have hs := signedProduct_eq rs rm s
  have ha := accumulator_eq hi lo s
  exact ⟨longMul_effect hc sf h hu (fun s => multiplyCycles (s.reg rs) false + 1),
    longMul_effect hc sf h (p := fun s => unsignedProduct rs rm s + accumulator hi lo s)
      ((congrArg₂ (· + ·) hu ha).trans (BitVec.ofInt_add _ _).symm) (fun s => multiplyCycles (s.reg rs) false + 2),
    longMul_effect hc sf h hs (fun s => multiplyCycles (s.reg rs) true + 1),
    longMul_effect hc sf h (p := fun s => signedProduct rs rm s + accumulator hi lo s)
      ((congrArg₂ (· + ·) hs ha).trans (BitVec.ofInt_add _ _).symm) (fun s => multiplyCycles (s.reg rs) true + 2)⟩
end

section
/-! Branches: the alignment of targets, and B, BL in both instruction sets. -/

open Sys2Proof Sys2Proof.Machine

namespace Sys2Proof.Machine

variable {s t u : State}

/-! ### Targets (R26) -/

theorem and_one_beq_zero (a : Word) : (a &&& 1 == 0) = decide (a.toNat % 2 = 0) := by
  rw [Bool.eq_iff_iff, beq_iff_eq, decide_eq_true_eq, ← BitVec.toNat_inj, BitVec.toNat_and]
  exact iff_of_eq (congrArg (· = 0) (Nat.and_two_pow_sub_one_eq_mod a.toNat 1))

theorem and_three_beq_zero (a : Word) : (a &&& 3 == 0) = decide (a.toNat % 4 = 0) := by
  rw [Bool.eq_iff_iff, beq_iff_eq, decide_eq_true_eq, ← BitVec.toNat_inj, BitVec.toNat_and]
  exact iff_of_eq (congrArg (· = 0) (Nat.and_two_pow_sub_one_eq_mod a.toNat 2))

/-- Alignment for T as arithmetic. -/
theorem pcFits_eq (thumb : Bool) (a : Word) : pcFits thumb a = decide (a.toNat % instrBytes thumb = 0) := by
  cases thumb
  · exact and_three_beq_zero a
  · exact and_one_beq_zero a

/-- A signed offset field with zeros below it is the offset times a power of two. -/
theorem signExtend_append_zero {w : Nat} (x : BitVec w) (k : Nat) :
    (x ++ 0#k).signExtend 32 = BitVec.ofInt 32 (2 ^ k * x.toInt) := by
  rw [BitVec.signExtend, BitVec.toInt_append_zero]

/-- An aligned address stays so when multiples of the alignment are added. -/
theorem add_ofInt_toNat_mod (a : Word) {k : Nat} (hk : k = 2 ∨ k = 4) (x : Int) (ha : a.toNat % k = 0) :
    (a + BitVec.ofInt 32 (k * x)).toNat % k = 0 := by
  rw [BitVec.toNat_add, BitVec.toNat_ofInt]
  rcases hk with rfl | rfl <;> omega

/-- A branch to a target that fits, from a state that the instruction has reached by writing the registers listed. -/
theorem branchTo_effect {a : Word} {l : List PhysReg} (ha : pcFits u.cpsr.t a = true) (hl : LoadFrame s l u)
    (hc : s.cycles ≤ u.cycles) (hx : NoExchange s u) :
    branchTo u a = .next (jump u a) ∧ BranchEffect s a u.cpsr l (jump u a) := by
  obtain ⟨hw, ho, hctl, hio, hm⟩ := hl
  refine ⟨?_, branchEffect_jump rfl hc hw ho hctl hio hx hm⟩
  unfold branchTo
  rw [if_pos ha]

theorem branchTo_self_effect {a : Word} (ha : pcFits s.cpsr.t a = true) :
    branchTo s a = .next (jump s a) ∧ BranchEffect s a s.cpsr [] (jump s a) :=
  branchTo_effect ha (.refl (m := .usr) s) (Nat.le_refl _) ⟨rfl, rfl, rfl⟩

/-- A branch of an instruction that has written R14. -/
theorem branchTo_link_effect {a v : Word} (ha : pcFits s.cpsr.t a = true) :
    ∃ t, branchTo (s.setReg 14 v) a = .next t ∧ BranchEffect s a s.cpsr (physRegs s.cpsr.mode [14]) t ∧
      t.reg 14 = v := by
  obtain ⟨he, hb⟩ := branchTo_effect (u := s.setReg 14 v) (by simpa using ha) ((LoadFrame.refl s).setReg rfl 14 v)
    (by simp) (by simp [NoExchange])
  rw [setReg_cpsr] at hb
  exact ⟨_, he, hb, (reg_congr (jump_regs _ a) rfl (by decide)).trans (reg_setReg_self v (by decide))⟩

theorem State.pcAligned_iff (s : State) : s.pcAligned = true ↔ s.pc.toNat % instrBytes s.cpsr.t = 0 := by
  unfold State.pcAligned
  rw [pcFits_eq, decide_eq_true_eq]

/-! ### ARM (R310, R311) -/

theorem armBranchTarget_eq (ht : s.cpsr.t = false) (off : BitVec 24) :
    armBranchTarget s off = s.pc + 8 + BitVec.ofInt 32 (4 * off.toInt) := by
  unfold armBranchTarget State.pcRead
  rw [signExtend_append_zero, ht]
  rfl

theorem pcFits_armBranchTarget (ht : s.cpsr.t = false) (hp : s.pcAligned = true) (off : BitVec 24) :
    pcFits s.cpsr.t (s.pc + 8 + BitVec.ofInt 32 (4 * off.toInt)) = true := by
  rw [s.pcAligned_iff, ht] at hp
  rw [pcFits_eq, ht, decide_eq_true_eq]
  refine add_ofInt_toNat_mod (s.pc + 8) (.inr rfl) off.toInt ?_
  simp only [instrBytes, Bool.false_eq_true, if_false] at hp
  rw [BitVec.toNat_add, show (8 : Word).toNat = 8 from rfl]
  omega

/-! ### Thumb (R480 to R483) -/

theorem thumbPcRead_eq (ht : s.cpsr.t = true) : s.pcRead = s.pc + 4 := by simp [State.pcRead, ht]

theorem pcFits_thumbBranchTarget (ht : s.cpsr.t = true) (hp : s.pcAligned = true) (x : Int) :
    pcFits s.cpsr.t (s.pc + 4 + BitVec.ofInt 32 (2 * x)) = true := by
  rw [s.pcAligned_iff, ht] at hp
  rw [pcFits_eq, ht, decide_eq_true_eq]
  refine add_ofInt_toNat_mod (s.pc + 4) (.inl rfl) x ?_
  simp only [instrBytes, if_true] at hp
  rw [BitVec.toNat_add, show (4 : Word).toNat = 4 from rfl]
  omega

theorem thumbBranch_effect (ht : s.cpsr.t = true) (hp : s.pcAligned = true) {w : Nat} (off : BitVec w) :
    ∃ t, branchTo s (s.pcRead + (off ++ 0#1).signExtend 32) = .next t ∧
      BranchEffect s (s.pc + 4 + BitVec.ofInt 32 (2 * off.toInt)) s.cpsr [] t := by
  rw [thumbPcRead_eq ht, signExtend_append_zero]
  exact ⟨_, branchTo_self_effect (pcFits_thumbBranchTarget ht hp off.toInt)⟩

/-- The offset of the second half of BL is not signed. -/
theorem setWidth_append_zero (off : BitVec 11) : (off ++ 0#1).setWidth 32 = BitVec.ofNat 32 (2 * off.toNat) := by
  apply BitVec.eq_of_toNat_eq
  rw [BitVec.toNat_setWidth, BitVec.toNat_append, BitVec.toNat_ofNat]
  simp [Nat.shiftLeft_eq, Nat.mul_comm]

/-- The target of the second half of BL fits Thumb state exactly where R14 is even. -/
theorem pcFits_blTarget (ht : s.cpsr.t = true) (a : Word) (off : BitVec 11) :
    pcFits s.cpsr.t (a + BitVec.ofNat 32 (2 * off.toNat)) = decide (a.toNat % 2 = 0) := by
  rw [pcFits_eq, ht, BitVec.toNat_add, BitVec.toNat_ofNat]
  have := off.isLt
  congr 1
  simp only [instrBytes, if_true, eq_iff_iff]
  omega

/-- The link of BL: the address of the next instruction with bit 0 set. -/
theorem blLink_eq (ht : s.cpsr.t = true) (hp : s.pcAligned = true) : (s.pc + 2) ||| 1 = s.pc + 3 := by
  rw [s.pcAligned_iff, ht] at hp
  simp only [instrBytes, if_true] at hp
  have he : (s.pc + 2) &&& 1 = 0 := by
    rw [← beq_iff_eq, and_one_beq_zero, decide_eq_true_eq, BitVec.toNat_add, show (2 : Word).toNat = 2 from rfl]
    omega
  rw [← BitVec.add_eq_or_of_and_eq_zero _ _ he, BitVec.add_assoc]
  rfl

end Sys2Proof.Machine

/-- Settles O51: an aligned PC and a word offset give an aligned target, so the branch does not stop. -/
theorem armBranches : Obligations.ArmBranches := by
  intro s c off hc ht hp
  have hf := pcFits_armBranchTarget ht hp off
  constructor
  · obtain ⟨he, hb⟩ := branchTo_self_effect hf
    refine ⟨_, ?_, hb⟩
    show execArmB c off s = _
    rw [execArmB, predicated_of_passed _ hc, armBranchTarget_eq ht, he]
  · obtain ⟨t, he, hb⟩ := branchTo_link_effect (v := s.pc + 4) hf
    refine ⟨t, ?_, hb⟩
    show execArmBl c off s = _
    rw [execArmBl, predicated_of_passed _ hc, armBranchTarget_eq ht, he]

/-- Settles O53: only the target of the second half of BL can be misaligned, and it is so from an odd R14. -/
theorem thumbBranches : Obligations.ThumbBranches := by
  intro s ht hp
  refine ⟨fun c off hc => ?_, fun c off hc => ?_, fun off => thumbBranch_effect ht hp off, fun off => ?_,
    fun off => ⟨fun h => ?_, fun h => ?_⟩⟩
  · obtain ⟨t, he, hb⟩ := thumbBranch_effect ht hp off
    exact ⟨t, (if_pos hc).trans he, hb⟩
  · exact ⟨_, if_neg (by simp [hc]), statusEffect_advance s 0 rfl⟩
  · have hl : s.pcRead + (off ++ 0#12).signExtend 32 = s.pc + 4 + BitVec.ofInt 32 (4096 * off.toInt) := by
      rw [thumbPcRead_eq ht, signExtend_append_zero]
      rfl
    exact ⟨_, rfl, hl ▸ registerEffect_setReg s (by decide) _⟩
  · have hf := (pcFits_blTarget ht (s.reg 14) off).trans (decide_eq_true h)
    obtain ⟨t, he, hb, hr⟩ := branchTo_link_effect (v := (s.pc + 2) ||| 1) hf
    refine ⟨t, ?_, hb, hr.trans (blLink_eq ht hp)⟩
    show execThumbBlLow off s = _
    rw [execThumbBlLow, setWidth_append_zero, he]
  · have hf := (pcFits_blTarget ht (s.reg 14) off).trans (decide_eq_false (by omega))
    show execThumbBlLow off s = _
    rw [execThumbBlLow, setWidth_append_zero, branchTo, setReg_cpsr, hf]
    rfl
end

section
/-! Single loads, ARM and Thumb (R270 to R283, R440 to R456). -/

open Sys2Proof Sys2Proof.Machine

namespace Sys2Proof.Machine

variable {s t u : State}

/-! ### Writeback -/

theorem reg_writeBack {n : RegNo} {a : Addressing} (s : State) (hn : n ≠ 15) (hw : a.writeback = true) :
    (writeBack s n a).reg n = a.newBase := by
  unfold writeBack
  rw [if_pos hw, reg_setReg_self _ hn]

theorem LoadFrame.writeBack {m : Mode} (h : LoadFrame s (physRegs m []) t) (hm : t.cpsr.mode = m) (n : RegNo)
    (a : Addressing) : LoadFrame s (physRegs m (if a.writeback then [n] else [])) (writeBack t n a) := by
  unfold Machine.writeBack
  split
  · exact h.setReg hm n _
  · exact h

/-- A mode that writes back has a base that is neither R15 nor the transferred register (R270, R279). -/
def WritesApart (rn rd : RegNo) (a : Addressing) : Prop := a.writeback = true → rn ≠ 15 ∧ rn ≠ rd

theorem addressing_apart {pre wb up : Bool} {rn rd : RegNo} {off : Word} {a : Addressing}
    (h : addressing s pre wb up rn rd off = .ok a) : WritesApart rn rd a := by
  unfold addressing at h
  dsimp only at h
  split at h
  · cases h
  · rename_i hn
    cases h
    intro hw
    exact not_or.mp fun e => hn ⟨hw, e⟩

theorem singleAddressing_apart {pre wb up : Bool} {rn rd : RegNo} {o : Offset12} {a : Addressing}
    (h : singleAddressing s pre wb up rn rd o = .ok a) : WritesApart rn rd a := by
  unfold singleAddressing at h
  split at h
  · cases h
  · exact addressing_apart h

theorem halfAddressing_apart {p wb up : Bool} {rn rd : RegNo} {o : Offset8} {a : Addressing}
    (h : halfAddressing s p wb up rn rd o = .ok a) : rd ≠ 15 ∧ WritesApart rn rd a := by
  unfold halfAddressing at h
  split at h
  · cases h
  · split at h
    · cases h
    · rename_i hrd
      split at h
      · cases h
      · exact ⟨hrd, addressing_apart h⟩

/-! ### The end of a load -/

/-- What an ARM load through an addressing leaves when its destination is not R15. -/
def LoadEffect (s : State) (rn rd : RegNo) (a : Addressing) (load : State → Word → Word × State) (t : State) : Prop :=
  t.reg rd = (load s a.address).1 ∧ (a.writeback = true → t.reg rn = a.newBase) ∧ t.cpsr = s.cpsr ∧
    t.pc = s.pc + s.w ∧ t.cycles = (load s a.address).2.cycles + 1 ∧
    LoadFrame s (physRegs s.cpsr.mode (rd :: if a.writeback then [rn] else [])) t

/-- What a load of R15 leaves that branches to the loaded word, bits cut off as `target` says. -/
def LoadJumpEffect (s : State) (rn : RegNo) (a : Addressing) (load : State → Word → Word × State)
    (target : Word → Word) (t : State) : Prop :=
  t.pc = target (load s a.address).1 ∧ (a.writeback = true → t.reg rn = a.newBase) ∧ t.cpsr = s.cpsr ∧
    (load s a.address).2.cycles + 3 ≤ t.cycles ∧
    LoadFrame s (physRegs s.cpsr.mode (if a.writeback then [rn] else [])) t

section

variable {load : State → Word → Word × State} (hl : IsLoad load) {rn rd : RegNo} {a : Addressing}
  (ha : WritesApart rn rd a)
include hl ha

theorem loadThrough_effect (hrd : rd ≠ 15) (toPc : State → Word → Result) :
    ∃ t, loadThrough s (.ok a) rn rd load toPc = .next t ∧ LoadEffect s rn rd a load t := by
  have hb := (hl s a.address).1
  refine ⟨_, if_neg hrd, (reg_advance _ hrd).trans (reg_setReg_self _ hrd), fun hw => ?_, ?_, ?_, by simp, ?_⟩
  · rw [reg_advance _ (ha hw).1, reg_setReg_ne _ (ha hw).1 (ha hw).2.symm, reg_writeBack _ (ha hw).1 hw]
  · simp [hb.cpsr]
  · rw [advance_pc, State.w_congr (s := s) (by simp [hb.cpsr])]
    simp [hb.pc]
  · have hf := ((LoadFrame.of_busOnly hb).spend 1).writeBack (m := s.cpsr.mode) (by simp [hb.cpsr]) rn a
    exact (hf.setReg (by simp [hb.cpsr]) rd _).advance

theorem loadThrough_jump_effect (hrd : rd = 15) (target : Word → Word) :
    ∃ t, loadThrough s (.ok a) rn rd load (fun s v => .next (jump s (target v))) = .next t ∧
      LoadJumpEffect s rn a load target t := by
  have hb := (hl s a.address).1
  refine ⟨_, if_pos hrd, rfl, fun hw => ?_, ?_, ?_, ?_⟩
  · exact (reg_congr (jump_regs _ _) rfl (ha hw).1).trans (reg_writeBack _ (ha hw).1 hw)
  · simp [hb.cpsr]
  · have hj := jump_cycles_le (writeBack ((load s a.address).2.spend 1) rn a) (target (load s a.address).1)
    simpa [Nat.add_assoc] using hj
  · exact (((LoadFrame.of_busOnly hb).spend 1).writeBack (by simp [hb.cpsr]) rn a).jump _

end

/-! ### Instructions that are a load -/

section

variable {i : Instr} {mode : Except Fault Addressing} {rn rd : RegNo} {load : State → Word → Word × State}
  {toPc : State → Word → Result} (he : exec i s = loadThrough s mode rn rd load toPc)
include he

theorem gives_load {a : Addressing} (hm : mode = .ok a) (hl : IsLoad load) (ha : WritesApart rn rd a) (hrd : rd ≠ 15) :
    Gives i s (LoadEffect s rn rd a load) := by
  obtain ⟨t, ht, h⟩ := loadThrough_effect (s := s) hl ha hrd toPc
  exact ⟨t, he.trans (hm ▸ ht), h⟩

theorem stops_load_mode {e : Fault} (hm : mode = .error e) : Stops i s e := he.trans (hm ▸ rfl)

theorem stops_load_pc {a : Addressing} {e : Fault} (hm : mode = .ok a) (hp : toPc = fun _ _ => .fault e)
    (hrd : rd = 15) : Stops i s e := by
  rw [hm, hp] at he
  exact he.trans (if_pos hrd)

end

/-! ### The ARM loads once their condition passes -/

section

variable {c : Cond} (hc : condPassed c s.cpsr = true) (up : Bool) (rn rd : RegNo)
include hc

theorem armLdr_passed (ix : Index) (off : Offset12) : exec (.armLdr c ix up rn rd off) s =
    loadThrough s (singleAddressing s (Index.pre ix) (Index.wb ix) up rn rd off) rn rd loadWord fun s v =>
      .next (jump s (armTarget v)) := by
  simp only [exec, execArmLdr, predicated_of_passed _ hc]

theorem armLdrb_passed (ix : Index) (off : Offset12) : exec (.armLdrb c ix up rn rd off) s =
    loadThrough s (singleAddressing s (Index.pre ix) (Index.wb ix) up rn rd off) rn rd loadByte fun _ _ =>
      .fault .ldrbToR15 := by
  simp only [exec, execArmLdrb, predicated_of_passed _ hc]

theorem armLdrt_passed (off : Offset12) : exec (.armLdrt c up rn rd off) s =
    loadThrough s (singleAddressing s false true up rn rd off) rn rd loadWord fun _ _ => .fault .ldrtToR15 := by
  simp only [exec, execArmLdrt, predicated_of_passed _ hc]

theorem armLdrbt_passed (off : Offset12) : exec (.armLdrbt c up rn rd off) s =
    loadThrough s (singleAddressing s false true up rn rd off) rn rd loadByte fun _ _ => .fault .ldrtToR15 := by
  simp only [exec, execArmLdrbt, predicated_of_passed _ hc]

theorem armLdrh_passed (p w : Bool) (off : Offset8) : exec (.armLdrh c p up w rn rd off) s =
    loadThrough s (halfAddressing s p w up rn rd off) rn rd loadHalf fun _ _ => .fault .rdIsR15 := by
  simp only [exec, execArmLdrh, loadHalfForm, predicated_of_passed _ hc]

theorem armLdrsb_passed (p w : Bool) (off : Offset8) : exec (.armLdrsb c p up w rn rd off) s =
    loadThrough s (halfAddressing s p w up rn rd off) rn rd loadSignedByte fun _ _ => .fault .rdIsR15 := by
  simp only [exec, execArmLdrsb, loadHalfForm, predicated_of_passed _ hc]

theorem armLdrsh_passed (p w : Bool) (off : Offset8) : exec (.armLdrsh c p up w rn rd off) s =
    loadThrough s (halfAddressing s p w up rn rd off) rn rd loadSignedHalf fun _ _ => .fault .rdIsR15 := by
  simp only [exec, execArmLdrsh, loadHalfForm, predicated_of_passed _ hc]

end

/-! ### Thumb (R440, R443 to R456) -/

/-- What a Thumb load at an address leaves. -/
def ThumbLoadEffect (s : State) (rd : LowReg) (a : Word) (load : State → Word → Word × State) (t : State) : Prop :=
  t.reg (low rd) = (load s a).1 ∧ t.cpsr = s.cpsr ∧ t.pc = s.pc + s.w ∧ t.cycles = (load s a).2.cycles + 1 ∧
    LoadFrame s (physRegs s.cpsr.mode [low rd]) t

theorem gives_thumbLoad {i : Instr} {load : State → Word → Word × State} {rd : LowReg} {a b : Word}
    (he : exec i s = thumbLoad s rd a load) (hab : a = b) (hl : IsLoad load) :
    Gives i s (ThumbLoadEffect s rd b load) := by
  subst hab
  have hb := (hl s a).1
  have hrd := low_ne_15 rd
  refine ⟨_, he, (reg_advance _ hrd).trans (reg_setReg_self _ hrd), ?_, ?_, by simp, ?_⟩
  · simp [hb.cpsr]
  · rw [advance_pc, State.w_congr (s := s) (by simp [hb.cpsr])]
    simp [hb.pc]
  · exact (((LoadFrame.of_busOnly hb).spend 1).setReg (by simp [hb.cpsr]) (low rd) _).advance

theorem words_eq {k : Nat} (hk : k ≤ 32) (v : BitVec k) : words v = BitVec.ofNat 32 (4 * v.toNat) := by
  unfold words
  apply BitVec.eq_of_toNat_eq
  simp [Nat.mod_eq_of_lt (Nat.lt_of_lt_of_le v.isLt (Nat.pow_le_pow_right (by decide) hk))]

theorem alignedPcRead_eq (ht : s.cpsr.t = true) : alignedPcRead s = (s.pc + 4) &&& 0xFFFFFFFC := by
  rw [alignedPcRead, thumbPcRead_eq ht]

theorem immOffset_eq (s : State) (k : BitVec 5) (rb : LowReg) (scale : Nat) :
    immOffset s k rb (BitVec.ofNat 32 scale) = s.reg (low rb) + BitVec.ofNat 32 (scale * k.toNat) := by
  unfold immOffset
  congr 1
  apply BitVec.eq_of_toNat_eq
  have := k.isLt
  simp [Nat.mul_comm]

end Sys2Proof.Machine

/-- Settles O43: each is a load through its addressing mode, whose base writeback stays apart from Rd. -/
theorem armLoads : Obligations.ArmLoads := by
  intro s c up rn rd hc
  refine ⟨fun ix off => ?_, fun off => ?_, fun p w off => ?_⟩
  · have hldr := armLdr_passed hc up rn rd ix off
    have hldrb := armLdrb_passed hc up rn rd ix off
    refine ⟨fun a ha => ?_, fun e he => ⟨stops_load_mode hldr he, stops_load_mode hldrb he⟩⟩
    have hap := singleAddressing_apart ha
    refine ⟨fun hrd => ⟨gives_load hldr ha isLoad_loadWord hap hrd, gives_load hldrb ha isLoad_loadByte hap hrd⟩,
      fun hrd => ⟨?_, stops_load_pc hldrb ha rfl hrd⟩⟩
    obtain ⟨t, ht, h⟩ := loadThrough_jump_effect isLoad_loadWord hap hrd armTarget
    exact ⟨t, hldr.trans (ha ▸ ht), h⟩
  · have hldrt := armLdrt_passed hc up rn rd off
    have hldrbt := armLdrbt_passed hc up rn rd off
    refine ⟨fun a ha => ?_, fun e he => ⟨stops_load_mode hldrt he, stops_load_mode hldrbt he⟩⟩
    have hap := singleAddressing_apart ha
    exact ⟨fun hrd => ⟨gives_load hldrt ha isLoad_loadWord hap hrd, gives_load hldrbt ha isLoad_loadByte hap hrd⟩,
      fun hrd => ⟨stops_load_pc hldrt ha rfl hrd, stops_load_pc hldrbt ha rfl hrd⟩⟩
  · have hldrh := armLdrh_passed hc up rn rd p w off
    have hldrsb := armLdrsb_passed hc up rn rd p w off
    have hldrsh := armLdrsh_passed hc up rn rd p w off
    refine ⟨fun a ha => ?_, fun e he => ⟨stops_load_mode hldrh he, stops_load_mode hldrsb he, stops_load_mode hldrsh he⟩⟩
    obtain ⟨hrd, hap⟩ := halfAddressing_apart ha
    exact ⟨gives_load hldrh ha isLoad_loadHalf hap hrd, gives_load hldrsb ha isLoad_loadSignedByte hap hrd,
      gives_load hldrsh ha isLoad_loadSignedHalf hap hrd⟩

/-- Settles O57: each is one load at the address of its form. -/
theorem thumbLoads : Obligations.ThumbLoads := by
  intro s ro rb rd k imm8
  have hw := words_eq (by decide) imm8
  exact ⟨fun ht => gives_thumbLoad (i := .thumbLdrPc rd imm8) rfl (congrArg₂ (· + ·) (alignedPcRead_eq ht) hw)
      isLoad_loadWord,
    gives_thumbLoad (i := .thumbLdrReg ro rb rd) rfl rfl isLoad_loadWord,
    gives_thumbLoad (i := .thumbLdrbReg ro rb rd) rfl rfl isLoad_loadByte,
    gives_thumbLoad (i := .thumbLdsbReg ro rb rd) rfl rfl isLoad_loadSignedByte,
    gives_thumbLoad (i := .thumbLdrhReg ro rb rd) rfl rfl isLoad_loadHalf,
    gives_thumbLoad (i := .thumbLdshReg ro rb rd) rfl rfl isLoad_loadSignedHalf,
    gives_thumbLoad (i := .thumbLdrImm k rb rd) rfl (immOffset_eq s k rb 4) isLoad_loadWord,
    gives_thumbLoad (i := .thumbLdrbImm k rb rd) rfl (immOffset_eq s k rb 1) isLoad_loadByte,
    gives_thumbLoad (i := .thumbLdrhImm k rb rd) rfl (immOffset_eq s k rb 2) isLoad_loadHalf,
    gives_thumbLoad (i := .thumbLdrSp rd imm8) rfl (congrArg (s.reg 13 + ·) hw) isLoad_loadWord⟩
end

section
/-! Single stores and the swap (R250, R251, R273 to R281). -/

open Sys2Proof Sys2Proof.Machine

namespace Sys2Proof.Machine

variable {s t u : State} {n : Width}

/-! ### The frame of a store, update by update -/

/-- What the stores of an instruction have left so far, its PC not yet moved on. -/
structure Stored (s : State) (changed : List PhysReg) (stores : List Word) (n : Width) (t : State) : Prop where
  written : AllWritten changed t
  others : OtherRegs changed s t
  control : SameControl s t
  cpsr : t.cpsr = s.cpsr
  pc : t.pc = s.pc
  io : (∀ a, a ∈ stores → region a ≠ .io) → SameIo s t
  outside : ∀ b, (∀ a, a ∈ stores → OutsideStore a n b) → t.peek b = s.peek b

theorem SameControl.trans (h : SameControl s t) (k : SameControl t u) : SameControl s u := by
  obtain ⟨hspsr, hrun, hmark, hirq, hfiq, hpar⟩ := h
  obtain ⟨kspsr, krun, kmark, kirq, kfiq, kpar⟩ := k
  exact ⟨kspsr.trans hspsr, krun.trans hrun, kmark.trans hmark, kirq.trans hirq, kfiq.trans hfiq, kpar.trans hpar⟩

theorem SameIo.trans (h : SameIo s t) (k : SameIo t u) : SameIo s u :=
  ⟨k.1.trans h.1, k.2.1.trans h.2.1, k.2.2.trans h.2.2⟩

theorem WriteFrame.sameControl (h : WriteFrame s t) : SameControl s t :=
  ⟨h.spsr, h.run, h.hazardMark, h.irqInput, h.fiqLine, h.params⟩

namespace Stored

variable {m : Mode} {l : List PhysReg} {ns : List RegNo} {as : List Word}

theorem of_busOnly (h : BusOnly s t) : Stored s (physRegs m []) [] n t :=
  ⟨.nil t, .of_regs h.regs h.written, h.sameControl, h.cpsr, h.pc, fun _ => h.sameIo, fun b _ => h.sameMemory b⟩

theorem refl (s : State) : Stored s (physRegs m []) [] n s := of_busOnly (.refl s)

theorem write (h : Stored s l as n t) {a : Word} {v : Word} (k : memWrite t a n v = .next u) :
    Stored s l (a :: as) n u := by
  have hf := memWrite_frame k
  obtain ⟨-, rfl⟩ := memWrite_next k
  refine ⟨h.written.congr hf.written, h.others.congr hf.regs hf.written, h.control.trans hf.sameControl,
    hf.cpsr.trans h.cpsr, hf.pc.trans h.pc, fun hio => ?_, fun b hb => ?_⟩
  · exact (h.io fun x hx => hio x (List.mem_cons_of_mem _ hx)).trans
      (writeValue_sameIo (s := charge t a n) n v (hio a (List.mem_cons_self ..)))
  · rw [peek_writeValue_outside _ a n v b (hb a (List.mem_cons_self ..)),
      ← h.outside b fun x hx => hb x (List.mem_cons_of_mem _ hx)]
    exact peek_congr rfl rfl b

/-- Stores one after the other that have written no register in between. -/
theorem trans {bs : List Word} (h : Stored s (physRegs m []) as n t) (k : Stored t (physRegs m []) bs n u) :
    Stored s (physRegs m []) (as ++ bs) n u := by
  refine ⟨.nil u, h.others.trans k.others (fun _ hp => hp) (fun _ hp => hp), h.control.trans k.control,
    k.cpsr.trans h.cpsr, k.pc.trans h.pc, fun hio => ?_, fun b hb => ?_⟩
  · exact (h.io fun a ha => hio a (List.mem_append_left _ ha)).trans (k.io fun a ha => hio a (List.mem_append_right _ ha))
  · rw [k.outside b fun a ha => hb a (List.mem_append_right _ ha), h.outside b fun a ha => hb a (List.mem_append_left _ ha)]

theorem spend (h : Stored s l as n t) (k : Nat) : Stored s l as n (t.spend k) :=
  ⟨h.written, h.others, h.control, h.cpsr, h.pc, h.io, h.outside⟩

theorem setReg (h : Stored s (physRegs m ns) as n t) (hm : s.cpsr.mode = m) (r : RegNo) (v : Word) :
    Stored s (physRegs m (r :: ns)) as n (t.setReg r v) := by
  have hm : t.cpsr.mode = m := by rw [h.cpsr, hm]
  have hr : t.setReg r v = t.setRegOf m r v := by rw [State.setReg, hm]
  rw [hr]
  refine ⟨AllWritten.setRegOf v fun k hk hne p hp => h.written p ?_, ?_, ?_, ?_, ?_, fun hio => ?_, fun b hb => ?_⟩
  · exact List.mem_filterMap.mpr ⟨k, (List.mem_cons.mp hk).resolve_left hne, hp⟩
  · exact h.others.trans (otherRegs_setRegOf t m r v) (physRegs_mono (by simp +contextual)) (physRegs_mono (by simp))
  · simpa [SameControl] using h.control
  · simpa using h.cpsr
  · simpa using h.pc
  · simpa [SameIo] using h.io hio
  · rw [← h.outside b hb]
    exact peek_congr (by simp) (by simp) b

theorem writeBack (h : Stored s (physRegs m []) as n t) (hm : s.cpsr.mode = m) (r : RegNo) (a : Addressing) :
    Stored s (physRegs m (if a.writeback then [r] else [])) as n (writeBack t r a) := by
  unfold Machine.writeBack
  split
  · exact h.setReg hm r _
  · exact h

theorem baseUpdate (h : Stored s (physRegs m []) as n t) (hm : s.cpsr.mode = m) (w : Bool) (r : RegNo) (v : Word) :
    Stored s (physRegs m (if w then [r] else [])) as n (baseUpdate t w r v) := by
  unfold Machine.baseUpdate
  split
  · exact h.setReg hm r v
  · exact h

/-- The instruction ends. -/
theorem frame (h : Stored s l as n t) : StoreFrame s l as n (advance t) :=
  ⟨h.written, h.others, h.control, h.cpsr, by rw [advance_pc, h.pc, State.w_congr (s := s) (t := t) (by rw [h.cpsr])], h.io, h.outside⟩

end Stored

/-! ### The bytes stored -/

theorem BytesAt.congr {a v : Word} (h : BytesAt t a n v) (hm : u.mem = t.mem) (hp : u.params = t.params) :
    BytesAt u a n v := fun k hk => (peek_congr hm hp _).trans (h k hk)

/-- Byte k of the low n bytes of a value. -/
theorem trunc_byte (v : Word) {k : Nat} (hk : k < n.bytes) :
    (n.trunc v).extractLsb' (8 * k) 8 = v.extractLsb' (8 * k) 8 := by
  apply BitVec.eq_of_getLsbD_eq
  intro i hi
  rw [BitVec.getLsbD_extractLsb', BitVec.getLsbD_extractLsb']
  cases n with
  | byte =>
    obtain rfl : k = 0 := Nat.lt_one_iff.mp hk
    interval_cases i <;> simp [Width.trunc]
  | half =>
    have hk : k < 2 := hk
    interval_cases k <;> interval_cases i <;> simp [Width.trunc]
  | word => rfl

/-- Storing the low n bytes of a value stores those of the value. -/
theorem bytesAt_trunc {a v : Word} : BytesAt t a n (n.trunc v) ↔ BytesAt t a n v :=
  forall₂_congr fun k hk => by rw [trunc_byte v hk]

/-- A write that is not caught by the prefetch hazard: the state it leaves and the bytes it stores. -/
theorem memWrite_clear {a : Word} (v : Word) (h : prefetchHit t a n = false) :
    ∃ u, memWrite t a n v = .next u ∧ (StoresWhole a n → BytesAt u a n v) :=
  ⟨_, (memWrite_eq t a n v).2 h, bytesAt_writeValue _ a n v⟩

/-! ### ARM stores (R273, R274, R277, R278, R281) -/

/-- What an ARM store of v through an addressing answers in every case. -/
def StoresThrough (s : State) (rn : RegNo) (i : Instr) (mode : Except Fault Addressing) (n : Width) (v : Word) : Prop :=
  (∀ a, mode = .ok a →
    (prefetchHit s a.address n = false → Gives i s fun t =>
      StoreFrame s (physRegs s.cpsr.mode (if a.writeback then [rn] else [])) [a.address] n t ∧
        (a.writeback = true → t.reg rn = a.newBase) ∧ (StoresWhole a.address n → BytesAt t a.address n v)) ∧
    (prefetchHit s a.address n = true → Stops i s .storeIntoPrefetched)) ∧
  ∀ e, mode = .error e → Stops i s e

theorem storeThrough_ok (s : State) (a : Addressing) (rn : RegNo) (n : Width) (w : Word) :
    storeThrough s (.ok a) rn n w = andThen (memWrite s a.address n w) fun s => .next (advance (writeBack s rn a)) := rfl

/-- An instruction that stores w, which has the low n bytes of v. -/
theorem storesThrough_of_exec {i : Instr} {mode : Except Fault Addressing} {rn : RegNo} {v w : Word}
    (he : exec i s = storeThrough s mode rn n w) (hrn : ∀ a, mode = .ok a → a.writeback = true → rn ≠ 15)
    (hw : ∀ t a, BytesAt t a n w → BytesAt t a n v) : StoresThrough s rn i mode n v := by
  refine ⟨fun a ha => ⟨fun hp => ?_, fun hp => ?_⟩, fun e hm => he.trans (hm ▸ rfl)⟩
  · obtain ⟨u, hu, hb⟩ := memWrite_clear (a := a.address) w hp
    rw [ha, storeThrough_ok, hu] at he
    refine ⟨_, he, (((Stored.refl s).write hu).writeBack rfl rn a).frame, fun hwb => ?_, fun hs => ?_⟩
    · rw [reg_advance _ (hrn a ha hwb), reg_writeBack _ (hrn a ha hwb) hwb]
    · exact (hw u _ (hb hs)).congr (by simp) (by simp)
  · rw [ha, storeThrough_ok, (memWrite_eq s a.address n w).1 hp] at he
    exact he

theorem storeByteThrough_of_ne {rd : RegNo} (hrd : rd ≠ 15) (s : State) (mode : Except Fault Addressing) (rn : RegNo) :
    storeByteThrough s mode rn rd = storeThrough s mode rn .byte (Width.byte.trunc (s.reg rd)) := by
  cases mode with
  | ok a => exact if_neg hrd
  | error e => rfl

section

variable {c : Cond} (hc : condPassed c s.cpsr = true) (up : Bool) (rn rd : RegNo)
include hc

theorem armStr_passed (ix : Index) (off : Offset12) : exec (.armStr c ix up rn rd off) s =
    storeThrough s (singleAddressing s (Index.pre ix) (Index.wb ix) up rn rd off) rn .word (storedReg s rd) := by
  simp only [exec, execArmStr, predicated_of_passed _ hc]

theorem armStrb_passed (ix : Index) (off : Offset12) : exec (.armStrb c ix up rn rd off) s =
    storeByteThrough s (singleAddressing s (Index.pre ix) (Index.wb ix) up rn rd off) rn rd := by
  simp only [exec, execArmStrb, predicated_of_passed _ hc]

theorem armStrt_passed (off : Offset12) : exec (.armStrt c up rn rd off) s =
    storeThrough s (singleAddressing s false true up rn rd off) rn .word (storedReg s rd) := by
  simp only [exec, execArmStrt, predicated_of_passed _ hc]

theorem armStrbt_passed (off : Offset12) : exec (.armStrbt c up rn rd off) s =
    storeByteThrough s (singleAddressing s false true up rn rd off) rn rd := by
  simp only [exec, execArmStrbt, predicated_of_passed _ hc]

theorem armStrh_passed (p w : Bool) (off : Offset8) : exec (.armStrh c p up w rn rd off) s =
    storeThrough s (halfAddressing s p w up rn rd off) rn .half (Width.half.trunc (s.reg rd)) := by
  simp only [exec, execArmStrh, predicated_of_passed _ hc]

end

/-! ### Swap (R250, R251) -/

/-- What a swap of v at the address in Rn leaves. -/
def SwapEffect (s : State) (rn rd rm : RegNo) (v : Word) (n : Width) (t : State) : Prop :=
  t.reg rd = v ∧ StoreFrame s (physRegs s.cpsr.mode [rd]) [s.reg rn] n t ∧
    (StoresWhole (s.reg rn) n → BytesAt t (s.reg rn) n (s.reg rm))

/-- Everything a swap whose operands are not restricted answers; the read leaves the prefetch hazard as it was. -/
theorem swap_effect {c : Cond} (hc : condPassed c s.cpsr = true) {rn rd rm : RegNo}
    (h : ¬(rn = 15 ∨ rd = 15 ∨ rm = 15 ∨ rn = rd ∨ rn = rm)) {load : State → Word → Word × State} (hl : IsLoad load)
    (n : Width) :
    (prefetchHit s (s.reg rn) n = false → ∃ t, swap c rn rd 0 rm load n s = .next t ∧
      SwapEffect s rn rd rm (load s (s.reg rn)).1 n t) ∧
    (prefetchHit s (s.reg rn) n = true → swap c rn rd 0 rm load n s = .fault .storeIntoPrefetched) := by
  have hb := (hl s (s.reg rn)).1
  have hrd : rd ≠ 15 := fun e => h (.inr (.inl e))
  have hp := prefetchHit_congr hb.pc hb.cpsr (s.reg rn) n
  unfold swap
  rw [predicated_of_passed _ hc, if_neg (by simp), if_neg h]
  refine ⟨fun hf => ?_, fun ht => ?_⟩
  · obtain ⟨u, hu, hs⟩ := memWrite_clear (n.trunc (s.reg rm)) (hp.trans hf)
    dsimp only
    rw [hu]
    refine ⟨_, rfl, (reg_advance _ hrd).trans (reg_setReg_self _ hrd), ?_, fun hw => ?_⟩
    · exact ((((Stored.of_busOnly hb).write hu).spend 1).setReg rfl rd _).frame
    · exact (bytesAt_trunc.mp (hs hw)).congr (by simp) (by simp)
  · dsimp only
    rw [(memWrite_eq _ _ n _).1 (hp.trans ht)]
    rfl

end Sys2Proof.Machine

/-- Settles O44: each is a store through its addressing mode; the byte forms of R15 stop before the store. -/
theorem armStores : Obligations.ArmStores := by
  intro s c up rn rd hc
  refine ⟨fun ix off => ⟨?_, fun hrd => ?_, fun hrd a ha => ?_⟩, fun off => ⟨?_, fun hrd => ?_, fun hrd a ha => ?_⟩,
    fun p w off => ?_⟩
  · exact storesThrough_of_exec (armStr_passed hc up rn rd ix off)
      (fun a ha hw => (singleAddressing_apart ha hw).1) (fun _ _ hb => hb)
  · exact storesThrough_of_exec ((armStrb_passed hc up rn rd ix off).trans (storeByteThrough_of_ne hrd s _ rn))
      (fun a ha hw => (singleAddressing_apart ha hw).1) (fun _ _ => bytesAt_trunc.mp)
  · refine (armStrb_passed hc up rn rd ix off).trans ?_
    rw [ha]
    exact if_pos hrd
  · exact storesThrough_of_exec (armStrt_passed hc up rn rd off)
      (fun a ha hw => (singleAddressing_apart ha hw).1) (fun _ _ hb => hb)
  · exact storesThrough_of_exec ((armStrbt_passed hc up rn rd off).trans (storeByteThrough_of_ne hrd s _ rn))
      (fun a ha hw => (singleAddressing_apart ha hw).1) (fun _ _ => bytesAt_trunc.mp)
  · refine (armStrbt_passed hc up rn rd off).trans ?_
    rw [ha]
    exact if_pos hrd
  · exact storesThrough_of_exec (armStrh_passed hc up rn rd p w off)
      (fun a ha hw => ((halfAddressing_apart ha).2 hw).1) (fun _ _ => bytesAt_trunc.mp)

/-- Settles O36: both are `swap` at a width, the load before the store. -/
theorem swapResults : Obligations.SwapResults := by
  intro s c rn rd rm hc hrn hrd hrm hne hne'
  have h : ¬(rn = 15 ∨ rd = 15 ∨ rm = 15 ∨ rn = rd ∨ rn = rm) := by
    simp only [not_or]
    exact ⟨hrn, hrd, hrm, hne, hne'⟩
  obtain ⟨hword, hwordStop⟩ := swap_effect hc h isLoad_loadWord .word
  obtain ⟨hbyte, hbyteStop⟩ := swap_effect hc h isLoad_loadByte .byte
  exact ⟨hword, hwordStop, hbyte, hbyteStop⟩
end

section
/-! Block loads, ARM and Thumb (R284, R285, R287, R289, R457, R459, R461). -/

open Sys2Proof Sys2Proof.Machine

namespace Sys2Proof.Machine

variable {s t u : State}

/-! ### Registers loaded, and the branch -/

theorem loadRegs_keeps (vals : List (RegNo × Word)) (s : State) (m : Mode) :
    (loadRegs s m vals).cpsr = s.cpsr ∧ (loadRegs s m vals).pc = s.pc ∧ (loadRegs s m vals).spsr = s.spsr := by
  rw [loadRegs_eq]
  exact ⟨rfl, rfl, rfl⟩

theorem LoadFrame.loadRegs {m : Mode} {ns : List RegNo} (vals : List (RegNo × Word)) (h : LoadFrame s (physRegs m ns) t) :
    LoadFrame s (physRegs m (vals.map Prod.fst ++ ns)) (loadRegs t m vals) := by
  induction vals generalizing t ns with
  | nil => exact h
  | cons kv rest ih =>
    refine (ih (h.setRegOf kv.1 kv.2)).congr_names fun n => ?_
    simp only [List.map_cons, List.cons_append, List.mem_cons, List.mem_append]
    tauto

theorem LoadFrame.branchLoaded {l : List PhysReg} (h : LoadFrame s l t) (vals : List (RegNo × Word)) (f : Word → Word) :
    LoadFrame s l (branchLoaded t vals f) := by
  unfold Machine.branchLoaded
  split
  · exact h.jump _
  · exact h.advance

theorem LoadFrame.baseUpdate {m : Mode} (h : LoadFrame s (physRegs m []) t) (hm : t.cpsr.mode = m) (w : Bool) (n : RegNo)
    (v : Word) : LoadFrame s (physRegs m (if w then [n] else [])) (baseUpdate t w n v) := by
  unfold Machine.baseUpdate
  split
  · exact h.setReg hm n v
  · exact h

theorem branchLoaded_regs (s : State) (vals : List (RegNo × Word)) (f : Word → Word) :
    (branchLoaded s vals f).regs = s.regs := by
  unfold branchLoaded
  split <;> rfl

theorem branchLoaded_cpsr (s : State) (vals : List (RegNo × Word)) (f : Word → Word) :
    (branchLoaded s vals f).cpsr = s.cpsr := by
  unfold branchLoaded
  split <;> rfl

theorem branchLoaded_regOf (s : State) (vals : List (RegNo × Word)) (f : Word → Word) (m : Mode) {n : RegNo}
    (hn : n ≠ 15) : (branchLoaded s vals f).regOf m n = s.regOf m n := regOf_congr (branchLoaded_regs s vals f) hn

/-- A loaded R15 is branched to. -/
theorem branchLoaded_pc_of_mem {vals : List (RegNo × Word)} (s : State) (f : Word → Word) {v : Word}
    (hd : (vals.map Prod.fst).Nodup) (h : (15, v) ∈ vals) : (branchLoaded s vals f).pc = f v := by
  unfold branchLoaded
  rw [loadedPc_eq_some hd h]
  rfl

theorem branchLoaded_pc_of_notMem {vals : List (RegNo × Word)} (s : State) (f : Word → Word)
    (h : 15 ∉ vals.map Prod.fst) : (branchLoaded s vals f).pc = s.pc + s.w := by
  unfold branchLoaded
  rw [loadedPc_eq_none h]
  rfl

/-! ### Lists without repeats -/

theorem listOrEmpty_nodup {l regs : List RegNo} {count : Nat} (hl : l.Nodup)
    (h : listOrEmpty s l = .ok (regs, count)) : regs.Nodup := by
  rcases listOrEmpty_cases s l with ⟨-, e⟩ | ⟨-, -, e⟩ | ⟨-, -, e⟩
  · rw [e] at h
    cases h
    exact hl
  · rw [e] at h
    cases h
  · rw [e] at h
    cases h
    decide

theorem blockFrame_nodup {p up : Bool} {rn : RegNo} {list : BitVec 16} {fr : BlockFrame}
    (h : blockFrame s p up rn list = .ok fr) : fr.regs.Nodup := by
  obtain ⟨-, count, hl, -, -⟩ := blockFrame_ok h
  exact listOrEmpty_nodup (regList_nodup list) hl

/-- Nothing is transferred that the list does not name, the empty list's R15 apart. -/
theorem listOrEmpty_mem {l regs : List RegNo} {count : Nat} (h : listOrEmpty s l = .ok (regs, count)) {n : RegNo}
    (hn : n ∈ regs) : n ∈ l ∨ (l = [] ∧ n = 15) := by
  rcases listOrEmpty_cases s l with ⟨-, e⟩ | ⟨-, -, e⟩ | ⟨hl, -, e⟩
  · rw [e] at h
    cases h
    exact .inl hn
  · rw [e] at h
    cases h
  · rw [e] at h
    cases h
    exact .inr ⟨hl, List.mem_singleton.mp hn⟩

theorem blockFrame_mem {p up : Bool} {rn : RegNo} {list : BitVec 16} {fr : BlockFrame}
    (h : blockFrame s p up rn list = .ok fr) {n : RegNo} (hn : n ∈ fr.regs) :
    list.getLsbD n.toNat = true ∨ (list = 0 ∧ n = 15) := by
  obtain ⟨-, count, hl, -, -⟩ := blockFrame_ok h
  rw [← mem_regList, ← regList_eq_nil]
  exact listOrEmpty_mem hl hn

/-- The base of a frame is transferred only if the list names it. -/
theorem blockFrame_base_mem {p up : Bool} {rn : RegNo} {list : BitVec 16} {fr : BlockFrame}
    (h : blockFrame s p up rn list = .ok fr) (hn : rn ∈ fr.regs) : list.getLsbD rn.toNat = true :=
  (blockFrame_mem h hn).resolve_right fun e => (blockFrame_ok h).1 e.2

/-! ### The end of a block load -/

theorem setCpsr_self {p : Cpsr} (h : s.cpsr = p) : s.setCpsr p = s := by
  subst h
  rfl

theorem reg_eq_regOf {m : Mode} (h : s.cpsr.mode = m) (n : RegNo) : s.reg n = s.regOf m n := by
  subst h
  rfl

/-- The registers after a block load: mode m's registers of the list from memory, the base, control and memory as a load
leaves them. `c` is the CPSR the branch is made under. -/
theorem blockLoad_effect {m : Mode} {ns : List RegNo} {a : Word} {regs : List RegNo} (hd : regs.Nodup)
    (hu : LoadFrame s (physRegs m ns) u) (hpc : u.pc = s.pc) (c : Cpsr) (target : Word → Word) :
    let vals := (readBlock s a regs).1
    let t := branchLoaded ((loadRegs u m vals).setCpsr c) vals target
    (∀ k v, (k, v) ∈ vals → k ≠ 15 → t.regOf m k = v) ∧
      (∀ k, k ∉ regs → k ≠ 15 → t.regOf m k = u.regOf m k) ∧ t.cpsr = c ∧
      (15 ∉ regs → c.t = s.cpsr.t → t.pc = s.pc + s.w) ∧ (∀ v, (15, v) ∈ vals → t.pc = target v) ∧
      LoadFrame s (physRegs m (regs ++ ns)) t := by
  intro vals t
  have hfst : vals.map Prod.fst = regs := readBlock_fst regs s a
  have hd' : (vals.map Prod.fst).Nodup := hfst ▸ hd
  have hreg : ∀ k, k ≠ 15 → t.regOf m k = (loadRegs u m vals).regOf m k := fun k hk =>
    (branchLoaded_regOf _ vals target m hk).trans (regOf_congr (setCpsr_regs _ c) hk)
  refine ⟨fun k v hv hk => ?_, fun k hn hk => ?_, branchLoaded_cpsr _ _ _, fun hn hc => ?_, fun v hv => ?_, ?_⟩
  · exact (hreg k hk).trans (loadRegs_regOf_mem u m hk hd' hv)
  · exact (hreg k hk).trans (loadRegs_regOf_notMem u m hk (hfst ▸ hn))
  · rw [branchLoaded_pc_of_notMem _ _ (hfst ▸ hn), State.w_congr (s := s) hc]
    simp [(loadRegs_keeps vals u m).2.1, hpc]
  · exact branchLoaded_pc_of_mem _ _ hd' hv
  · have hf := hu.loadRegs vals
    rw [hfst] at hf
    exact (hf.setCpsr c).branchLoaded _ _

theorem restoreCpsr_of_invalid {p : Psr} (hs : s.spsr.get s.cpsr.mode = some p) (hp : p.restored? = none) :
    restoreCpsr s = .error .invalidMode := by
  simp [restoreCpsr, hs, hp]

theorem restoreCpsr_of_valid {p : Psr} {q : Cpsr} (hs : s.spsr.get s.cpsr.mode = some p) (hp : p.restored? = some q) :
    restoreCpsr s = .ok (s.setCpsr q) := by
  simp [restoreCpsr, hs, hp]

/-! ### ARM (R285, R287, R289) -/

/-- The state in which an ARM block load has read its words and written its base back. -/
def afterRead (s : State) (w : Bool) (rn : RegNo) (fr : BlockFrame) : State :=
  baseUpdate ((readBlock s fr.start fr.regs).2.spend 1) w rn fr.newBase

theorem afterRead_keeps (s : State) (w : Bool) (rn : RegNo) (fr : BlockFrame) :
    (afterRead s w rn fr).cpsr = s.cpsr ∧ (afterRead s w rn fr).pc = s.pc ∧ (afterRead s w rn fr).spsr = s.spsr := by
  have hb := readBlock_busOnly fr.regs s fr.start
  simp [afterRead, hb.cpsr, hb.pc, hb.spsr]

theorem loadFrame_afterRead (s : State) (w : Bool) (rn : RegNo) (fr : BlockFrame) :
    LoadFrame s (physRegs s.cpsr.mode (if w then [rn] else [])) (afterRead s w rn fr) := by
  have hb := readBlock_busOnly fr.regs s fr.start
  exact ((LoadFrame.of_busOnly hb).spend 1).baseUpdate (by simp [hb.cpsr]) w rn _

theorem regOf_afterRead (s : State) {w : Bool} {rn : RegNo} (fr : BlockFrame) (hw : w = true) (hn : rn ≠ 15) :
    (afterRead s w rn fr).regOf s.cpsr.mode rn = fr.newBase := by
  have hb := readBlock_busOnly fr.regs s fr.start
  rw [← reg_eq_regOf (congrArg Cpsr.mode (afterRead_keeps s w rn fr).1), afterRead, baseUpdate, if_pos hw,
    reg_setReg_self _ hn]

section

variable {c : Cond} (hc : condPassed c s.cpsr = true) {p up w : Bool} {rn : RegNo}
include hc

theorem armLdm_error {list : BitVec 16} {e : Fault} (h : blockFrame s p up rn list = .error e) :
    exec (.armLdm c p up w rn list) s = .fault e := by
  simp only [exec, execArmLdm, predicated_of_passed _ hc, h, orFault_error]

theorem armLdm_inList {list : BitVec 16} {fr : BlockFrame} (h : blockFrame s p up rn list = .ok fr)
    (hw : w = true ∧ list.getLsbD rn.toNat = true) :
    exec (.armLdm c p up w rn list) s = .fault .rnInListWithWriteback := by
  simp only [exec, execArmLdm, predicated_of_passed _ hc, h, orFault_ok, hw, Bool.and_self, if_true]

theorem armLdm_ok {list : BitVec 16} {fr : BlockFrame} (h : blockFrame s p up rn list = .ok fr)
    (hw : ¬(w = true ∧ list.getLsbD rn.toNat = true)) :
    exec (.armLdm c p up w rn list) s = .next (branchLoaded
      ((loadRegs (afterRead s w rn fr) s.cpsr.mode (readBlock s fr.start fr.regs).1).setCpsr s.cpsr)
      (readBlock s fr.start fr.regs).1 armTarget) := by
  obtain ⟨hcpsr, -, -⟩ := afterRead_keeps s w rn fr
  rw [setCpsr_self ((loadRegs_keeps _ _ _).1.trans hcpsr)]
  simp only [exec, execArmLdm, predicated_of_passed _ hc, h, orFault_ok, Bool.and_eq_true, if_neg hw]
  rw [← hcpsr]
  rfl

theorem armLdmUser_error {list : BitVec 15} {e : Fault} (h : blockFrame s p up rn (0#1 ++ list) = .error e) :
    exec (.armLdmUser c p up w rn list) s = .fault e := by
  simp only [exec, execArmLdmUser, predicated_of_passed _ hc, h, orFault_error]

theorem armLdmUser_ok {list : BitVec 15} {fr : BlockFrame} (h : blockFrame s p up rn (0#1 ++ list) = .ok fr) :
    exec (.armLdmUser c p up w rn list) s =
      if s.cpsr.mode.hasSpsr = false then .fault .sBitInUserOrSystem
      else if w then .fault .sBitWithWriteback
      else .next (branchLoaded
        ((loadRegs ((readBlock s fr.start fr.regs).2.spend 1) .usr (readBlock s fr.start fr.regs).1).setCpsr s.cpsr)
        (readBlock s fr.start fr.regs).1 armTarget) := by
  have hcpsr : (loadRegs ((readBlock s fr.start fr.regs).2.spend 1) .usr (readBlock s fr.start fr.regs).1).cpsr = s.cpsr :=
    (loadRegs_keeps _ _ _).1.trans (readBlock_busOnly fr.regs s fr.start).cpsr
  rw [setCpsr_self hcpsr]
  simp only [exec, execArmLdmUser, predicated_of_passed _ hc, h, orFault_ok]

theorem armLdmExc_error {list : BitVec 15} {e : Fault} (h : blockFrame s p up rn (1#1 ++ list) = .error e) :
    exec (.armLdmExc c p up w rn list) s = .fault e := by
  simp only [exec, execArmLdmExc, predicated_of_passed _ hc, h, orFault_error]

theorem armLdmExc_ok {list : BitVec 15} {fr : BlockFrame} (h : blockFrame s p up rn (1#1 ++ list) = .ok fr) :
    exec (.armLdmExc c p up w rn list) s =
      if s.cpsr.mode.hasSpsr = false then .fault .noSpsr
      else if w && (1#1 ++ list).getLsbD rn.toNat then .fault .rnInListWithWriteback
      else orFault (restoreCpsr (loadRegs (afterRead s w rn fr) s.cpsr.mode (readBlock s fr.start fr.regs).1)) fun u =>
        .next (branchLoaded u (readBlock s fr.start fr.regs).1 (if u.cpsr.t then thumbTarget else armTarget)) := by
  simp only [exec, execArmLdmExc, predicated_of_passed _ hc, h, orFault_ok]
  rw [← (afterRead_keeps s w rn fr).1]
  rfl

end

/-- The list of an exception-return LDM names a base as its fifteen low bits do. -/
theorem getLsbD_excList (list : BitVec 15) {rn : RegNo} (hn : rn ≠ 15) :
    (1#1 ++ list).getLsbD rn.toNat = list.getLsbD rn.toNat := by
  have h15 : rn.toNat ≠ 15 := fun e => hn (BitVec.eq_of_toNat_eq e)
  have hlt := rn.isLt
  rw [BitVec.getLsbD_append, if_pos (by omega)]

/-- R15 is in a user-bank load's list only where the list is empty. -/
theorem userList_pc_notMem {p up : Bool} {rn : RegNo} {list : BitVec 15} {fr : BlockFrame}
    (h : blockFrame s p up rn (0#1 ++ list) = .ok fr) (hl : list ≠ 0) : 15 ∉ fr.regs := by
  intro hm
  rcases blockFrame_mem h hm with e | ⟨e, -⟩
  · rw [BitVec.getLsbD_append] at e
    cases e
  · refine hl (BitVec.eq_of_getLsbD_eq fun i hi => ?_)
    have hb : (0#1 ++ list).getLsbD i = (0 : BitVec 16).getLsbD i := congrArg (BitVec.getLsbD · i) e
    rw [BitVec.getLsbD_append, if_pos hi] at hb
    exact hb.trans (by simp)

theorem hasSpsr_eq_false {m : Mode} : m.hasSpsr = false ↔ m = .usr ∨ m = .sys := by cases m <;> decide

/-- What a user-bank load that runs leaves. -/
theorem ldmUser_effect {p up : Bool} {rn : RegNo} {list : BitVec 15} {fr : BlockFrame}
    (h : blockFrame s p up rn (0#1 ++ list) = .ok fr) :
    let vals := (readBlock s fr.start fr.regs).1
    let t := branchLoaded ((loadRegs ((readBlock s fr.start fr.regs).2.spend 1) .usr vals).setCpsr s.cpsr) vals armTarget
    (∀ k v, (k, v) ∈ vals → k ≠ 15 → t.regOf .usr k = v) ∧ t.cpsr = s.cpsr ∧ (list ≠ 0 → t.pc = s.pc + s.w) ∧
      (list = 0 → ∀ v, (15, v) ∈ vals → t.pc = v &&& 0xFFFFFFFC) ∧ LoadFrame s (physRegs .usr fr.regs) t := by
  have hb := readBlock_busOnly fr.regs s fr.start
  obtain ⟨hmem, -, hcpsr, hpc, hpc15, hf⟩ := blockLoad_effect (a := fr.start) (blockFrame_nodup h)
    ((LoadFrame.of_busOnly (m := .usr) hb).spend 1) hb.pc s.cpsr armTarget
  exact ⟨hmem, hcpsr, fun hl => hpc (userList_pc_notMem h hl) rfl, fun _ => hpc15, hf.congr_names (by simp)⟩

/-! ### Thumb (R459, R461) -/

/-- What POP and LDMIA leave. -/
def ThumbBlockLoadEffect (s : State) (regs : List RegNo) (count : Nat) (start : Word) (base : RegNo) (t : State) : Prop :=
  (∀ k v, (k, v) ∈ (readBlock s start regs).1 → k ≠ 15 → t.reg k = v) ∧
    (base ∉ regs → t.reg base = start + 4 * BitVec.ofNat 32 count) ∧ t.cpsr = s.cpsr ∧
    (15 ∉ regs → t.pc = s.pc + s.w) ∧
    (∀ v, (15, v) ∈ (readBlock s start regs).1 → t.pc = v &&& 0xFFFFFFFE) ∧
    LoadFrame s (physRegs s.cpsr.mode (base :: regs)) t

theorem thumbBlockLoad_effect {regs : List RegNo} (hd : regs.Nodup) (count : Nat) (a : Word) {base : RegNo}
    (hn : base ≠ 15) : ∃ t, thumbBlockLoad s a base (blockBase true a count) regs = .next t ∧
      ThumbBlockLoadEffect s regs count a base t := by
  have hb := readBlock_busOnly regs s a
  have hm : ((readBlock s a regs).2.spend 1).cpsr.mode = s.cpsr.mode := congrArg Cpsr.mode hb.cpsr
  have hu := ((LoadFrame.of_busOnly hb).spend 1).setReg hm base (blockBase true a count)
  have hc : (((readBlock s a regs).2.spend 1).setReg base (blockBase true a count)).cpsr = s.cpsr := by simp [hb.cpsr]
  obtain ⟨hmem, hnot, hcpsr, hpc, hpc15, hf⟩ := blockLoad_effect (a := a) hd hu (by simp [hb.pc]) s.cpsr thumbTarget
  rw [setCpsr_self ((loadRegs_keeps _ _ _).1.trans hc)] at hmem hnot hcpsr hpc hpc15 hf
  have hreg := reg_eq_regOf (congrArg Cpsr.mode hcpsr)
  refine ⟨_, rfl, ?_⟩
  simp only [hc]
  refine ⟨fun k v hv hk => (hreg k).trans (hmem k v hv hk), fun hnm => ?_, hcpsr, fun h => hpc h rfl, hpc15, ?_⟩
  · rw [hreg, hnot base hnm hn, ← reg_eq_regOf (congrArg Cpsr.mode hc), reg_setReg_self _ hn]
    rfl
  · exact hf.congr_names fun n => by simp [or_comm]

theorem lowList_nodup (list : Byte) : (lowList list).Nodup := regList_nodup _

theorem mem_lowList {list : Byte} {n : RegNo} (h : n ∈ lowList list) : n.toNat < 8 := by
  by_contra hn
  have hb := mem_regList.mp h
  rw [BitVec.getLsbD_append, if_neg hn] at hb
  simp at hb

/-- A Thumb list and R14 or R15 after it. -/
theorem lowList_append_nodup (list : Byte) (b : Bool) {r : RegNo} (hr : 8 ≤ r.toNat) :
    (lowList list ++ if b then [r] else []).Nodup := by
  rw [List.nodup_append]
  refine ⟨lowList_nodup list, by cases b <;> simp, fun x hx y hy e => ?_⟩
  have hlt := mem_lowList hx
  cases b
  · cases hy
  · rw [e, List.mem_singleton.mp hy] at hlt
    omega

end Sys2Proof.Machine

/-- Settles O46: the frame's registers are distinct, so each keeps the word loaded into it. -/
theorem loadMultiple : Obligations.LoadMultiple := by
  intro s c p up w rn list hc
  refine ⟨fun e h => armLdm_error hc h, fun fr h => ⟨fun hw => armLdm_inList hc h hw, fun hw => ?_⟩⟩
  obtain ⟨hmem, hnot, hcpsr, hpc, hpc15, hf⟩ := blockLoad_effect (a := fr.start) (blockFrame_nodup h)
    (loadFrame_afterRead s w rn fr) (afterRead_keeps s w rn fr).2.1 s.cpsr armTarget
  refine ⟨_, armLdm_ok hc h hw, fun k v hv hk => ?_, fun hwb => ?_, hcpsr, fun hn => hpc hn rfl, hpc15, hf⟩
  · rw [reg_eq_regOf (congrArg Cpsr.mode hcpsr)]
    exact hmem k v hv hk
  · have hrn := (blockFrame_ok h).1
    rw [reg_eq_regOf (congrArg Cpsr.mode hcpsr), hnot rn (fun hm => hw ⟨hwb, blockFrame_base_mem h hm⟩) hrn]
    exact regOf_afterRead s fr hwb hrn

/-- Settles O50: as LDM, with the case split on the SPSR, the base and the saved mode before the loads. -/
theorem loadMultipleExceptionReturn : Obligations.LoadMultipleExceptionReturn := by
  intro s c p up w rn list hc
  refine ⟨fun e h => armLdmExc_error hc h, fun fr h => ⟨fun hs => ?_, fun sv hs => ?_⟩⟩
  · exact (armLdmExc_ok hc h).trans (if_pos ((hasSpsr_iff s.spsr s.cpsr.mode).mpr hs))
  · have hrn := (blockFrame_ok h).1
    have he := armLdmExc_ok hc (w := w) h
    rw [if_neg (fun e => by rw [(hasSpsr_iff s.spsr s.cpsr.mode).mp e] at hs; cases hs), getLsbD_excList list hrn]
      at he
    refine ⟨fun hw => he.trans (if_pos (by simpa using hw)), fun hw => ?_⟩
    rw [if_neg (by simpa using hw)] at he
    obtain ⟨hcpsr, hpc, hspsr⟩ := afterRead_keeps s w rn fr
    obtain ⟨hcpsr', -, hspsr'⟩ := loadRegs_keeps (readBlock s fr.start fr.regs).1 (afterRead s w rn fr) s.cpsr.mode
    have hs' : (loadRegs (afterRead s w rn fr) s.cpsr.mode (readBlock s fr.start fr.regs).1).spsr.get
        (loadRegs (afterRead s w rn fr) s.cpsr.mode (readBlock s fr.start fr.regs).1).cpsr.mode = some sv := by
      rw [hcpsr', hcpsr, hspsr', hspsr, hs]
    refine ⟨fun hq => ?_, fun q hq => ?_⟩
    · rw [restoreCpsr_of_invalid hs' hq] at he
      exact he
    · rw [restoreCpsr_of_valid hs' hq] at he
      obtain ⟨hmem, hnot, hcq, -, hpc15, hf⟩ := blockLoad_effect (a := fr.start) (blockFrame_nodup h)
        (loadFrame_afterRead s w rn fr) hpc q (if q.t then thumbTarget else armTarget)
      refine ⟨_, he, hmem, fun hwb => ?_, hcq, fun v hv => (hpc15 v hv).trans (by split <;> rfl), hf⟩
      have hn : rn ∉ fr.regs := fun hm => hw ⟨hwb, (getLsbD_excList list hrn).symm.trans (blockFrame_base_mem h hm)⟩
      exact (hnot rn hn hrn).trans (regOf_afterRead s fr hwb hrn)

/-- Settles O60: both are a block load at ascending addresses with their own base. -/
theorem thumbBlockLoads : Obligations.ThumbBlockLoads := by
  intro s list regs count
  refine ⟨fun pc h => ?_, fun rb h => ?_⟩
  · obtain ⟨t, ht, he⟩ := thumbBlockLoad_effect (listOrEmpty_nodup (lowList_append_nodup list pc (by decide)) h) count
      (s.reg 13) (base := 13) (by decide)
    refine ⟨t, ?_, he⟩
    simp only [exec, execThumbPop, h, orFault_ok, ht]
  · obtain ⟨t, ht, he⟩ := thumbBlockLoad_effect (listOrEmpty_nodup (lowList_nodup list) h) count (s.reg (low rb))
      (low_ne_15 rb)
    refine ⟨t, ?_, he⟩
    simp only [exec, execThumbLdmia, h, orFault_ok, ht]
end

section
/-! Block stores, ARM and Thumb (R284, R286, R288, R457, R458, R460), and the user-bank transfers. -/

open Sys2Proof Sys2Proof.Machine

namespace Sys2Proof.Machine

variable {s t u : State}

/-! ### The addresses of the words -/

theorem blockAddresses_succ (a : Word) (count : Nat) :
    blockAddresses a (count + 1) = a :: blockAddresses (a + 4) count := by
  unfold blockAddresses
  rw [List.range_succ_eq_map, List.map_cons, List.map_map]
  congr 1
  · simp
  · refine List.map_congr_left fun j _ => ?_
    simp only [Function.comp_apply, Nat.succ_eq_add_one, BitVec.ofNat_add, BitVec.mul_add]
    ac_rfl

/-- Words at consecutive addresses of a short block do not meet, mirrors included: their bytes differ in the low ten bits of
their addresses. -/
theorem outsideStore_of_later {a b : Word} {count k : Nat} (hb : b ∈ blockAddresses (a + 4) count) (hc : count ≤ 16)
    (hk : k < 4) : OutsideStore b .word (align a .word + BitVec.ofNat 32 k) := by
  obtain ⟨j, hj, rfl⟩ := List.mem_map.mp hb
  rw [List.mem_range] at hj
  intro i hi he
  have hi : i < 4 := hi
  have hm := mod_of_location_eq he
  rw [align_add_toNat _ .word k hk] at hm
  change _ = (align (a + 4 + 4 * BitVec.ofNat 32 j) .word + BitVec.ofNat 32 i).toNat % 0x400 at hm
  rw [align_add_toNat _ .word i hi] at hm
  simp only [Width.bytes, BitVec.toNat_add, BitVec.toNat_mul, BitVec.toNat_ofNat, show (4 : Word).toNat = 4 from rfl] at hm
  have := a.isLt
  omega

/-! ### Words written -/

/-- A word stored before the rest of a block is still there after it. -/
theorem BytesAt.of_later {a v : Word} {count : Nat} {m : Mode} (h : BytesAt s a .word v) (hc : count ≤ 16)
    (ht : Stored s (physRegs m []) (blockAddresses (a + 4) count) .word t) : BytesAt t a .word v := fun k hk =>
  (ht.outside _ fun _ hb => outsideStore_of_later hb hc hk).trans (h k hk)

/-- A block store none of whose words is caught by the prefetch hazard. -/
theorem writeBlock_clear {m : Mode} {vals : List (RegNo × Word)} {a : Word} (hlen : vals.length ≤ 16)
    (hclear : BlockClear s a vals.length) :
    ∃ t, writeBlock s a vals = .next t ∧ Stored s (physRegs m []) (blockAddresses a vals.length) .word t ∧
      ((∀ b, b ∈ blockAddresses a vals.length → StoresWhole b .word) →
        ∀ (j : Nat) (h : j < vals.length), BytesAt t (a + 4 * BitVec.ofNat 32 j) .word vals[j].2) := by
  induction vals generalizing s a with
  | nil => exact ⟨s, rfl, .refl s, fun _ j h => absurd h (Nat.not_lt_zero j)⟩
  | cons kv rest ih =>
    simp only [List.length_cons] at hlen hclear ⊢
    rw [BlockClear, blockAddresses_succ, List.forall_mem_cons] at hclear
    rw [blockAddresses_succ, List.forall_mem_cons]
    obtain ⟨u, hu, hb⟩ := memWrite_clear kv.2 hclear.1
    have hf := memWrite_frame hu
    obtain ⟨t, ht, hst, hbytes⟩ := ih (s := u) (a := a + 4) (by omega) fun b hm =>
      (prefetchHit_congr hf.pc hf.cpsr b .word).trans (hclear.2 b hm)
    refine ⟨t, ?_, ((Stored.refl s).write hu).trans hst, fun hw j hj => ?_⟩
    · rw [writeBlock, hu]
      exact ht
    · cases j with
      | zero => simpa using (hb hw.1).of_later (by omega) hst
      | succ j =>
        have hj := hbytes hw.2 j (by omega)
        rw [BitVec.add_assoc] at hj
        rw [BitVec.ofNat_add, BitVec.mul_add, BitVec.add_comm (4 * _)]
        exact hj

/-- A block store one of whose words is caught stops (R705). -/
theorem writeBlock_hit {vals : List (RegNo × Word)} {a : Word} (hhit : ¬BlockClear s a vals.length) :
    writeBlock s a vals = .fault .storeIntoPrefetched := by
  induction vals generalizing s a with
  | nil => exact absurd (fun _ h => nomatch h) hhit
  | cons kv rest ih =>
    rw [List.length_cons, BlockClear, blockAddresses_succ, List.forall_mem_cons, not_and] at hhit
    rw [writeBlock]
    cases hp : prefetchHit s a .word with
    | true => rw [(memWrite_eq s a .word kv.2).1 hp, andThen_fault]
    | false =>
      obtain ⟨u, hu, -⟩ := memWrite_clear kv.2 hp
      have hf := memWrite_frame hu
      rw [hu, andThen_next]
      refine ih fun hc => hhit hp fun b hb => ?_
      exact (prefetchHit_congr hf.pc hf.cpsr b .word).symm.trans (hc b hb)

/-! ### Values stored -/

/-- What a block store stores for a register that is not drawn. -/
def plainValue (s : State) (pcStored : Word) (k : RegNo) : Word := if k = 15 then pcStored else s.reg k

/-- What a block store stores for a register of its list other than the lowest. -/
def laterValue (s : State) (base : Option RegNo) (pcStored : Word) (k : RegNo) : Word :=
  if base = some k then Config.draw s.draws else plainValue s pcStored k

theorem plainValue_draw (s : State) (pc : Word) (k : RegNo) : plainValue (draw s).2 pc k = plainValue s pc k := by
  unfold plainValue
  split
  · rfl
  · exact reg_congr (draw_state_regs s) rfl ‹_›

theorem storeValues_cons_plain (s : State) {base : Option RegNo} {pc : Word} {first : Bool} {k : RegNo}
    (rest : List RegNo) (h : ¬(base = some k ∧ first = false)) : storeValues s base pc first (k :: rest) =
      ((k, plainValue s pc k) :: (storeValues s base pc false rest).1, (storeValues s base pc false rest).2) := by
  rw [storeValues, if_neg h]
  by_cases hk : k = 15
  · rw [if_pos hk, plainValue, if_pos hk]
  · rw [if_neg hk, plainValue, if_neg hk]

theorem storeValues_cons_draw (s : State) {pc : Word} {k : RegNo} (rest : List RegNo) (hk : k ≠ 15) :
    storeValues s (some k) pc false (k :: rest) = ((k, Config.draw s.draws) ::
      (storeValues (draw s).2 (some k) pc false rest).1, (storeValues (draw s).2 (some k) pc false rest).2) := by
  rw [storeValues, if_neg hk, if_pos ⟨rfl, rfl⟩]
  rfl

/-- The base is not in the list: nothing is drawn. -/
theorem storeValues_of_notMem {base : Option RegNo} {regs : List RegNo} (h : ∀ k, k ∈ regs → base ≠ some k) (s : State)
    (pc : Word) : storeValues s base pc false regs = (regs.map fun k => (k, plainValue s pc k), s) := by
  induction regs with
  | nil => rfl
  | cons k rest ih =>
    rw [List.forall_mem_cons] at h
    rw [storeValues_cons_plain s rest (fun e => h.1 e.1), ih h.2]
    rfl

/-- The base is in the list, not as its first register: it is drawn, and nothing else is. -/
theorem storeValues_of_mem {b : RegNo} (hb : b ≠ 15) {regs : List RegNo} (hd : regs.Nodup) (hm : b ∈ regs) (s : State)
    (pc : Word) :
    storeValues s (some b) pc false regs = (regs.map fun k => (k, laterValue s (some b) pc k), (draw s).2) := by
  induction regs with
  | nil => cases hm
  | cons k rest ih =>
    obtain ⟨hk, hrest⟩ := List.nodup_cons.mp hd
    by_cases hkb : b = k
    · subst hkb
      have hn : ∀ k, k ∈ rest → some b ≠ some k := fun k hkr e => hk (Option.some.inj e ▸ hkr)
      have hl : (rest.map fun k => (k, plainValue (draw s).2 pc k)) = rest.map fun k => (k, laterValue s (some b) pc k) :=
        List.map_congr_left fun k hkr => by rw [laterValue, if_neg (hn k hkr), plainValue_draw]
      rw [storeValues_cons_draw s rest hb, storeValues_of_notMem hn, hl, List.map_cons, laterValue, if_pos rfl]
    · have hv : laterValue s (some b) pc k = plainValue s pc k := if_neg fun e => hkb (Option.some.inj e)
      rw [storeValues_cons_plain s rest (fun e => hkb (Option.some.inj e.1)),
        ih hrest ((List.mem_cons.mp hm).resolve_left hkb), List.map_cons, hv]

/-- The values after the first register's, and how many are drawn. -/
theorem storeValues_later {base : Option RegNo} (hb : base ≠ some 15) {regs : List RegNo} (hd : regs.Nodup) (s : State)
    (pc : Word) :
    (storeValues s base pc false regs).1 = (regs.map fun k => (k, laterValue s base pc k)) ∧
      (storeValues s base pc false regs).2.draws = s.draws + if ∃ k, base = some k ∧ k ∈ regs then 1 else 0 := by
  by_cases h : ∃ k, base = some k ∧ k ∈ regs
  · obtain ⟨k, rfl, hk⟩ := h
    rw [storeValues_of_mem (fun e => hb (congrArg some e)) hd hk, if_pos ⟨k, rfl, hk⟩]
    exact ⟨rfl, rfl⟩
  · have hn : ∀ k, k ∈ regs → base ≠ some k := fun k hk e => h ⟨k, e, hk⟩
    rw [storeValues_of_notMem hn, if_neg h]
    exact ⟨List.map_congr_left fun k hk => by rw [laterValue, if_neg (hn k hk)], rfl⟩

/-- What a block store stores for register number j of its list (D27). -/
theorem storeValues_spec {base : Option RegNo} (hb : base ≠ some 15) {regs : List RegNo} (hd : regs.Nodup) (s : State)
    (pc : Word) :
    (∀ (j : Nat) (h : j < regs.length) (h' : j < (storeValues s base pc true regs).1.length),
      (storeValues s base pc true regs).1[j].2 =
        if base = some regs[j] ∧ j ≠ 0 then Config.draw s.draws else if regs[j] = 15 then pc else s.reg regs[j]) ∧
    (storeValues s base pc true regs).2.draws =
      s.draws + if ∃ k, base = some k ∧ k ∈ regs.tail then 1 else 0 := by
  cases regs with
  | nil => exact ⟨fun j h => absurd h (Nat.not_lt_zero j), by simp [storeValues]⟩
  | cons k rest =>
    obtain ⟨hl, hdraws⟩ := storeValues_later hb (List.nodup_cons.mp hd).2 s pc
    rw [storeValues_cons_plain (first := true) s rest (by simp)]
    refine ⟨fun j h h' => ?_, hdraws⟩
    cases j with
    | zero => simp [plainValue]
    | succ j => simp [hl, laterValue, plainValue]

theorem regNo_length_le {regs : List RegNo} (hd : regs.Nodup) : regs.length ≤ 16 := by
  have h := hd.length_le_card
  rwa [show Fintype.card RegNo = 16 from rfl] at h

/-! ### The end of a block store -/

/-- The words of a block store whose values are drawn and read before it (R286, R457, D27). -/
theorem blockStore_effect {m : Mode} {base : Option RegNo} (hb : base ≠ some 15) {regs : List RegNo} (hd : regs.Nodup)
    {a : Word} (pc : Word) (hclear : BlockClear s a regs.length) :
    ∃ u, writeBlock (storeValues s base pc true regs).2 a (storeValues s base pc true regs).1 = .next u ∧
      Stored s (physRegs m []) (blockAddresses a regs.length) .word u ∧
      ((∀ b, b ∈ blockAddresses a regs.length → StoresWhole b .word) →
        ∀ (j : Nat) (h : j < regs.length), BytesAt u (a + 4 * BitVec.ofNat 32 j) .word
          (if base = some regs[j] ∧ j ≠ 0 then Config.draw s.draws else if regs[j] = 15 then pc else s.reg regs[j])) ∧
      u.draws = s.draws + if ∃ k, base = some k ∧ k ∈ regs.tail then 1 else 0 := by
  obtain ⟨hbus, -, hfst⟩ := storeValues_busOnly regs s base pc true
  have hlen : (storeValues s base pc true regs).1.length = regs.length :=
    (List.length_map Prod.fst).symm.trans (congrArg List.length hfst)
  obtain ⟨hval, hdraws⟩ := storeValues_spec hb hd s pc
  have hc : BlockClear (storeValues s base pc true regs).2 a (storeValues s base pc true regs).1.length := by
    rw [hlen]
    exact fun b hm => (prefetchHit_congr hbus.pc hbus.cpsr b .word).trans (hclear b hm)
  obtain ⟨u, hu, hst, hbytes⟩ := writeBlock_clear (m := m) (by rw [hlen]; exact regNo_length_le hd) hc
  rw [hlen] at hst
  refine ⟨u, hu, (Stored.of_busOnly hbus).trans hst, fun hw j h => ?_, (writeBlock_frame hu).draws.trans hdraws⟩
  rw [← hval j h (by rw [hlen]; exact h)]
  exact hbytes (by rw [hlen]; exact hw) j (by rw [hlen]; exact h)

/-- A block store one of whose words is caught by the prefetch hazard. -/
theorem blockStore_hit (base : Option RegNo) {regs : List RegNo} {a : Word} (pc : Word)
    (hhit : ¬BlockClear s a regs.length) :
    writeBlock (storeValues s base pc true regs).2 a (storeValues s base pc true regs).1 = .fault .storeIntoPrefetched := by
  obtain ⟨hbus, -, hfst⟩ := storeValues_busOnly regs s base pc true
  refine writeBlock_hit fun hc => hhit fun b hm => ?_
  rw [← hfst, List.length_map] at hm
  exact (prefetchHit_congr hbus.pc hbus.cpsr b .word).symm.trans (hc b hm)

/-! ### ARM (R286, R288) -/

theorem reg_baseUpdate (s : State) {w : Bool} {n : RegNo} (v : Word) (hw : w = true) (hn : n ≠ 15) :
    (baseUpdate s w n v).reg n = v := by
  rw [baseUpdate, if_pos hw, reg_setReg_self _ hn]

theorem userValues_eq (s : State) (regs : List RegNo) :
    userValues s regs = regs.map fun k => (k, if k = 15 then s.pcStore else s.regOf .usr k) := by
  induction regs with
  | nil => rfl
  | cons k rest ih => rw [userValues, ih, List.map_cons]

/-- The base that an STM with writeback stores as a free value. -/
def keptBase (w : Bool) (rn : RegNo) : Option RegNo := if w then some rn else none

theorem keptBase_eq_some {w : Bool} {rn k : RegNo} : keptBase w rn = some k ↔ w = true ∧ k = rn := by
  cases w <;> simp [keptBase, eq_comm]

theorem keptBase_ne {w : Bool} {rn : RegNo} (hn : rn ≠ 15) : keptBase w rn ≠ some 15 := fun e =>
  hn (keptBase_eq_some.mp e).2.symm

section

variable {c : Cond} (hc : condPassed c s.cpsr = true) {p up w : Bool} {rn : RegNo} {list : BitVec 16}
include hc

theorem armStm_error {e : Fault} (h : blockFrame s p up rn list = .error e) :
    exec (.armStm c p up w rn list) s = .fault e := by
  simp only [exec, execArmStm, predicated_of_passed _ hc, h, orFault_error]

theorem armStm_ok {fr : BlockFrame} (h : blockFrame s p up rn list = .ok fr) : exec (.armStm c p up w rn list) s =
    andThen (writeBlock (storeValues s (keptBase w rn) s.pcStore true fr.regs).2 fr.start
      (storeValues s (keptBase w rn) s.pcStore true fr.regs).1) fun u => .next (advance (baseUpdate u w rn fr.newBase)) := by
  simp only [exec, execArmStm, predicated_of_passed _ hc, h, orFault_ok]
  rfl

theorem armStmUser_error {e : Fault} (h : blockFrame s p up rn list = .error e) :
    exec (.armStmUser c p up w rn list) s = .fault e := by
  simp only [exec, execArmStmUser, predicated_of_passed _ hc, h, orFault_error]

theorem armStmUser_ok {fr : BlockFrame} (h : blockFrame s p up rn list = .ok fr) :
    exec (.armStmUser c p up w rn list) s =
      if s.cpsr.mode.hasSpsr = false then .fault .sBitInUserOrSystem
      else if w then .fault .sBitWithWriteback
      else andThen (writeBlock s fr.start (userValues s fr.regs)) fun s => .next (advance s) := by
  simp only [exec, execArmStmUser, predicated_of_passed _ hc, h, orFault_ok]

end

/-- The words of a user-bank store. -/
theorem userStore_effect {m : Mode} {regs : List RegNo} (hd : regs.Nodup) {a : Word} (hclear : BlockClear s a regs.length) :
    ∃ u, writeBlock s a (userValues s regs) = .next u ∧
      Stored s (physRegs m []) (blockAddresses a regs.length) .word u ∧
      ((∀ b, b ∈ blockAddresses a regs.length → StoresWhole b .word) →
        ∀ (j : Nat) (h : j < regs.length), BytesAt u (a + 4 * BitVec.ofNat 32 j) .word
          (if regs[j] = 15 then s.pc + 12 else s.regOf .usr regs[j])) := by
  have hlen : (userValues s regs).length = regs.length := by rw [userValues_eq, List.length_map]
  obtain ⟨u, hu, hst, hbytes⟩ := writeBlock_clear (m := m) (s := s) (a := a) (vals := userValues s regs)
    (by rw [hlen]; exact regNo_length_le hd) (by rw [hlen]; exact hclear)
  rw [hlen] at hst
  refine ⟨u, hu, hst, fun hw j h => ?_⟩
  have hb := hbytes (by rw [hlen]; exact hw) j (by rw [hlen]; exact h)
  simp only [userValues_eq, List.getElem_map] at hb
  exact hb

/-! ### Thumb (R458, R460) -/

/-- What PUSH and STMIA answer in both cases. -/
def ThumbBlockStores (s : State) (regs : List RegNo) (i : Instr) (start : Word) (base : RegNo) (newBase : Word)
    (kept : Option RegNo) : Prop :=
  (¬BlockClear s start regs.length → Stops i s .storeIntoPrefetched) ∧
    (BlockClear s start regs.length → Gives i s fun t =>
      StoreFrame s (physRegs s.cpsr.mode [base]) (blockAddresses start regs.length) .word t ∧ t.reg base = newBase ∧
        ((∀ b, b ∈ blockAddresses start regs.length → StoresWhole b .word) →
          ∀ (j : Nat) (h : j < regs.length), BytesAt t (start + 4 * BitVec.ofNat 32 j) .word
            (if kept = some regs[j] ∧ j ≠ 0 then Config.draw s.draws
              else if regs[j] = 15 then s.pc + 6 else s.reg regs[j])) ∧
        t.draws = s.draws + if ∃ k, kept = some k ∧ k ∈ regs.tail then 1 else 0)

theorem thumbBlockStores_of_exec {i : Instr} {start : Word} {base : RegNo} {newBase : Word} {kept : Option RegNo}
    {regs : List RegNo} (he : exec i s = thumbBlockStore s start base newBase kept regs) (hd : regs.Nodup)
    (hbase : base ≠ 15) (hkept : kept ≠ some 15) : ThumbBlockStores s regs i start base newBase kept := by
  unfold thumbBlockStore at he
  refine ⟨fun hhit => ?_, fun hclear => ?_⟩
  · dsimp only at he
    rw [blockStore_hit kept _ hhit] at he
    exact he
  · obtain ⟨u, hu, hst, hbytes, hdraws⟩ := blockStore_effect (m := s.cpsr.mode) hkept hd s.thumbPcStore hclear
    dsimp only at he
    rw [hu] at he
    refine ⟨_, he, (hst.setReg rfl base newBase).frame, (reg_advance _ hbase).trans (reg_setReg_self _ hbase),
      fun hw j h => ?_, ?_⟩
    · exact (hbytes hw j h).congr (by simp) (by simp)
    · simpa using hdraws

end Sys2Proof.Machine

/-- Settles O47: by `blockStore_effect`, with the case split on the prefetch hazard. -/
theorem storeMultiple : Obligations.StoreMultiple := by
  intro s c p up w rn list hc
  refine ⟨fun e h => armStm_error hc h, fun fr h => ⟨fun hhit => ?_, fun hclear => ?_⟩⟩
  · refine (armStm_ok hc h).trans ?_
    rw [blockStore_hit _ _ hhit, andThen_fault]
  · have hrn := (blockFrame_ok h).1
    obtain ⟨u, hu, hst, hbytes, hdraws⟩ := blockStore_effect (m := s.cpsr.mode) (keptBase_ne (w := w) hrn)
      (blockFrame_nodup h) s.pcStore hclear
    have he := armStm_ok hc (w := w) h
    rw [hu] at he
    refine ⟨_, he, (hst.baseUpdate rfl w rn _).frame, fun hw => ?_, fun hw j hj => ?_, ?_⟩
    · rw [reg_advance _ hrn, reg_baseUpdate _ _ hw hrn]
    · have hb := (hbytes hw j hj).congr (u := advance (baseUpdate u w rn fr.newBase)) (by simp) (by simp)
      simp only [keptBase_eq_some, and_assoc] at hb
      exact hb
    · have hd : (∃ k, keptBase w rn = some k ∧ k ∈ fr.regs.tail) ↔ w = true ∧ rn ∈ fr.regs.tail := by
        simp [keptBase_eq_some, and_assoc]
      simpa only [advance_draws, baseUpdate_draws, hd] using hdraws

/-- Settles O48: the stops of both forms, then the loads and stores of the frame's User registers. -/
theorem userBankTransfers : Obligations.UserBankTransfers := by
  intro s c p up w rn hc
  refine ⟨fun list => ⟨fun e h => armLdmUser_error hc h, fun fr h => ⟨fun hm => ?_, fun hu hs hw => ?_, fun hu hs hw => ?_⟩⟩,
    fun list => ⟨fun e h => armStmUser_error hc h, fun fr h => ⟨fun hm => ?_, fun hu hs hw => ?_, fun hu hs hw => ?_⟩⟩⟩
  · exact (armLdmUser_ok hc h).trans (if_pos (hasSpsr_eq_false.mpr hm))
  · refine (armLdmUser_ok hc h).trans ?_
    rw [if_neg (fun e => (hasSpsr_eq_false.mp e).elim hu hs), if_pos hw]
  · refine ⟨_, (armLdmUser_ok hc h).trans ?_, ldmUser_effect h⟩
    rw [if_neg (fun e => (hasSpsr_eq_false.mp e).elim hu hs), if_neg (by simp [hw])]
  · exact (armStmUser_ok hc h).trans (if_pos (hasSpsr_eq_false.mpr hm))
  · refine (armStmUser_ok hc h).trans ?_
    rw [if_neg (fun e => (hasSpsr_eq_false.mp e).elim hu hs), if_pos hw]
  · have he := armStmUser_ok hc (w := w) h
    rw [if_neg (fun e => (hasSpsr_eq_false.mp e).elim hu hs), if_neg (by simp [hw])] at he
    have hlen : (userValues s fr.regs).length = fr.regs.length := by rw [userValues_eq, List.length_map]
    refine ⟨fun hhit => ?_, fun hclear => ?_⟩
    · rw [writeBlock_hit (by rw [hlen]; exact hhit)] at he
      exact he
    · obtain ⟨u, hu, hst, hbytes⟩ := userStore_effect (m := .usr) (blockFrame_nodup h) hclear
      rw [hu] at he
      exact ⟨_, he, hst.frame, fun hw j hj => (hbytes hw j hj).congr rfl rfl⟩

/-- Settles O59: both are a block store at ascending addresses with their own base. -/
theorem thumbBlockStores : Obligations.ThumbBlockStores := by
  intro s list regs count
  refine ⟨fun lr h => ?_, fun rb h => ?_⟩
  · refine thumbBlockStores_of_exec (i := .thumbPush lr list) ?_
      (listOrEmpty_nodup (lowList_append_nodup list lr (by decide)) h) (by decide) (by simp)
    simp only [exec, execThumbPush, h, orFault_ok]
    rfl
  · refine thumbBlockStores_of_exec (i := .thumbStmia rb list) ?_ (listOrEmpty_nodup (lowList_nodup list) h)
      (low_ne_15 rb) (fun e => low_ne_15 rb (Option.some.inj e))
    simp only [exec, execThumbStmia, h, orFault_ok]
    rfl
end

section
/-! Whole-machine rules from the moves of each instruction: the clock (O9), and what the invariant asks of WAITCNT, memory and
the user-bank mark (O6). -/

open Sys2Proof Sys2Proof.Machine

namespace Sys2Proof.Machine

variable {s t u : State} {m : Mode}

/-! ### Writes take no time of their own (R708) -/

theorem ioWritePart_cycles (s : State) (o : Nat) (n : Width) (v : Word) : (ioWritePart s o n v).cycles = s.cycles := by
  unfold ioWritePart irqControlWrite
  split
  · rfl
  · repeat' split
    all_goals rfl
  · rfl
  · rfl
  · rfl

theorem ioWrite_cycles (s : State) (o : Nat) (n : Width) (v : Word) : (ioWrite s o n v).cycles = s.cycles := by
  unfold ioWrite
  split
  · split
    · rfl
    · rw [ioWritePart_cycles, ioWritePart_cycles]
  · exact ioWritePart_cycles s o n v

theorem romWrite_cycles (s : State) (a : Word) (n : Width) (v : Word) : (romWrite s a n v).cycles = s.cycles := by
  unfold romWrite
  split <;> rfl

theorem writeValue_cycles (s : State) (a : Word) (n : Width) (v : Word) : (writeValue s a n v).cycles = s.cycles := by
  unfold writeValue
  simp only []
  split
  case h_3 => split <;> rfl
  case h_4 =>
    split
    · split <;> rfl
    · rfl
  case h_5 => split <;> rfl
  case h_6 => exact ioWrite_cycles s _ n v
  case h_8 | h_9 | h_10 => exact romWrite_cycles s a n v
  all_goals rfl

theorem memWrite_cycles_lt {a : Word} {n : Width} {v : Word} (h : memWrite s a n v = .next t) : s.cycles < t.cycles := by
  obtain ⟨-, rfl⟩ := memWrite_next h
  rw [writeValue_cycles]
  exact charge_cycles_lt s a n

/-! ### What every move carries over -/

/-- The clock does not go back, the user-bank mark stays, and WAITCNT and memory keep their form. -/
structure Carries (s t : State) : Prop where
  cycles : s.cycles ≤ t.cycles
  mark : t.hazardMark = s.hazardMark
  waitcnt : s.waitcnt &&& 0xA000 = 0 → t.waitcnt &&& 0xA000 = 0
  mem : Mem.wf s.mem = true → Mem.wf t.mem = true

theorem Carries.refl (s : State) : Carries s s := ⟨Nat.le_refl _, rfl, id, id⟩

theorem Carries.trans (h : Carries s t) (k : Carries t u) : Carries s u :=
  ⟨h.cycles.trans k.cycles, k.mark.trans h.mark, k.waitcnt ∘ h.waitcnt, k.mem ∘ h.mem⟩

theorem Carries.of_eq (hc : s.cycles ≤ t.cycles) (hh : t.hazardMark = s.hazardMark) (hw : t.waitcnt = s.waitcnt)
    (hm : t.mem = s.mem) : Carries s t := ⟨hc, hh, fun h => hw ▸ h, fun h => hm ▸ h⟩

theorem Carries.of_busOnly (h : BusOnly s t) (hc : s.cycles ≤ t.cycles) : Carries s t :=
  .of_eq hc h.hazardMark h.waitcnt h.mem

theorem carries_memWrite {a : Word} {n : Width} {v : Word} (h : memWrite s a n v = .next t) : Carries s t := by
  have hc := memWrite_cycles_lt h
  have hf := memWrite_frame h
  obtain ⟨-, rfl⟩ := memWrite_next h
  exact ⟨hc.le, hf.hazardMark, fun hw => writeValue_waitcnt a n v hw, fun hm => writeValue_wf a n v hm⟩

theorem Move.carries (h : Move m s t) : Carries s t := by
  cases h with
  | bus h hc => exact .of_busOnly h hc
  | write h => exact carries_memWrite h
  | reg n v => exact .of_eq (by simp) (by simp) (by simp) (by simp)
  | status p => exact .of_eq (Nat.le_refl _) rfl rfl rfl
  | saved p => exact .of_eq (Nat.le_refl _) rfl rfl rfl
  | advance => exact .of_eq (Nat.le_refl _) rfl rfl rfl
  | jump a => exact .of_eq (by have := jump_cycles_le s a; omega) rfl rfl rfl

theorem Runs.carries (h : Runs m s t) : Carries s t := by
  induction h with
  | refl => exact .refl s
  | tail _ hm ih => exact ih.trans hm.carries

theorem carries_takeException (s : State) {k : ExcKind} (hk : k ≠ .reset) : Carries s (takeException s k) :=
  (takeException_runs s hk).carries

theorem carries_exec {i : Instr} (h : exec i s = .next t) : Carries s t := by
  rcases exec_answers h with h | ⟨-, h⟩ | rfl | rfl
  · exact h.carries
  · exact h.carries
  · exact carries_takeException s (by decide)
  · exact (Runs.refl.spend (m := .usr) 1).carries.trans (carries_takeException _ (by decide))

theorem fetch_cycles_lt (s : State) : s.cycles < (fetch s).2.cycles := by
  have h := charge_cycles_lt (readValue s true s.pc s.fetchWidth).2
    ((readValue s true s.pc s.fetchWidth).2.pc + (readValue s true s.pc s.fetchWidth).2.w +
      (readValue s true s.pc s.fetchWidth).2.w) (readValue s true s.pc s.fetchWidth).2.fetchWidth
  rwa [readValue_cycles] at h

/-! ### The clock (R40, R625) -/

theorem takeInterrupt_cycles_lt (s : State) {k : ExcKind} : s.cycles < (takeInterrupt s k).cycles := by
  have h := charge_cycles_lt s (s.pc + s.w + s.w) s.fetchWidth
  show s.cycles < (takeException (charge s (s.pc + s.w + s.w) s.fetchWidth) k).cycles
  rw [takeException_cycles]
  omega

theorem serviceInterrupts_cycles_le (s : State) : s.cycles ≤ (serviceInterrupts s).cycles := by
  unfold serviceInterrupts
  split
  · exact (takeInterrupt_cycles_lt s).le
  · split
    · exact (takeInterrupt_cycles_lt s).le
    · exact Nat.le_refl _

theorem runInstruction_cycles_lt (h : runInstruction s = .next t) : s.cycles < t.cycles := by
  obtain ⟨i, u, -, -, hu, rfl⟩ := runInstruction_eq_next h
  rw [finishStep_cycles]
  exact (fetch_cycles_lt s).trans_le (carries_exec hu).cycles

theorem step_cycles_lt (h : step s = .next t) : s.cycles < t.cycles := by
  obtain ⟨-, ⟨-, -, rfl⟩ | ⟨-, h⟩⟩ := step_eq_next h
  · exact Nat.lt_succ_self s.cycles
  · exact (serviceInterrupts_cycles_le (wake s)).trans_lt (runInstruction_cycles_lt h)

end Sys2Proof.Machine

/-- Settles O9: a halted step costs a cycle; any other step costs its fetch, and no move of its instruction turns the clock
back. -/
theorem cyclesStrictlyIncrease : Obligations.CyclesStrictlyIncrease := by
  intro s t h
  exact step_cycles_lt h
end

section
/-! Where an instruction lands: PC aligned for T (R26 to R28), and in User mode the mode, the masks and the SPSRs as they were
(R35, R621), said once for each shared part of the meanings. -/

open Sys2Proof Sys2Proof.Machine

namespace Sys2Proof.Machine

variable {s t u : State} {b : Bool}

/-! ### Before the last move -/

/-- The bits of the CPSR that no flag result changes: mode, masks and T. -/
def Cpsr.control (p : Cpsr) : Mode × Bool × Bool × Bool := (p.mode, p.i, p.f, p.t)

/-- Nothing that decides where the machine goes on has changed. -/
structure InPlace (s t : State) : Prop where
  pc : t.pc = s.pc
  spsr : t.spsr = s.spsr
  control : t.cpsr.control = s.cpsr.control

namespace InPlace

theorem refl : InPlace s s := ⟨rfl, rfl, rfl⟩

theorem trans (h : InPlace s t) (k : InPlace t u) : InPlace s u :=
  ⟨k.pc.trans h.pc, k.spsr.trans h.spsr, k.control.trans h.control⟩

theorem mode (h : InPlace s t) : t.cpsr.mode = s.cpsr.mode := congrArg Prod.fst h.control

theorem t_eq (h : InPlace s t) : t.cpsr.t = s.cpsr.t := congrArg (fun x => x.2.2.2) h.control

theorem masks (h : InPlace s t) : t.cpsr.i = s.cpsr.i ∧ t.cpsr.f = s.cpsr.f :=
  ⟨congrArg (fun x => x.2.1) h.control, congrArg (fun x => x.2.2.1) h.control⟩

theorem of_eq (hp : t.pc = s.pc) (hs : t.spsr = s.spsr) (hc : t.cpsr = s.cpsr) : InPlace s t := ⟨hp, hs, hc ▸ rfl⟩

theorem of_busOnly (h : BusOnly s t) : InPlace s t := .of_eq h.pc h.spsr h.cpsr

theorem write (h : InPlace s t) {a : Word} {n : Width} {v : Word} (k : memWrite t a n v = .next u) : InPlace s u :=
  h.trans (.of_eq (memWrite_frame k).pc (memWrite_frame k).spsr (memWrite_frame k).cpsr)

theorem writeBlock (h : InPlace s t) {a : Word} {vals : List (RegNo × Word)} (k : writeBlock t a vals = .next u) :
    InPlace s u :=
  h.trans (.of_eq (writeBlock_frame k).pc (writeBlock_frame k).spsr (writeBlock_frame k).cpsr)

theorem setReg (h : InPlace s t) (n : RegNo) (v : Word) : InPlace s (t.setReg n v) :=
  h.trans (.of_eq (by simp) (by simp) (by simp))

theorem setCpsr (h : InPlace s t) {p : Cpsr} (hp : p.control = s.cpsr.control) : InPlace s (t.setCpsr p) :=
  ⟨h.pc, h.spsr, hp⟩

theorem spend (h : InPlace s t) (k : Nat) : InPlace s (t.spend k) := ⟨h.pc, h.spsr, h.control⟩

theorem draw (h : InPlace s t) : InPlace s (draw t).2 := ⟨h.pc, h.spsr, h.control⟩

theorem writeBack (h : InPlace s t) (n : RegNo) (a : Addressing) : InPlace s (writeBack t n a) :=
  h.trans (.of_eq (by simp) (by simp) (by simp))

theorem baseUpdate (h : InPlace s t) (w : Bool) (n : RegNo) (v : Word) : InPlace s (baseUpdate t w n v) :=
  h.trans (.of_eq (by simp) (by simp) (by simp))

theorem loadRegs (h : InPlace s t) (m : Mode) (vals : List (RegNo × Word)) : InPlace s (loadRegs t m vals) := by
  obtain ⟨hc, hp, hs⟩ := loadRegs_keeps vals t m
  exact h.trans (.of_eq hp hs hc)

theorem readBlock (s : State) (a : Word) (regs : List RegNo) : InPlace s (readBlock s a regs).2 :=
  .of_busOnly (readBlock_busOnly regs s a)

theorem storeValues (s : State) (base : Option RegNo) (pc : Word) (first : Bool) (regs : List RegNo) :
    InPlace s (storeValues s base pc first regs).2 := .of_busOnly (storeValues_busOnly regs s base pc first).1

theorem mulFlags (h : InPlace s t) (sf : Bool) (r : Word) : InPlace s (mulFlags t sf r) := by
  cases sf with
  | true => exact h.trans ⟨rfl, rfl, rfl⟩
  | false => exact h

theorem longMulFlags (h : InPlace s t) (sf : Bool) (p : BitVec 64) : InPlace s (longMulFlags t sf p) := by
  cases sf with
  | true => exact h.trans ⟨rfl, rfl, rfl⟩
  | false => exact h

end InPlace

theorem IsLoad.inPlace {load : State → Word → Word × State} (hl : IsLoad load) (s : State) (a : Word) :
    InPlace s (load s a).2 := .of_busOnly (hl s a).1

/-! ### Landing -/

/-- What an instruction that raises no exception does: PC stays aligned for T, where a Thumb instruction runs in Thumb state,
and User mode keeps its mode, its masks and every SPSR. -/
structure Lands (thumb : Bool) (s t : State) : Prop where
  aligned : (thumb = true → s.cpsr.t = true) → s.pcAligned = true → t.pcAligned = true
  user : s.cpsr.mode = .usr → t.cpsr.mode = .usr ∧ t.cpsr.i = s.cpsr.i ∧ t.cpsr.f = s.cpsr.f ∧ t.spsr = s.spsr

theorem pcAligned_advance (h : s.pcAligned = true) : (advance s).pcAligned = true := by
  rw [State.pcAligned_iff] at h ⊢
  rw [advance_pc, advance_cpsr, BitVec.toNat_add, State.w]
  cases ht : s.cpsr.t <;> simp [ht, instrBytes] at h ⊢ <;> omega

theorem pcFits_armTarget (thumb : Bool) (v : Word) : pcFits thumb (armTarget v) = true := by
  rw [pcFits_eq, decide_eq_true_eq, armTarget, and_mask4]
  cases thumb
  · simp [instrBytes]
  · simp only [instrBytes, if_true]
    omega

theorem pcFits_thumbTarget (v : Word) : pcFits true (thumbTarget v) = true := by
  rw [pcFits_eq, decide_eq_true_eq, thumbTarget, and_mask2]
  simp [instrBytes]

theorem Lands.advance (h : InPlace s u) : Lands b s (advance u) where
  aligned _ hs := pcAligned_advance (by
    rw [State.pcAligned, h.t_eq, h.pc]
    exact hs)
  user hm := ⟨h.mode.trans hm, h.masks.1, h.masks.2, h.spsr⟩

theorem Lands.jump (h : InPlace s u) {a : Word} (ha : (b = true → s.cpsr.t = true) → pcFits s.cpsr.t a = true) :
    Lands b s (jump u a) where
  aligned hb _ := by
    show pcFits u.cpsr.t a = true
    rw [h.t_eq]
    exact ha hb
  user hm := ⟨h.mode.trans hm, h.masks.1, h.masks.2, h.spsr⟩

theorem Lands.jump_armTarget (h : InPlace s u) (v : Word) : Lands b s (Machine.jump u (armTarget v)) :=
  .jump h fun _ => pcFits_armTarget _ v

theorem Lands.jump_thumbTarget (h : InPlace s u) (v : Word) : Lands true s (Machine.jump u (thumbTarget v)) :=
  .jump h fun ht => by rw [ht rfl]; exact pcFits_thumbTarget v

theorem Lands.branchLoaded (h : InPlace s u) (vals : List (RegNo × Word)) {f : Word → Word}
    (hf : ∀ v, Lands b s (Machine.jump u (f v))) : Lands b s (branchLoaded u vals f) := by
  unfold Machine.branchLoaded
  split
  · exact hf _
  · exact .advance h

/-! ### Results -/

/-- Every next state that is answered is a landing. -/
def LandsFrom (thumb : Bool) (s : State) (r : Result) : Prop := ∀ t, r = .next t → Lands thumb s t

namespace LandsFrom

theorem next (h : Lands b s t) : LandsFrom b s (.next t) := by
  rintro _ ⟨⟩
  exact h

theorem fault (e : Fault) : LandsFrom b s (.fault e) := by
  rintro _ ⟨⟩

theorem advance (h : InPlace s u) : LandsFrom b s (.next (Machine.advance u)) := .next (.advance h)

/-- A restriction that stops. -/
theorem guard {p : Prop} [Decidable p] {e : Fault} {r : Result} (h : LandsFrom b s r) :
    LandsFrom b s (if p then .fault e else r) := by
  split
  · exact .fault e
  · exact h

theorem ite {p : Prop} [Decidable p] {r q : Result} (h : LandsFrom b s r) (k : LandsFrom b s q) :
    LandsFrom b s (if p then r else q) := by
  split
  · exact h
  · exact k

theorem orFault {α : Type} {x : Except Fault α} {f : α → Result} (h : ∀ a, x = .ok a → LandsFrom b s (f a)) :
    LandsFrom b s (orFault x f) := by
  intro t ht
  obtain ⟨a, ha, hf⟩ := orFault_eq_next ht
  exact h a ha t hf

theorem andThen {r : Result} {f : State → Result} (h : ∀ u, r = .next u → LandsFrom b s (f u)) :
    LandsFrom b s (andThen r f) := by
  intro t ht
  obtain ⟨u, hu, hf⟩ := andThen_eq_next ht
  exact h u hu t hf

theorem predicated {c : Cond} {f : State → Result} (h : LandsFrom b s (f s)) : LandsFrom b s (predicated c s f) := by
  intro t ht
  rcases predicated_eq_next ht with ⟨-, hf⟩ | ⟨-, rfl⟩
  · exact h t hf
  · exact .advance .refl

theorem branchTo (h : InPlace s u) (a : Word) : LandsFrom b s (branchTo u a) := by
  intro t ht
  obtain ⟨ha, rfl⟩ := branchTo_next ht
  exact .jump h fun _ => h.t_eq ▸ ha

/-- User mode has no SPSR to return through (R34, R621). -/
theorem exceptionReturn (h : InPlace s u) (a : Word) : LandsFrom b s (exceptionReturn u a) := by
  intro t ht
  obtain ⟨v, hv, hb⟩ := orFault_eq_next ht
  obtain ⟨p, q, hp, -, rfl⟩ := restoreCpsr_ok hv
  obtain ⟨ha, rfl⟩ := branchTo_next hb
  refine ⟨fun _ _ => ha, fun hm => ?_⟩
  rw [h.mode, hm] at hp
  cases hp

/-- BX checks its target against the T it sets (R312). -/
theorem exchange (v : Word) : LandsFrom b s (exchange s v) := by
  intro t ht
  obtain ⟨ha, rfl⟩ := branchTo_next ht
  exact ⟨fun _ _ => ha, fun hm => ⟨hm, rfl, rfl, rfl⟩⟩

end LandsFrom

/-! ### ARM data processing, status registers, multiplies, swap -/

theorem writeResult_lands (h : InPlace s u) {sf : Bool} {rd : RegNo} {r : Word} {p : Cpsr}
    (hp : p.control = s.cpsr.control) : LandsFrom b s (writeResult u sf rd r p) := by
  refine .ite (.ite (.exceptionReturn h r) (.branchTo h r)) (.advance (InPlace.setReg ?_ rd r))
  split
  · exact h.setCpsr hp
  · exact h

theorem logical_lands (c : Cond) (sf : Bool) (rn rd : RegNo) (o : Operand2) (op : Word → Word → Word) :
    LandsFrom b s (logical c sf rn rd o op s) :=
  .predicated (.orFault fun _ _ => writeResult_lands (InPlace.refl.spend _) rfl)

theorem arithmetic_lands (c : Cond) (sf : Bool) (rn rd : RegNo) (o : Operand2)
    (op : Word → Word → Bool → Word × Bool × Bool) : LandsFrom b s (arithmetic c sf rn rd o op s) :=
  .predicated (.orFault fun _ _ => writeResult_lands (InPlace.refl.spend _) rfl)

theorem moveOp_lands (c : Cond) (sf : Bool) (sbz : BitVec 4) (rd : RegNo) (o : Operand2) (op : Word → Word) :
    LandsFrom b s (moveOp c sf sbz rd o op s) :=
  .predicated (.guard (.orFault fun _ _ => writeResult_lands (InPlace.refl.spend _) rfl))

theorem testOp_lands (c : Cond) (rn : RegNo) (sbz : BitVec 4) (o : Operand2) (op : Word → Word → Word) :
    LandsFrom b s (testOp c rn sbz o op s) :=
  .predicated (.guard (.orFault fun _ _ => .advance ((InPlace.refl.spend _).setCpsr rfl)))

theorem compareOp_lands (c : Cond) (rn : RegNo) (sbz : BitVec 4) (o : Operand2)
    (op : Word → Word → Word × Bool × Bool) : LandsFrom b s (compareOp c rn sbz o op s) :=
  .predicated (.guard (.orFault fun _ _ => .advance ((InPlace.refl.spend _).setCpsr rfl)))

theorem execArmMrs_lands (c : Cond) (spsr : Bool) (sbo : BitVec 4) (rd : RegNo) (hi lo : BitVec 4) :
    LandsFrom b s (execArmMrs c spsr sbo rd hi lo s) :=
  .predicated (.guard (.guard (.orFault fun _ _ => .advance (InPlace.refl.draw.setReg rd _))))

/-- MSR keeps T, and in User mode writes flags alone (R35). -/
theorem writePsr_lands (spsr : Bool) (mask : BitVec 4) (v : Word) : LandsFrom b s (writePsr s spsr mask v) := by
  refine .orFault fun u hu => ?_
  cases spsr with
  | true =>
    obtain ⟨hm, p, rfl⟩ := writeSpsr_ok hu
    exact .next ⟨fun _ hs => pcAligned_advance hs, fun hu => absurd hu hm⟩
  | false =>
    obtain ⟨q, rfl, hq, huser⟩ := writeCpsr_ok hu
    refine .next ⟨fun _ hs => pcAligned_advance ?_, fun hm => ?_⟩
    · show pcFits q.t s.pc = true
      rw [hq]
      exact hs
    · obtain ⟨hmode, hi, hf⟩ := huser hm
      exact ⟨hmode, hi, hf, rfl⟩

theorem execArmMsrReg_lands (c : Cond) (spsr : Bool) (mask sbo sbz : BitVec 4) (rm : RegNo) :
    LandsFrom b s (execArmMsrReg c spsr mask sbo sbz rm s) :=
  .predicated (.guard (.guard (writePsr_lands spsr mask _)))

theorem execArmMsrImm_lands (c : Cond) (spsr : Bool) (mask sbo rot : BitVec 4) (imm8 : Byte) :
    LandsFrom b s (execArmMsrImm c spsr mask sbo rot imm8 s) := .predicated (.guard (writePsr_lands spsr mask _))

theorem finishMul_lands (sf : Bool) (rd : RegNo) (r : Word) (k : Nat) : LandsFrom b s (finishMul s sf rd r k) :=
  .advance (((InPlace.refl.spend k).mulFlags sf r).setReg rd r)

theorem execArmMul_lands (c : Cond) (sf : Bool) (rd : RegNo) (sbz : BitVec 4) (rs rm : RegNo) :
    LandsFrom b s (execArmMul c sf rd sbz rs rm s) := .predicated (.guard (.guard (finishMul_lands sf rd _ _)))

theorem execArmMla_lands (c : Cond) (sf : Bool) (rd rn rs rm : RegNo) :
    LandsFrom b s (execArmMla c sf rd rn rs rm s) := .predicated (.guard (finishMul_lands sf rd _ _))

theorem longMul_lands (c : Cond) (sf : Bool) (hi lo rs rm : RegNo) (p : State → BitVec 64) (k : State → Nat) :
    LandsFrom b s (longMul c sf hi lo rs rm p k s) :=
  .predicated (.guard (.advance ((((InPlace.refl.spend _).longMulFlags sf _).setReg lo _).setReg hi _)))

theorem swap_lands (c : Cond) (rn rd : RegNo) (sbz : BitVec 4) (rm : RegNo) {load : State → Word → Word × State}
    (n : Width) (hl : IsLoad load) : LandsFrom b s (swap c rn rd sbz rm load n s) :=
  .predicated (.guard (.guard (.andThen fun _ hu => .advance ((((hl.inPlace s _).write hu).spend 1).setReg rd _))))

/-! ### Loads and stores -/

theorem loadThrough_lands (a : Except Fault Addressing) (rn rd : RegNo) {load : State → Word → Word × State}
    {toPc : State → Word → Result} (hl : IsLoad load) (hp : ∀ u v, InPlace s u → LandsFrom b s (toPc u v)) :
    LandsFrom b s (loadThrough s a rn rd load toPc) := by
  refine .orFault fun a _ => ?_
  have hw := ((hl.inPlace s a.address).spend 1).writeBack rn a
  exact .ite (hp _ _ hw) (.advance (hw.setReg rd _))

theorem storeThrough_lands (a : Except Fault Addressing) (rn : RegNo) (n : Width) (v : Word) :
    LandsFrom b s (storeThrough s a rn n v) :=
  .orFault fun a _ => .andThen fun _ hu => .advance ((InPlace.refl.write hu).writeBack rn a)

theorem predicated_storeThrough_lands (c : Cond) (a : State → Except Fault Addressing) (rn : RegNo) (n : Width)
    (v : State → Word) : LandsFrom b s (predicated c s fun s => storeThrough s (a s) rn n (v s)) :=
  .predicated (storeThrough_lands _ rn n _)

theorem predicated_storeByteThrough_lands (c : Cond) (a : State → Except Fault Addressing) (rn rd : RegNo) :
    LandsFrom b s (predicated c s fun s => storeByteThrough s (a s) rn rd) :=
  .predicated (.orFault fun _ _ => .guard (storeThrough_lands _ rn .byte _))

theorem predicated_loadThrough_lands (c : Cond) (a : State → Except Fault Addressing) (rn rd : RegNo)
    {load : State → Word → Word × State} (e : Fault) (hl : IsLoad load) :
    LandsFrom b s (predicated c s fun s => loadThrough s (a s) rn rd load fun _ _ => .fault e) :=
  .predicated (loadThrough_lands _ rn rd hl fun _ _ _ => .fault e)

theorem loadHalfForm_lands (c : Cond) (p up w : Bool) (rn rd : RegNo) (off : Offset8)
    {load : State → Word → Word × State} (hl : IsLoad load) :
    LandsFrom b s (loadHalfForm c p up w rn rd off load s) := predicated_loadThrough_lands c _ rn rd _ hl

theorem execArmLdr_lands (c : Cond) (ix : Index) (up : Bool) (rn rd : RegNo) (off : Offset12) :
    LandsFrom b s (execArmLdr c ix up rn rd off s) :=
  .predicated (loadThrough_lands _ rn rd isLoad_loadWord fun _ v hu => .next (.jump_armTarget hu v))

theorem execArmLdm_lands (c : Cond) (p up w : Bool) (rn : RegNo) (list : BitVec 16) :
    LandsFrom b s (execArmLdm c p up w rn list s) := by
  refine .predicated (.orFault fun fr _ => .guard (.next ?_))
  have hr := (((InPlace.readBlock s fr.start fr.regs).spend 1).baseUpdate w rn fr.newBase).loadRegs
  exact .branchLoaded (hr _ _) _ (Lands.jump_armTarget (hr _ _))

theorem execArmStm_lands (c : Cond) (p up w : Bool) (rn : RegNo) (list : BitVec 16) :
    LandsFrom b s (execArmStm c p up w rn list s) :=
  .predicated (.orFault fun fr _ => .andThen fun _ hu =>
    .advance (((InPlace.storeValues s _ _ true fr.regs).writeBlock hu).baseUpdate w rn _))

theorem execArmLdmUser_lands (c : Cond) (p up w : Bool) (rn : RegNo) (list : BitVec 15) :
    LandsFrom b s (execArmLdmUser c p up w rn list s) := by
  refine .predicated (.orFault fun fr _ => .guard (.guard (.next ?_)))
  have hr := ((InPlace.readBlock s fr.start fr.regs).spend 1).loadRegs .usr
  exact .branchLoaded (hr _) _ (Lands.jump_armTarget (hr _))

theorem execArmStmUser_lands (c : Cond) (p up w : Bool) (rn : RegNo) (list : BitVec 16) :
    LandsFrom b s (execArmStmUser c p up w rn list s) :=
  .predicated (.orFault fun _ _ => .guard (.guard (.andThen fun _ hu => .advance (InPlace.refl.writeBlock hu))))

/-- The list of an exception-return LDM names R15, so its words hold one for R15. -/
theorem loadedPc_excList {p up : Bool} {rn : RegNo} {list : BitVec 15} {fr : BlockFrame}
    (h : blockFrame s p up rn (1#1 ++ list) = .ok fr) : ∃ v, loadedPc (readBlock s fr.start fr.regs).1 = some v := by
  obtain ⟨-, count, hl, -, -⟩ := blockFrame_ok h
  have hpc : (15 : RegNo) ∈ regList (1#1 ++ list) := by
    rw [mem_regList, BitVec.getLsbD_append]
    rfl
  have hmem : (15 : RegNo) ∈ fr.regs := by
    rcases listOrEmpty_cases s (regList (1#1 ++ list)) with ⟨-, e⟩ | ⟨e, -⟩ | ⟨e, -⟩
    · obtain ⟨hr, -⟩ := Prod.mk.inj (Except.ok.inj (e.symm.trans hl))
      exact hr ▸ hpc
    · exact absurd (e ▸ hpc) List.not_mem_nil
    · exact absurd (e ▸ hpc) List.not_mem_nil
  rw [← readBlock_fst fr.regs s fr.start] at hmem
  obtain ⟨⟨k, v⟩, hv, rfl⟩ := List.mem_map.mp hmem
  exact ⟨v, loadedPc_eq_some (by rw [readBlock_fst]; exact blockFrame_nodup h) hv⟩

/-- The loaded R15 is aligned for the T restored (R289); User mode has no SPSR. -/
theorem execArmLdmExc_lands (c : Cond) (p up w : Bool) (rn : RegNo) (list : BitVec 15) :
    LandsFrom b s (execArmLdmExc c p up w rn list s) := by
  refine .predicated (.orFault fun fr hfr => ?_)
  obtain ⟨v, hv⟩ := loadedPc_excList hfr
  by_cases hm : s.cpsr.mode.hasSpsr = false
  · rw [if_pos hm]
    exact .fault _
  · rw [if_neg hm]
    refine .guard (.orFault fun u hu => .next ⟨fun _ _ => ?_, fun husr => absurd ?_ hm⟩)
    · unfold branchLoaded
      rw [hv]
      show pcFits u.cpsr.t _ = true
      cases u.cpsr.t
      · exact pcFits_armTarget false v
      · exact pcFits_thumbTarget v
    · rw [husr]
      rfl

/-! ### Branches -/

theorem execArmB_lands (c : Cond) (off : BitVec 24) : LandsFrom b s (execArmB c off s) :=
  .predicated (.branchTo .refl _)

theorem execArmBl_lands (c : Cond) (off : BitVec 24) : LandsFrom b s (execArmBl c off s) :=
  .predicated (.branchTo (InPlace.refl.setReg 14 _) _)

theorem execArmBx_lands (c : Cond) (sbo : BitVec 12) (rm : RegNo) : LandsFrom b s (execArmBx c sbo rm s) :=
  .predicated (.guard (.exchange _))

/-! ### Thumb -/

theorem thumbWrite_lands (h : InPlace s u) (rd : LowReg) (r : Word) {p : Cpsr} (hp : p.control = s.cpsr.control) :
    LandsFrom b s (thumbWrite u rd r p) := .advance ((h.setCpsr hp).setReg _ r)

theorem thumbFlags_lands {p : Cpsr} (hp : p.control = s.cpsr.control) : LandsFrom b s (thumbFlags s p) :=
  .advance (InPlace.refl.setCpsr hp)

theorem execThumbMul_lands (rs rd : LowReg) : LandsFrom b s (execThumbMul rs rd s) :=
  .guard (thumbWrite_lands (InPlace.refl.spend _).draw rd _ rfl)

theorem thumbHiWrite_lands (hd : RegNo) (r : Word) : LandsFrom true s (thumbHiWrite s hd r) := by
  refine .next ?_
  split
  · exact .jump_thumbTarget .refl r
  · exact .advance (InPlace.refl.setReg hd r)

theorem execThumbBcond_lands (c : Cond) (off : Byte) : LandsFrom b s (execThumbBcond c off s) :=
  .ite (.branchTo .refl _) (.advance .refl)

theorem thumbLoad_lands (rd : LowReg) (a : Word) {load : State → Word → Word × State} (hl : IsLoad load) :
    LandsFrom b s (thumbLoad s rd a load) := .advance (((hl.inPlace s a).spend 1).setReg _ _)

theorem thumbStore_lands (rd : LowReg) (a : Word) (n : Width) : LandsFrom b s (thumbStore s rd a n) :=
  .andThen fun _ hu => .advance (InPlace.refl.write hu)

theorem thumbBlockStore_lands (a : Word) (base : RegNo) (v : Word) (kept : Option RegNo) (regs : List RegNo) :
    LandsFrom b s (thumbBlockStore s a base v kept regs) :=
  .andThen fun _ hu => .advance (((InPlace.storeValues s kept _ true regs).writeBlock hu).setReg base v)

theorem thumbBlockLoad_lands (a : Word) (base : RegNo) (v : Word) (regs : List RegNo) :
    LandsFrom true s (thumbBlockLoad s a base v regs) := by
  have hr := (((InPlace.readBlock s a regs).spend 1).setReg base v).loadRegs
  exact .next (.branchLoaded (hr _ _) _ (Lands.jump_thumbTarget (hr _ _)))

/-! ### Every instruction -/

theorem predicated_raise_lands {c : Cond} {f : State → Result}
    (hf : f s = .next t → t = takeException s .swi ∨ t = takeException (s.spend 1) .undefined)
    (h : predicated c s f = .next t) :
    Lands b s t ∨ t = takeException s .swi ∨ t = takeException (s.spend 1) .undefined := by
  rcases predicated_eq_next h with ⟨-, h⟩ | ⟨-, rfl⟩
  · exact .inr (hf h)
  · exact .inl (.advance .refl)

/-- An instruction lands, or raises SWI or Undefined. -/
theorem exec_lands {i : Instr} (h : exec i s = .next t) :
    Lands i.isThumb s t ∨ t = takeException s .swi ∨ t = takeException (s.spend 1) .undefined := by
  cases i <;> dsimp only [exec] at h
  case armAnd | armEor | armOrr | armBic => exact .inl (logical_lands _ _ _ _ _ _ t h)
  case armSub | armRsb | armAdd | armAdc | armSbc | armRsc => exact .inl (arithmetic_lands _ _ _ _ _ _ t h)
  case armTst | armTeq => exact .inl (testOp_lands _ _ _ _ _ t h)
  case armCmp | armCmn => exact .inl (compareOp_lands _ _ _ _ _ t h)
  case armMov | armMvn => exact .inl (moveOp_lands _ _ _ _ _ _ t h)
  case armMrs => exact .inl (execArmMrs_lands _ _ _ _ _ _ t h)
  case armMsrReg => exact .inl (execArmMsrReg_lands _ _ _ _ _ _ t h)
  case armMsrImm => exact .inl (execArmMsrImm_lands _ _ _ _ _ _ t h)
  case armMul => exact .inl (execArmMul_lands _ _ _ _ _ _ t h)
  case armMla => exact .inl (execArmMla_lands _ _ _ _ _ _ t h)
  case armUmull | armUmlal | armSmull | armSmlal => exact .inl (longMul_lands _ _ _ _ _ _ _ _ t h)
  case armSwp => exact .inl (swap_lands _ _ _ _ _ _ isLoad_loadWord t h)
  case armSwpb => exact .inl (swap_lands _ _ _ _ _ _ isLoad_loadByte t h)
  case armLdr => exact .inl (execArmLdr_lands _ _ _ _ _ _ t h)
  case armLdrb | armLdrbt => exact .inl (predicated_loadThrough_lands _ _ _ _ _ isLoad_loadByte t h)
  case armStr | armStrt | armStrh => exact .inl (predicated_storeThrough_lands _ _ _ _ _ t h)
  case armStrb | armStrbt => exact .inl (predicated_storeByteThrough_lands _ _ _ _ t h)
  case armLdrt => exact .inl (predicated_loadThrough_lands _ _ _ _ _ isLoad_loadWord t h)
  case armLdrh => exact .inl (loadHalfForm_lands _ _ _ _ _ _ _ isLoad_loadHalf t h)
  case armLdrsb => exact .inl (loadHalfForm_lands _ _ _ _ _ _ _ isLoad_loadSignedByte t h)
  case armLdrsh => exact .inl (loadHalfForm_lands _ _ _ _ _ _ _ isLoad_loadSignedHalf t h)
  case armLdm => exact .inl (execArmLdm_lands _ _ _ _ _ _ t h)
  case armStm => exact .inl (execArmStm_lands _ _ _ _ _ _ t h)
  case armLdmUser => exact .inl (execArmLdmUser_lands _ _ _ _ _ _ t h)
  case armStmUser => exact .inl (execArmStmUser_lands _ _ _ _ _ _ t h)
  case armLdmExc => exact .inl (execArmLdmExc_lands _ _ _ _ _ _ t h)
  case armB => exact .inl (execArmB_lands _ _ t h)
  case armBl => exact .inl (execArmBl_lands _ _ t h)
  case armBx => exact .inl (execArmBx_lands _ _ _ t h)
  case armSwi => exact predicated_raise_lands (fun h => .inl (raiseSwi_next h)) h
  case armCdp | armLdc | armStc | armMcr | armMrc | armUndArch | armUndMul | armUndSignedStore | armUndMisc |
      armUndMsrImm =>
    exact predicated_raise_lands (fun h => .inr (raiseUndefined_next h)) h
  case thumbLslImm | thumbLsrImm | thumbAsrImm | thumbAddReg | thumbSubReg | thumbAddImm3 | thumbSubImm3 |
      thumbMovImm | thumbAddImm8 | thumbSubImm8 | thumbAnd | thumbEor | thumbAdc | thumbSbc | thumbNeg | thumbOrr |
      thumbBic | thumbMvn =>
    exact .inl (thumbWrite_lands .refl _ _ (by rfl) t h)
  case thumbCmpImm | thumbTst | thumbCmpReg | thumbCmn => exact .inl (thumbFlags_lands (by rfl) t h)
  case thumbLslReg | thumbLsrReg | thumbAsrReg | thumbRorReg =>
    exact .inl (thumbWrite_lands (InPlace.refl.spend 1) _ _ (by rfl) t h)
  case thumbMul => exact .inl (execThumbMul_lands _ _ t h)
  case thumbAddHi | thumbMovHi => exact .inl (LandsFrom.guard (thumbHiWrite_lands _ _) t h)
  case thumbCmpHi => exact .inl (LandsFrom.guard (thumbFlags_lands (by rfl)) t h)
  case thumbBx => exact .inl (LandsFrom.guard (.exchange _) t h)
  case thumbLdrPc | thumbLdrReg | thumbLdrImm | thumbLdrSp => exact .inl (thumbLoad_lands _ _ isLoad_loadWord t h)
  case thumbStrReg | thumbStrbReg | thumbStrhReg | thumbStrImm | thumbStrbImm | thumbStrhImm | thumbStrSp =>
    exact .inl (thumbStore_lands _ _ _ t h)
  case thumbLdrbReg | thumbLdrbImm => exact .inl (thumbLoad_lands _ _ isLoad_loadByte t h)
  case thumbLdsbReg => exact .inl (thumbLoad_lands _ _ isLoad_loadSignedByte t h)
  case thumbLdrhReg | thumbLdrhImm => exact .inl (thumbLoad_lands _ _ isLoad_loadHalf t h)
  case thumbLdshReg => exact .inl (thumbLoad_lands _ _ isLoad_loadSignedHalf t h)
  case thumbAddPc | thumbAddSp | thumbIncSp | thumbDecSp | thumbBlHigh =>
    exact .inl (LandsFrom.advance (InPlace.refl.setReg _ _) t h)
  case thumbPush | thumbStmia => exact .inl (LandsFrom.orFault (fun _ _ => thumbBlockStore_lands _ _ _ _ _) t h)
  case thumbPop | thumbLdmia => exact .inl (LandsFrom.orFault (fun _ _ => thumbBlockLoad_lands _ _ _ _) t h)
  case thumbSwi => exact .inr (.inl (raiseSwi_next h))
  case thumbBcond => exact .inl (execThumbBcond_lands _ _ t h)
  case thumbB => exact .inl (LandsFrom.branchTo .refl _ t h)
  case thumbBlLow => exact .inl (LandsFrom.branchTo (InPlace.refl.setReg 14 _) _ t h)
  case thumbUnd1011 | thumbUndCond | thumbUnd11101 => exact .inr (.inr (raiseUndefined_next h))

end Sys2Proof.Machine
end

section
/-! The invariant of every step (O6, O7) and the ways out of User mode (O11), from what an instruction carries over and where
it lands. -/

open Sys2Proof Sys2Proof.Machine

namespace Sys2Proof.Machine

variable {s t u : State}

/-! ### An ARM word decodes to an ARM instruction (R110, R114) -/

theorem decodeDataProc_isThumb (c : Cond) (w : Word) : (decodeDataProc c w).isThumb = false := by
  unfold decodeDataProc
  dsimp only
  split <;> rfl

theorem decodeSpace0_isThumb (c : Cond) (w : Word) : (decodeSpace0 c w).isThumb = false := by
  unfold decodeSpace0 decodeMul decodeMulLong decodeSwap decodeHalfword decodeSigned
  split
  · repeat' split
    all_goals rfl
  · split
    · repeat' split
      all_goals rfl
    · split
      · repeat' split
        all_goals rfl
      · exact decodeDataProc_isThumb c w

theorem decodeSpace1_isThumb (c : Cond) (w : Word) : (decodeSpace1 c w).isThumb = false := by
  unfold decodeSpace1
  split
  · split <;> rfl
  · exact decodeDataProc_isThumb c w

theorem decodeSingle_isThumb (c : Cond) (w : Word) : (decodeSingle c w).isThumb = false := by
  unfold decodeSingle
  dsimp only
  repeat' split
  all_goals rfl

theorem decodeBlock_isThumb (c : Cond) (w : Word) : (decodeBlock c w).isThumb = false := by
  unfold decodeBlock
  dsimp only
  repeat' split
  all_goals rfl

theorem decodeCoproc_isThumb (c : Cond) (w : Word) :
    (decodeCoprocTransfer c w).isThumb = false ∧ (decodeCoproc c w).isThumb = false := by
  unfold decodeCoprocTransfer decodeCoproc
  constructor
  · dsimp only
    split <;> rfl
  · dsimp only
    repeat' split
    all_goals rfl

theorem decodeArm_isThumb (w : Word) : (decodeArm w).isThumb = false := by
  unfold decodeArm
  dsimp only
  split
  · exact decodeSpace0_isThumb _ w
  · exact decodeSpace1_isThumb _ w
  · exact decodeSingle_isThumb _ w
  · split
    · rfl
    · exact decodeSingle_isThumb _ w
  · exact decodeBlock_isThumb _ w
  · split <;> rfl
  · exact (decodeCoproc_isThumb _ w).1
  · split
    · rfl
    · exact (decodeCoproc_isThumb _ w).2

/-- A Thumb instruction is fetched in Thumb state alone. -/
theorem decodeFetched_isThumb {thumb : Bool} {v : Word} (h : (decodeFetched thumb v).isThumb = true) : thumb = true := by
  cases thumb with
  | true => rfl
  | false => exact absurd h (by simp [decodeFetched, decodeArm_isThumb])

/-! ### The invariant (R28, R46, R76) -/

theorem Carries.inv (h : Carries s t) (hs : s.Inv) (ha : t.pcAligned = true) : t.Inv := by
  obtain ⟨-, hw, hm, hk⟩ := hs
  exact ⟨ha, h.waitcnt hw, h.mem hm, fun k e => (hk k (h.mark ▸ e)).trans h.cycles⟩

theorem pcAligned_congr (hp : t.pc = s.pc) (hc : t.cpsr = s.cpsr) : t.pcAligned = s.pcAligned := by
  simp [State.pcAligned, hp, hc]

theorem takeException_pcAligned (s : State) {k : ExcKind} (hk : k ≠ .reset) : (takeException s k).pcAligned = true := by
  obtain ⟨-, -, -, -, -, hc, hp, -⟩ := entered_takeException s hk
  rw [State.pcAligned, hc, hp]
  cases k <;> rfl

theorem takeException_inv (hs : s.Inv) {k : ExcKind} (hk : k ≠ .reset) : (takeException s k).Inv :=
  (carries_takeException s hk).inv hs (takeException_pcAligned s hk)

theorem takeInterrupt_inv (hs : s.Inv) {k : ExcKind} (hk : k ≠ .reset) : (takeInterrupt s k).Inv := by
  have hb := busOnly_charge s (s.pc + s.w + s.w) s.fetchWidth
  have hc : (charge s (s.pc + s.w + s.w) s.fetchWidth).Inv :=
    (Carries.of_busOnly hb (Nat.le_of_lt (charge_cycles_lt _ _ _))).inv hs ((pcAligned_congr hb.pc hb.cpsr).trans hs.1)
  obtain ⟨ha, hw, hm, -⟩ := takeException_inv hc hk
  exact ⟨ha, hw, hm, fun _ e => nomatch e⟩

theorem serviceInterrupts_inv (hs : s.Inv) : (serviceInterrupts s).Inv := by
  unfold serviceInterrupts
  split
  · exact takeInterrupt_inv hs (by decide)
  · split
    · exact takeInterrupt_inv hs (by decide)
    · exact hs

theorem exec_inv {i : Instr} (hi : i.isThumb = true → s.cpsr.t = true) (hs : s.Inv) (h : exec i s = .next t) : t.Inv := by
  refine (carries_exec h).inv hs ?_
  rcases exec_lands h with hl | rfl | rfl
  · exact hl.aligned hi hs.1
  · exact takeException_pcAligned s (by decide)
  · exact takeException_pcAligned _ (by decide)

/-- The mark a step sets is the cycle count it ends at. -/
theorem finishStep_inv (hs : s.Inv) (userBank passed : Bool) : (finishStep userBank passed s).Inv := by
  obtain ⟨ha, hw, hm, hk⟩ := hs
  refine ⟨(pcAligned_congr (by simp) (by simp)).trans ha, by simpa using hw, by simpa using hm, fun k e => ?_⟩
  rw [finishStep_hazardMark] at e
  rw [finishStep_cycles]
  cases passed with
  | false => exact hk k e
  | true =>
    cases userBank with
    | false => cases e
    | true => exact (Option.some.inj e).ge

theorem runInstruction_inv (hs : s.Inv) (h : runInstruction s = .next t) : t.Inv := by
  obtain ⟨i, u, rfl, -, hu, rfl⟩ := runInstruction_eq_next h
  have hb := fetch_busOnly s
  have hf : (fetch s).2.Inv :=
    (Carries.of_busOnly hb (fetch_cycles_lt s).le).inv hs ((pcAligned_congr hb.pc hb.cpsr).trans hs.1)
  exact finishStep_inv (exec_inv (fun hi => hb.cpsr ▸ decodeFetched_isThumb hi) hf hu) _ _

theorem step_inv (hs : s.Inv) (h : step s = .next t) : t.Inv := by
  obtain ⟨ha, ⟨-, -, rfl⟩ | ⟨-, h⟩⟩ := step_eq_next h
  · exact (Carries.of_busOnly (busOnly_spend s 1) (Nat.le_succ _)).inv hs ha
  · exact runInstruction_inv (serviceInterrupts_inv (s := wake s) hs) h

/-! ### User mode (R35, R621) -/

/-- An exception entered after internal cycles. -/
theorem Entered.of_spend {k : ExcKind} {j : Nat} (h : Entered (s.spend j) k t) : Entered s k t := by
  obtain ⟨h1, h2, h3, h4, h5, h6, h7, hc, hrest⟩ := h
  exact ⟨h1, h2, h3, h4, h5, h6, h7, by rw [spend_cycles] at hc; omega, hrest⟩

theorem exec_user {i : Instr} (hm : s.cpsr.mode = .usr) (h : exec i s = .next t) :
    (t.cpsr.mode = .usr ∧ t.cpsr.i = s.cpsr.i ∧ t.cpsr.f = s.cpsr.f ∧ t.spsr = s.spsr) ∨
      Entered s .swi t ∨ Entered s .undefined t := by
  rcases exec_lands h with hl | rfl | rfl
  · exact .inl (hl.user hm)
  · exact .inr (.inl (entered_takeException s (by decide)))
  · exact .inr (.inr (.of_spend (entered_takeException (s.spend 1) (by decide))))

theorem takeInterrupt_ne (s : State) {k : ExcKind} : takeInterrupt s k ≠ s := fun e =>
  absurd (congrArg State.cycles e) (takeInterrupt_cycles_lt s (k := k)).ne'

/-- Waking changes nothing that the interrupts depend on. -/
theorem serviceInterrupts_wake (h : serviceInterrupts s = s) : serviceInterrupts (wake s) = wake s := by
  unfold serviceInterrupts at h ⊢
  split at h
  · exact absurd h (takeInterrupt_ne s)
  · rename_i hf
    split at h
    · exact absurd h (takeInterrupt_ne s)
    · rename_i hi
      exact (if_neg hf).trans (if_neg hi)

/-- What a step in User mode that takes no interrupt answers. -/
theorem runInstruction_user (hm : s.cpsr.mode = .usr) (h : runInstruction s = .next t) (hl : t.cpsr.mode ≠ .usr) :
    (t.cpsr.mode = .svc ∧ t.pc = 0x08 ∨ t.cpsr.mode = .und ∧ t.pc = 0x04) ∧ t.cpsr.i = true ∧ t.cpsr.t = false := by
  obtain ⟨i, u, -, -, hu, rfl⟩ := runInstruction_eq_next h
  rw [finishStep_cpsr] at hl ⊢
  rw [finishStep_pc]
  rcases exec_user ((congrArg Cpsr.mode (fetch_busOnly s).cpsr).trans hm) hu with ⟨he, -⟩ | he | he
  · exact absurd he hl
  · obtain ⟨-, -, -, -, -, hc, hp, -⟩ := he
    rw [hc, hp]
    exact ⟨.inl ⟨rfl, rfl⟩, rfl, rfl⟩
  · obtain ⟨-, -, -, -, -, hc, hp, -⟩ := he
    rw [hc, hp]
    exact ⟨.inr ⟨rfl, rfl⟩, rfl, rfl⟩

end Sys2Proof.Machine

/-- Settles O6: every phase of a step carries WAITCNT, memory and the mark over, and its instruction lands on an aligned PC. -/
theorem everyStepKeepsInvariant : Obligations.EveryStepKeepsInvariant := by
  intro s t hs h
  exact step_inv hs h

/-- Settles O7: by evaluation; neither state has a user-bank mark. -/
theorem resetMeetsInvariant : Obligations.ResetMeetsInvariant := by
  refine ⟨⟨by decide, by decide, rfl, ?_⟩, ⟨by decide, by decide, rfl, ?_⟩⟩ <;> exact fun _ e => nomatch e

/-- Settles O11: an instruction that lands keeps User mode, and the two that do not land enter SWI or Undefined. -/
theorem userModeLeftOnlyByException : Obligations.UserModeLeftOnlyByException := by
  refine ⟨fun i s t hm h => exec_user hm h, fun s t hm hs h hl => ?_⟩
  obtain ⟨-, ⟨-, -, rfl⟩ | ⟨-, h⟩⟩ := step_eq_next h
  · exact absurd hm hl
  · rw [serviceInterrupts_wake hs] at h
    exact runInstruction_user (s := wake s) hm h hl
end

section
/-! The bank map and reads of R15 (O25), and BX in both sets (O52). -/

open Sys2Proof Sys2Proof.Machine

namespace Sys2Proof.Machine

variable {s : State}

/-! ### The bank map (R20, R22) -/

theorem phys_low (m : Mode) {n : RegNo} (k : Fin 8) (h : n.toNat = k.val) : phys m n = some (.low k) := by
  unfold phys
  rw [h]
  fin_cases k <;> rfl

theorem phys_mid (m : Mode) {n : RegNo} (k : Fin 5) (h : n.toNat = k.val + 8) :
    phys m n = some (if m = .fiq then .midFiq k else .mid k) := by
  unfold phys
  rw [h]
  fin_cases k <;> rfl

/-- No two physical registers overlap. -/
theorem Banked.get_set {α : Type} (r : Banked α) (p q : PhysReg) (v : α) :
    (r.set p v).get q = if q = p then v else r.get q := by
  split
  · rename_i h
    rw [h, Banked.get_set_self]
  · rename_i h
    exact Banked.get_set_ne r v fun e => h e.symm

/-! ### Branch and exchange (R312, R484) -/

theorem getLsbD_zero_eq (v : Word) : v.getLsbD 0 = decide (v.toNat % 2 = 1) := Nat.testBit_zero v.toNat

theorem exchange_eq (s : State) (v : Word) : exchange s v =
    branchTo (s.setCpsr { s.cpsr with t := decide (v.toNat % 2 = 1) }) (BitVec.ofNat 32 (v.toNat / 2 * 2)) := by
  have hv : v &&& 0xFFFFFFFE = BitVec.ofNat 32 (v.toNat / 2 * 2) := by
    rw [← and_mask2, BitVec.ofNat_toNat, BitVec.setWidth_eq]
  rw [exchange, getLsbD_zero_eq, hv]

/-- A branch under a CPSR that the instruction has set. -/
theorem branchTo_setCpsr_effect {a : Word} {q : Cpsr} (ha : pcFits q.t a = true) :
    ∃ t, branchTo (s.setCpsr q) a = .next t ∧ BranchEffect s a q [] t :=
  ⟨_, branchTo_effect (u := s.setCpsr q) ha ((LoadFrame.refl (m := .usr) s).setCpsr q) (Nat.le_refl _) ⟨rfl, rfl, rfl⟩⟩

theorem exchange_odd {v : Word} (h : v.toNat % 2 = 1) :
    ∃ t, exchange s v = .next t ∧ BranchEffect s (v - 1) { s.cpsr with t := true } [] t := by
  have hv : BitVec.ofNat 32 (v.toNat / 2 * 2) = v - 1 := by bv_omega
  rw [exchange_eq, hv, decide_eq_true h]
  refine branchTo_setCpsr_effect ?_
  rw [pcFits_eq, decide_eq_true_eq, instrBytes, if_pos rfl]
  bv_omega

theorem exchange_even {v : Word} (h : v.toNat % 2 = 0) :
    exchange s v = branchTo (s.setCpsr { s.cpsr with t := false }) v := by
  have hv : BitVec.ofNat 32 (v.toNat / 2 * 2) = v := by bv_omega
  rw [exchange_eq, hv, decide_eq_false (by omega)]

/-- BX with its should-be fields as they should be, in either set. -/
theorem exec_bx {c : Cond} (hc : condPassed c s.cpsr = true) {rm : RegNo} {i : Instr}
    (hi : i = .armBx c 0xFFF rm ∨ i = .thumbBx false rm 0) : exec i s = exchange s (s.reg rm) := by
  rcases hi with rfl | rfl
  · show execArmBx c 0xFFF rm s = _
    rw [execArmBx, predicated_of_passed _ hc, if_neg (by simp)]
  · show execThumbBx false rm 0 s = _
    rw [execThumbBx, if_neg (by simp)]

end Sys2Proof.Machine

/-- Settles O25: the map by its own cases, and a number that names a register reads it beside any operand. -/
theorem readingR15 : Obligations.ReadingR15 := by
  refine ⟨fun m n => ⟨phys_low m, phys_mid m, ?_, ?_, ?_⟩, rfl, fun r p q v => r.get_set p q v, fun s o =>
    ⟨rfl, fun _ => rfl, ?_, rfl, fun n hn => ?_⟩⟩
  · rintro rfl
    rfl
  · rintro rfl
    rfl
  · rintro rfl
    rfl
  · simp [regOrStore, State.pcStore]
  · obtain ⟨p, hp⟩ := phys_of_ne (m := s.cpsr.mode) hn
    exact ⟨p, hp, regOf_phys hp, if_neg fun h => hn h.1⟩

/-- Settles O52: an odd register clears its bit 0 and fits Thumb state; an even one fits ARM state only as a multiple of 4. -/
theorem branchExchange : Obligations.BranchExchange := by
  intro s c rm hc i hi
  unfold Gives Stops
  rw [exec_bx hc hi]
  refine ⟨exchange_odd, fun h => ?_, fun h => ?_⟩
  · rw [exchange_even (by omega)]
    exact branchTo_setCpsr_effect ((pcFits_eq false _).trans (decide_eq_true h))
  · rw [exchange_even (by omega), branchTo, pcFits_eq, setCpsr_cpsr]
    exact if_neg (by simp [instrBytes, h])
end

section
/-! Data processing with Rd = R15 (O29), and the return instructions at the state an exception entered (O18). -/

open Sys2Proof Sys2Proof.Machine

namespace Sys2Proof.Machine

variable {s t : State}

/-! ### Results as words (R220) -/

theorem addWithCarry_result (x y : Word) (c : Bool) : (addWithCarry x y c).1 = x + y + BitVec.ofNat 32 c.toNat := by
  simp [addWithCarry, BitVec.ofNat_add]

theorem addWithCarry_add (x y : Word) : (addWithCarry x y false).1 = x + y :=
  (addWithCarry_result x y false).trans (BitVec.add_zero _)

theorem addWithCarry_sub (x y : Word) : (addWithCarry x (~~~y) true).1 = x - y := by
  rw [addWithCarry_result, BitVec.sub_eq_add_neg, BitVec.neg_eq_not_add, ← BitVec.add_assoc]
  rfl

theorem addWithCarry_sub_borrow (x y : Word) (c : Bool) :
    (addWithCarry x (~~~y) c).1 = x - y - 1 + BitVec.ofNat 32 c.toNat := by
  have h : x + ~~~y = x - y - 1 := by bv_omega
  rw [addWithCarry_result, h]

/-! ### A result written to R15 (R200) -/

section

variable {c : Cond} {o : Operand2} {b : Word} {sc : Bool} (hc : condPassed c s.cpsr = true)
  (ho : operand2 s o = .ok (b, sc))
include hc ho

theorem logical_passed (sf : Bool) (rn rd : RegNo) (op : Word → Word → Word) :
    ∃ p, logical c sf rn rd o op s =
      writeResult (s.spend (operand2Cycles o)) sf rd (op (regOrStore s rn o) b) p := by
  unfold logical
  rw [predicated_of_passed _ hc, ho]
  exact ⟨_, rfl⟩

theorem moveOp_passed (sf : Bool) (rd : RegNo) (op : Word → Word) :
    ∃ p, moveOp c sf 0 rd o op s = writeResult (s.spend (operand2Cycles o)) sf rd (op b) p := by
  unfold moveOp
  rw [predicated_of_passed _ hc, ho]
  exact ⟨_, rfl⟩

theorem arithmetic_passed (sf : Bool) (rn rd : RegNo) (op : Word → Word → Bool → Word × Bool × Bool) {r : Word}
    (hr : (op (regOrStore s rn o) b s.cpsr.c).1 = r) :
    ∃ p, arithmetic c sf rn rd o op s = writeResult (s.spend (operand2Cycles o)) sf rd r p := by
  subst hr
  unfold arithmetic
  rw [predicated_of_passed _ hc, ho]
  exact ⟨_, rfl⟩

end

/-- With S = 0 the result is branched to. -/
theorem writeResult_branch (k : Nat) {r : Word} {p : Cpsr} :
    (pcFits s.cpsr.t r = true → ∃ t, writeResult (s.spend k) false 15 r p = .next t ∧ BranchEffect s r s.cpsr [] t) ∧
      (pcFits s.cpsr.t r = false → writeResult (s.spend k) false 15 r p = .fault .misalignedBranchTarget) := by
  have he : writeResult (s.spend k) false 15 r p = branchTo (s.spend k) r := rfl
  rw [he]
  constructor
  · intro h
    exact ⟨_, branchTo_effect (u := s.spend k) h ((LoadFrame.refl (m := .usr) s).spend k) (Nat.le_add_right _ _)
      ⟨rfl, rfl, rfl⟩⟩
  · intro h
    exact if_neg (by simp [h])

theorem restoreCpsr_of_none (hs : s.spsr.get s.cpsr.mode = none) : restoreCpsr s = .error .noSpsr := by
  simp [restoreCpsr, hs]

/-- With S = 1 the result is returned to, under the CPSR that is restored. -/
theorem writeResult_return (k : Nat) {r : Word} {p : Cpsr} :
    (s.spsr.get s.cpsr.mode = none → writeResult (s.spend k) true 15 r p = .fault .noSpsr) ∧
      ∀ v, s.spsr.get s.cpsr.mode = some v →
        (v.restored? = none → writeResult (s.spend k) true 15 r p = .fault .invalidMode) ∧
        ∀ q, v.restored? = some q →
          (pcFits q.t r = true → ∃ t, writeResult (s.spend k) true 15 r p = .next t ∧ BranchEffect s r q [] t) ∧
          (pcFits q.t r = false → writeResult (s.spend k) true 15 r p = .fault .misalignedBranchTarget) := by
  have he : writeResult (s.spend k) true 15 r p = orFault (restoreCpsr (s.spend k)) fun s => branchTo s r := rfl
  rw [he]
  refine ⟨fun h => ?_, fun v hv => ⟨fun h => ?_, fun q hq => ?_⟩⟩
  · rw [restoreCpsr_of_none (s := s.spend k) h, orFault_error]
  · rw [restoreCpsr_of_invalid (s := s.spend k) hv h, orFault_error]
  · rw [restoreCpsr_of_valid (s := s.spend k) hv hq, orFault_ok]
    constructor
    · intro h
      exact ⟨_, branchTo_effect (u := (s.spend k).setCpsr q) h (((LoadFrame.refl (m := .usr) s).spend k).setCpsr q)
        (Nat.le_add_right _ _) ⟨rfl, rfl, rfl⟩⟩
    · intro h
      exact if_neg (by simp [h])

/-! ### At the state an exception entered (R602, R618) -/

/-- R14 of the mode entered, as an instruction there reads it. -/
theorem Entered.reg_14 {k : ExcKind} (h : Entered s k t) : t.reg 14 = k.returnAddress s.pc s.cpsr.t := by
  obtain ⟨-, -, hr, -, -, hc, -⟩ := h
  rw [reg_eq_regOf (m := k.mode) (by rw [hc])]
  exact hr

/-- An exception return under the status word that the entry saved leaves what the entry left. -/
theorem Entered.gives_return {k : ExcKind} (h : Entered s k t) {i : Instr} {r : Word} {j : Nat} {p : Cpsr}
    (hi : exec i t = writeResult (t.spend j) true 15 r p) (hr : pcFits s.cpsr.t r = true) :
    Gives i t fun u => u.cpsr = s.cpsr ∧ u.pc = r ∧ OtherRegs [.lr k.mode.bank] s u ∧ SameMemory s u := by
  obtain ⟨hsaved, -, -, -, hregs, hc, -, -, -, -, -, -, -, -, hmem⟩ := h
  have hv : t.spsr.get t.cpsr.mode = some s.cpsr.saved := by rw [hc]; exact hsaved
  obtain ⟨u, hu, hpc, hcpsr, -, -, hregs', -, -, -, hmem'⟩ :=
    (((writeResult_return j).2 _ hv).2 _ (Cpsr.restored_saved s.cpsr)).1 hr
  exact ⟨u, hi.trans hu, hcpsr, hpc, hregs.trans hregs' (fun _ hp => hp) (fun _ hp => absurd hp List.not_mem_nil),
    fun a => (hmem' a).trans (hmem a)⟩

end Sys2Proof.Machine

/-- Settles O29: each form is a result written to R15, a branch with S = 0 and an exception return with S = 1. -/
theorem dataProcessingToPc : Obligations.DataProcessingToPc := by
  intro s c rn o b sc hc ho a carry forms
  have key : ∀ sf, ∀ x ∈ forms sf, ∃ p, exec x.1 s = writeResult (s.spend (operand2Cycles o)) sf 15 x.2 p := by
    intro sf
    simp only [forms, List.forall_mem_cons, List.not_mem_nil, false_imp_iff, implies_true, and_true]
    exact ⟨logical_passed hc ho sf rn 15 (fun a b => a &&& b), logical_passed hc ho sf rn 15 (fun a b => a ^^^ b),
      arithmetic_passed hc ho sf rn 15 (fun a b _ => addWithCarry a (~~~b) true) (addWithCarry_sub a b),
      arithmetic_passed hc ho sf rn 15 (fun a b _ => addWithCarry b (~~~a) true) (addWithCarry_sub b a),
      arithmetic_passed hc ho sf rn 15 (fun a b _ => addWithCarry a b false) (addWithCarry_add a b),
      arithmetic_passed hc ho sf rn 15 (fun a b carry => addWithCarry a b carry) (addWithCarry_result a b s.cpsr.c),
      arithmetic_passed hc ho sf rn 15 (fun a b carry => addWithCarry a (~~~b) carry)
        (addWithCarry_sub_borrow a b s.cpsr.c),
      arithmetic_passed hc ho sf rn 15 (fun a b carry => addWithCarry b (~~~a) carry)
        (addWithCarry_sub_borrow b a s.cpsr.c),
      logical_passed hc ho sf rn 15 (fun a b => a ||| b), moveOp_passed hc ho sf 15 (fun b => b),
      logical_passed hc ho sf rn 15 (fun a b => a &&& ~~~b), moveOp_passed hc ho sf 15 (fun b => ~~~b)⟩
  unfold Gives Stops
  constructor
  · intro i r hi
    obtain ⟨p, he⟩ := key false (i, r) hi
    rw [he]
    exact writeResult_branch _
  · intro i r hi
    obtain ⟨p, he⟩ := key true (i, r) hi
    rw [he]
    exact writeResult_return _

/-- Settles O18: both return instructions write the resumed address to R15 with S = 1. -/
theorem exceptionRoundTrip : Obligations.ExceptionRoundTrip := by
  intro s hs
  constructor
  · intro k hk
    have he := entered_takeException s (k := k) (by rintro rfl; simp at hk)
    have hr : (takeException s k).reg 14 = s.pc + s.w := by
      rw [he.reg_14]
      rcases hk with rfl | rfl <;> rfl
    obtain ⟨p, hi⟩ := moveOp_passed (s := takeException s k) (c := .al) (o := .immShift 0 .lsl 14) rfl rfl true 15
      (fun b => b)
    exact he.gives_return (hr ▸ hi) (pcAligned_advance hs)
  · intro k hk
    have he := entered_takeException s (k := k) (by rintro rfl; simp at hk)
    have hr : (takeException s k).reg 14 - 4 = s.pc := by
      rw [he.reg_14]
      rcases hk with rfl | rfl <;> exact BitVec.add_sub_cancel s.pc 4
    obtain ⟨p, hi⟩ := arithmetic_passed (s := takeException s k) (c := .al) (o := .imm 0 4) rfl rfl true 14 15
      (fun a b _ => addWithCarry a (~~~b) true) (addWithCarry_sub _ _)
    exact he.gives_return (hi.trans (by rw [← hr]; rfl)) hs
end

section
/-! MSR in its two forms, to the CPSR and to the SPSR (O32). -/

open Sys2Proof Sys2Proof.Machine

namespace Sys2Proof.Machine

variable {s : State}

/-! ### The flags of a masked write (R35) -/

/-- The CPSR with the flags that mask bit 3 writes. -/
def Cpsr.maskedFlags (p : Cpsr) (v : Word) (mask : BitVec 4) : Cpsr :=
  if mask.getLsbD 3 then
    { p with n := v.getLsbD 31, z := v.getLsbD 30, c := v.getLsbD 29, v := v.getLsbD 28, marks := FlagMarks.fill true }
  else p

theorem Cpsr.maskedFlags_t (p : Cpsr) (v : Word) (mask : BitVec 4) : (p.maskedFlags v mask).t = p.t := by
  unfold Cpsr.maskedFlags
  split <;> rfl

theorem Mode.privileged_eq_false {m : Mode} : m.privileged = false ↔ m = .usr := by cases m <;> decide

theorem Mode.privileged_of_ne {m : Mode} (h : m ≠ .usr) : m.privileged = true :=
  Bool.of_not_eq_false fun hp => h (Mode.privileged_eq_false.mp hp)

/-! ### To the CPSR -/

theorem writeCpsr_flags {v : Word} {mask : BitVec 4} (h : mask.getLsbD 0 = false ∨ s.cpsr.mode = .usr) :
    writeCpsr s v mask = .ok (s.setCpsr (s.cpsr.maskedFlags v mask)) := by
  refine if_neg ?_
  rw [Bool.and_eq_true]
  rintro ⟨hm, hp⟩
  rcases h with h | h
  · exact absurd (hm.symm.trans h) (by decide)
  · exact absurd (hp.symm.trans (Mode.privileged_eq_false.mpr h)) (by decide)

section

variable {v : Word} {mask : BitVec 4} (hm : mask.getLsbD 0 = true) (hp : s.cpsr.mode ≠ .usr)
include hm hp

theorem writeCpsr_invalid (h : Mode.ofBits? (v.extractLsb' 0 5) = none) : writeCpsr s v mask = .error .invalidMode := by
  unfold writeCpsr
  simp only [hm, Mode.privileged_of_ne hp, h, Bool.and_self, if_true]

theorem writeCpsr_valid {m : Mode} (h : m.bits = v.extractLsb' 0 5) : writeCpsr s v mask =
    if v.getLsbD 5 = s.cpsr.t then
      .ok (s.setCpsr { s.cpsr.maskedFlags v mask with i := v.getLsbD 7, f := v.getLsbD 6, mode := m })
    else .error .msrWritesT := by
  unfold writeCpsr Cpsr.maskedFlags
  simp only [hm, Mode.privileged_of_ne hp, Mode.ofBits?_eq_some.mpr h, Bool.and_self, if_true]

end

/-! ### To the SPSR -/

/-- A saved status register after a masked write: flags by mask bit 3, low byte by mask bit 0. -/
def Psr.masked (p : Psr) (v : Word) (mask : BitVec 4) : Psr :=
  let q := if mask.getLsbD 3 then
      { p with n := v.getLsbD 31, z := v.getLsbD 30, c := v.getLsbD 29, v := v.getLsbD 28, marks := FlagMarks.fill true }
    else p
  if mask.getLsbD 0 then
    { q with i := v.getLsbD 7, f := v.getLsbD 6, t := v.getLsbD 5, m := v.extractLsb' 0 5, lowWritten := true }
  else q

theorem Psr.masked_fields (p : Psr) (v : Word) (mask : BitVec 4) :
    let q := p.masked v mask
    (q.n, q.z, q.c, q.v, q.marks) = (if mask.getLsbD 3 then
      (v.getLsbD 31, v.getLsbD 30, v.getLsbD 29, v.getLsbD 28, FlagMarks.fill true)
      else (p.n, p.z, p.c, p.v, p.marks)) ∧
    (q.i, q.f, q.t, q.m, q.lowWritten) = (if mask.getLsbD 0 then
      (v.getLsbD 7, v.getLsbD 6, v.getLsbD 5, v.extractLsb' 0 5, true)
      else (p.i, p.f, p.t, p.m, p.lowWritten)) := by
  unfold Psr.masked
  cases mask.getLsbD 3 <;> cases mask.getLsbD 0 <;> exact ⟨rfl, rfl⟩

theorem writeSpsr_of_none {v : Word} {mask : BitVec 4} (h : s.spsr.get s.cpsr.mode = none) :
    writeSpsr s v mask = .error .noSpsr := by
  unfold writeSpsr
  rw [h]

theorem writeSpsr_of_some {v : Word} {mask : BitVec 4} {p : Psr} (h : s.spsr.get s.cpsr.mode = some p) :
    writeSpsr s v mask = .ok { s with spsr := s.spsr.set s.cpsr.mode (p.masked v mask) } := by
  unfold writeSpsr
  rw [h]
  rfl

/-! ### The two forms -/

/-- MSR with its should-be fields as they should be and no R15: a masked write of v. -/
def IsMsr (s : State) (i : Bool → Instr) (mask : BitVec 4) (v : Word) : Prop :=
  ∀ spsr, exec (i spsr) s = writePsr s spsr mask v

theorem isMsr_reg {c : Cond} (hc : condPassed c s.cpsr = true) (mask : BitVec 4) {rm : RegNo} (hrm : rm ≠ 15) :
    IsMsr s (fun spsr => .armMsrReg c spsr mask 0xF 0 rm) mask (s.reg rm) := by
  intro spsr
  show execArmMsrReg c spsr mask 0xF 0 rm s = _
  rw [execArmMsrReg, predicated_of_passed _ hc, if_neg (by simp), if_neg hrm]

theorem isMsr_imm {c : Cond} (hc : condPassed c s.cpsr = true) (mask rot : BitVec 4) (imm8 : Byte) :
    IsMsr s (fun spsr => .armMsrImm c spsr mask 0xF rot imm8) mask
      ((imm8.setWidth 32 : Word).rotateRight (2 * rot.toNat)) := by
  intro spsr
  show execArmMsrImm c spsr mask 0xF rot imm8 s = _
  rw [execArmMsrImm, predicated_of_passed _ hc, if_neg (by simp)]
  rfl

section

variable {i : Bool → Instr} {mask : BitVec 4} {v : Word} (hi : IsMsr s i mask v)
include hi

theorem IsMsr.cpsr_error {e : Fault} (h : writeCpsr s v mask = .error e) : exec (i false) s = .fault e := by
  rw [hi false, writePsr, if_neg (by decide), h, orFault_error]

/-- A write of the CPSR that does not stop keeps T, and leaves everything else. -/
theorem IsMsr.cpsr_ok {q : Cpsr} (h : writeCpsr s v mask = .ok (s.setCpsr q)) (ht : q.t = s.cpsr.t) :
    ∃ t, exec (i false) s = .next t ∧ StatusEffect s q 0 t := by
  refine ⟨_, ?_, statusEffect_advance s 0 ht⟩
  rw [hi false, writePsr, if_neg (by decide), h, orFault_ok]
  rfl

theorem IsMsr.spsr_none (h : s.spsr.get s.cpsr.mode = none) : exec (i true) s = .fault .noSpsr := by
  rw [hi true, writePsr, if_pos rfl, writeSpsr_of_none h, orFault_error]

theorem IsMsr.spsr_some {p : Psr} (h : s.spsr.get s.cpsr.mode = some p) : exec (i true) s =
    .next (advance { s with spsr := s.spsr.set s.cpsr.mode (p.masked v mask) }) := by
  rw [hi true, writePsr, if_pos rfl, writeSpsr_of_some h, orFault_ok]

end

/-! ### The mode numbers (R21) -/

/-- The numbers of the seven modes, in the order of `Mode`. -/
def modeNumbers : List (BitVec 5) := [0x10, 0x11, 0x12, 0x13, 0x17, 0x1B, 0x1F]

theorem mem_modeNumbers {b : BitVec 5} : b ∈ modeNumbers ↔ ∃ m : Mode, m.bits = b := by
  constructor
  · intro h
    simp only [modeNumbers, List.mem_cons, List.not_mem_nil, or_false] at h
    rcases h with rfl | rfl | rfl | rfl | rfl | rfl | rfl
    exacts [⟨.usr, rfl⟩, ⟨.fiq, rfl⟩, ⟨.irq, rfl⟩, ⟨.svc, rfl⟩, ⟨.abt, rfl⟩, ⟨.und, rfl⟩, ⟨.sys, rfl⟩]
  · rintro ⟨m, rfl⟩
    cases m <;> decide

theorem Mode.ofBits?_eq_none_iff {b : BitVec 5} : Mode.ofBits? b = none ↔ b ∉ modeNumbers := by
  rw [Mode.ofBits?_eq_none, mem_modeNumbers, not_exists]

/-- Everything a saved status restores (R36). -/
theorem Psr.restored?_spec (p : Psr) : (p.restored? = none ↔ p.m ∉ modeNumbers) ∧ ∀ q, p.restored? = some q →
    q.mode.bits = p.m ∧
      (q.n, q.z, q.c, q.v, q.i, q.f, q.t, q.marks) = (p.n, p.z, p.c, p.v, p.i, p.f, p.t, p.marks) := by
  rw [← Mode.ofBits?_eq_none_iff]
  unfold Psr.restored?
  cases hm : Mode.ofBits? p.m with
  | none => exact ⟨by simp, fun _ h => nomatch h⟩
  | some m =>
    refine ⟨by simp, ?_⟩
    rintro _ ⟨⟩
    exact ⟨Mode.bits_of_ofBits? hm, rfl⟩

end Sys2Proof.Machine

/-- Settles O32: both forms are one masked write, split on the mask, the mode and the value written. -/
theorem msrResults : Obligations.MsrResults := by
  refine ⟨rfl, Psr.restored?_spec, fun q => ⟨rfl, rfl, rfl⟩, fun s c mask i v hc hform => ?_⟩
  have hi : IsMsr s i mask v := by
    rcases hform with ⟨rm, hrm, rfl, rfl⟩ | ⟨rot, imm8, rfl, rfl⟩
    · exact isMsr_reg hc mask hrm
    · exact isMsr_imm hc mask rot imm8
  refine ⟨fun h => hi.cpsr_ok (writeCpsr_flags h) (Cpsr.maskedFlags_t _ v mask), fun hm hp => ⟨fun h => ?_,
    fun m h => ⟨fun ht => ?_, fun ht => ?_⟩⟩, fun h => ?_, fun p h => ?_⟩
  · exact hi.cpsr_error (writeCpsr_invalid hm hp (Mode.ofBits?_eq_none_iff.mpr h))
  · exact hi.cpsr_error ((writeCpsr_valid hm hp h).trans (if_neg ht))
  · exact hi.cpsr_ok ((writeCpsr_valid hm hp h).trans (if_pos ht)) (Cpsr.maskedFlags_t _ v mask)
  · exact hi.spsr_none ((hasSpsr_iff s.spsr _).mp (hasSpsr_eq_false.mpr h))
  · have hmode : s.cpsr.mode ≠ .usr ∧ s.cpsr.mode ≠ .sys := by
      constructor <;> intro e <;> rw [e] at h <;> cases h
    exact ⟨_, hi.spsr_some h, ⟨_, Spsrs.get_set_self _ _ hmode, Psr.masked_fields p v mask⟩,
      fun m hm => Spsrs.get_set_ne _ _ hm, rfl, rfl, rfl, rfl, rfl, rfl, rfl, rfl, .of_regs rfl rfl, ⟨rfl, rfl, rfl⟩,
      ⟨rfl, rfl, rfl⟩, sameMemory_of_mem rfl rfl⟩
end

section
/-! The instruction that a step fetches from the bytes at the PC, and the user-bank hazard at both ends of the step (O49). -/

open Sys2Proof Sys2Proof.Machine

namespace Sys2Proof.Machine

variable {s t : State} {bytes : List Byte} {i : Instr}

/-! ### The fetch (R69, R110) -/

theorem fetchWidth_bytes (s : State) : s.fetchWidth.bytes = instrBytes s.cpsr.t := by
  unfold State.fetchWidth
  cases s.cpsr.t <;> rfl

theorem align_pc (h : s.pcAligned = true) : align s.pc s.fetchWidth = s.pc := by
  rw [State.pcAligned_iff, ← fetchWidth_bytes] at h
  apply BitVec.eq_of_toNat_eq
  rw [align_toNat]
  exact Nat.div_mul_cancel (Nat.dvd_of_mod_eq_zero h)

/-- Code lies in a stored region. -/
theorem CodeAt.stored (h : CodeAt s bytes) : (region s.pc).stored = true := by
  by_contra hn
  have h0 : s.peek (s.pc + BitVec.ofNat 32 0) ∈ codeBytes s :=
    List.mem_map.mpr ⟨0, List.mem_range.mpr (by unfold instrBytes; split <;> decide), rfl⟩
  rw [h.1] at h0
  obtain ⟨b, -, hb⟩ := List.mem_map.mp h0
  rw [State.peek, BitVec.add_zero, if_neg hn] at hb
  cases hb

/-- The bytes at an aligned PC are those stored there. -/
theorem CodeAt.bytes_eq (h : CodeAt s bytes) (ha : s.pcAligned = true) :
    bytes = (List.range (instrBytes s.cpsr.t)).map fun k => storedByte s (region s.pc) (offset s.pc + k) := by
  have hb : bytes.map some = (List.range (instrBytes s.cpsr.t)).map fun k =>
      some (storedByte s (region s.pc) (offset s.pc + k)) := by
    rw [← h.1]
    refine List.map_congr_left fun k hk => ?_
    have hp := peek_align_add s s.pc s.fetchWidth k (by rw [fetchWidth_bytes]; exact List.mem_range.mp hk) h.stored
    rwa [align_pc ha] at hp
  refine List.map_injective_iff.mpr (Option.some_injective _) (hb.trans ?_)
  rw [List.map_map]
  rfl

theorem extractLow_setWidth (h : Half) : (h.setWidth 32 : Word).extractLsb' 0 16 = h := by
  rw [← BitVec.setWidth_eq_extractLsb' (by decide), BitVec.setWidth_setWidth_of_le _ (by decide), BitVec.setWidth_eq]

/-- The fetch at code that decodes: the value is that instruction's, and nothing but the price of the fetch follows. -/
theorem fetch_of_code (h : CodeAt s bytes) (ha : s.pcAligned = true) (hd : decode s.cpsr.t bytes = .ok (i, [])) :
    (fetch s).2 = charge s (s.pc + s.w + s.w) s.fetchWidth ∧ decodeFetched s.cpsr.t (fetch s).1 = i := by
  have hv := readValue_plain s true s.pc s.fetchWidth h.stored h.2 (fun _ hf => nomatch hf)
  rw [align_pc ha] at hv
  have hf : fetch s = (storedValue s (region s.pc) (offset s.pc) s.fetchWidth,
      charge s (s.pc + s.w + s.w) s.fetchWidth) := by rw [fetch, hv]
  rw [hf]
  refine ⟨rfl, ?_⟩
  rw [h.bytes_eq ha] at hd
  unfold State.fetchWidth
  cases ht : s.cpsr.t with
  | true =>
    rw [ht] at hd
    obtain ⟨rfl, -⟩ := Prod.mk.inj (Except.ok.inj hd)
    exact congrArg decodeThumb (extractLow_setWidth _)
  | false =>
    rw [ht] at hd
    obtain ⟨rfl, -⟩ := Prod.mk.inj (Except.ok.inj hd)
    rfl

/-! ### A step of a machine that goes straight to its instruction (R600) -/

theorem step_of_ready (h : Ready s) : step s = runInstruction s := by
  obtain ⟨ha, hrun, hi⟩ := h
  have hw : wake s = s := by rw [wake, ← hrun]
  unfold step runStep
  rw [if_neg (by simp [ha]), if_neg (by simp [hrun]), hw, hi]

theorem step_of_code (hr : Ready s) (h : CodeAt s bytes) (hd : decode s.cpsr.t bytes = .ok (i, [])) :
    step s = if bankHazard i s then .fault .bankedAfterUserTransfer
      else andThen (exec i (charge s (s.pc + s.w + s.w) s.fetchWidth)) fun t =>
        .next (finishStep (Instr.isUserBank i) (passes i s) t) := by
  obtain ⟨hs, hi⟩ := fetch_of_code h hr.1 hd
  rw [step_of_ready hr]
  unfold runInstruction
  dsimp only
  rw [hs, hi]
  rfl

theorem bankHazard_eq_true : bankHazard i s = true ↔
    s.userBankHazard = true ∧ passes i s = true ∧ ∃ n ∈ Instr.regs i, bankedIn s.cpsr.mode n = true := by
  simp [bankHazard, and_assoc]

/-- The bit at the end of a step that executed its instruction (R46). -/
theorem step_userBankHazard (hm : s.MarkReached) (hr : Ready s) (h : CodeAt s bytes)
    (hd : decode s.cpsr.t bytes = .ok (i, [])) (ht : step s = .next t) :
    t.userBankHazard = (Instr.isUserBank i && passes i s) := by
  have hc := step_cycles_lt ht
  rw [step_of_code hr h hd] at ht
  split at ht
  · cases ht
  · obtain ⟨u, hu, ht⟩ := andThen_eq_next ht
    cases ht
    cases hp : passes i s with
    | true =>
      rw [finishStep_userBankHazard, Bool.and_true]
    | false =>
      rw [hp] at hc
      rw [Bool.and_false]
      exact userBankHazard_eq_false hm ((finishStep_hazardMark _ false u).trans (carries_exec hu).mark) hc

end Sys2Proof.Machine

/-- Settles O49: the hazard is checked before the instruction, whose step alone sets the mark; a mark left as it was is
behind the clock at the end of any step. -/
theorem userBankHazard : Obligations.UserBankHazard := by
  refine ⟨fun s bytes i hr h hd hu hp hn => ?_, fun s t bytes i hm hr h hd ht => step_userBankHazard hm hr h hd ht,
    fun s t hm hrun hw ht => ?_⟩
  · rw [step_of_code hr h hd, if_pos (bankHazard_eq_true.mpr ⟨hu, hp, hn⟩)]
  · have hc := step_cycles_lt ht
    obtain ⟨-, ⟨-, -, rfl⟩ | ⟨hn, -⟩⟩ := step_eq_next ht
    · exact userBankHazard_eq_false hm rfl hc
    · exact absurd ⟨hrun, hw⟩ hn
end

section
/-! The prefetch hazard of stores (O39) and the price of accesses and multiplies (O41). -/

open Sys2Proof Sys2Proof.Machine

namespace Sys2Proof.Machine

/-! ### The prefetch hazard (R705) -/

theorem prefetchHit_iff {s : State} {a : Word} {n : Width} :
    prefetchHit s a n = true ↔ ∃ i j, i < n.bytes ∧ j < 2 * instrBytes s.cpsr.t ∧
      location (align a n + BitVec.ofNat 32 i) = location (s.pc + s.w + BitVec.ofNat 32 j) := by
  simp [prefetchHit, List.any_eq_true]

/-! ### Waitstates (R76, R85) -/

/-- [4,3,2,8][x] of R85. -/
theorem firstWait_eq (x : BitVec 2) :
    firstWait x = if x.toNat = 0 then 4 else if x.toNat = 1 then 3 else if x.toNat = 2 then 2 else 8 := by
  revert x
  decide

theorem extractLsb'_two_toNat (ws : BitVec 16) (k : Nat) : (ws.extractLsb' k 2).toNat = ws.toNat / 2 ^ k % 4 := by
  rw [BitVec.extractLsb'_toNat, Nat.shiftRight_eq_div_pow]

theorem getLsbD_iff_toNat (ws : BitVec 16) (k : Nat) : ws.getLsbD k = true ↔ ws.toNat / 2 ^ k % 2 = 1 := by
  rw [BitVec.getLsbD, Nat.testBit_eq_decide_div_mod_eq, decide_eq_true_iff]

theorem Region.narrow_iff (r : Region) : r.narrow = true ↔
    r = .ewram ∨ r = .pram ∨ r = .vram ∨ r = .rom0 ∨ r = .rom1 ∨ r = .rom2 := by
  cases r <;> decide

/-- A word on a 16-bit bus is priced as a halfword and one sequential halfword (R86). -/
theorem accessCost_word_narrow (ws : BitVec 16) {r : Region} {n : Width} (seq : Bool)
    (h : n = .word ∧ r.narrow = true) : accessCost ws r n seq = halfCost ws r seq + halfCost ws r true := by
  obtain ⟨rfl, hr⟩ := h
  simp [accessCost, hr]

theorem accessCost_of_not_word_narrow (ws : BitVec 16) {r : Region} {n : Width} (seq : Bool)
    (h : ¬(n = .word ∧ r.narrow = true)) : accessCost ws r n seq = halfCost ws r seq := by
  rw [accessCost, if_neg]
  simpa using h

/-- R84, R87. -/
theorem sequential_some_iff {l : LastAccess} {a : Word} : sequential (some l) a = true ↔
    l.region = region a ∧ a = l.addr + BitVec.ofNat 32 l.width.bytes ∧
      ¬((region a).isRom = true ∧ offset a % 0x20000 = 0) := by
  simp only [sequential, Bool.and_eq_true, Bool.not_eq_true', ← Bool.not_eq_true, beq_iff_eq, and_assoc]

/-! ### Multiplies (R714) -/

theorem ushiftRight_eq_zero_iff (x : Word) (k : Nat) : x >>> k = 0 ↔ x.toNat < 2 ^ k := by
  rw [← BitVec.toNat_inj, BitVec.toNat_ushiftRight, Nat.shiftRight_eq_div_pow]
  exact Nat.div_eq_zero_iff_lt (Nat.two_pow_pos k)

/-- The bits from k up are all zero or all one exactly when the word fits k bits and a sign. -/
theorem signBits_iff (x : Word) {k : Nat} (hk : k = 8 ∨ k = 16 ∨ k = 24) :
    x >>> k = 0 ∨ x >>> k = BitVec.ofNat 32 (2 ^ (32 - k) - 1) ↔ -2 ^ k ≤ x.toInt ∧ x.toInt < 2 ^ k := by
  have hx := x.isLt
  rw [ushiftRight_eq_zero_iff, ← BitVec.toNat_inj, BitVec.toNat_ushiftRight, Nat.shiftRight_eq_div_pow,
    BitVec.toNat_ofNat, BitVec.toInt_eq_toNat_cond]
  rcases hk with rfl | rfl | rfl <;> norm_num <;> split <;> omega

theorem multiplyCycles_unsigned (x : Word) : multiplyCycles x false =
    if x.toNat < 2 ^ 8 then 1 else if x.toNat < 2 ^ 16 then 2 else if x.toNat < 2 ^ 24 then 3 else 4 := by
  simp only [multiplyCycles, Bool.false_and, Bool.or_false, beq_iff_eq, ushiftRight_eq_zero_iff]

theorem multiplyCycles_signed (x : Word) : multiplyCycles x true =
    if -2 ^ 8 ≤ x.toInt ∧ x.toInt < 2 ^ 8 then 1 else if -2 ^ 16 ≤ x.toInt ∧ x.toInt < 2 ^ 16 then 2
      else if -2 ^ 24 ≤ x.toInt ∧ x.toInt < 2 ^ 24 then 3 else 4 := by
  simp only [multiplyCycles, Bool.true_and, Bool.or_eq_true, beq_iff_eq, ← signBits_iff x (.inl rfl),
    ← signBits_iff x (.inr (.inl rfl)), ← signBits_iff x (.inr (.inr rfl))]
  rfl

end Sys2Proof.Machine

/-- Settles O39: the two answers of a write, told apart by the hazard. -/
theorem prefetchHazard : Obligations.PrefetchHazard := by
  intro s a n v
  rw [← prefetchHit_iff]
  obtain ⟨hit, clear⟩ := memWrite_eq s a n v
  cases hp : prefetchHit s a n with
  | true => exact ⟨iff_of_true (hit hp) rfl, .inl (hit hp)⟩
  | false =>
    rw [clear hp]
    exact ⟨by simp, .inr ⟨_, rfl⟩⟩

/-- Settles O41: the prices of a halfword region by region, and the sizes of a multiplier. -/
theorem pricesOfAccessesAndMultiplies : Obligations.PricesOfAccessesAndMultiplies := by
  refine ⟨?_, fun a => rfl, fun l a => sequential_some_iff, fun x => ⟨multiplyCycles_signed x, multiplyCycles_unsigned x⟩⟩
  intro ws r n seq first narrow wordOnNarrowBus
  have hhalf : ∀ q, halfCost ws r q = narrow q := by
    intro q
    cases r <;>
      simp only [halfCost, narrow, first, firstWait_eq, extractLsb'_two_toNat, getLsbD_iff_toNat, pow_zero, Nat.div_one]
  have hnarrow : wordOnNarrowBus ↔ n = .word ∧ r.narrow = true := and_congr_right' r.narrow_iff.symm
  rw [hnarrow, ← hhalf, ← hhalf]
  exact ⟨accessCost_word_narrow ws seq, accessCost_of_not_word_narrow ws seq⟩
end

section
/-! The frame of a block transfer: its registers, addresses and words (O45). -/

open Sys2Proof Sys2Proof.Machine

namespace Sys2Proof.Machine

variable {s : State}

/-! ### The registers transferred (R123, R284, R457) -/

theorem mem_lowList_iff {list : Byte} {k : RegNo} : k ∈ lowList list ↔ k.toNat < 8 ∧ list.getLsbD k.toNat = true := by
  rw [lowList, mem_regList, BitVec.getLsbD_append]
  by_cases hk : k.toNat < 8 <;> simp [hk]

theorem listOrEmpty_of_ne_nil {regs : List RegNo} (h : regs ≠ []) : listOrEmpty s regs = .ok (regs, regs.length) :=
  if_neg h

theorem listOrEmpty_nil_of_stop (h : s.params.emptyList = .stop) : listOrEmpty s [] = .error .emptyRegisterList := by
  simp [listOrEmpty, h]

theorem listOrEmpty_nil_of_arm7tdmi (h : s.params.emptyList = .arm7tdmi) : listOrEmpty s [] = .ok ([15], 16) := by
  simp [listOrEmpty, h]

theorem orFault_of_error {α : Type} {x : Except Fault α} {e : Fault} {f : α → Result} (h : x = .error e) :
    orFault x f = .fault e := by
  rw [h, orFault_error]

/-! ### ARM frames (R284) -/

section

variable {p up : Bool} {rn : RegNo} {list : BitVec 16}

theorem blockFrame_of_ok {regs : List RegNo} {count : Nat} (hn : rn ≠ 15)
    (h : listOrEmpty s (regList list) = .ok (regs, count)) :
    blockFrame s p up rn list = .ok ⟨regs, blockStart p up (s.reg rn) count, blockBase up (s.reg rn) count⟩ := by
  rw [blockFrame, if_neg hn, h]

theorem blockFrame_of_error {e : Fault} (hn : rn ≠ 15) (h : listOrEmpty s (regList list) = .error e) :
    blockFrame s p up rn list = .error e := by
  rw [blockFrame, if_neg hn, h]

end

/-! ### Words read from plain memory (R66, R285) -/

/-- Word j of a block read holds the bytes at the j-th address, those that the first state had there: the reads before it
leave memory. -/
theorem bytesAt_readBlock {regs : List RegNo} {a : Word} (hp : ∀ b, b ∈ blockAddresses a regs.length → Plain s b)
    (j : Nat) (hj : j < (readBlock s a regs).1.length) :
    BytesAt s (a + 4 * BitVec.ofNat 32 j) .word (readBlock s a regs).1[j].2 := by
  induction regs generalizing s a j with
  | nil => exact absurd hj (Nat.not_lt_zero j)
  | cons k rest ih =>
    rw [List.length_cons, blockAddresses_succ, List.forall_mem_cons] at hp
    obtain ⟨hfirst, hrest⟩ := hp
    cases j with
    | zero =>
      rw [show a + 4 * BitVec.ofNat 32 0 = a by simp]
      change BytesAt s a .word (memRead s a .word).1
      rw [memRead_plain .word hfirst]
      exact bytesAt_storedValue s a .word hfirst.1
    | succ j =>
      have hbus := memRead_busOnly s a .word
      have hlater := ih (s := (memRead s a .word).2) (fun b hb => (hrest b hb).congr hbus.params hbus.pc) j
        (Nat.lt_of_succ_lt_succ hj)
      rw [BitVec.ofNat_add, BitVec.mul_add, BitVec.add_comm (4 * _), ← BitVec.add_assoc]
      exact hlater.congr hbus.mem.symm hbus.params.symm

end Sys2Proof.Machine

/-- Settles O45: the list in ascending order, the frame from its length or from 16 for the empty list, and the words of a
block read one after the other. -/
theorem blockTransferFrame : Obligations.BlockTransferFrame := by
  refine ⟨fun s p up rn list => ⟨rfl, fun hn hl => ?_, fun hn hp => ?_, fun hn hp => ?_⟩,
    fun s list => ⟨regList_pairwise _, fun k => mem_lowList_iff, fun regs => listOrEmpty_of_ne_nil, fun hp => ?_,
      listOrEmpty_nil_of_arm7tdmi⟩,
    fun regs s a hp => ⟨readBlock_fst regs s a, bytesAt_readBlock hp⟩⟩
  · refine ⟨_, blockFrame_of_ok hn (listOrEmpty_of_ne_nil (mt regList_eq_nil.mp hl)), fun k => mem_regList,
      regList_pairwise list, rfl, ?_⟩
    cases p <;> cases up <;> rfl
  · exact blockFrame_of_error hn (listOrEmpty_nil_of_stop hp)
  · refine ⟨_, blockFrame_of_ok hn (listOrEmpty_nil_of_arm7tdmi hp), rfl, rfl, ?_⟩
    cases p <;> cases up <;> rfl
  · have hempty : listOrEmpty s (lowList 0) = .error .emptyRegisterList := listOrEmpty_nil_of_stop hp
    exact ⟨orFault_of_error hempty, orFault_of_error hempty, fun rb => ⟨orFault_of_error hempty, orFault_of_error hempty⟩⟩
end

section
/-! Accesses of the I/O window owner by owner, and writes of WAITCNT and HALTCNT (O40). -/

open Sys2Proof Sys2Proof.Machine

namespace Sys2Proof.Machine

variable {s t : State} {a v : Word} {n : Width} {o id : Nat}

/-! ### What each owner does (R73 to R76, R612, R614) -/

theorem ioReadPart_of_waitcnt (h : ioOwner s o = .waitcnt) : ioReadPart s o n = (halfPart s.waitcnt o n, s) := by
  rw [ioReadPart, h]

theorem ioReadPart_of_irqControl (h : ioOwner s o = .irqControl) : ioReadPart s o n = irqControlRead s o n := by
  rw [ioReadPart, h]

theorem ioReadPart_of_power (h : ioOwner s o = .power) : ioReadPart s o n = forwardRead s .power o n := by
  rw [ioReadPart, h]

theorem ioReadPart_of_device (h : ioOwner s o = .device id) : ioReadPart s o n = forwardRead s (.device id) o n := by
  rw [ioReadPart, h]

theorem ioReadPart_of_nobody (h : ioOwner s o = .nobody) : ioReadPart s o n = (n.trunc (draw s).1, (draw s).2) := by
  rw [ioReadPart, h]

theorem ioWritePart_of_waitcnt (h : ioOwner s o = .waitcnt) :
    ioWritePart s o n v = { s with waitcnt := halfUpdate s.waitcnt o n v &&& waitcntMask } := by
  rw [ioWritePart, h]

theorem ioWritePart_of_irqControl (h : ioOwner s o = .irqControl) : ioWritePart s o n v = irqControlWrite s o n v := by
  rw [ioWritePart, h]

theorem ioWritePart_of_power (h : ioOwner s o = .power) :
    ioWritePart s o n v = { forwardWrite s .power o n v with haltRequest := true } := by
  rw [ioWritePart, h]

theorem ioWritePart_of_device (h : ioOwner s o = .device id) :
    ioWritePart s o n v = forwardWrite s (.device id) o n v := by
  rw [ioWritePart, h]

theorem ioWritePart_of_nobody (h : ioOwner s o = .nobody) : ioWritePart s o n v = s := by
  rw [ioWritePart, h]

/-! ### From the bus to the window -/

theorem readValue_io (fetch : Bool) (h : region a = .io) : readValue s fetch a n = ioRead s (offset (align a n)) n := by
  simp only [readValue, region_align, h]

theorem writeValue_io (h : region a = .io) : writeValue s a n v = ioWrite s (offset (align a n)) n v := by
  simp only [writeValue, region_align, h]

theorem ioRead_of_ne_word (h : n ≠ .word) : ioRead s o n = ioReadPart s o n := if_neg h

theorem ioWrite_of_ne_word (h : n ≠ .word) : ioWrite s o n v = ioWritePart s o n v := if_neg h

theorem wordDevice_eq_none (h : ∀ id, ¬(Registered s o id ∧ Registered s (o + 2) id)) : wordDevice s o = none :=
  Option.eq_none_iff_forall_ne_some.mpr fun id e => h id (wordDevice_eq_some.mp e)

/-- A word that one device owns whole is one access (R73). -/
theorem ioRead_word_of_some (h : wordDevice s o = some id) : ioRead s o .word = forwardRead s (.device id) o .word := by
  rw [ioRead, if_pos rfl, h]

theorem ioWrite_word_of_some (h : wordDevice s o = some id) :
    ioWrite s o .word v = forwardWrite s (.device id) o .word v := by
  rw [ioWrite, if_pos rfl, h]

/-- Any other word is two halfwords, the lower first (R73, D12). -/
theorem ioRead_word_of_none (h : wordDevice s o = none) :
    let lo := ioReadPart s o .half
    let hi := ioReadPart lo.2 (o + 2) .half
    ioRead s o .word = ((hi.1 <<< 16) ||| lo.1, hi.2) := by
  intro lo hi
  rw [ioRead, if_pos rfl, h]

theorem ioWrite_word_of_none (h : wordDevice s o = none) :
    ioWrite s o .word v = ioWritePart (ioWritePart s o .half (v &&& 0xFFFF)) (o + 2) .half (v >>> 16) := by
  rw [ioWrite, if_pos rfl, h]

/-- A byte or halfword write of the I/O window, once the hazard and the price are done with. -/
theorem memWrite_ioPart (hr : region a = .io) (hn : n ≠ .word) (h : memWrite s a n v = .next t) :
    t = ioWritePart (charge s a n) (offset (align a n)) n v := by
  obtain ⟨-, rfl⟩ := memWrite_next h
  rw [writeValue_io hr, ioWrite_of_ne_word hn]

/-! ### WAITCNT (R76) and HALTCNT (R614) -/

/-- A write of one of WAITCNT's two offsets. -/
theorem memWrite_waitcnt (hr : region a = .io) (hn : n ≠ .word)
    (ho : offset (align a n) = 0x204 ∨ offset (align a n) = 0x205) (h : memWrite s a n v = .next t) :
    t.waitcnt = halfUpdate s.waitcnt (offset (align a n)) n v &&& 0x5FFF := by
  rw [memWrite_ioPart hr hn h, ioWritePart_of_waitcnt (if_pos ho)]
  rfl

theorem memWrite_haltcnt (h : memWrite s 0x04000301 .byte v = .next t) : t.haltRequest = true := by
  rw [memWrite_ioPart rfl (by decide) h, ioWritePart_of_power rfl]

/-- A halt request halts the machine at the end of the step, and is spent (R614). -/
theorem finishStep_of_haltRequest (userBank : Bool) (h : t.haltRequest = true) :
    (finishStep userBank true t).run = .halted ∧ (finishStep userBank true t).haltRequest = false := by
  simp [finishStep, h]

/-- A write of the I/O window stores no byte. -/
theorem memWrite_io_sameMemory (hr : region a = .io) (h : memWrite s a n v = .next t) : SameMemory s t := by
  obtain ⟨-, rfl⟩ := memWrite_next h
  rw [writeValue_io hr]
  exact sameMemory_of_mem (ioWrite_mem _ _ n v) (writeFrame_ioWrite _ _ n v).params

end Sys2Proof.Machine

/-- Settles O40: the write comes after its price, and WAITCNT's bytes are the halves of its masked update. -/
theorem controlRegisterWrites : Obligations.ControlRegisterWrites := by
  refine ⟨fun s t a n v h => ?_, fun s t v h => ⟨?_, memWrite_io_sameMemory rfl h⟩, fun s t v h => ?_, fun s t v h => ?_,
    fun s t v h => ⟨memWrite_haltcnt h, finishStep_of_haltRequest false (memWrite_haltcnt h)⟩⟩
  · obtain ⟨-, rfl⟩ := memWrite_next h
    rw [writeValue_cycles, charge_cycles, region_align]
  · exact memWrite_waitcnt rfl (by decide) (.inl rfl) h
  · have hw : t.waitcnt = (s.waitcnt.extractLsb' 8 8 ++ v.extractLsb' 0 8) &&& (0x5F#8 ++ 0xFF#8) :=
      memWrite_waitcnt rfl (by decide) (.inl rfl) h
    rw [hw, BitVec.and_append]
    exact ⟨BitVec.extractLsb'_append_eq_right.trans BitVec.and_allOnes, BitVec.extractLsb'_append_eq_left⟩
  · have hw : t.waitcnt = (v.extractLsb' 0 8 ++ s.waitcnt.extractLsb' 0 8) &&& (0x5F#8 ++ 0xFF#8) :=
      memWrite_waitcnt rfl (by decide) (.inr rfl) h
    rw [hw, BitVec.and_append]
    exact ⟨BitVec.extractLsb'_append_eq_left, BitVec.extractLsb'_append_eq_right.trans BitVec.and_allOnes⟩
end

section
/-! Reads of memory and what the loads make of them (O37). -/

open Sys2Proof Sys2Proof.Machine

namespace Sys2Proof.Machine

variable {s t : State} {a v : Word} {n : Width} {o id : Nat}

/-! ### The clock and the values of the I/O window -/

/-- s at another time: the cycle counter and the last-access record are others. -/
def State.atClock (s : State) (c : Nat) (l : Option LastAccess) : State := { s with cycles := c, last := l }

theorem charge_eq_atClock (s : State) (a : Word) (n : Width) :
    charge s a n = s.atClock (charge s a n).cycles (charge s a n).last := rfl

section

variable (s : State) (c : Nat) (l : Option LastAccess) (o : Nat) (n : Width)

theorem takeAnswer_atClock : takeAnswer (s.atClock c l) = ((takeAnswer s).1, (takeAnswer s).2.atClock c l) := by
  have h : (s.atClock c l).answers = s.answers := rfl
  unfold takeAnswer
  rw [h]
  cases s.answers <;> rfl

theorem forwardRead_atClock (q : Target) :
    forwardRead (s.atClock c l) q o n = ((forwardRead s q o n).1, (forwardRead s q o n).2.atClock c l) := by
  have h : takeAnswer (forward (s.atClock c l) ⟨q, false, o, n, 0⟩) = _ :=
    takeAnswer_atClock (forward s ⟨q, false, o, n, 0⟩) c l
  unfold forwardRead
  rw [h]

theorem irqControlRead_atClock :
    irqControlRead (s.atClock c l) o n = ((irqControlRead s o n).1, (irqControlRead s o n).2.atClock c l) := by
  unfold irqControlRead
  split
  · rfl
  · split <;> rfl

/-- What a part of the I/O window reads does not depend on the time. -/
theorem ioReadPart_atClock :
    ioReadPart (s.atClock c l) o n = ((ioReadPart s o n).1, (ioReadPart s o n).2.atClock c l) := by
  have ho : ioOwner (s.atClock c l) o = ioOwner s o := rfl
  cases h : ioOwner s o with
  | waitcnt => rw [ioReadPart_of_waitcnt (ho.trans h), ioReadPart_of_waitcnt h]; rfl
  | irqControl => rw [ioReadPart_of_irqControl (ho.trans h), ioReadPart_of_irqControl h, irqControlRead_atClock]
  | power => rw [ioReadPart_of_power (ho.trans h), ioReadPart_of_power h, forwardRead_atClock]
  | device id => rw [ioReadPart_of_device (ho.trans h), ioReadPart_of_device h, forwardRead_atClock]
  | nobody => rw [ioReadPart_of_nobody (ho.trans h), ioReadPart_of_nobody h]; rfl

end

/-! ### Reads by region -/

theorem memRead_eq (s : State) (a : Word) (n : Width) :
    memRead s a n = ((readValue s false a n).1, charge (readValue s false a n).2 a n) := rfl

theorem readValue_unmapped (fetch : Bool) (h : region a = .unmapped) :
    readValue s fetch a n = (n.trunc (draw s).1, (draw s).2) := by
  simp only [readValue, region_align, h]

theorem Region.isRom_iff {r : Region} : r.isRom = true ↔ r = .rom0 ∨ r = .rom1 ∨ r = .rom2 := by
  cases r <;> decide

theorem readValue_save (fetch : Bool) (h : SaveWindow s a) : readValue s fetch a n = saveRead s a n := by
  rcases h with h | ⟨hr, hc⟩
  · simp only [readValue, region_align, h]
  · rcases Region.isRom_iff.mp hr with h | h | h <;> simp only [readValue, region_align, h, hc, if_true]

/-- A read that is a free value, cut to its width. -/
theorem freeRead_of_readValue (h : readValue s false a n = (n.trunc (draw s).1, (draw s).2)) : FreeRead s a n := by
  rw [FreeRead, memRead_eq, h]
  exact ⟨rfl, rfl, rfl⟩

theorem forwardedRead_of_readValue {q : Target} (h : readValue s false a n = forwardRead s q o n) :
    ForwardedRead s a n q o := by
  rw [ForwardedRead, memRead_eq, h]
  exact forwardRead_spec s q o n

/-- A byte or halfword read of the I/O window. -/
theorem readValue_ioPart (hr : region a = .io) (hn : n ≠ .word) :
    readValue s false a n = ioReadPart s (offset (align a n)) n := by
  rw [readValue_io false hr, ioRead_of_ne_word hn]

/-! ### A word of the I/O window as two halfwords -/

/-- The low n bytes of a value have no more bits than n bytes (R8). -/
theorem trunc_lt (n : Width) (v : Word) : (n.trunc v).toNat < 2 ^ (8 * n.bytes) := by
  cases n with
  | byte => exact Nat.lt_of_le_of_lt Nat.and_le_right (by decide : 0xFF < 2 ^ 8)
  | half => exact Nat.lt_of_le_of_lt Nat.and_le_right (by decide : 0xFFFF < 2 ^ 16)
  | word => exact v.isLt

theorem halfPart_half_lt (v : BitVec 16) (o : Nat) : (halfPart v o .half).toNat < 2 ^ 16 := by
  rw [halfPart, BitVec.toNat_setWidth_of_le (by decide)]
  exact v.isLt

/-- A halfword read of the I/O window has no more bits than a halfword. -/
theorem ioReadPart_half_lt (s : State) (o : Nat) : (ioReadPart s o .half).1.toNat < 2 ^ 16 := by
  cases h : ioOwner s o with
  | waitcnt => rw [ioReadPart_of_waitcnt h]; exact halfPart_half_lt _ o
  | irqControl =>
    rw [ioReadPart_of_irqControl h]
    unfold irqControlRead
    split
    · exact halfPart_half_lt _ o
    · split <;> exact halfPart_half_lt _ o
  | power => rw [ioReadPart_of_power h]; exact trunc_lt .half _
  | device id => rw [ioReadPart_of_device h]; exact trunc_lt .half _
  | nobody => rw [ioReadPart_of_nobody h]; exact trunc_lt .half _

/-- Two halfwords put together are one above the other. -/
theorem shiftLeft_or_eq_append {hi lo : Word} (hlo : lo.toNat < 2 ^ 16) :
    (hi <<< 16) ||| lo = hi.setWidth 16 ++ lo.setWidth 16 := by
  apply BitVec.eq_of_getLsbD_eq
  intro i hi
  rw [BitVec.getLsbD_or, BitVec.getLsbD_shiftLeft, BitVec.getLsbD_append, BitVec.getLsbD_setWidth, BitVec.getLsbD_setWidth]
  by_cases h : i < 16
  · simp [h]
  · have hz : lo.getLsbD i = false :=
      Nat.testBit_lt_two_pow (hlo.trans_le (Nat.pow_le_pow_right (by decide) (Nat.le_of_not_lt h)))
    rw [hz, Bool.or_false]
    simp [h, hi, show i - 16 < 16 by omega]

/-- An even byte of an aligned word begins an aligned halfword. -/
theorem align_half_of_word (a : Word) {k : Nat} (hk : k = 0 ∨ k = 2) :
    align (align a .word + BitVec.ofNat 32 k) .half = align a .word + BitVec.ofNat 32 k := by
  apply BitVec.eq_of_toNat_eq
  rw [align_toNat, align_add_toNat a .word k (by simp only [Width.bytes]; omega)]
  simp only [Width.bytes]
  omega

theorem memRead_io_half (hr : region a = .io) {k : Nat} (hk : k = 0 ∨ k = 2) :
    memRead s (align a .word + BitVec.ofNat 32 k) .half =
      ((ioReadPart s (offset (align a .word) + k) .half).1,
        charge (ioReadPart s (offset (align a .word) + k) .half).2 (align a .word + BitVec.ofNat 32 k) .half) := by
  have hlt : k < Width.word.bytes := by simp only [Width.bytes]; omega
  rw [memRead_eq, readValue_ioPart ((region_align_add a .word k hlt).trans hr) (by decide), align_half_of_word a hk,
    offset_align_add a .word k hlt]

/-- A word that no device owns whole reads as its two halfwords, the lower first (R73, D12). -/
theorem memRead_io_word (hr : region a = .io) (hw : wordDevice s (offset (align a .word)) = none) :
    let lo := memRead s (align a .word) .half
    let hi := memRead lo.2 (align a .word + 2) .half
    (memRead s a .word).1 = hi.1.setWidth 16 ++ lo.1.setWidth 16 ∧ NoExchange hi.2 (memRead s a .word).2 := by
  intro lo hi
  have hlo := memRead_io_half (s := s) hr (.inl rfl)
  rw [BitVec.add_zero, Nat.add_zero] at hlo
  have hhi := memRead_io_half (s := lo.2) hr (.inr rfl)
  change lo = _ at hlo
  change hi = _ at hhi
  rw [hlo, charge_eq_atClock, ioReadPart_atClock] at hhi
  rw [memRead_eq, readValue_io false hr, ioRead_word_of_none hw, hhi, hlo]
  exact ⟨shiftLeft_or_eq_append (ioReadPart_half_lt _ _), rfl, rfl, rfl⟩

/-! ### The registers of the window (R76, R612) -/

theorem memRead_waitcnt (hr : region a = .io) (hn : n ≠ .word)
    (ho : offset (align a n) = 0x204 ∨ offset (align a n) = 0x205) :
    (memRead s a n).1 = halfPart s.waitcnt (offset (align a n)) n := by
  rw [memRead_eq, readValue_ioPart hr hn, ioReadPart_of_waitcnt (if_pos ho)]

theorem memRead_irqControl (hr : region a = .io) (hn : n ≠ .word)
    (ho : ioOwner s (offset (align a n)) = .irqControl) :
    (memRead s a n).1 = (irqControlRead s (offset (align a n)) n).1 := by
  rw [memRead_eq, readValue_ioPart hr hn, ioReadPart_of_irqControl ho]

theorem halfPart_low_toNat (v : BitVec 16) (h : o % 2 = 0) : (halfPart v o .byte).toNat = v.toNat % 256 := by
  simp [halfPart, h]
  omega

theorem halfPart_high_toNat (v : BitVec 16) (h : o % 2 = 1) : (halfPart v o .byte).toNat = v.toNat / 256 := by
  have hv := v.isLt
  simp [halfPart, h, Nat.shiftRight_eq_div_pow]
  omega

/-- Bit 0 of IME's halfword is IME (R612). -/
theorem irqControlRead_ime (s : State) : (irqControlRead s 0x208 .half).1.getLsbD 0 = s.irqc.ime := by
  change (((draw s).1.extractLsb' 0 15 ++ bit s.irqc.ime).setWidth 32).getLsbD 0 = s.irqc.ime
  rw [BitVec.getLsbD_setWidth, BitVec.getLsbD_append]
  simp [bit]

/-! ### What the loads make of the value read (R271, R280 to R283) -/

theorem getLsbD_rotateRight_mod (v : Word) {k j : Nat} (hk : k < 32) (hj : j < 32) :
    (v.rotateRight k).getLsbD j = v.getLsbD ((j + k) % 32) := by
  rw [BitVec.getLsbD_rotateRight, Nat.mod_eq_of_lt hk]
  by_cases h : j < 32 - k
  · rw [decide_eq_true h, cond_true, Nat.mod_eq_of_lt (by omega), Nat.add_comm]
  · rw [decide_eq_false h, cond_false, decide_eq_true hj, Bool.true_and, show (j + k) % 32 = j - (32 - k) by omega]

theorem loadWord_fst (s : State) (a : Word) :
    (loadWord s a).1 = (memRead s a .word).1.rotateRight (8 * (a.toNat % 4)) := by
  rw [loadWord, BitVec.extractLsb'_toNat, Nat.shiftRight_zero]

theorem loadHalf_of_even (h : a.toNat % 2 = 0) : (loadHalf s a).1 = (memRead s a .half).1 := by
  simp only [loadHalf, getLsbD_zero_eq, h, Nat.zero_ne_one, decide_false, Bool.false_eq_true, if_false]

theorem loadHalf_of_odd (h : a.toNat % 2 = 1) : (loadHalf s a).1 = (memRead s a .half).1.rotateRight 8 := by
  simp only [loadHalf, getLsbD_zero_eq, h, decide_true, if_true]

theorem loadSignedHalf_of_even (h : a.toNat % 2 = 0) : (loadSignedHalf s a).1 = sext16 (memRead s a .half).1 := by
  simp only [loadSignedHalf, getLsbD_zero_eq, h, Nat.zero_ne_one, decide_false, Bool.false_eq_true, if_false]

theorem loadSignedHalf_of_odd (h : a.toNat % 2 = 1) : (loadSignedHalf s a).1 = sext8 (memRead s a .byte).1 := by
  simp only [loadSignedHalf, getLsbD_zero_eq, h, decide_true, if_true]

theorem sext8_toInt (v : Word) : (sext8 v).toInt = (v.setWidth 8).toInt := by
  rw [sext8, BitVec.toInt_signExtend_of_le (by decide), BitVec.setWidth_eq_extractLsb' (by decide)]

theorem sext16_toInt (v : Word) : (sext16 v).toInt = (v.setWidth 16).toInt := by
  rw [sext16, BitVec.toInt_signExtend_of_le (by decide), BitVec.setWidth_eq_extractLsb' (by decide)]

end Sys2Proof.Machine

/-- Settles O37: every read by its region and, in the I/O window, by its owner. -/
theorem memoryReads : Obligations.MemoryReads := by
  refine ⟨fun s a n => ⟨fun hr => ?_, fun hr hn hu => ?_, fun hr hn id hd => ?_, fun hr => ⟨fun id hd => ?_, fun hd => ?_⟩,
      fun hw => ?_⟩,
    fun s => ⟨?_, ?_, ?_, ?_, ?_, ?_, ?_⟩, fun s a n hp => ?_, fun s a n hb hpc => ?_,
    fun s a => ⟨fun j hj => ?_, rfl, sext8_toInt _, fun h => ⟨?_, ?_⟩, fun h => ⟨fun j hj => ?_, ?_⟩⟩⟩
  · exact freeRead_of_readValue (readValue_unmapped false hr)
  · refine freeRead_of_readValue ?_
    rw [readValue_ioPart hr hn, ioReadPart_of_nobody (ioOwner_of_unregistered hu)]
  · refine forwardedRead_of_readValue ?_
    rw [readValue_ioPart hr hn, ioReadPart_of_device (ioOwner_eq_device.mpr hd)]
  · refine forwardedRead_of_readValue ?_
    rw [readValue_io false hr, ioRead_word_of_some (wordDevice_eq_some.mpr hd)]
  · exact memRead_io_word hr (wordDevice_eq_none hd)
  · exact forwardedRead_of_readValue (readValue_save false hw)
  · exact forwardedRead_of_readValue (readValue_ioPart rfl (by decide))
  · exact memRead_waitcnt rfl (by decide) (.inl rfl)
  · rw [memRead_waitcnt rfl (by decide) (.inl rfl)]
    exact halfPart_low_toNat _ rfl
  · rw [memRead_waitcnt rfl (by decide) (.inr rfl)]
    exact halfPart_high_toNat _ rfl
  · exact memRead_irqControl rfl (by decide) rfl
  · exact memRead_irqControl rfl (by decide) rfl
  · rw [memRead_irqControl rfl (by decide) rfl]
    exact irqControlRead_ime s
  · rw [memRead_plain n hp]
    exact ⟨bytesAt_storedValue s a n hp.1, storedValue_lt _ _ _ _, rfl, rfl⟩
  · rw [memRead_protected n hb hpc]
    exact ⟨rfl, rfl⟩
  · rw [loadWord_fst, getLsbD_rotateRight_mod _ (by omega) hj]
  · exact loadHalf_of_even h
  · rw [loadSignedHalf_of_even h, sext16_toInt]
  · rw [loadHalf_of_odd h, getLsbD_rotateRight_mod _ (by decide) hj]
  · rw [loadSignedHalf_of_odd h, sext8_toInt]
end

section
/-! Writes of memory, of the I/O window and of the collaborators (O38). -/

open Sys2Proof Sys2Proof.Machine

namespace Sys2Proof.Machine

variable {s t : State} {a v : Word} {n : Width} {o id : Nat}

/-! ### The clock and the I/O window -/

theorem irqControlWrite_atClock (s : State) (c : Nat) (l : Option LastAccess) (o : Nat) (n : Width) (v : Word) :
    irqControlWrite (s.atClock c l) o n v = (irqControlWrite s o n v).atClock c l := by
  unfold irqControlWrite
  split
  · rfl
  · split
    · rfl
    · split <;> rfl

/-- What a write of a part of the I/O window does is the same at any time. -/
theorem ioWritePart_atClock (s : State) (c : Nat) (l : Option LastAccess) (o : Nat) (n : Width) (v : Word) :
    ioWritePart (s.atClock c l) o n v = (ioWritePart s o n v).atClock c l := by
  have ho : ioOwner (s.atClock c l) o = ioOwner s o := rfl
  cases h : ioOwner s o with
  | waitcnt => rw [ioWritePart_of_waitcnt (ho.trans h), ioWritePart_of_waitcnt h]; rfl
  | irqControl => rw [ioWritePart_of_irqControl (ho.trans h), ioWritePart_of_irqControl h, irqControlWrite_atClock]
  | power => rw [ioWritePart_of_power (ho.trans h), ioWritePart_of_power h]; rfl
  | device id => rw [ioWritePart_of_device (ho.trans h), ioWritePart_of_device h]; rfl
  | nobody => rw [ioWritePart_of_nobody (ho.trans h), ioWritePart_of_nobody h]

theorem ioWritePart_charge (s : State) (a : Word) (m : Width) (o : Nat) (n : Width) (v : Word) :
    ioWritePart (charge s a m) o n v = (ioWritePart s o n v).atClock (charge s a m).cycles (charge s a m).last :=
  ioWritePart_atClock s _ _ o n v

/-! ### A byte that fills its halfword (R77, R78) -/

theorem vramFold_even (x : Nat) : vramFold (x / 2 * 2) = vramFold x / 2 * 2 := by
  unfold vramFold
  split <;> split <;> omega

/-- Every mirror begins at an even address. -/
theorem offset_align_half (a : Word) : offset (align a .half) = offset a / 2 * 2 := by
  rw [offset_eq, offset_eq, region_align, align_toNat]
  cases region a <;> simp only [Region.offsetOf, Width.bytes]
  case vram => exact vramFold_even _
  all_goals omega

theorem doubled_low (v : Word) : (doubled v).extractLsb' 0 8 = v.extractLsb' 0 8 := by
  apply BitVec.eq_of_getLsbD_eq
  intro i hi
  interval_cases i <;> simp [doubled]

theorem doubled_high (v : Word) : (doubled v).extractLsb' 8 8 = v.extractLsb' 0 8 := by
  apply BitVec.eq_of_getLsbD_eq
  intro i hi
  interval_cases i <;> simp [doubled]

/-- A byte write that fills its halfword is the halfword write of the byte twice. -/
theorem writeValue_byte_doubled (v : Word)
    (h : region a = .pram ∨ (region a = .vram ∧ offset a < s.params.vramBoundary.value)) :
    writeValue s a .byte v = writeValue s a .half (doubled v) := by
  rcases h with h | ⟨h, hlt⟩ <;> simp only [writeValue, region_align, h, offset_align_half] <;> simp [align, *]

theorem peek_writeValue_doubled (v : Word)
    (h : region a = .pram ∨ (region a = .vram ∧ offset a < s.params.vramBoundary.value)) :
    (writeValue s a .byte v).peek (align a .half) = some (v.extractLsb' 0 8) ∧
      (writeValue s a .byte v).peek (align a .half + 1) = some (v.extractLsb' 0 8) := by
  have hb := bytesAt_writeValue s a .half (doubled v)
    (.inr (.inr ⟨by decide, h.imp_right fun hv => .inl hv.1⟩))
  rw [writeValue_byte_doubled v h]
  constructor
  · have h0 := hb 0 (by decide)
    rwa [doubled_low, BitVec.add_zero] at h0
  · have h1 := hb 1 (by decide)
    rwa [doubled_high] at h1

/-! ### Writes that store nothing (R70, R75, R78 to R82) -/

/-- A byte above the boundary of VRAM and one in OAM, every write of the BIOS and of an unmapped address, and one of an I/O
offset that nobody owns, has no effect. -/
theorem writeValue_dropped (h : (n = .byte ∧ region a = .vram ∧ s.params.vramBoundary.value ≤ offset a) ∨
    (n = .byte ∧ region a = .oam) ∨ region a = .bios ∨ region a = .unmapped ∨
    (n ≠ .word ∧ region a = .io ∧ Unregistered s (offset (align a n)))) : writeValue s a n v = s := by
  rcases h with ⟨rfl, hr, hle⟩ | ⟨rfl, hr⟩ | hr | hr | ⟨hn, hr, hu⟩
  · simp only [writeValue, region_align, hr, if_true]
    exact if_neg (Nat.not_lt_of_le hle)
  · simp only [writeValue, region_align, hr, if_true]
  · simp only [writeValue, region_align, hr]
  · simp only [writeValue, region_align, hr]
  · rw [writeValue_io hr, ioWrite_of_ne_word hn, ioWritePart_of_nobody (ioOwner_of_unregistered hu)]

theorem writeValue_device (hr : region a = .io) (h : Registered s (offset (align a n)) id)
    (hw : n = .word → Registered s (offset (align a n) + 2) id) :
    writeValue s a n v = forwardWrite s (.device id) (offset (align a n)) n v := by
  rw [writeValue_io hr]
  by_cases hn : n = .word
  · subst hn
    exact ioWrite_word_of_some (wordDevice_eq_some.mpr ⟨h, hw rfl⟩)
  · rw [ioWrite_of_ne_word hn, ioWritePart_of_device (ioOwner_eq_device.mpr h)]

theorem writeValue_rom (h : (region a).isRom = true) : writeValue s a n v = romWrite s a n v := by
  rcases Region.isRom_iff.mp h with h | h | h <;> simp only [writeValue, region_align, h]

theorem writeValue_save (h : SaveWindow s a) : writeValue s a n v = saveWrite s a n v := by
  rcases h with h | ⟨hr, hc⟩
  · simp only [writeValue, region_align, h]
  · rw [writeValue_rom hr, romWrite, if_pos hc]

theorem writeValue_cartridge (hr : (region a).isRom = true) (hc : claimed s a = false) :
    writeValue s a n v = forwardWrite s .cartridge (align a n).toNat n v := by
  rw [writeValue_rom hr, romWrite, if_neg (by simp [hc])]

theorem forwardedWrite_charge (s : State) (a : Word) (n : Width) : ForwardedWrite s (charge s a n) [] :=
  ⟨rfl, rfl, rfl, sameMemory_of_mem rfl rfl, rfl, rfl, rfl⟩

theorem forwardedWrite_forward (s : State) (a : Word) (m : Width) (q : Target) (o : Nat) (n : Width) (v : Word) :
    ForwardedWrite s (forwardWrite (charge s a m) q o n v) [⟨q, true, o, n, n.trunc v⟩] :=
  ⟨rfl, rfl, rfl, sameMemory_of_mem rfl rfl, rfl, rfl, rfl⟩

/-! ### A word of the I/O window as two halfwords -/

/-- A halfword of a word that is clear of the prefetch hazard is clear of it. -/
theorem prefetchHit_half_of_word (h : prefetchHit s a .word = false) {k : Nat} (hk : k = 0 ∨ k = 2) :
    prefetchHit s (align a .word + BitVec.ofNat 32 k) .half = false := by
  by_contra hn
  obtain ⟨i, j, hi, hj, he⟩ := prefetchHit_iff.mp (Bool.eq_true_of_not_eq_false hn)
  have hi : i < 2 := hi
  rw [align_half_of_word a hk, BitVec.add_assoc, ← BitVec.ofNat_add] at he
  have hw : prefetchHit s a .word = true :=
    prefetchHit_iff.mpr ⟨k + i, j, by simp only [Width.bytes]; omega, hj, he⟩
  rw [h] at hw
  cases hw

theorem memWrite_io_half (hr : region a = .io) (h : prefetchHit s a .word = false) {k : Nat} (hk : k = 0 ∨ k = 2)
    (v : Word) : memWrite s (align a .word + BitVec.ofNat 32 k) .half v =
      .next (ioWritePart (charge s (align a .word + BitVec.ofNat 32 k) .half) (offset (align a .word) + k) .half v) := by
  have hlt : k < Width.word.bytes := by simp only [Width.bytes]; omega
  rw [(memWrite_eq _ _ _ v).2 (prefetchHit_half_of_word h hk),
    writeValue_io ((region_align_add a .word k hlt).trans hr), ioWrite_of_ne_word (by decide), align_half_of_word a hk,
    offset_align_add a .word k hlt]

/-- A word that no device owns whole is written as its two halfwords, the lower first (R73, D12). -/
theorem memWrite_io_word (hr : region a = .io) (hw : wordDevice s (offset (align a .word)) = none)
    (h : memWrite s a .word v = .next t) : ∃ u u', memWrite s (align a .word) .half (v &&& 0xFFFF) = .next u ∧
      memWrite u (align a .word + 2) .half (v >>> 16) = .next u' ∧ SameIo u' t ∧ NoExchange u' t := by
  obtain ⟨hp, rfl⟩ := memWrite_next h
  have hlo := memWrite_io_half hr hp (.inl rfl) (v &&& 0xFFFF)
  rw [BitVec.add_zero, Nat.add_zero] at hlo
  have hf := memWrite_frame hlo
  have hhi := memWrite_io_half hr ((prefetchHit_congr hf.pc hf.cpsr a .word).trans hp) (.inr rfl) (v >>> 16)
  refine ⟨_, _, hlo, hhi, ?_⟩
  rw [writeValue_io hr, ioWrite_word_of_none (s := charge s a .word) hw]
  simp only [ioWritePart_charge, ioWritePart_atClock]
  exact ⟨⟨rfl, rfl, rfl⟩, rfl, rfl, rfl⟩

end Sys2Proof.Machine

/-- Settles O38: every write by its region and, in the I/O window, by its owner; a byte that fills its halfword is a halfword
write. -/
theorem memoryWrites : Obligations.MemoryWrites := by
  intro s t a n v h
  have hf := memWrite_frame h
  obtain ⟨-, ht⟩ := memWrite_next h
  refine ⟨fun hs => ?_, fun hn hr => ?_, fun hd => ?_, fun hw => ?_, fun hr hc => ?_, fun hr => ⟨fun id hd hd2 => ?_,
    fun hn hd => ?_⟩, fun b hb => ?_, hf.regs, hf.written, hf.cpsr, hf.pc⟩
  · rw [ht]
    exact bytesAt_writeValue _ a n v hs
  · rw [ht, hn]
    exact peek_writeValue_doubled v hr
  · rw [ht, writeValue_dropped (s := charge s a n) hd]
    exact forwardedWrite_charge s a n
  · rw [ht, writeValue_save (s := charge s a n) hw]
    exact forwardedWrite_forward s a n _ _ n v
  · rw [ht, writeValue_cartridge (s := charge s a n) hr hc]
    exact forwardedWrite_forward s a n _ _ n v
  · rw [ht, writeValue_device (s := charge s a n) hr hd hd2]
    exact forwardedWrite_forward s a n _ _ n v
  · subst hn
    exact memWrite_io_word hr (wordDevice_eq_none hd) h
  · rw [ht, peek_writeValue_outside _ a n v b hb]
    exact peek_congr rfl rfl b
end

section
/-! The fields of a code word (30_encoding R110 to R127), which both directions of the round trip read and write. -/

open Sys2Proof Sys2Proof.Machine

namespace Sys2Proof

/-! ### Fields of a code word

The library's rules for a field of two joined words, in a form that rewrites where the widths are numerals. -/

section

variable {v w s l : Nat} {x : BitVec v} {y : BitVec w}

@[simp] theorem extractLsb'_append_low (h : s + l ≤ w) :
    BitVec.extractLsb' s l (no_index (x ++ y)) = BitVec.extractLsb' s l y :=
  BitVec.extractLsb'_append_eq_of_add_le h

@[simp] theorem extractLsb'_append_high (h : w ≤ s) :
    BitVec.extractLsb' s l (no_index (x ++ y)) = BitVec.extractLsb' (s - w) l x :=
  BitVec.extractLsb'_append_eq_of_le h

@[simp] theorem getElem_append_field {h : s < v + w} :
    @GetElem.getElem (no_index (BitVec (v + w))) Nat Bool _ _ (no_index (x ++ y)) s h =
      if s < w then y.getLsbD s else x.getLsbD (s - w) := by
  rw [← BitVec.getLsbD_append, BitVec.getLsbD_eq_getElem]

/-- Two joined words are u when each is its field of u. -/
@[simp] theorem append_eq_iff {u : BitVec (v + w)} :
    @Eq (no_index (BitVec (v + w))) (no_index (x ++ y)) u ↔ x = u.extractLsb' w v ∧ y = u.extractLsb' 0 w := by
  constructor
  · rintro rfl
    simp
  · rintro ⟨rfl, rfl⟩
    exact BitVec.extractLsb'_append_extractLsb'

end

section

variable {n : Nat} (w : BitVec n)

@[simp] theorem extractLsb'_extractLsb' {s l s' l' : Nat} (h : s + l ≤ l') :
    (w.extractLsb' s' l').extractLsb' s l = w.extractLsb' (s' + s) l := by
  apply BitVec.eq_of_getLsbD_eq
  intro i hi
  have hsi : s + i < l' := by omega
  simp [hi, hsi, Nat.add_assoc]

theorem extractLsb'_split (s k l : Nat) : w.extractLsb' s (k + l) = w.extractLsb' (s + l) k ++ w.extractLsb' s l :=
  (BitVec.extractLsb'_append_extractLsb'_eq_extractLsb' rfl).symm

@[simp] theorem extractLsb'_one (s : Nat) : w.extractLsb' s 1 = bit (w.getLsbD s) := by
  apply BitVec.eq_of_getLsbD_eq
  simp

/-- The lowest bit of a field, apart from the rest. -/
theorem extractLsb'_bit (s k : Nat) : w.extractLsb' s (k + 1) = w.extractLsb' (s + 1) k ++ bit (w.getLsbD s) := by
  rw [extractLsb'_split, extractLsb'_one]

/-- A field at its value in the multiply and swap lines of R114, bit by bit. -/
theorem extractLsb'_eq_nine_iff (s : Nat) : w.extractLsb' s 4 = 9#4 ↔
    w.getLsbD (s + 3) = true ∧ w.getLsbD (s + 2) = false ∧ w.getLsbD (s + 1) = false ∧ w.getLsbD s = true := by
  rw [extractLsb'_bit w s 3, extractLsb'_bit w (s + 1) 2, extractLsb'_bit w (s + 2) 1, extractLsb'_one w (s + 3)]
  generalize w.getLsbD (s + 3) = a, w.getLsbD (s + 2) = b, w.getLsbD (s + 1) = c, w.getLsbD s = d
  revert a b c d
  decide

end

/-! ### Small fields -/

@[simp] theorem Cond.ofBits_bits (c : Cond) : Cond.ofBits c.bits = c := by cases c <;> rfl

@[simp] theorem Cond.bits_ofBits (b : BitVec 4) : (Cond.ofBits b).bits = b := by revert b; decide

theorem Cond.ofBits_eq_al_iff {b : BitVec 4} : Cond.ofBits b = .al ↔ b = 14#4 := by revert b; decide

theorem Cond.ofBits_eq_nv_iff {b : BitVec 4} : Cond.ofBits b = .nv ↔ b = 15#4 := by revert b; decide

@[simp] theorem ShiftType.ofBits_bits (t : ShiftType) : ShiftType.ofBits t.bits = t := by cases t <;> rfl

@[simp] theorem ShiftType.bits_ofBits (b : BitVec 2) : (ShiftType.ofBits b).bits = b := by revert b; decide

theorem bitVec2_cases (b : BitVec 2) : b = 0 ∨ b = 1 ∨ b = 2 ∨ b = 3 := by revert b; decide

theorem bitVec3_cases (b : BitVec 3) : b = 0 ∨ b = 1 ∨ b = 2 ∨ b = 3 ∨ b = 4 ∨ b = 5 ∨ b = 6 ∨ b = 7 := by
  revert b; decide

/-- A word of lines 1 to 4 of R114 that none of lines 1 to 3 takes. -/
theorem undMulFree_iff {op : BitVec 5} : undMulFree op = true ↔ ¬op.extractLsb' 2 3 = 0#3 ∧
    ¬op.extractLsb' 3 2 = 1#2 ∧ ¬(op.extractLsb' 3 2 = 2#2 ∧ op.extractLsb' 0 2 = 0#2) := by
  simp [undMulFree, and_assoc, imp_iff_not_or]

/-- A word of lines 8 to 11 of R114 that none of lines 1 to 10 takes. -/
theorem undMiscFree_iff {op : BitVec 2} {lo : Byte} : undMiscFree op lo = true ↔ ¬(lo[7] = true ∧ lo[4] = true) ∧
    ¬(op = 1#2 ∧ lo.extractLsb' 4 4 = 1#4) ∧ ¬lo.extractLsb' 4 4 = 0#4 := by
  simp [undMiscFree, and_assoc, imp_iff_not_or]

/-- The instruction is well-formed and the code word is its encoding. -/
def Instr.Encodes (i : Instr) (c : Code) : Prop := i.wf = true ∧ encodeCode i = c

@[simp] theorem Instr.encodes_iff {i : Instr} {c : Code} : i.Encodes c ↔ i.wf = true ∧ encodeCode i = c := Iff.rfl

/-- Decoding the bytes of a code word leaves no byte. -/
theorem decode_bytes (c : Code) : decode c.isThumb c.bytes = .ok (decodeCode c, []) := by
  cases c with
  | arm w =>
    have h : w.extractLsb' 24 8 ++ w.extractLsb' 16 8 ++ w.extractLsb' 8 8 ++ w.extractLsb' 0 8 = w := by simp
    simp [decode, Code.bytes, Code.isThumb, decodeCode, h]
  | thumb h =>
    have h : h.extractLsb' 8 8 ++ h.extractLsb' 0 8 = h := BitVec.extractLsb'_append_extractLsb'
    simp [decode, Code.bytes, Code.isThumb, decodeCode, h]

end Sys2Proof
end

section
/-! Decode of encode for the Thumb set (R111, R126, R127): the fixed bits of each format lead the decoder to its line. -/

open Sys2Proof Sys2Proof.Machine

namespace Sys2Proof

/-- A halfword that encodes a well-formed Thumb instruction decodes to it. -/
theorem decodeThumb_of_encodes {i : Instr} {w : Half} (h : i.Encodes (.thumb w)) : decodeThumb w = i := by
  obtain ⟨hw, h⟩ := h
  cases i with
  | thumbLslImm | thumbLsrImm | thumbAsrImm =>
    cases h
    simp [decodeThumb, decodeThumbShift, encThumbOff5]
  | thumbAddReg | thumbSubReg | thumbAddImm3 | thumbSubImm3 =>
    cases h
    simp [decodeThumb, decodeThumbShift, encThumbReg3]
  | thumbMovImm | thumbCmpImm | thumbAddImm8 | thumbSubImm8 =>
    cases h
    simp [decodeThumb, decodeThumbImm, encThumbImm8]
  | thumbAnd | thumbEor | thumbLslReg | thumbLsrReg | thumbAsrReg | thumbAdc | thumbSbc | thumbRorReg | thumbTst
  | thumbNeg | thumbCmpReg | thumbCmn | thumbOrr | thumbMul | thumbBic | thumbMvn =>
    cases h
    simp [decodeThumb, decodeThumbSpace2, decodeThumbAlu, encThumbAlu]
  | thumbAddHi | thumbCmpHi | thumbMovHi =>
    cases h
    simp [decodeThumb, decodeThumbSpace2, decodeThumbHi, encThumbHi]
  | thumbBx =>
    cases h
    simp [decodeThumb, decodeThumbSpace2, decodeThumbHi]
  | thumbLdrPc =>
    cases h
    simp [decodeThumb, decodeThumbSpace2, encThumbImm8]
  | thumbStrReg | thumbStrbReg | thumbLdrReg | thumbLdrbReg | thumbStrhReg | thumbLdsbReg | thumbLdrhReg
  | thumbLdshReg =>
    cases h
    simp [decodeThumb, decodeThumbSpace2, decodeThumbRegOffset, encThumbReg3]
  | thumbStrImm | thumbLdrImm | thumbStrbImm | thumbLdrbImm =>
    cases h
    simp [decodeThumb, decodeThumbImmOffset, encThumbOff5]
  | thumbStrhImm | thumbLdrhImm =>
    cases h
    simp [decodeThumb, decodeThumbHalfSp, encThumbOff5]
  | thumbStrSp | thumbLdrSp =>
    cases h
    simp [decodeThumb, decodeThumbHalfSp, encThumbImm8]
  | thumbAddPc | thumbAddSp =>
    cases h
    simp [decodeThumb, decodeThumbMisc, encThumbImm8]
  | thumbIncSp | thumbDecSp =>
    cases h
    simp [decodeThumb, decodeThumbMisc]
  | thumbPush | thumbPop =>
    cases h
    simp [decodeThumb, decodeThumbMisc, extractLsb'_bit _ 0 3]
  | thumbUnd1011 bits =>
    cases h
    obtain ⟨h8, h9⟩ : ¬bits.extractLsb' 8 4 = 0#4 ∧ ¬bits.extractLsb' 9 2 = 2#2 := by
      simpa [Instr.wf, und1011Free] using hw
    simp [decodeThumb, decodeThumbMisc, h8, h9]
  | thumbStmia | thumbLdmia =>
    cases h
    simp [decodeThumb, decodeThumbBlockCond, encThumbImm8]
  | thumbSwi | thumbUndCond =>
    cases h
    simp [decodeThumb, decodeThumbBlockCond]
  | thumbBcond c =>
    cases h
    obtain ⟨hAl, hNv⟩ : c ≠ .al ∧ c ≠ .nv := by simpa [Instr.wf] using hw
    simp [decodeThumb, decodeThumbBlockCond, ← Cond.ofBits_eq_al_iff, ← Cond.ofBits_eq_nv_iff, hAl, hNv]
  | thumbB | thumbUnd11101 | thumbBlHigh | thumbBlLow =>
    cases h
    simp [decodeThumb, decodeThumbBranch]
  | _ => cases h

end Sys2Proof
end

section
/-! Decode of encode for the ARM set (R111, R114): the same for the formats of R115 to R125. The words whose fixed bits
do not stand at the bits R114 tests have a lemma of their own. -/

open Sys2Proof Sys2Proof.Machine

namespace Sys2Proof

/-! ### Data processing (R115 to R117) -/

section

variable {c : Cond} {w : Word} (hs : w.extractLsb' 23 2 = 2 → w.getLsbD 20 = true)
include hs

/-- Line 12 of R114. -/
theorem decodeSpace0_dataProc (h74 : w.getLsbD 7 = true → w.getLsbD 4 = false) :
    decodeSpace0 c w = decodeDataProc c w := by
  have h9 : w.extractLsb' 4 4 ≠ 9 := by
    intro h9
    obtain ⟨h7, -, -, h4⟩ := (extractLsb'_eq_nine_iff w 4).mp h9
    rw [h74 h7] at h4
    cases h4
  unfold decodeSpace0
  rw [if_neg h9, if_neg (by simpa using h74), if_neg (by simpa using hs)]

/-- Line 15 of R114. -/
theorem decodeSpace1_dataProc : decodeSpace1 c w = decodeDataProc c w := by
  unfold decodeSpace1
  rw [if_neg (by simpa using hs)]

end

section

variable (c : Cond) (op : BitVec 4) (s : Bool) (rn rd : BitVec 4) (o : Operand2)

/-- The fields of R115, with bits 27:25 = 00 I. -/
theorem encDataProc_fields :
    let w := encDataProc c op s rn rd o
    w.extractLsb' 28 4 = c.bits ∧ w.extractLsb' 25 3 = 0#2 ++ bit o.iBit ∧ w.extractLsb' 21 4 = op ∧
      w.getLsbD 20 = s ∧ w.extractLsb' 16 4 = rn ∧ w.extractLsb' 12 4 = rd ∧ operand2Of w = o := by
  refine ⟨?_, ?_, ?_, ?_, ?_, ?_, ?_⟩
  case refine_2 =>
    rw [extractLsb'_bit _ 25 2]
    simp [encDataProc]
  case refine_7 => cases o <;> simp [operand2Of, encDataProc, Operand2.iBit, Operand2.bits]
  all_goals simp [encDataProc]

/-- A data-processing word outside the space of lines 8 to 11, 13 and 14 of R114 decodes by its opcode. -/
theorem decodeArm_encDataProc (hs : op.extractLsb' 2 2 = 2 → s = true) :
    decodeArm (encDataProc c op s rn rd o) = decodeDataProc c (encDataProc c op s rn rd o) := by
  obtain ⟨hc, h25, -⟩ := encDataProc_fields c op s rn rd o
  have hs : (encDataProc c op s rn rd o).extractLsb' 23 2 = 2 → (encDataProc c op s rn rd o).getLsbD 20 = true := by
    simpa [encDataProc] using hs
  cases o with
  | imm rot k => simp [decodeArm, hc, h25, Operand2.iBit, decodeSpace1_dataProc hs]
  | immShift k t rm =>
    have h74 : (encDataProc c op s rn rd (.immShift k t rm)).getLsbD 7 = true →
        (encDataProc c op s rn rd (.immShift k t rm)).getLsbD 4 = false := by simp [encDataProc, Operand2.bits]
    simp [decodeArm, hc, h25, Operand2.iBit, decodeSpace0_dataProc hs h74]
  | regShift rs t rm =>
    have h74 : (encDataProc c op s rn rd (.regShift rs t rm)).getLsbD 7 = true →
        (encDataProc c op s rn rd (.regShift rs t rm)).getLsbD 4 = false := by simp [encDataProc, Operand2.bits]
    simp [decodeArm, hc, h25, Operand2.iBit, decodeSpace0_dataProc hs h74]

end

/-! ### Multiplies (R119) -/

section

variable (c : Cond) (op : BitVec 4) (s : Bool) (r16 r12 rs rm : BitVec 4)

/-- Line 1 of R114. -/
theorem decodeArm_encMul_short (hop : op.extractLsb' 1 3 = 0#3) :
    decodeArm (encMul c op s r16 r12 rs rm) = decodeMul c (encMul c op s r16 r12 rs rm) := by
  simp [decodeArm, decodeSpace0, encMul, hop]

/-- Line 2 of R114. -/
theorem decodeArm_encMul_long (hop : op.extractLsb' 2 2 = 1#2) :
    decodeArm (encMul c op s r16 r12 rs rm) = decodeMulLong c (encMul c op s r16 r12 rs rm) := by
  have h : ¬op.extractLsb' 1 3 = 0#3 := by
    rw [extractLsb'_bit, hop]
    simp
  simp [decodeArm, decodeSpace0, encMul, hop, h]

end

/-! ### Transfers (R121, R122) -/

section

variable (c : Cond) (p up b w l : Bool) (rn rd : BitVec 4)

/-- The fields of R121, with bits 27:25 = 01 I. -/
theorem encSingle_fields (o : Offset12) :
    let x := encSingle c p up b w l rn rd o
    x.extractLsb' 28 4 = c.bits ∧ x.extractLsb' 25 3 = 1#2 ++ bit o.iBit ∧ x.getLsbD 24 = p ∧ x.getLsbD 23 = up ∧
      x.getLsbD 22 = b ∧ x.getLsbD 21 = w ∧ x.getLsbD 20 = l ∧ x.extractLsb' 16 4 = rn ∧ x.extractLsb' 12 4 = rd ∧
      offset12Of x = o := by
  refine ⟨?_, ?_, ?_, ?_, ?_, ?_, ?_, ?_, ?_, ?_⟩
  case refine_2 =>
    rw [extractLsb'_bit _ 25 2]
    simp [encSingle]
  case refine_10 => cases o <;> simp [offset12Of, encSingle, Offset12.iBit, Offset12.bits]
  all_goals simp [encSingle]

theorem decodeArm_encSingle (o : Offset12) :
    decodeArm (encSingle c p up b w l rn rd o) = decodeSingle c (encSingle c p up b w l rn rd o) := by
  obtain ⟨hc, h25, -⟩ := encSingle_fields c p up b w l rn rd o
  cases o with
  | imm k => simp [decodeArm, hc, h25, Offset12.iBit]
  | reg k t rm =>
    have h4 : (encSingle c p up b w l rn rd (.reg k t rm)).getLsbD 4 = false := by simp [encSingle, Offset12.bits]
    simp [decodeArm, hc, h25, Offset12.iBit, h4, -BitVec.getLsbD_eq_getElem]

/-- The fields of R122. -/
theorem encHalf_fields (sgn h : Bool) (o : Offset8) :
    let x := encHalf c p up w l sgn h rn rd o
    x.extractLsb' 28 4 = c.bits ∧ x.extractLsb' 25 3 = 0#3 ∧ x.getLsbD 24 = p ∧ x.getLsbD 23 = up ∧
      x.getLsbD 21 = w ∧ x.getLsbD 20 = l ∧ x.extractLsb' 16 4 = rn ∧ x.extractLsb' 12 4 = rd ∧
      x.getLsbD 7 = true ∧ x.getLsbD 6 = sgn ∧ x.getLsbD 5 = h ∧ x.getLsbD 4 = true ∧ offset8Of x = o := by
  refine ⟨?_, ?_, ?_, ?_, ?_, ?_, ?_, ?_, ?_, ?_, ?_, ?_, ?_⟩
  case refine_13 => cases o <;> simp [offset8Of, encHalf, Offset8.iBit, Offset8.hi, Offset8.lo]
  all_goals simp [encHalf]

/-- Lines 5 and 6 of R114: H alone is a halfword transfer, S a signed load. -/
theorem decodeArm_encHalf (sgn h : Bool) (o : Offset8) (hsh : sgn = true ∨ h = true) (hl : sgn = true → l = true) :
    let x := encHalf c p up w l sgn h rn rd o
    decodeArm x = if sgn then decodeSigned c x else decodeHalfword c x := by
  intro x
  obtain ⟨hc, h25, -, -, -, h20, -, -, h7, h6, h5, h4, -⟩ := encHalf_fields c p up w l rn rd sgn h o
  have h9 : ¬x.extractLsb' 4 4 = 9#4 := by
    rw [extractLsb'_eq_nine_iff]
    rintro ⟨-, hs, hh, -⟩
    rcases hsh with rfl | rfl
    · cases h6.symm.trans hs
    · cases h5.symm.trans hh
  cases sgn with
  | false => simp [x, decodeArm, decodeSpace0, hc, h25, h9, h7, h6, h4, -BitVec.getLsbD_eq_getElem]
  | true =>
    obtain rfl : l = true := hl rfl
    simp [x, decodeArm, decodeSpace0, hc, h25, h9, h7, h6, h4, h20, -BitVec.getLsbD_eq_getElem]

end

/-! ### The unallocated spaces that other instructions share (lines 4 and 11 of R114) -/

theorem decodeArm_undMul {c : Cond} {op : BitVec 5} {mid : BitVec 12} {lo : BitVec 4} (h : undMulFree op = true) :
    decodeArm (c.bits ++ 0#3 ++ op ++ mid ++ 9#4 ++ lo) = .armUndMul c op mid lo := by
  obtain ⟨hMul, hLong, hSwap⟩ := undMulFree_iff.mp h
  simp [decodeArm, decodeSpace0, hMul, hLong, hSwap]

theorem decodeArm_undMisc {c : Cond} {op : BitVec 2} {mid : BitVec 12} {lo : Byte} (h : undMiscFree op lo = true) :
    decodeArm (c.bits ++ 2#5 ++ op ++ 0#1 ++ mid ++ lo) = .armUndMisc c op mid lo := by
  obtain ⟨h74, hBx, hStatus⟩ := undMiscFree_iff.mp h
  have h9 : ¬lo.extractLsb' 4 4 = 9#4 := by
    rw [extractLsb'_eq_nine_iff]
    rintro ⟨h7, -, -, h4⟩
    exact h74 ⟨h7, h4⟩
  simp [decodeArm, decodeSpace0, h9, h74, hBx, hStatus]

/-! ### The ARM set (R114) -/

/-- A word that encodes a well-formed ARM instruction decodes to it. -/
theorem decodeArm_of_encodes {i : Instr} {w : Word} (h : i.Encodes (.arm w)) : decodeArm w = i := by
  obtain ⟨hw, h⟩ := h
  cases i with
  | armAnd | armEor | armSub | armRsb | armAdd | armAdc | armSbc | armRsc | armTst | armTeq | armCmp | armCmn | armOrr
  | armMov | armBic | armMvn =>
    cases h
    rw [decodeArm_encDataProc _ _ _ _ _ _ (by simp)]
    simp [decodeDataProc, encDataProc_fields, -BitVec.getLsbD_eq_getElem]
  | armMrs | armMsrReg =>
    cases h
    simp [decodeArm, decodeSpace0]
  | armMsrImm | armUndMsrImm =>
    cases h
    simp [decodeArm, decodeSpace1]
  | armMul | armMla =>
    cases h
    rw [decodeArm_encMul_short _ _ _ _ _ _ _ (by decide)]
    simp [decodeMul, encMul]
  | armUmull | armUmlal | armSmull | armSmlal =>
    cases h
    rw [decodeArm_encMul_long _ _ _ _ _ _ _ (by decide)]
    simp [decodeMulLong, encMul]
  | armSwp | armSwpb =>
    cases h
    simp [decodeArm, decodeSpace0, decodeSwap, encSwap, extractLsb'_bit _ 0 2]
  | armLdr c ix | armLdrb c ix | armStr c ix | armStrb c ix =>
    cases h
    rw [decodeArm_encSingle]
    cases ix <;> simp [decodeSingle, encSingle_fields, Index.pBit, Index.wBit, -BitVec.getLsbD_eq_getElem]
  | armLdrt | armLdrbt | armStrt | armStrbt =>
    cases h
    rw [decodeArm_encSingle]
    simp [decodeSingle, encSingle_fields, -BitVec.getLsbD_eq_getElem]
  | armStrh | armLdrh | armLdrsb | armLdrsh =>
    cases h
    rw [decodeArm_encHalf _ _ _ _ _ _ _ _ _ _ (by simp) (by simp)]
    simp [decodeHalfword, decodeSigned, encHalf_fields, -BitVec.getLsbD_eq_getElem]
  | armLdm | armStm | armLdmUser | armStmUser | armLdmExc =>
    cases h
    simp [decodeArm, decodeBlock, encBlock]
  | armB | armBl =>
    cases h
    simp [decodeArm]
  | armBx =>
    cases h
    simp [decodeArm, decodeSpace0]
  | armSwi =>
    cases h
    simp [decodeArm]
  | armCdp =>
    cases h
    simp [decodeArm, decodeCoproc]
  | armLdc | armStc =>
    cases h
    simp [decodeArm, decodeCoprocTransfer, encCoprocTransfer]
  | armMcr | armMrc =>
    cases h
    simp [decodeArm, decodeCoproc, encCoprocReg]
  | armUndArch =>
    cases h
    simp [decodeArm]
  | armUndMul =>
    cases h
    exact decodeArm_undMul hw
  | armUndSignedStore =>
    cases h
    simp [decodeArm, decodeSpace0, extractLsb'_eq_nine_iff]
  | armUndMisc =>
    cases h
    exact decodeArm_undMisc hw
  | _ => cases h

end Sys2Proof
end

section
/-! The round trip on bytes (R111). -/

open Sys2Proof Sys2Proof.Machine

namespace Sys2Proof

theorem decodeCode_of_encodes {i : Instr} {c : Code} (h : i.Encodes c) : decodeCode c = i := by
  cases c with
  | arm w => exact decodeArm_of_encodes h
  | thumb h' => exact decodeThumb_of_encodes h

/-- A well-formed instruction of either set is read back from its bytes, in the state of its set. -/
theorem decode_encode {i : Instr} (hw : i.wf = true) : decode i.isThumb (encode i) = .ok (i, []) := by
  rw [Instr.isThumb, encode, decode_bytes, decodeCode_of_encodes ⟨hw, rfl⟩]

end Sys2Proof

/-- Settles O3: by `decode_encode`, from the Thumb decoder's answer on each format. -/
theorem thumbDecodeOfEncode : Obligations.ThumbDecodeOfEncode := by
  intro i hw ht
  rw [← ht]
  exact decode_encode hw

/-- Settles O4: by `decode_encode`, from the ARM decoder's answer on each format. -/
theorem armDecodeOfEncode : Obligations.ArmDecodeOfEncode := by
  intro i hw ht
  rw [← ht]
  exact decode_encode hw
end

section
/-! Encode of decode (R111): what each decoder of R114 and R126 answers is well-formed and encodes to the word it was
given. The fixed bits of a format are the bits its decoder has tested, in the form `getLsbD` in which it tests them. -/

open Sys2Proof Sys2Proof.Machine

namespace Sys2Proof

/-! ### Thumb (R126, R127) -/

section

variable {h : Half}

theorem decodeThumbShift_encodes (hc : h.extractLsb' 13 3 = 0#3) : (decodeThumbShift h).Encodes (.thumb h) := by
  have h5 := extractLsb'_split h 11 3 2
  have h7 := extractLsb'_split h 9 5 2
  rcases bitVec2_cases (h.extractLsb' 11 2) with h11 | h11 | h11 | h11
  case inr.inr.inr =>
    rcases bitVec2_cases (h.extractLsb' 9 2) with h9 | h9 | h9 | h9 <;>
      simp [decodeThumbShift, Instr.wf, encodeCode, encThumbReg3, hc, h11, h9, h5, h7]
  all_goals simp [decodeThumbShift, Instr.wf, encodeCode, encThumbOff5, hc, h11, h5]

theorem decodeThumbImm_encodes (hc : h.extractLsb' 13 3 = 1#3) : (decodeThumbImm h).Encodes (.thumb h) := by
  have h5 := extractLsb'_split h 11 3 2
  rcases bitVec2_cases (h.extractLsb' 11 2) with h11 | h11 | h11 | h11 <;>
    simp [decodeThumbImm, Instr.wf, encodeCode, encThumbImm8, hc, h11, h5]

theorem decodeThumbAlu_encodes (h10 : h.extractLsb' 10 6 = 16#6) : (decodeThumbAlu h).Encodes (.thumb h) := by
  have hAlu : encThumbAlu (h.extractLsb' 6 4) (h.extractLsb' 3 3) (h.extractLsb' 0 3) = h := by
    simp [encThumbAlu, h10]
  conv => rhs; rw [← hAlu]
  unfold decodeThumbAlu
  generalize h.extractLsb' 6 4 = op
  obtain ⟨op⟩ := op
  fin_cases op <;> exact ⟨rfl, rfl⟩

theorem decodeThumbHi_encodes (h10 : h.extractLsb' 10 6 = 17#6) : (decodeThumbHi h).Encodes (.thumb h) := by
  have h8 := extractLsb'_split h 8 6 2
  rcases bitVec2_cases (h.extractLsb' 8 2) with h2 | h2 | h2 | h2 <;>
    simp [decodeThumbHi, Instr.wf, encodeCode, encThumbHi, h10, h8, h2]

theorem decodeThumbRegOffset_encodes (h12 : h.extractLsb' 12 4 = 5#4) :
    (decodeThumbRegOffset h).Encodes (.thumb h) := by
  have h9 := extractLsb'_split h 9 4 3
  rcases bitVec3_cases (h.extractLsb' 9 3) with h3 | h3 | h3 | h3 | h3 | h3 | h3 | h3 <;>
    simp [decodeThumbRegOffset, Instr.wf, encodeCode, encThumbReg3, h12, h9, h3]

theorem decodeThumbSpace2_encodes (hc : h.extractLsb' 13 3 = 2#3) : (decodeThumbSpace2 h).Encodes (.thumb h) := by
  have h12 := extractLsb'_bit h 12 3
  have h11 := extractLsb'_bit h 11 4
  have h10 := extractLsb'_bit h 10 5
  unfold decodeThumbSpace2
  cases b12 : h.getLsbD 12 with
  | true => exact decodeThumbRegOffset_encodes (by rw [h12, hc, b12]; rfl)
  | false =>
    cases b11 : h.getLsbD 11 with
    | true =>
      simp [Instr.wf, encodeCode, encThumbImm8, hc, h12, h11, b12, b11, -BitVec.getLsbD_eq_getElem]
    | false =>
      cases b10 : h.getLsbD 10 with
      | true => exact decodeThumbHi_encodes (by rw [h10, h11, h12, hc, b12, b11, b10]; rfl)
      | false => exact decodeThumbAlu_encodes (by rw [h10, h11, h12, hc, b12, b11, b10]; rfl)

theorem decodeThumbImmOffset_encodes (hc : h.extractLsb' 13 3 = 3#3) : (decodeThumbImmOffset h).Encodes (.thumb h) := by
  have h5 := extractLsb'_split h 11 3 2
  rcases bitVec2_cases (h.extractLsb' 11 2) with h11 | h11 | h11 | h11 <;>
    simp [decodeThumbImmOffset, Instr.wf, encodeCode, encThumbOff5, hc, h11, h5]

theorem decodeThumbHalfSp_encodes (hc : h.extractLsb' 13 3 = 4#3) : (decodeThumbHalfSp h).Encodes (.thumb h) := by
  have h5 := extractLsb'_split h 11 3 2
  rcases bitVec2_cases (h.extractLsb' 11 2) with h11 | h11 | h11 | h11 <;>
    simp [decodeThumbHalfSp, Instr.wf, encodeCode, encThumbOff5, encThumbImm8, hc, h11, h5]

theorem decodeThumbMisc_encodes (hc : h.extractLsb' 13 3 = 5#3) : (decodeThumbMisc h).Encodes (.thumb h) := by
  have h12 := extractLsb'_bit h 12 3
  have h11 := extractLsb'_bit h 11 4
  have h9 := extractLsb'_split h 9 5 2
  have h7 : h.extractLsb' 7 9 = h.extractLsb' 12 4 ++ h.extractLsb' 8 4 ++ bit (h.getLsbD 7) := by
    rw [extractLsb'_bit h 7 8, extractLsb'_split h 8 4 4]
  unfold decodeThumbMisc
  split
  · split
    · split <;> simp [*, Instr.wf, encodeCode, -BitVec.getLsbD_eq_getElem]
    · split
      · split <;> simp [*, Instr.wf, encodeCode, -BitVec.getLsbD_eq_getElem]
      · simp_all [Instr.wf, und1011Free, encodeCode]
  · split <;> simp [*, Instr.wf, encodeCode, encThumbImm8, -BitVec.getLsbD_eq_getElem]

theorem decodeThumbBlockCond_encodes (hc : h.extractLsb' 13 3 = 6#3) : (decodeThumbBlockCond h).Encodes (.thumb h) := by
  have h12 := extractLsb'_bit h 12 3
  have h11 := extractLsb'_bit h 11 4
  unfold decodeThumbBlockCond
  split
  · have h8 := extractLsb'_split h 8 4 4
    split
    · simp [*, Instr.wf, encodeCode, -BitVec.getLsbD_eq_getElem]
    · split
      · simp [*, Instr.wf, encodeCode, -BitVec.getLsbD_eq_getElem]
      · simp_all [Instr.wf, encodeCode, Cond.ofBits_eq_al_iff, Cond.ofBits_eq_nv_iff]
  · split <;> simp [*, Instr.wf, encodeCode, encThumbImm8, -BitVec.getLsbD_eq_getElem]

theorem decodeThumbBranch_encodes (hc : h.extractLsb' 13 3 = 7#3) : (decodeThumbBranch h).Encodes (.thumb h) := by
  have h5 := extractLsb'_split h 11 3 2
  rcases bitVec2_cases (h.extractLsb' 11 2) with h11 | h11 | h11 | h11 <;>
    simp [decodeThumbBranch, Instr.wf, encodeCode, hc, h11, h5]

theorem decodeThumb_encodes (h : Half) : (decodeThumb h).Encodes (.thumb h) := by
  unfold decodeThumb
  rcases bitVec3_cases (h.extractLsb' 13 3) with hc | hc | hc | hc | hc | hc | hc | hc <;> rw [hc]
  · exact decodeThumbShift_encodes hc
  · exact decodeThumbImm_encodes hc
  · exact decodeThumbSpace2_encodes hc
  · exact decodeThumbImmOffset_encodes hc
  · exact decodeThumbHalfSp_encodes hc
  · exact decodeThumbMisc_encodes hc
  · exact decodeThumbBlockCond_encodes hc
  · exact decodeThumbBranch_encodes hc

end

end Sys2Proof
end

section
/-! Encode of decode for the ARM set (R111, R114). -/

open Sys2Proof Sys2Proof.Machine

namespace Sys2Proof

/-! ### Operand fields (R116, R117, R121, R122) -/

section

variable (w : Word)

theorem operand2Of_iBit : bit (operand2Of w).iBit = w.extractLsb' 25 1 := by
  rw [extractLsb'_one]
  unfold operand2Of
  split
  next hb => rw [hb]; rfl
  next hb =>
    rw [Bool.not_eq_true] at hb
    split <;> rw [hb] <;> rfl

theorem offset12Of_iBit : bit (offset12Of w).iBit = w.extractLsb' 25 1 := by
  rw [extractLsb'_one]
  unfold offset12Of
  cases w.getLsbD 25 <;> rfl

theorem offset8Of_iBit : bit (offset8Of w).iBit = w.extractLsb' 22 1 := by
  rw [extractLsb'_one]
  unfold offset8Of
  cases w.getLsbD 22 <;> rfl

theorem offset8Of_hi : (offset8Of w).hi = w.extractLsb' 8 4 := by
  unfold offset8Of
  split
  · simp [Offset8.hi]
  · rfl

theorem offset8Of_lo : (offset8Of w).lo = w.extractLsb' 0 4 := by
  unfold offset8Of
  split
  · simp [Offset8.lo]
  · rfl

/-- P and W of the index mode that a word or byte transfer's own P and W name. -/
theorem index_bits {p w : Bool} (h : p = false → w = false) :
    (if p then (if w then .preIndexed else .offset) else .postIndexed : Index).pBit = p ∧
      (if p then (if w then .preIndexed else .offset) else .postIndexed : Index).wBit = w := by
  cases p with
  | true => cases w <;> exact ⟨rfl, rfl⟩
  | false => exact ⟨rfl, (h rfl).symm⟩

variable {w}

theorem operand2Of_bits (h : w.getLsbD 25 = false → w.getLsbD 7 = true → w.getLsbD 4 = false) :
    (operand2Of w).bits = w.extractLsb' 0 12 := by
  unfold operand2Of
  split
  · simp [Operand2.bits]
  · split <;> simp_all [Operand2.bits, -BitVec.getLsbD_eq_getElem]

theorem offset12Of_bits (h : w.getLsbD 25 = true → w.getLsbD 4 = false) :
    (offset12Of w).bits = w.extractLsb' 0 12 := by
  unfold offset12Of
  split <;> simp_all [Offset12.bits, -BitVec.getLsbD_eq_getElem]

end

/-! ### The decoders of R114, each under what its line has tested -/

section

variable {c : Cond} {w : Word} (hc : c.bits = w.extractLsb' 28 4)
include hc

/-- The opcode tells the sixteen operations apart; a comparison has S = 1. -/
theorem decodeDataProc_encodes (h26 : w.extractLsb' 26 2 = 0#2)
    (hs : w.extractLsb' 23 2 = 2#2 → w.getLsbD 20 = true)
    (h74 : w.getLsbD 25 = false → w.getLsbD 7 = true → w.getLsbD 4 = false) :
    (decodeDataProc c w).Encodes (.arm w) := by
  have hw : encDataProc c (w.extractLsb' 21 4) (w.getLsbD 20) (w.extractLsb' 16 4) (w.extractLsb' 12 4)
      (operand2Of w) = w := by
    simp [encDataProc, hc, h26, operand2Of_iBit, operand2Of_bits h74]
  have hs' : ((w.extractLsb' 21 4).extractLsb' 2 2 == 2#2 || w.getLsbD 20) = w.getLsbD 20 := by simpa using hs
  rw [← hs'] at hw
  conv => rhs; rw [← hw]
  unfold decodeDataProc
  generalize w.extractLsb' 21 4 = op
  obtain ⟨op⟩ := op
  fin_cases op <;> exact ⟨rfl, rfl⟩

theorem decodeSingle_encodes (h26 : w.extractLsb' 26 2 = 1#2)
    (h4 : w.getLsbD 25 = true → w.getLsbD 4 = false) : (decodeSingle c w).Encodes (.arm w) := by
  have hi := offset12Of_iBit w
  have hb := offset12Of_bits h4
  unfold decodeSingle
  split
  next hT =>
    obtain ⟨b24, b21⟩ : w.getLsbD 24 = false ∧ w.getLsbD 21 = true := by simpa using hT
    split <;> split <;> simp [*, Instr.wf, encodeCode, encSingle, -BitVec.getLsbD_eq_getElem]
  next hT =>
    obtain ⟨hp, hw⟩ := index_bits (p := w.getLsbD 24) (w := w.getLsbD 21) (by simpa using hT)
    generalize (if w.getLsbD 24 then (if w.getLsbD 21 then .preIndexed else .offset) else .postIndexed : Index) = ix at *
    split <;> split <;> simp [*, Instr.wf, encodeCode, encSingle, -BitVec.getLsbD_eq_getElem]

section

variable (h25 : w.extractLsb' 25 3 = 0#3)
include h25

theorem decodeMul_encodes (h4 : w.extractLsb' 4 4 = 9#4) (h22 : w.extractLsb' 22 3 = 0#3) :
    (decodeMul c w).Encodes (.arm w) := by
  have h21 := extractLsb'_bit w 21 3
  unfold decodeMul
  split <;> simp [*, Instr.wf, encodeCode, encMul, -BitVec.getLsbD_eq_getElem]

theorem decodeMulLong_encodes (h4 : w.extractLsb' 4 4 = 9#4) (h23 : w.extractLsb' 23 2 = 1#2) :
    (decodeMulLong c w).Encodes (.arm w) := by
  have h22 := extractLsb'_bit w 22 2
  have h21 := extractLsb'_bit w 21 3
  unfold decodeMulLong
  split <;> split <;> simp [*, Instr.wf, encodeCode, encMul, -BitVec.getLsbD_eq_getElem]

theorem decodeSwap_encodes (h4 : w.extractLsb' 4 4 = 9#4) (h23 : w.extractLsb' 23 2 = 2#2)
    (h20 : w.extractLsb' 20 2 = 0#2) : (decodeSwap c w).Encodes (.arm w) := by
  have h23' := extractLsb'_split w 23 3 2
  unfold decodeSwap
  split <;> simp [*, Instr.wf, encodeCode, encSwap, -BitVec.getLsbD_eq_getElem]

theorem decodeHalfword_encodes (h7 : w.getLsbD 7 = true) (h6 : w.getLsbD 6 = false) (h5 : w.getLsbD 5 = true)
    (h4 : w.getLsbD 4 = true) : (decodeHalfword c w).Encodes (.arm w) := by
  unfold decodeHalfword
  split <;> simp [*, Instr.wf, encodeCode, encHalf, offset8Of_iBit, offset8Of_hi, offset8Of_lo, -BitVec.getLsbD_eq_getElem]

theorem decodeSigned_encodes (h7 : w.getLsbD 7 = true) (h6 : w.getLsbD 6 = true)
    (h4 : w.getLsbD 4 = true) (h20 : w.getLsbD 20 = true) : (decodeSigned c w).Encodes (.arm w) := by
  unfold decodeSigned
  split <;> simp [*, Instr.wf, encodeCode, encHalf, offset8Of_iBit, offset8Of_hi, offset8Of_lo, -BitVec.getLsbD_eq_getElem]

/-- Lines 1 to 12 of R114, in their order. -/
theorem decodeSpace0_encodes : (decodeSpace0 c w).Encodes (.arm w) := by
  have h23' := extractLsb'_split w 23 3 2
  have h26 : w.extractLsb' 26 2 = 0#2 := by simpa using congrArg (BitVec.extractLsb' 1 2) h25
  unfold decodeSpace0
  split
  next h9 =>
    split
    next h22 => exact decodeMul_encodes hc h25 h9 h22
    next h22 =>
      split
      next h23 => exact decodeMulLong_encodes hc h25 h9 h23
      next h23 =>
        split
        next hSwap => exact decodeSwap_encodes hc h25 h9 hSwap.1 hSwap.2
        next hSwap =>
          refine ⟨undMulFree_iff.mpr (by simpa using And.intro h22 (And.intro h23 (not_and.mp hSwap))), ?_⟩
          simp [*, encodeCode]
  next h9 =>
    split
    next h74 =>
      obtain ⟨h7, h4⟩ : w.getLsbD 7 = true ∧ w.getLsbD 4 = true := by simpa using h74
      split
      next h6 =>
        have h6 : w.getLsbD 6 = false := by simpa using h6
        refine decodeHalfword_encodes hc h25 h7 h6 ?_ h4
        by_contra h5
        exact h9 ((extractLsb'_eq_nine_iff w 4).mpr ⟨h7, h6, by simpa using h5, h4⟩)
      next h6 =>
        have h6 : w.getLsbD 6 = true := by simpa using h6
        split
        next h20 => exact decodeSigned_encodes hc h25 h7 h6 h4 h20
        next h20 =>
          have h6' := extractLsb'_bit w 6 1
          simp [*, Instr.wf, encodeCode, -BitVec.getLsbD_eq_getElem]
    next h74 =>
      have h74 : w.getLsbD 7 = true → w.getLsbD 4 = false := by simpa using h74
      split
      next hMisc =>
        obtain ⟨h23, h20⟩ := hMisc
        split
        next hBx =>
          have h21' := extractLsb'_split w 21 5 2
          have h20' := extractLsb'_bit w 20 7
          simp [*, Instr.wf, encodeCode, -BitVec.getLsbD_eq_getElem]
        next hBx =>
          split
          next h0 =>
            have h21' := extractLsb'_bit w 20 1
            split <;> simp [*, Instr.wf, encodeCode, -BitVec.getLsbD_eq_getElem]
          next h0 =>
            refine ⟨undMiscFree_iff.mpr (by simpa using And.intro h74 (And.intro (not_and.mp hBx) h0)), ?_⟩
            simp [*, encodeCode, -BitVec.getLsbD_eq_getElem]
      next hMisc => exact decodeDataProc_encodes hc h26 (by simpa using hMisc) fun _ => h74

end

/-- Lines 13 to 15 of R114. -/
theorem decodeSpace1_encodes (h25 : w.extractLsb' 25 3 = 1#3) : (decodeSpace1 c w).Encodes (.arm w) := by
  have h26 : w.extractLsb' 26 2 = 0#2 := by simpa using congrArg (BitVec.extractLsb' 1 2) h25
  have b25 : w.getLsbD 25 = true := by simpa using congrArg (BitVec.getLsbD · 0) h25
  unfold decodeSpace1
  split
  next hMsr =>
    obtain ⟨h23, h20⟩ := hMsr
    have h23' := extractLsb'_split w 23 3 2
    have h20' := extractLsb'_bit w 20 1
    split <;> simp [*, Instr.wf, encodeCode, -BitVec.getLsbD_eq_getElem]
  next hMsr => exact decodeDataProc_encodes hc h26 (by simpa using hMsr) (by simp [b25])

theorem decodeBlock_encodes (h25 : w.extractLsb' 25 3 = 4#3) : (decodeBlock c w).Encodes (.arm w) := by
  unfold decodeBlock
  split
  · split
    · split <;> simp [*, Instr.wf, encodeCode, encBlock, -BitVec.getLsbD_eq_getElem]
    · simp [*, Instr.wf, encodeCode, encBlock, -BitVec.getLsbD_eq_getElem]
  · split <;> simp [*, Instr.wf, encodeCode, encBlock, -BitVec.getLsbD_eq_getElem]

theorem decodeCoprocTransfer_encodes (h25 : w.extractLsb' 25 3 = 6#3) : (decodeCoprocTransfer c w).Encodes (.arm w) := by
  unfold decodeCoprocTransfer
  split <;> simp [*, Instr.wf, encodeCode, encCoprocTransfer, -BitVec.getLsbD_eq_getElem]

theorem decodeCoproc_encodes (h24 : w.extractLsb' 24 4 = 14#4) : (decodeCoproc c w).Encodes (.arm w) := by
  unfold decodeCoproc
  split
  · split <;> simp [*, Instr.wf, encodeCode, encCoprocReg, -BitVec.getLsbD_eq_getElem]
  · simp [*, Instr.wf, encodeCode, -BitVec.getLsbD_eq_getElem]

end

theorem decodeArm_encodes (w : Word) : (decodeArm w).Encodes (.arm w) := by
  have hc : (Cond.ofBits (w.extractLsb' 28 4)).bits = w.extractLsb' 28 4 := Cond.bits_ofBits _
  have h26 : w.extractLsb' 26 2 = (w.extractLsb' 25 3).extractLsb' 1 2 := by simp
  have h24 := extractLsb'_bit w 24 3
  have b25 : w.getLsbD 25 = (w.extractLsb' 25 3).getLsbD 0 := by simp
  unfold decodeArm
  rcases bitVec3_cases (w.extractLsb' 25 3) with h25 | h25 | h25 | h25 | h25 | h25 | h25 | h25 <;>
    rw [h25] at h26 b25 h24 ⊢
  · exact decodeSpace0_encodes hc h25
  · exact decodeSpace1_encodes hc h25
  · exact decodeSingle_encodes hc h26 (fun hb => absurd (b25.symm.trans hb) (by decide))
  · show (if w.getLsbD 4 = true then _ else _ : Instr).Encodes _
    cases b4 : w.getLsbD 4 with
    | true => simp [*, Instr.wf, encodeCode, -BitVec.getLsbD_eq_getElem]
    | false => exact decodeSingle_encodes hc h26 fun _ => b4
  · exact decodeBlock_encodes hc h25
  · show (if w.getLsbD 24 = true then _ else _ : Instr).Encodes _
    split <;> simp [*, Instr.wf, encodeCode, -BitVec.getLsbD_eq_getElem]
  · exact decodeCoprocTransfer_encodes hc h25
  · show (if w.getLsbD 24 = true then _ else _ : Instr).Encodes _
    cases b24 : w.getLsbD 24 with
    | true => simp [*, Instr.wf, encodeCode, -BitVec.getLsbD_eq_getElem]
    | false => exact decodeCoproc_encodes hc (by rw [h24, b24]; rfl)

end Sys2Proof

/-- Settles O5: every decoder's answer is well-formed and encodes to the word it was given. -/
theorem everyWordEncodesItsInstruction : Obligations.EveryWordEncodesItsInstruction :=
  ⟨decodeArm_encodes, decodeThumb_encodes⟩
end

section
/-! The conditions (R112), what they say after CMP (R214), and the should-be fields (R132). -/

open Sys2Proof Sys2Proof.Machine

namespace Sys2Proof.Machine

variable {s : State}

/-! ### The flags of a difference (R220) -/

/-- C after x − y is no borrow. -/
theorem addWithCarry_not_carry (x y : Word) : (addWithCarry x (~~~y) true).2.1 = decide (y.toNat ≤ x.toNat) := by
  have hx := x.isLt
  have hy := y.isLt
  simp only [addWithCarry, BitVec.toNat_not, Bool.toNat_true, decide_eq_decide]
  omega

/-- N = V after x − y is the signed order. -/
theorem addWithCarry_not_sign (x y : Word) :
    (addWithCarry x (~~~y) true).1.getLsbD 31 = (addWithCarry x (~~~y) true).2.2 ↔ y.toInt ≤ x.toInt := by
  have hr : (addWithCarry x (~~~y) true).2.2 =
      decide ((addWithCarry x (~~~y) true).1.toInt ≠ x.toInt + (~~~y).toInt + 1) := rfl
  have hn : (x - y).getLsbD 31 = decide ((x - y).toInt < 0) := by
    rw [← BitVec.msb_eq_toInt, BitVec.msb_eq_getLsbD_last]
  have hy : (~~~y).toInt = -y.toInt - 1 := by
    simp only [BitVec.toInt_eq_toNat_cond, BitVec.toNat_not]
    have := y.isLt
    split_ifs <;> omega
  rw [hr, addWithCarry_sub, hn, decide_eq_decide, hy]
  simp only [BitVec.toInt_eq_toNat_cond, BitVec.toNat_sub]
  have hx := x.isLt
  have hy := y.isLt
  split_ifs <;> omega

/-- The conditions of R112 on the flags of x − y. -/
theorem condPassed_difference (p : Cpsr) (x y : Word) :
    let r := addWithCarry x (~~~y) true
    let q := p.setNZCV r.1 r.2.1 r.2.2
    (condPassed .eq q ↔ x = y) ∧ (condPassed .cs q ↔ y.toNat ≤ x.toNat) ∧
      (condPassed .cc q ↔ x.toNat < y.toNat) ∧ (condPassed .hi q ↔ y.toNat < x.toNat) ∧ (condPassed .ls q ↔ x.toNat ≤ y.toNat) ∧
      (condPassed .ge q ↔ y.toInt ≤ x.toInt) ∧ (condPassed .lt q ↔ x.toInt < y.toInt) ∧
      (condPassed .gt q ↔ y.toInt < x.toInt) ∧ (condPassed .le q ↔ x.toInt ≤ y.toInt) := by
  intro r q
  have hz : q.z = true ↔ x = y := by
    show (r.1 == 0) = true ↔ x = y
    rw [addWithCarry_sub, beq_iff_eq, sub_eq_zero]
  have hc : q.c = true ↔ y.toNat ≤ x.toNat := by simp [q, Cpsr.setNZCV, r, addWithCarry_not_carry]
  have hs : q.n = q.v ↔ y.toInt ≤ x.toInt := addWithCarry_not_sign x y
  have hNat : x = y ↔ x.toNat = y.toNat := BitVec.toNat_inj.symm
  have hInt : x = y ↔ x.toInt = y.toInt := BitVec.toInt_inj.symm
  refine ⟨hz, hc, ?_, ?_, ?_, ?_, ?_, ?_, ?_⟩
  all_goals simp only [condPassed, Bool.and_eq_true, Bool.or_eq_true, Bool.not_eq_true', ← Bool.not_eq_true,
    beq_iff_eq, bne_iff_ne, ne_eq, hz, hc, hs]
  · omega
  · rw [hNat]
    omega
  · rw [hNat]
    omega
  · omega
  · rw [hInt]
    omega
  · rw [hInt]
    omega

/-! ### Should-be fields (R132) -/

section

variable {c : Cond} {sbz : BitVec 4} (hc : condPassed c s.cpsr = true) (h : sbz ≠ 0) (rn rd : RegNo) (o : Operand2)
include hc h

theorem testOp_shouldBe (op : Word → Word → Word) : testOp c rn sbz o op s = .fault .shouldBeField := by
  rw [testOp, predicated_of_passed _ hc, if_pos h]

theorem compareOp_shouldBe (op : Word → Word → Word × Bool × Bool) :
    compareOp c rn sbz o op s = .fault .shouldBeField := by
  rw [compareOp, predicated_of_passed _ hc, if_pos h]

theorem moveOp_shouldBe (sf : Bool) (op : Word → Word) : moveOp c sf sbz rd o op s = .fault .shouldBeField := by
  rw [moveOp, predicated_of_passed _ hc, if_pos h]

theorem swap_shouldBe (rm : RegNo) (load : State → Word → Word × State) (n : Width) :
    swap c rn rd sbz rm load n s = .fault .shouldBeField := by
  rw [swap, predicated_of_passed _ hc, if_pos h]

end

theorem halfAddressing_shouldBe {p w : Bool} (up : Bool) (rn : RegNo) {rd : RegNo} {sbz : BitVec 4} (rm : RegNo)
    (hp : p = true ∨ w = false) (hrd : rd ≠ 15) (hsbz : sbz ≠ 0) :
    halfAddressing s p w up rn rd (.reg sbz rm) = .error .shouldBeField := by
  unfold halfAddressing
  rw [if_neg (by rcases hp with rfl | rfl <;> simp), if_neg hrd, offset8Value, if_pos hsbz]

end Sys2Proof.Machine

/-- Settles O20: the sixteen codes by evaluation, each row by the flags it reads. -/
theorem conditionTable : Obligations.ConditionTable := by
  refine ⟨by decide, fun p => ?_⟩
  simp [condPassed]

/-- Settles O30: each meaning checks its should-be fields first; the halfword forms check theirs with the offset. -/
theorem shouldBeFieldStops : Obligations.ShouldBeFieldStops := by
  intro s c hc
  refine ⟨fun rn sbz o h => ?_, fun sf sbz rd o h => ?_, fun r sbo rd hi lo h => ?_, fun r mask sbo sbz rm h => ?_,
    fun r mask sbo rot imm8 h => ?_, fun sf rd sbz rs rm h => ?_, fun rn rd sbz rm h => ?_,
    fun p up w rn rd sbz rm hp hrd h => ?_, fun sbo rm h => ?_, fun h1 hs sbz h => ?_, fun hs hd hlow hlow' => ?_⟩
  · refine ⟨?_, ?_, ?_, ?_⟩
    · rw [Stops, exec, execArmTst, testOp_shouldBe hc h]
    · rw [Stops, exec, execArmTeq, testOp_shouldBe hc h]
    · rw [Stops, exec, execArmCmp, compareOp_shouldBe hc h]
    · rw [Stops, exec, execArmCmn, compareOp_shouldBe hc h]
  · constructor
    · rw [Stops, exec, execArmMov, moveOp_shouldBe hc h]
    · rw [Stops, exec, execArmMvn, moveOp_shouldBe hc h]
  · rw [not_and_or, not_and_or] at h
    rw [Stops, exec, execArmMrs, predicated_of_passed _ hc, if_pos h]
  · rw [not_and_or] at h
    rw [Stops, exec, execArmMsrReg, predicated_of_passed _ hc, if_pos h]
  · rw [Stops, exec, execArmMsrImm, predicated_of_passed _ hc, if_pos h]
  · rw [Stops, exec, execArmMul, predicated_of_passed _ hc, if_pos h]
  · constructor
    · rw [Stops, exec, execArmSwp, swap_shouldBe hc h]
    · rw [Stops, exec, execArmSwpb, swap_shouldBe hc h]
  · have ha := halfAddressing_shouldBe (s := s) up rn rm hp hrd h
    refine ⟨?_, ?_, ?_, ?_⟩
    · rw [Stops, armStrh_passed hc, ha]
      rfl
    · rw [Stops, armLdrh_passed hc, ha]
      rfl
    · rw [Stops, armLdrsb_passed hc, ha]
      rfl
    · rw [Stops, armLdrsh_passed hc, ha]
      rfl
  · rw [Stops, exec, execArmBx, predicated_of_passed _ hc, if_pos h]
  · rw [not_and_or, Bool.not_eq_false] at h
    rw [Stops, exec, execThumbBx, if_pos h]
  · have hl : bothLow hs hd = true := by simp [bothLow, hlow, hlow']
    exact ⟨if_pos hl, if_pos hl, if_pos hl⟩

/-- Settles O22: CMP leaves the flags of a difference, on which `condPassed_difference` reads the order. -/
theorem compareOrdersOperands : Obligations.CompareOrdersOperands := by
  intro s rn rotate imm8
  obtain ⟨t, ht, hp, -⟩ := compareOp_effect (c := .al) (s := s) rfl (o := .imm rotate imm8) rfl rn
    fun a b => addWithCarry a (~~~b) true
  refine ⟨t, ht, ?_⟩
  dsimp only
  rw [hp, regOrStore, if_neg (by simp [Operand2.isRegShift])]
  exact condPassed_difference s.cpsr (s.reg rn) _

/-- Settles O2: by evaluation of the decoder on the eleven words. -/
theorem writtenOutWordsDecode : Obligations.WrittenOutWordsDecode := by
  unfold Obligations.WrittenOutWordsDecode
  decide
end

section
/-! The condition of an ARM instruction (R113, R222), and addition with carry (R220). -/

open Sys2Proof Sys2Proof.Machine

namespace Sys2Proof.Machine

/-! ### Carry and overflow (R220) -/

/-- C is the unsigned carry. -/
theorem addWithCarry_carry (x y : Word) (c : Bool) :
    (addWithCarry x y c).2.1 = decide (2 ^ 32 ≤ x.toNat + y.toNat + c.toNat) := rfl

/-- V says that the signed sum is out of the range of a word. -/
theorem addWithCarry_overflow (x y : Word) (c : Bool) : (addWithCarry x y c).2.2 =
    decide (x.toInt + y.toInt + c.toNat < -2 ^ 31 ∨ 2 ^ 31 ≤ x.toInt + y.toInt + c.toNat) := by
  have hr : (addWithCarry x y c).2.2 =
      decide ((addWithCarry x y c).1.toInt ≠ x.toInt + y.toInt + (c.toNat : Int)) := rfl
  have hx := x.isLt
  have hy := y.isLt
  have hc := c.toNat_le
  rw [hr, decide_eq_decide]
  simp only [addWithCarry, BitVec.toInt_eq_toNat_cond, BitVec.toNat_ofNat]
  split_ifs <;> omega

/-- NOT y is −y − 1 as a signed number. -/
theorem toInt_not_word (y : Word) : (~~~y).toInt = -y.toInt - 1 := by
  have hy := y.isLt
  simp only [BitVec.toInt_eq_toNat_cond, BitVec.toNat_not]
  split_ifs <;> omega

/-- With NOT y and the borrow b, C says that x − y − b does not borrow. -/
theorem addWithCarry_not_borrow (x y : Word) (b : Bool) :
    (addWithCarry x (~~~y) (!b)).2.1 = decide (y.toNat + b.toNat ≤ x.toNat) := by
  have hy := y.isLt
  rw [addWithCarry_carry, BitVec.toNat_not, decide_eq_decide]
  cases b <;> simp only [Bool.not_false, Bool.not_true, Bool.toNat_false, Bool.toNat_true] <;> omega

/-- With NOT y and the borrow b, V says that the signed x − y − b is out of range. -/
theorem addWithCarry_not_overflow (x y : Word) (b : Bool) : (addWithCarry x (~~~y) (!b)).2.2 =
    decide (x.toInt - y.toInt - b.toNat < -2 ^ 31 ∨ 2 ^ 31 ≤ x.toInt - y.toInt - b.toNat) := by
  have hs : x.toInt + (~~~y).toInt + (!b).toNat = x.toInt - y.toInt - b.toNat := by
    rw [toInt_not_word]
    cases b <;> simp <;> omega
  rw [addWithCarry_overflow, hs]

end Sys2Proof.Machine

/-- Settles O19: the meaning of each ARM instruction stands under `predicated`, at its own condition. -/
theorem failedConditionIsNoOp : Obligations.FailedConditionIsNoOp := by
  intro i s hi hc
  rw [← Bool.not_eq_true] at hc
  cases i
  case thumbLslImm | thumbLsrImm | thumbAsrImm | thumbAddReg | thumbSubReg | thumbAddImm3 | thumbSubImm3 |
      thumbMovImm | thumbCmpImm | thumbAddImm8 | thumbSubImm8 | thumbAnd | thumbEor | thumbLslReg | thumbLsrReg |
      thumbAsrReg | thumbAdc | thumbSbc | thumbRorReg | thumbTst | thumbNeg | thumbCmpReg | thumbCmn | thumbOrr |
      thumbMul | thumbBic | thumbMvn | thumbAddHi | thumbCmpHi | thumbMovHi | thumbBx | thumbLdrPc | thumbStrReg |
      thumbStrbReg | thumbLdrReg | thumbLdrbReg | thumbStrhReg | thumbLdsbReg | thumbLdrhReg | thumbLdshReg |
      thumbStrImm | thumbLdrImm | thumbStrbImm | thumbLdrbImm | thumbStrhImm | thumbLdrhImm | thumbStrSp |
      thumbLdrSp | thumbAddPc | thumbAddSp | thumbIncSp | thumbDecSp | thumbPush | thumbPop | thumbStmia |
      thumbLdmia | thumbSwi | thumbBcond | thumbB | thumbBlHigh | thumbBlLow | thumbUnd1011 | thumbUndCond |
      thumbUnd11101 =>
    cases hi
  all_goals exact if_neg hc

/-- Settles O21: result, carry and overflow by themselves; the carry into a difference is the borrow's negation. -/
theorem sumAndDifferenceFlags : Obligations.SumAndDifferenceFlags := by
  refine fun x y => ⟨fun c => ?_, ?_, ?_⟩
  · exact Prod.ext (addWithCarry_result x y c) (Prod.ext (addWithCarry_carry x y c) (addWithCarry_overflow x y c))
  · have hv := addWithCarry_not_overflow x y false
    rw [Bool.toNat_false, Nat.cast_zero, sub_zero] at hv
    exact Prod.ext (addWithCarry_sub x y) (Prod.ext (addWithCarry_not_borrow x y false) hv)
  · exact Prod.ext ((addWithCarry_sub_borrow x y false).trans (BitVec.add_zero _))
      (Prod.ext (addWithCarry_not_borrow x y true) (addWithCarry_not_overflow x y true))
end

section
/-! The shifter (R201 to R203) as arithmetic on the register (O23, O24). -/

open Sys2Proof Sys2Proof.Machine

namespace Sys2Proof.Machine

variable {s : State}

/-! ### The shifts as arithmetic, for every amount -/

section

variable (v : Word) (k : Nat)

theorem shiftLeft_toNat : (v <<< k).toNat = v.toNat * 2 ^ k % 2 ^ 32 := by
  rw [BitVec.toNat_shiftLeft, Nat.shiftLeft_eq]

theorem ushiftRight_toNat : (v >>> k).toNat = v.toNat / 2 ^ k := by
  rw [BitVec.toNat_ushiftRight, Nat.shiftRight_eq_div_pow]

theorem sshiftRight_toInt : (v.sshiftRight k).toInt = v.toInt / 2 ^ k := by
  rw [BitVec.toInt_sshiftRight, Int.shiftRight_eq_div_pow, Nat.cast_pow, Nat.cast_ofNat]

theorem rotateRight_zero_word : v.rotateRight 0 = v := by
  refine BitVec.eq_of_getLsbD_eq fun i hi => ?_
  rw [getLsbD_rotateRight_mod v (by decide) hi, Nat.add_zero, Nat.mod_eq_of_lt hi]

/-- A rotation by 32 is none. -/
theorem getLsbD_rotateRight_mod_32 {j : Nat} (hj : j < 32) :
    (v.rotateRight (k % 32)).getLsbD j = v.getLsbD ((j + k) % 32) := by
  rw [getLsbD_rotateRight_mod v (Nat.mod_lt k (by decide)) hj, Nat.add_mod_mod]

/-- An arithmetic shift by 32 or more leaves copies of the sign. -/
theorem sshiftRight_of_le {k : Nat} (hk : 32 ≤ k) :
    v.sshiftRight k = if v.getLsbD 31 then 0xFFFFFFFF else 0 := by
  refine BitVec.eq_of_getLsbD_eq fun i hi => ?_
  rw [BitVec.getLsbD_sshiftRight, if_neg (by omega), BitVec.msb_eq_getLsbD_last]
  rw [show (0xFFFFFFFF : Word) = BitVec.allOnes 32 from rfl, decide_eq_false (by omega), Bool.not_false, Bool.true_and]
  cases v.getLsbD (32 - 1)
  · exact BitVec.getLsbD_zero.symm
  · exact (BitVec.getLsbD_allOnes.trans (decide_eq_true hi)).symm

/-- The arithmetic shift by 32 (R202). -/
theorem ofInt_toInt_div : BitVec.ofInt 32 (v.toInt / 2 ^ 32) = v.sshiftRight 32 := by
  rw [BitVec.sshiftRight, Int.shiftRight_eq_div_pow]
  rfl

/-- RRX: the carry comes in at the top. -/
theorem rrx_toNat (c : Bool) : (bit c ++ v.extractLsb' 1 31).toNat = c.toNat * 2 ^ 31 + v.toNat / 2 := by
  have hv := v.isLt
  have hlow : (v.extractLsb' 1 31).toNat = v.toNat / 2 := by
    rw [BitVec.extractLsb'_toNat, Nat.shiftRight_eq_div_pow]
    omega
  have hbit : (bit c).toNat = c.toNat := by cases c <;> rfl
  rw [BitVec.toNat_append, ← Nat.shiftLeft_add_eq_or_of_lt (BitVec.isLt _), Nat.shiftLeft_eq, hlow, hbit]

end

/-! ### The table of R202 for the amounts 1 to 31 -/

section

variable {k : Nat} (h : k ≠ 0) (v : Word) (c : Bool)
include h

theorem shiftByImm_lsl : shiftByImm .lsl k v c = (v <<< k, v.getLsbD (32 - k)) := if_neg h

theorem shiftByImm_lsr : shiftByImm .lsr k v c = (v >>> k, v.getLsbD (k - 1)) := if_neg h

theorem shiftByImm_asr : shiftByImm .asr k v c = (v.sshiftRight k, v.getLsbD (k - 1)) := if_neg h

theorem shiftByImm_ror : shiftByImm .ror k v c = (v.rotateRight k, v.getLsbD (k - 1)) := if_neg h

end

/-! ### The table of R203 for the amounts 1 to 255 -/

section

variable {amt : Nat} (h : amt ≠ 0) (v : Word) (c : Bool)
include h

theorem shiftByReg_lsl : shiftByReg .lsl amt v c = (v <<< amt, decide (amt ≤ 32) && v.getLsbD (32 - amt)) := by
  rw [shiftByReg, if_neg h]
  rcases Nat.lt_trichotomy amt 32 with hlt | rfl | hgt
  · rw [if_pos hlt, decide_eq_true hlt.le, Bool.true_and]
  · rw [if_neg (by decide), if_pos rfl, BitVec.shiftLeft_eq_zero (by decide)]
    rfl
  · rw [if_neg (by omega), if_neg (by omega), BitVec.shiftLeft_eq_zero (by omega), decide_eq_false (by omega),
      Bool.false_and]
    rfl

theorem shiftByReg_lsr : shiftByReg .lsr amt v c = (v >>> amt, decide (amt ≤ 32) && v.getLsbD (amt - 1)) := by
  rw [shiftByReg, if_neg h]
  rcases Nat.lt_trichotomy amt 32 with hlt | rfl | hgt
  · rw [if_pos hlt, decide_eq_true hlt.le, Bool.true_and]
  · rw [if_neg (by decide), if_pos rfl, BitVec.ushiftRight_eq_zero (by decide)]
    rfl
  · rw [if_neg (by omega), if_neg (by omega), BitVec.ushiftRight_eq_zero (by omega), decide_eq_false (by omega),
      Bool.false_and]
    rfl

theorem shiftByReg_asr : shiftByReg .asr amt v c =
    (v.sshiftRight amt, if amt ≤ 32 then v.getLsbD (amt - 1) else v.getLsbD 31) := by
  rw [shiftByReg, if_neg h]
  rcases Nat.lt_or_ge amt 32 with hlt | hge
  · rw [if_pos hlt, if_pos hlt.le]
  · have hsign : (if amt ≤ 32 then v.getLsbD (amt - 1) else v.getLsbD 31) = v.getLsbD 31 := by
      split_ifs with hle
      · rw [Nat.le_antisymm hle hge]
      · rfl
    rw [if_neg (Nat.not_lt.mpr hge), sshiftRight_of_le v hge, hsign]

theorem shiftByReg_ror : shiftByReg .ror amt v c = (v.rotateRight (amt % 32), v.getLsbD ((amt + 31) % 32)) := by
  rw [shiftByReg, if_neg h]
  by_cases h0 : amt % 32 = 0
  · rw [if_pos h0, h0, rotateRight_zero_word, show (amt + 31) % 32 = 31 by omega]
  · rw [if_neg h0, show (amt + 31) % 32 = amt % 32 - 1 by omega]

end

/-! ### The operands that read a register -/

/-- Beside a register-specified shift R15 reads PC + 12 (R25). -/
theorem regOrStore_regShift (n rs rm : RegNo) (ty : ShiftType) :
    regOrStore s n (.regShift rs ty rm) = if n = 15 then s.pc + 12 else s.reg n := by
  by_cases hn : n = 15
  · rw [if_pos hn, regOrStore, if_pos ⟨hn, rfl⟩, State.pcStore]
  · rw [if_neg hn, regOrStore, if_neg (mt And.left hn)]

/-- Rs = R15 stops, every other Rs gives the shift of R203. -/
theorem operand2_regShift {rs : RegNo} (hrs : rs ≠ 15) (ty : ShiftType) (rm : RegNo) :
    operand2 s (.regShift rs ty rm) =
      .ok (shiftByReg ty ((s.reg rs).setWidth 8).toNat (if rm = 15 then s.pc + 12 else s.reg rm) s.cpsr.c) := by
  rw [operand2, if_neg hrs, regOrStore_regShift, BitVec.toNat_setWidth]

theorem offset12Value_reg {rm : RegNo} (hrm : rm ≠ 15) (amount : BitVec 5) (ty : ShiftType) :
    offset12Value s (.reg amount ty rm) = .ok (shiftByImm ty amount.toNat (s.reg rm) s.cpsr.c).1 := if_neg hrm

/-! ### Operands that stop -/

section

variable {c : Cond} {o : Operand2} {e : Fault} (hc : condPassed c s.cpsr = true) (ho : operand2 s o = .error e)
include hc ho

theorem logical_stops (sf : Bool) (rn rd : RegNo) (op : Word → Word → Word) :
    logical c sf rn rd o op s = .fault e := by
  rw [logical, predicated_of_passed _ hc, orFault_of_error ho]

theorem arithmetic_stops (sf : Bool) (rn rd : RegNo) (op : Word → Word → Bool → Word × Bool × Bool) :
    arithmetic c sf rn rd o op s = .fault e := by
  rw [arithmetic, predicated_of_passed _ hc, orFault_of_error ho]

theorem moveOp_stops (sf : Bool) (rd : RegNo) (op : Word → Word) : moveOp c sf 0 rd o op s = .fault e := by
  rw [moveOp, predicated_of_passed _ hc, if_neg (not_not_intro rfl), orFault_of_error ho]

theorem testOp_stops (rn : RegNo) (op : Word → Word → Word) : testOp c rn 0 o op s = .fault e := by
  rw [testOp, predicated_of_passed _ hc, if_neg (not_not_intro rfl), orFault_of_error ho]

theorem compareOp_stops (rn : RegNo) (op : Word → Word → Word × Bool × Bool) :
    compareOp c rn 0 o op s = .fault e := by
  rw [compareOp, predicated_of_passed _ hc, if_neg (not_not_intro rfl), orFault_of_error ho]

end

end Sys2Proof.Machine

/-- Settles O23: each line of R202 as the shift it is, amount 0 and the others apart. -/
theorem immediateShifts : Obligations.ImmediateShifts := by
  intro s rotate imm8 amount rm
  have hset (ty : ShiftType) :
      operand2Sets s (.immShift amount ty rm) = decide (¬(ty = .lsl ∧ amount = 0)) := by
    have hz : amount.toNat = 0 ↔ amount = 0 := BitVec.toNat_inj (y := 0#5)
    rw [operand2Sets, immShiftSets, Bool.eq_iff_iff]
    simp [hz]
  have hv : (if rm = 15 then s.pcRead else s.reg rm) = s.reg rm := by
    split_ifs with h
    · rw [h, reg_15]
    · rfl
  refine ⟨rfl, ?_, hset, ?_⟩
  · rw [operand2Sets, bne, Bool.eq_iff_iff]
    simp
  · dsimp only
    rw [hv]
    refine ⟨_, _, _, _, rfl, rfl, rfl, rfl, fun hrm => ?_, fun hk => ?_, fun hk => ?_⟩
    · exact ⟨offset12Value_reg hrm amount .lsl, offset12Value_reg hrm amount .lsr, offset12Value_reg hrm amount .asr,
        offset12Value_reg hrm amount .ror⟩
    · rw [hk, ofInt_toInt_div, sshiftRight_of_le (s.reg rm) (Nat.le_refl 32)]
      exact ⟨rfl, rfl, rfl, rrx_toNat _ _, rfl⟩
    · rw [shiftByImm_lsl hk, shiftByImm_lsr hk, shiftByImm_asr hk, shiftByImm_ror hk]
      exact ⟨shiftLeft_toNat _ _, rfl, ushiftRight_toNat _ _, rfl, sshiftRight_toInt _ _, rfl,
        fun j hj => getLsbD_rotateRight_mod _ amount.isLt hj, rfl⟩

/-- Settles O24: the sixteen operations through their five shared meanings, and each line of R203 as the shift it is. -/
theorem registerShifts : Obligations.RegisterShifts := by
  refine ⟨fun s c sf rn rd o e hc ho => ?_, fun s rs rm ty => ⟨?_, rfl, rfl, ?_, fun hrs => ?_⟩⟩
  · simp only [List.forall_mem_cons, List.not_mem_nil, false_imp_iff, implies_true, and_true]
    exact ⟨logical_stops hc ho sf rn rd (fun a b => a &&& b), logical_stops hc ho sf rn rd (fun a b => a ^^^ b),
      arithmetic_stops hc ho sf rn rd (fun a b _ => addWithCarry a (~~~b) true),
      arithmetic_stops hc ho sf rn rd (fun a b _ => addWithCarry b (~~~a) true),
      arithmetic_stops hc ho sf rn rd (fun a b _ => addWithCarry a b false),
      arithmetic_stops hc ho sf rn rd (fun a b carry => addWithCarry a b carry),
      arithmetic_stops hc ho sf rn rd (fun a b carry => addWithCarry a (~~~b) carry),
      arithmetic_stops hc ho sf rn rd (fun a b carry => addWithCarry b (~~~a) carry),
      testOp_stops hc ho rn (fun a b => a &&& b), testOp_stops hc ho rn (fun a b => a ^^^ b),
      compareOp_stops hc ho rn (fun a b => addWithCarry a (~~~b) true),
      compareOp_stops hc ho rn (fun a b => addWithCarry a b false),
      logical_stops hc ho sf rn rd (fun a b => a ||| b), moveOp_stops hc ho sf rd (fun b => b),
      logical_stops hc ho sf rn rd (fun a b => a &&& ~~~b), moveOp_stops hc ho sf rd (fun b => ~~~b)⟩
  · rw [operand2Sets, regShiftSets, bne, Bool.eq_iff_iff]
    simp
  · rw [regOrStore_regShift, if_pos rfl]
  · refine ⟨_, operand2_regShift hrs ty rm, ?_⟩
    dsimp only
    generalize (if rm = 15 then s.pc + 12 else s.reg rm) = v
    generalize ((s.reg rs).setWidth 8).toNat = amt
    by_cases h : amt = 0
    · rw [if_pos h]
      exact if_pos h
    · rw [if_neg h]
      cases ty with
      | lsl =>
        rw [shiftByReg_lsl h]
        exact ⟨shiftLeft_toNat v amt, rfl⟩
      | lsr =>
        rw [shiftByReg_lsr h]
        exact ⟨ushiftRight_toNat v amt, rfl⟩
      | asr =>
        rw [shiftByReg_asr h]
        exact ⟨sshiftRight_toInt v amt, rfl⟩
      | ror =>
        rw [shiftByReg_ror h]
        exact ⟨fun j hj => getLsbD_rotateRight_mod_32 v amt hj, rfl⟩
end

section
/-! The operand restrictions of multiply, status-register transfer and swap (O35). -/

open Sys2Proof Sys2Proof.Machine

namespace Sys2Proof.Machine

variable {s : State} {c : Cond} (hc : condPassed c s.cpsr = true)
include hc

/-- The restrictions of R243 on a long multiply. -/
theorem longMul_restricted (sf : Bool) {hi lo rs rm : RegNo}
    (h : hi = 15 ∨ lo = 15 ∨ rm = 15 ∨ rs = 15 ∨ hi = lo ∨ hi = rm ∨ lo = rm) (p : State → BitVec 64)
    (k : State → Nat) : longMul c sf hi lo rs rm p k s = .fault .multiplyOperands := by
  rw [longMul, predicated_of_passed _ hc, if_pos h]

/-- The restrictions of R250 and R251 on a swap. -/
theorem swap_restricted {rn rd rm : RegNo} (h : rn = 15 ∨ rd = 15 ∨ rm = 15 ∨ rn = rd ∨ rn = rm)
    (load : State → Word → Word × State) (n : Width) : swap c rn rd 0 rm load n s = .fault .swpOperands := by
  rw [swap, predicated_of_passed _ hc, if_neg (not_not_intro rfl), if_pos h]

end Sys2Proof.Machine

/-- Settles O35: each meaning checks its restriction before it reads an operand, the long multiplies in `longMul` and the
swaps in `swap`. -/
theorem operandRestrictionStops : Obligations.OperandRestrictionStops := by
  intro s c hc
  refine ⟨fun sf rd rs rm h => ?_, fun sf rd rn rs rm h => ?_, fun sf hi lo rs rm h => ?_, fun ld => if_pos rfl,
    fun r => ?_, fun r mask => ?_, fun rn rd rm h => ?_⟩
  · rw [Stops, exec, execArmMul, predicated_of_passed _ hc, if_neg (not_not_intro rfl), if_pos h]
  · rw [Stops, exec, execArmMla, predicated_of_passed _ hc, if_pos h]
  · refine ⟨?_, ?_, ?_, ?_⟩
    · rw [Stops, exec, execArmUmull, longMul_restricted hc sf h]
    · rw [Stops, exec, execArmUmlal, longMul_restricted hc sf h]
    · rw [Stops, exec, execArmSmull, longMul_restricted hc sf h]
    · rw [Stops, exec, execArmSmlal, longMul_restricted hc sf h]
  · rw [Stops, exec, execArmMrs, predicated_of_passed _ hc, if_neg (by simp), if_pos rfl]
  · rw [Stops, exec, execArmMsrReg, predicated_of_passed _ hc, if_neg (by simp), if_pos rfl]
  · constructor
    · rw [Stops, exec, execArmSwp, swap_restricted hc h]
    · rw [Stops, exec, execArmSwpb, swap_restricted hc h]
end

section
/-! The addressing modes of single and halfword transfers (O42). -/

open Sys2Proof Sys2Proof.Machine

namespace Sys2Proof.Machine

variable {s : State} {pre wb up : Bool} {rn rd : RegNo}

/-! ### The common part -/

/-- The restriction of R270 and R279 on a mode that writes its base back. -/
theorem addressing_restricted (off : Word) (hwb : pre = false ∨ wb = true) (h : rn = 15 ∨ rn = rd) :
    addressing s pre wb up rn rd off = .error .writeback :=
  if_pos ⟨by simpa using hwb, h⟩

theorem addressing_allowed (off : Word) (h : (pre = true ∧ wb = false) ∨ (rn ≠ 15 ∧ rn ≠ rd)) :
    addressing s pre wb up rn rd off = .ok ⟨if pre then indexed up (s.reg rn) off else s.reg rn,
      indexed up (s.reg rn) off, !pre || wb⟩ := by
  refine if_neg fun ⟨hwb, hr⟩ => ?_
  rcases h with ⟨rfl, rfl⟩ | hn
  · cases hwb
  · exact (not_or.mpr hn) hr

/-! ### The two forms, by what their offset gives -/

theorem singleAddressing_of_offset {o : Offset12} {off : Word} (h : offset12Value s o = .ok off) :
    singleAddressing s pre wb up rn rd o = addressing s pre wb up rn rd off := by
  rw [singleAddressing, h]

theorem singleAddressing_of_offset_error {o : Offset12} {e : Fault} (h : offset12Value s o = .error e) :
    singleAddressing s pre wb up rn rd o = .error e := by
  rw [singleAddressing, h]

theorem halfAddressing_postIndexedW (hp : pre = false) (hw : wb = true) (o : Offset8) :
    halfAddressing s pre wb up rn rd o = .error .postIndexedW :=
  if_pos ⟨hp, hw⟩

section

variable (hpw : ¬(pre = false ∧ wb = true))
include hpw

theorem halfAddressing_rdIsR15 (o : Offset8) : halfAddressing s pre wb up rn 15 o = .error .rdIsR15 := by
  rw [halfAddressing, if_neg hpw, if_pos rfl]

theorem halfAddressing_of_offset {o : Offset8} {off : Word} (hrd : rd ≠ 15) (h : offset8Value s o = .ok off) :
    halfAddressing s pre wb up rn rd o = addressing s pre wb up rn rd off := by
  rw [halfAddressing, if_neg hpw, if_neg hrd, h]

theorem halfAddressing_of_offset_error {o : Offset8} {e : Fault} (hrd : rd ≠ 15) (h : offset8Value s o = .error e) :
    halfAddressing s pre wb up rn rd o = .error e := by
  rw [halfAddressing, if_neg hpw, if_neg hrd, h]

end

/-! ### The plain register offset -/

theorem offset8Value_reg {rm : RegNo} (h : rm ≠ 15) : offset8Value s (.reg 0 rm) = .ok (s.reg rm) := by
  rw [offset8Value, if_neg (not_not_intro rfl), if_neg h]

end Sys2Proof.Machine

/-- Settles O42: both forms are the common `addressing` of what their offset gives, after the checks of their own. -/
theorem addressingModes : Obligations.AddressingModes := by
  intro s pre wb up rn rd
  refine ⟨fun off h => ⟨_, addressing_allowed off h, rfl, rfl, by simp⟩, fun off => addressing_restricted off,
    fun v => singleAddressing_of_offset rfl, fun k ty rm h => singleAddressing_of_offset (offset12Value_reg h k ty),
    fun k ty => singleAddressing_of_offset_error rfl,
    fun hrd hpw => ⟨fun v => ?_, fun rm h => ?_, ?_, fun sbz rm h => ?_⟩,
    fun o hp hw => halfAddressing_postIndexedW hp hw o, fun o hpw => halfAddressing_rdIsR15 hpw o⟩
  · exact halfAddressing_of_offset hpw hrd rfl
  · exact halfAddressing_of_offset hpw hrd (offset8Value_reg h)
  · exact halfAddressing_of_offset_error hpw hrd rfl
  · exact halfAddressing_shouldBe up rn rm (by simpa using not_and_or.mp hpw) hrd h
end

section
/-! The exceptions that instructions raise themselves (O16, O17). -/

open Sys2Proof Sys2Proof.Machine

namespace Sys2Proof.Machine

variable {s : State} {i : Instr}

@[simp] theorem takeException_hazardMark (s : State) (k : ExcKind) : (takeException s k).hazardMark = s.hazardMark := by
  unfold takeException
  split <;> simp

/-- The entry of R607, with its price (R716). -/
theorem gives_of_raiseSwi (h : exec i s = raiseSwi s) :
    Gives i s fun t => Entered s .swi t ∧ t.hazardMark = s.hazardMark ∧ t.cycles = s.cycles + 2 :=
  ⟨_, h, entered_takeException s (by decide), takeException_hazardMark s .swi, takeException_cycles s .swi⟩

/-- The entry of R606, with its price (R716): the internal cycle passes before the refill. -/
theorem gives_of_raiseUndefined (h : exec i s = raiseUndefined s) :
    Gives i s fun t => Entered s .undefined t ∧ t.hazardMark = s.hazardMark ∧ t.cycles = s.cycles + 3 :=
  ⟨_, h, .of_spend (entered_takeException (s.spend 1) (by decide)), takeException_hazardMark (s.spend 1) .undefined,
    takeException_cycles (s.spend 1) .undefined⟩

/-- The ARM instructions that raise Undefined do so under their condition. -/
theorem gives_of_predicated_raiseUndefined {c : Cond} (hc : condPassed c s.cpsr = true)
    (h : exec i s = predicated c s raiseUndefined) :
    Gives i s fun t => Entered s .undefined t ∧ t.hazardMark = s.hazardMark ∧ t.cycles = s.cycles + 3 :=
  gives_of_raiseUndefined (h.trans (predicated_of_passed raiseUndefined hc))

end Sys2Proof.Machine

/-- Settles O16: ARM SWI is `raiseSwi` under its condition, Thumb SWI is `raiseSwi` itself. -/
theorem softwareInterrupt : Obligations.SoftwareInterrupt := by
  intro s c comment comment8
  exact ⟨fun hc => gives_of_raiseSwi (predicated_of_passed raiseSwi hc), gives_of_raiseSwi rfl⟩

/-- Settles O17: the ten ARM forms are `raiseUndefined` under their condition, the three Thumb ones `raiseUndefined`
itself, whatever their other fields hold. -/
theorem undefinedInstruction : Obligations.UndefinedInstruction := by
  intro s c hc
  have arm {i : Instr} := gives_of_predicated_raiseUndefined (i := i) hc
  have thumb {i : Instr} := gives_of_raiseUndefined (s := s) (i := i)
  refine ⟨?cdp, ?ldc, ?stc, ?mcr, ?mrc, ?undArch, ?undMul, ?undSignedStore, ?undMisc, ?undMsrImm, ?und1011, ?undCond,
    ?und11101⟩
  case cdp | mcr | mrc => exact fun _ _ _ _ _ _ => arm rfl
  case ldc | stc => exact fun _ _ _ _ _ _ _ _ => arm rfl
  case undArch | undMsrImm => exact fun _ _ => arm rfl
  case undMul | undMisc => exact fun _ _ _ => arm rfl
  case undSignedStore => exact fun _ _ _ _ => arm rfl
  case und1011 | undCond | und11101 => exact fun _ => thumb rfl
end

section
/-! Thumb data processing (R400 to R434): what the shared ends of its groups do to the state (O54 to O56). -/

open Sys2Proof Sys2Proof.Machine

namespace Sys2Proof.Machine

variable {s : State} {i : Instr} {rd : LowReg}

/-! ### A result in a low register (R400) -/

theorem gives_of_thumbWrite {r : Word} {p : Cpsr} (k : Nat) (he : exec i s = thumbWrite (s.spend k) rd r p)
    (hm : p.mode = s.cpsr.mode) (ht : p.t = s.cpsr.t) : Gives i s (RegisterEffect s (low rd) r p k) :=
  ⟨_, he, registerEffect_advance s (low_ne_15 rd) r k hm ht⟩

/-- A shift, with the model's test of its amount written as `sets`. -/
theorem gives_of_thumbShift {r : Word × Bool} {b sets : Bool} (k : Nat)
    (he : exec i s = thumbShift (s.spend k) rd r b) (hb : b = sets) :
    Gives i s (RegisterEffect s (low rd) r.1 (s.cpsr.setNZC r.1 r.2 sets) k) :=
  gives_of_thumbWrite k (hb ▸ he) rfl rfl

theorem gives_of_thumbArith {r : Word × Bool × Bool} (he : exec i s = thumbArith s rd r) :
    Gives i s (RegisterEffect s (low rd) r.1 (s.cpsr.setNZCV r.1 r.2.1 r.2.2) 0) :=
  gives_of_thumbWrite 0 he rfl rfl

/-- N and Z alone are the flags of a shifter that leaves C as it was. -/
theorem Cpsr.setNZ_eq_setNZC (p : Cpsr) (r : Word) : p.setNZ r = p.setNZC r p.c false := by
  simp [Cpsr.setNZ, Cpsr.setNZC]

theorem gives_of_thumbLogical {r : Word} (he : exec i s = thumbLogical s rd r) :
    Gives i s (RegisterEffect s (low rd) r (s.cpsr.setNZC r s.cpsr.c false) 0) := by
  rw [thumbLogical, Cpsr.setNZ_eq_setNZC] at he
  exact gives_of_thumbWrite 0 he rfl rfl

/-! ### Flags alone -/

theorem gives_of_thumbFlags {p : Cpsr} (he : exec i s = thumbFlags s p) (ht : p.t = s.cpsr.t) :
    Gives i s (StatusEffect s p 0) :=
  ⟨_, he, statusEffect_advance s 0 ht⟩

theorem gives_of_thumbCompare {r : Word × Bool × Bool} (he : exec i s = thumbCompare s r) :
    Gives i s (StatusEffect s (s.cpsr.setNZCV r.1 r.2.1 r.2.2) 0) :=
  gives_of_thumbFlags he rfl

/-! ### Where a shift writes C (R201 to R203) -/

theorem immShiftSets_lsl (k : BitVec 5) : immShiftSets .lsl k.toNat = decide (k ≠ 0) := by
  rw [immShiftSets, Bool.eq_iff_iff]
  simp [← BitVec.toNat_inj]

theorem regShiftSets_eq (amt : Nat) : regShiftSets amt = decide (amt ≠ 0) := by
  rw [regShiftSets, Bool.eq_iff_iff]
  simp

/-! ### Immediates -/

/-- An 8-bit immediate is not negative, and is zero as a word where it is zero as a byte. -/
theorem Cpsr.setNZ_byte (p : Cpsr) (imm8 : Byte) : p.setNZ (imm8.setWidth 32) =
    { p with n := false, z := imm8 == 0, marks := ⟨true, true, p.marks.c, p.marks.v⟩ } := by
  have hn : (imm8.setWidth 32).getLsbD 31 = false := by simp
  have hz : (imm8.setWidth 32 == 0) = (imm8 == 0) := by
    rw [Bool.eq_iff_iff, beq_iff_eq, beq_iff_eq]
    bv_omega
  rw [Cpsr.setNZ, hn, hz]

/-! ### Format 5 (R428 to R430) -/

section

variable {hs hd : RegNo} (h : 8 ≤ hs.toNat ∨ 8 ≤ hd.toNat)
include h

theorem bothLow_of_high : bothLow hs hd = false := by
  rw [bothLow, decide_eq_false_iff_not]
  omega

/-- A register number of 8 or more passes the check of format 5. -/
theorem format5_eq {x r : Result} : (if bothLow hs hd then x else r) = r := by simp [bothLow_of_high h]

end

/-- A jump takes any target: BranchTo's check of the alignment is not part of it. -/
theorem branchEffect_jump_self (s : State) (a : Word) : BranchEffect s a s.cpsr [] (jump s a) := by
  obtain ⟨hw, ho, hctl, hio, hm⟩ := LoadFrame.refl (m := .usr) s
  exact branchEffect_jump rfl (Nat.le_refl _) hw ho hctl hio ⟨rfl, rfl, rfl⟩ hm

theorem gives_of_thumbHiWrite {hd : RegNo} {r : Word} (he : exec i s = thumbHiWrite s hd r) :
    (hd ≠ 15 → Gives i s (RegisterEffect s hd r s.cpsr 0)) ∧
      (hd = 15 → Gives i s (BranchEffect s (r &&& 0xFFFFFFFE) s.cpsr [])) := by
  unfold thumbHiWrite at he
  constructor
  · intro hd15
    rw [if_neg hd15] at he
    exact ⟨_, he, registerEffect_setReg s hd15 r⟩
  · intro hd15
    rw [if_pos hd15] at he
    exact ⟨_, he, branchEffect_jump_self s _⟩

/-! ### Formats 12 and 13 (R431 to R434) -/

theorem gives_of_setReg_advance {n : RegNo} {v r : Word} (hn : n ≠ 15) (hr : v = r)
    (he : exec i s = .next (advance (s.setReg n v))) : Gives i s (RegisterEffect s n r s.cpsr 0) :=
  ⟨_, he, hr ▸ registerEffect_setReg s hn v⟩

end Sys2Proof.Machine

/-- Settles O54: each is `thumbShift` or `thumbLogical` at its own result, TST the flags of one. -/
theorem thumbShiftsAndLogic : Obligations.ThumbShiftsAndLogic := by
  intro s rs rd
  have regShift {i : Instr} {ty : ShiftType} (he : exec i s = thumbRegShift ty rs rd s) :=
    gives_of_thumbShift 1 he (regShiftSets_eq _)
  refine ⟨fun k => ⟨?lslImm, ?lsrImm, ?asrImm⟩, regShift rfl, regShift rfl, regShift rfl, regShift rfl, fun imm8 => ?movImm,
    gives_of_thumbLogical rfl, gives_of_thumbLogical rfl, gives_of_thumbLogical rfl, gives_of_thumbLogical rfl,
    gives_of_thumbLogical rfl, ?tst⟩
  case lslImm => exact gives_of_thumbShift 0 rfl (immShiftSets_lsl k)
  case lsrImm | asrImm => exact gives_of_thumbShift 0 rfl rfl
  case movImm =>
    rw [← Cpsr.setNZ_byte]
    exact gives_of_thumbWrite 0 rfl rfl rfl
  case tst =>
    refine gives_of_thumbFlags ?_ rfl
    exact congrArg (thumbFlags s) (Cpsr.setNZ_eq_setNZC _ _)

/-- Settles O55: each is `thumbArith` or `thumbCompare` at its own addition with carry. -/
theorem thumbArithmetic : Obligations.ThumbArithmetic := by
  intro s rn rs rd
  exact ⟨gives_of_thumbArith rfl, gives_of_thumbArith rfl,
    fun k => ⟨gives_of_thumbArith rfl, gives_of_thumbArith rfl⟩,
    fun k => ⟨gives_of_thumbArith rfl, gives_of_thumbArith rfl, gives_of_thumbCompare rfl⟩,
    gives_of_thumbArith rfl, gives_of_thumbArith rfl, gives_of_thumbArith rfl,
    gives_of_thumbCompare rfl, gives_of_thumbCompare rfl,
    fun hs hd h => gives_of_thumbCompare (format5_eq h)⟩

/-- Settles O56: a format 5 result is a register or a jump; an address is a register plus or minus a number of words. -/
theorem thumbAddressAndHighRegisters : Obligations.ThumbAddressAndHighRegisters := by
  intro s
  refine ⟨fun hs hd h => ?_, fun rd k => ⟨fun ht => ?_, ?_⟩, fun k => ⟨?_, ?_⟩⟩
  · obtain ⟨addReg, addPc⟩ := gives_of_thumbHiWrite (i := .thumbAddHi hs hd) (s := s) (format5_eq h)
    obtain ⟨movReg, movPc⟩ := gives_of_thumbHiWrite (i := .thumbMovHi hs hd) (s := s) (format5_eq h)
    exact ⟨fun hd15 => ⟨addReg hd15, movReg hd15⟩, fun hd15 => ⟨addPc hd15, movPc hd15⟩⟩
  · exact gives_of_setReg_advance (low_ne_15 rd) (congrArg₂ (· + ·) (alignedPcRead_eq ht) (words_eq (by decide) k)) rfl
  · exact gives_of_setReg_advance (low_ne_15 rd) (congrArg (s.reg 13 + ·) (words_eq (by decide) k)) rfl
  · exact gives_of_setReg_advance (by decide) (congrArg (s.reg 13 + ·) (words_eq (by decide) k)) rfl
  · exact gives_of_setReg_advance (by decide) (congrArg (s.reg 13 - ·) (words_eq (by decide) k)) rfl
end

section
/-! Thumb stores (R441, R442, R445, R449, R451, R453, R455): one store of the low bytes of Rd at the address of the form
(O58). -/

open Sys2Proof Sys2Proof.Machine

namespace Sys2Proof.Machine

variable {s : State} {i : Instr} {rd : LowReg} {n : Width}

/-- What a Thumb store of Rd at an address answers in both cases of the prefetch hazard (R705). -/
def ThumbStoresAt (s : State) (i : Instr) (rd : LowReg) (a : Word) (n : Width) : Prop :=
  (prefetchHit s a n = false → Gives i s fun t =>
    StoreFrame s [] [a] n t ∧ (StoresWhole a n → BytesAt t a n (s.reg (low rd)))) ∧
  (prefetchHit s a n = true → Stops i s .storeIntoPrefetched)

/-- An instruction that is a Thumb store, at the address b that its statement writes for the model's a. -/
theorem thumbStoresAt_of_exec {a b : Word} (he : exec i s = thumbStore s rd a n) (hab : a = b) :
    ThumbStoresAt s i rd b n := by
  subst hab
  constructor
  · intro hclear
    obtain ⟨u, hu, hbytes⟩ := memWrite_clear (n.trunc (s.reg (low rd))) hclear
    rw [thumbStore, hu] at he
    refine ⟨_, he, ((Stored.refl (m := s.cpsr.mode) s).write hu).frame, fun hwhole => ?_⟩
    exact (bytesAt_trunc.mp (hbytes hwhole)).congr (advance_mem u) (advance_params u)
  · intro hhit
    rw [thumbStore, (memWrite_eq s a n _).1 hhit] at he
    exact he

end Sys2Proof.Machine

/-- Settles O58: each is `thumbStore` at the address of its form. -/
theorem thumbStores : Obligations.ThumbStores := by
  intro s ro rb rd k imm8
  exact ⟨thumbStoresAt_of_exec rfl rfl, thumbStoresAt_of_exec rfl rfl, thumbStoresAt_of_exec rfl rfl,
    thumbStoresAt_of_exec rfl (immOffset_eq s k rb 4), thumbStoresAt_of_exec rfl (immOffset_eq s k rb 1),
    thumbStoresAt_of_exec rfl (immOffset_eq s k rb 2),
    thumbStoresAt_of_exec rfl (congrArg (s.reg 13 + ·) (words_eq (by decide) imm8))⟩
end

section
/-! Interrupts taken at the start of a step (O14), and a step that takes none (O1). -/

open Sys2Proof Sys2Proof.Machine

namespace Sys2Proof.Machine

variable {s t : State} {k : ExcKind}

/-! ### The entry (R602, R603, R706, R716) -/

/-- An exception entered after a priced access. -/
theorem Entered.of_charge {a : Word} {n : Width} (h : Entered (charge s a n) k t) : Entered s k t := by
  obtain ⟨h1, h2, h3, h4, h5, h6, h7, hc, hrest⟩ := h
  exact ⟨h1, h2, h3, h4, h5, h6, h7, (Nat.add_le_add_right (Nat.le_of_lt (charge_cycles_lt s a n)) 2).trans hc, hrest⟩

/-- The user-bank mark is none of the fields that exception entry speaks of. -/
theorem Entered.setHazardMark (h : Entered s k t) (m : Option Nat) : Entered s k { t with hazardMark := m } := h

theorem entered_takeInterrupt (s : State) (hk : k ≠ .reset) : Entered s k (takeInterrupt s k) :=
  (entered_takeException _ hk).of_charge.setHazardMark none

theorem takeInterrupt_cycles (s : State) (k : ExcKind) :
    (takeInterrupt s k).cycles = (charge s (s.pc + s.w + s.w) s.fetchWidth).cycles + 2 :=
  takeException_cycles _ k

/-! ### Which interrupt is taken (R600, R604) -/

theorem serviceInterrupts_fiq (hl : s.fiqLine = true) (hf : s.cpsr.f = false) :
    serviceInterrupts s = takeInterrupt s .fiq := if_pos (by rw [hl, hf]; rfl)

/-- No FIQ to take: only IRQ is left to look at. -/
theorem serviceInterrupts_of_no_fiq (h : s.fiqLine = false ∨ s.cpsr.f = true) :
    serviceInterrupts s = if s.irqLine && !s.cpsr.i then takeInterrupt s .irq else s :=
  if_neg (by rcases h with h | h <;> simp [h])

theorem serviceInterrupts_irq (hf : s.fiqLine = false ∨ s.cpsr.f = true) (hl : s.irqLine = true)
    (hi : s.cpsr.i = false) : serviceInterrupts s = takeInterrupt s .irq :=
  (serviceInterrupts_of_no_fiq hf).trans (if_pos (by rw [hl, hi]; rfl))

theorem serviceInterrupts_none (hf : s.fiqLine = false ∨ s.cpsr.f = true) (hi : s.irqLine = false ∨ s.cpsr.i = true) :
    serviceInterrupts s = s :=
  (serviceInterrupts_of_no_fiq hf).trans (if_neg (by rcases hi with h | h <;> simp [h]))

/-! ### The step of a running machine (R600) -/

theorem step_of_running (ha : s.pcAligned = true) (hr : s.run = .running) :
    step s = runInstruction (serviceInterrupts s) := by
  have hw : wake s = s := by rw [wake, ← hr]
  unfold step runStep
  rw [if_neg (by simp [ha]), if_neg (by simp [hr]), hw]

end Sys2Proof.Machine

/-- Settles O14: the table by evaluation; the first interrupt that is up and unmasked is entered, and its vector runs. -/
theorem interruptEntry : Obligations.InterruptEntry := by
  refine ⟨rfl, ?_⟩
  intro s ha hr taken
  have entry : ∀ k, k ≠ .reset → taken k (takeInterrupt s k) := fun k hk =>
    ⟨entered_takeInterrupt s hk, rfl, takeInterrupt_cycles s k⟩
  rw [step_of_running ha hr]
  refine ⟨fun hl hf => ⟨_, entry .fiq (by decide), ?_⟩, fun hf hl hi => ⟨_, entry .irq (by decide), ?_⟩, fun hf hi => ?_⟩
  · rw [serviceInterrupts_fiq hl hf]
  · rw [serviceInterrupts_irq hf hl hi]
  · rw [serviceInterrupts_none hf hi]

/-- Settles O1: by `step_of_code`, the hazard being down. -/
theorem stepRunsDecodedInstruction : Obligations.StepRunsDecodedInstruction :=
  fun _ _ _ hr hc hd hb => (step_of_code hr hc hd).trans (if_neg (by simp [hb]))
end

section
/-! The interrupt controller's lines and registers, and the host's request (O15). -/

open Sys2Proof Sys2Proof.Machine

namespace Sys2Proof.Machine

variable {s t : State} {a v : Word} {n : Width} {o : Nat}

/-! ### The lines (R612, R617) -/

theorem and_ne_zero_iff_getLsbD {w : Nat} {x y : BitVec w} :
    (x &&& y) ≠ 0 ↔ ∃ k, k < w ∧ x.getLsbD k = true ∧ y.getLsbD k = true := by
  simp [BitVec.eq_of_getLsbD_eq_iff, and_left_comm]

theorem wakeLine_iff (s : State) :
    s.wakeLine = true ↔ ∃ k, k < 16 ∧ s.irqc.ie.getLsbD k = true ∧ s.irqc.iflag.getLsbD k = true :=
  bne_iff_ne.trans and_ne_zero_iff_getLsbD

theorem irqLine_eq (s : State) : s.irqLine = (s.irqInput || (s.irqc.ime && s.wakeLine)) := rfl

/-! ### The registers (R612) -/

theorem irqControlWrite_ie (h : o / 2 = 0x100) :
    (irqControlWrite s o n v).irqc = { s.irqc with ie := halfUpdate s.irqc.ie o n v } := by
  rw [irqControlWrite, h, if_pos rfl]

theorem irqControlWrite_if (h : o / 2 = 0x101) :
    (irqControlWrite s o n v).irqc = { s.irqc with iflag := s.irqc.iflag &&& ~~~(halfOnes o n v) } := by
  rw [irqControlWrite, h, if_neg (by decide), if_pos rfl]

theorem irqControlWrite_ime (h : o / 2 = 0x104) (hn : ¬(n = .byte ∧ o % 2 = 1)) :
    (irqControlWrite s o n v).irqc = { s.irqc with ime := v.getLsbD 0 } := by
  rw [irqControlWrite, h, if_neg (by decide), if_neg (by decide), if_neg hn]

/-- The upper byte of IME holds nothing. -/
theorem irqControlWrite_ime_high (h : o / 2 = 0x104) (ho : o % 2 = 1) : irqControlWrite s o .byte v = s := by
  rw [irqControlWrite, h, if_neg (by decide), if_neg (by decide), if_pos ⟨rfl, ho⟩]

/-- The controller after a byte or halfword write of one of its registers. -/
theorem memWrite_irqControl (hr : region a = .io) (hn : n ≠ .word) (ho : offset (align a n) = o)
    (hc : ioOwner s o = .irqControl) (h : memWrite s a n v = .next t) : t.irqc = (irqControlWrite s o n v).irqc := by
  rw [memWrite_ioPart hr hn h, ho, ioWritePart_charge, ioWritePart_of_irqControl hc]
  rfl

/-! ### The bits written as ones -/

variable {k : Nat}

theorem getLsbD_halfOnes_half (hk : k < 16) : (halfOnes o .half v).getLsbD k = v.getLsbD k := by
  simp [halfOnes, halfUpdate, hk]

theorem getLsbD_halfOnes_low (ho : o % 2 = 0) :
    (halfOnes o .byte v).getLsbD k = (decide (k < 8) && v.getLsbD k) := by
  rw [halfOnes, halfUpdate, if_pos ho, BitVec.getLsbD_append]
  split <;> simp [*]

theorem getLsbD_halfOnes_high (ho : o % 2 = 1) (hk : k < 16) :
    (halfOnes o .byte v).getLsbD k = (decide (8 ≤ k) && v.getLsbD (k - 8)) := by
  rw [halfOnes, halfUpdate, if_neg (by omega), BitVec.getLsbD_append]
  split
  · rename_i h
    simp [h]
  · simp [show 8 ≤ k by omega, show k - 8 < 8 by omega]

/-- A write of IF clears the bits that it writes as ones, and leaves IE and IME (R612). -/
theorem irqControlWrite_clears (h : o / 2 = 0x101) {written : Nat → Bool}
    (hw : ∀ k, k < 16 → (halfOnes o n v).getLsbD k = written k) :
    (∀ k, k < 16 → (irqControlWrite s o n v).irqc.iflag.getLsbD k = (s.irqc.iflag.getLsbD k && !written k)) ∧
      (irqControlWrite s o n v).irqc.ie = s.irqc.ie ∧ (irqControlWrite s o n v).irqc.ime = s.irqc.ime := by
  rw [irqControlWrite_if h]
  refine ⟨fun k hk => ?_, rfl, rfl⟩
  rw [BitVec.getLsbD_and, BitVec.getLsbD_not, hw k hk, decide_eq_true hk, Bool.true_and]

end Sys2Proof.Machine

/-- Settles O15: the lines by the bits that IE and IF share, each write by the register at its offset. -/
theorem interruptLines : Obligations.InterruptLines := by
  refine ⟨fun s hs => ?_, wakeLine_iff, fun s t n v => ⟨fun h => ?_, fun h => ?_, fun h => ?_, fun hn h => ?_,
    fun h => ?_⟩, fun s t a n v written h hw => ?_, fun k s => ⟨?_, fun hk => if_neg hk⟩⟩
  · rw [irqLine_eq, hs, Bool.false_or, Bool.and_eq_true, wakeLine_iff]
  · exact (memWrite_irqControl (o := 0x200) rfl (by decide) rfl rfl h).trans (irqControlWrite_ie rfl)
  · exact (memWrite_irqControl (o := 0x200) rfl (by decide) rfl rfl h).trans (irqControlWrite_ie rfl)
  · exact (memWrite_irqControl (o := 0x201) rfl (by decide) rfl rfl h).trans (irqControlWrite_ie rfl)
  · have ho : offset (align 0x04000208 n) = 0x208 := by cases n <;> rfl
    exact (memWrite_irqControl rfl hn ho rfl h).trans (irqControlWrite_ime rfl fun hb => absurd hb.2 (by decide))
  · exact (memWrite_irqControl (o := 0x209) rfl (by decide) rfl rfl h).trans
      (congrArg State.irqc (irqControlWrite_ime_high rfl rfl))
  · rcases hw with ⟨rfl, rfl, rfl⟩ | ⟨rfl, rfl, rfl⟩ | ⟨rfl, rfl, rfl⟩
    · rw [memWrite_irqControl (o := 0x202) rfl (by decide) rfl rfl h]
      exact irqControlWrite_clears rfl fun _ hk => getLsbD_halfOnes_half hk
    · rw [memWrite_irqControl (o := 0x202) rfl (by decide) rfl rfl h]
      exact irqControlWrite_clears rfl fun _ _ => getLsbD_halfOnes_low rfl
    · rw [memWrite_irqControl (o := 0x203) rfl (by decide) rfl rfl h]
      exact irqControlWrite_clears rfl fun _ hk => getLsbD_halfOnes_high rfl hk
  · rintro rfl
    exact ⟨if_pos rfl, rfl⟩
end

section
/-! The halted state (O13). -/

open Sys2Proof Sys2Proof.Machine

namespace Sys2Proof.Machine

variable {s : State}

/-- R615: a halted machine that nothing wakes takes its halted step. -/
theorem step_of_asleep (ha : s.pcAligned = true) (hr : s.run = .halted) (hw : s.wakeLine = false) :
    step s = .next (haltedStep s) := by
  unfold step runStep
  rw [if_neg (by simp [ha]), if_pos ⟨hr, hw⟩]

/-- R615: a halted machine whose wakeLine is up goes through phases (1) to (7) as it is after `wake`. -/
theorem step_of_wakeLine (ha : s.pcAligned = true) (hw : s.wakeLine = true) :
    step s = runInstruction (serviceInterrupts (wake s)) := by
  unfold step runStep
  rw [if_neg (by simp [ha]), if_neg (by simp [hw])]

end Sys2Proof.Machine

/-- Settles O13: asleep, the step is `haltedStep`; awake, both machines are the same one after `wake`. -/
theorem haltedState : Obligations.HaltedState := by
  intro s ha hr
  refine ⟨fun hw => step_of_asleep ha hr hw, fun hw => ?_⟩
  calc step s = runInstruction (serviceInterrupts (wake s)) := step_of_wakeLine ha hw
    _ = step (wake s) := (step_of_running (s := wake s) ha rfl).symm
end
